-- ==== Sys2Proof/Word.lean ====
section
/-! DEFINITION. The words of both links: bytes and the two wider unsigned words that the spec sends most significant
byte first (R175). -/

namespace Sys2Proof

/-- One byte on either link (R170, R172). -/
abbrev Byte := BitVec 8

/-- A 16-bit value: household, period number, session number, vehicle number (R48, R46, R61, R138). -/
abbrev Word16 := BitVec 16

/-- A 32-bit value: card number, district time, cycle count (R48, R160, R12). -/
abbrev Word32 := BitVec 32

end Sys2Proof
end

