-- ==== Sys2Proof/Config.lean ====
section
/-! DEFINITION. The capacities the spec fixes for the part (00_scope.md section 4 and the rules named at each line). The
spec leaves no value open that a command computes, so there is no free value here. -/

namespace Sys2Proof.Config

/-- Station records, addresses 1 to 48 (R27). -/
abbrev stations : Nat := 48

/-- Container records, indices 0 to 127 (R85). -/
abbrev containers : Nat := 128

/-- Fractions and round slots, 0 to 3 (R125, R138). -/
abbrev fractions : Nat := 4

/-- Inlets of one station, 1 to 4 (R27). -/
abbrev inlets : Nat := 4

/-- Card records the card table can hold (R46). -/
abbrev cardCapacity : Nat := 4096

/-- Sessions the hatch table can hold (R61). -/
abbrev sessionCapacity : Nat := 16

/-- Places of the deposit record queue, shared with the open sessions (R62). -/
abbrev depositCapacity : Nat := 32

/-- Places of the management request FIFO (R155). -/
abbrev fifoCapacity : Nat := 4

/-- Places of the response queue (R156). -/
abbrev responseCapacity : Nat := 8

/-- Deferred responses outstanding at once (R156, R158). -/
abbrev deferredCapacity : Nat := 12

/-- Places of the relay queue (R163). -/
abbrev relayCapacity : Nat := 4

/-- Station messages waiting at once, device-wide (R42). -/
abbrev messagePool : Nat := 8

end Sys2Proof.Config
end

