-- ==== Sys2Proof/Syntax.lean ====
section
/-! DEFINITION. The commands: one constructor for each row of spec/opcode_table.json. A command is one event of the part,
whole and indivisible (95_what_each_step_holds.md). Its operands are what the outside supplies at that event: bytes of the
uplink, characters of the field line, levels of pins. The fields of a management request are no operands: they stand in
the request frame at the head of the management request FIFO, which the command takes (R156). -/

namespace Sys2Proof

/-- A field line character as it is heard or sent: the mark bit and the data byte (R170). -/
structure LineChar where
  mark : Bool
  data : Byte
  deriving DecidableEq, Repr

/-- The commands of the SC-48, in the order of the opcode table. -/
inductive Instr where
  /-- POWER_ON_RESET, with the levels of the strap pins RATE1 and RATE0 at the release of RESET (R153, R168). -/
  | powerOnReset (rate1 rate0 : Bool)
  /-- UPLINK_FRAME_RECEIVED, with the bytes after the sync byte: class, tag, length, payload, CRC-16 (R154, R172). -/
  | uplinkFrameReceived (bytes : List Byte)
  /-- INTERBYTE_TIMEOUT (R154). -/
  | interbyteTimeout
  /-- REQUEST_UNKNOWN_KIND: the request at the FIFO head is taken and its kind is not recognised (R156). -/
  | requestUnknownKind
  /-- CARD_PUT: the request at the FIFO head is taken and is a CARD PUT (R51); so with every request kind below. -/
  | cardPut
  /-- CARD_DROP (R53). -/
  | cardDrop
  /-- CARD_STATUS (R54). -/
  | cardStatus
  /-- CARD_GET (R55). -/
  | cardGet
  /-- PERIOD_ROLL (R59). -/
  | periodRoll
  /-- STATION_PUT (R29). -/
  | stationPut
  /-- STATION_GET (R32). -/
  | stationGet
  /-- LOCK (R39). -/
  | lock
  /-- UNLOCK (R40). -/
  | unlock
  /-- STATION_MESSAGE (R42). -/
  | stationMessage
  /-- CONTAINER_PUT (R88). -/
  | containerPut
  /-- CONTAINER_GET (R92). -/
  | containerGet
  /-- CONTAINER_CLEAR (R91). -/
  | containerClear
  /-- CLEAR_INLET (R95). -/
  | clearInlet
  /-- CLEAR_SENSOR (R118). -/
  | clearSensor
  /-- FRACTION_PUT (R125). -/
  | fractionPut
  /-- REQUEST_CANCEL (R130). -/
  | requestCancel
  /-- ROUND_OPEN (R140). -/
  | roundOpen
  /-- ROUND_CLOSE (R147). -/
  | roundClose
  /-- LINE_START (R2). -/
  | lineStart
  /-- LINE_STOP (R3). -/
  | lineStop
  /-- LINE_TEST (R6). -/
  | lineTest
  /-- SETTINGS_PUT (R159). -/
  | settingsPut
  /-- SETTINGS_GET (R159). -/
  | settingsGet
  /-- TIME_SET (R161). -/
  | timeSet
  /-- STATUS_GET (R162). -/
  | statusGet
  /-- RESTART (R167). -/
  | restart
  /-- SENDER_FRAME_START, with the level of UL_CTS (asserted or not) when the arbiter looks (R153, R164). -/
  | senderFrameStart (cts : Bool)
  /-- RESPONSE_FRAME_SENT (R156). -/
  | responseFrameSent
  /-- DEFERRED_RESPONSE_SENT (R158). -/
  | deferredResponseSent
  /-- ROUND_LIST_FRAME_SENT (R145). -/
  | roundListFrameSent
  /-- DEPOSIT_RECORD_SENT (R81). -/
  | depositRecordSent
  /-- RELAYED_REPORT_SENT (R163). -/
  | relayedReportSent
  /-- NOTICE_FRAME_SENT (R165). -/
  | noticeFrameSent
  /-- SECONDS_ADVANCE (R160). -/
  | secondsAdvance
  /-- REQUEST_OVERDUE_MARKING (R127). -/
  | requestOverdueMarking
  /-- ROUND_DEADLINE_EXPIRY (R148). -/
  | roundDeadlineExpiry
  /-- HATCH_DEADLINE_EXPIRY (R71, R75). -/
  | hatchDeadlineExpiry
  /-- LIFT_DEADLINE_EXPIRY (R99). -/
  | liftDeadlineExpiry
  /-- EMPTY_LIST_WRAP_INTERVAL (R12). -/
  | emptyListWrapInterval
  /-- POLL_TRANSMISSION (R13). -/
  | pollTransmission
  /-- REPLY_WINDOW_EXPIRY (R14). -/
  | replyWindowExpiry
  /-- REPLY_START, with the data byte of the address character heard (its mark bit is set) (R14, R170). -/
  | replyStart (address : Byte)
  /-- REPLY_LENGTH_LIMIT (R14). -/
  | replyLengthLimit
  /-- REPLY_OVERRUN_TURN_END (R14). -/
  | replyOverrunTurnEnd
  /-- REPLY_END, with the characters heard after the reply's address character (R14, R18, R170). -/
  | replyEnd (chars : List LineChar)
  /-- CLOSING_TRANSMISSION_END (R20). -/
  | closingTransmissionEnd
  /-- TEST_TRANSMISSION (R7). -/
  | testTransmission
  /-- TEST_TRANSMISSION_JUDGED, with the characters the receiver heard during the transmission (R7). -/
  | testTransmissionJudged (heard : List LineChar)
  /-- POLL_TRANSMISSION_END (R14). -/
  | pollTransmissionEnd
  /-- SYNC_BYTE_RECEIVED (R154). -/
  | syncByteReceived
  /-- LENGTH_FIELD_EXCEEDED (R154). -/
  | lengthFieldExceeded
  deriving DecidableEq, Repr

end Sys2Proof
end

