-- ==== Sys2Proof/WellFormed.lean ====
section
/-! DEFINITION. Which commands are well formed. Only the bytes of a received uplink frame are bound together: the frame is
received to the length its length field gives (R154), and a length field above 26 is the command LENGTH_FIELD_EXCEEDED
and not this one. Every other operand may take every value. -/

namespace Sys2Proof

/-- The bytes after a sync byte are one whole frame: class, tag, a two-byte length of at most 26, that many payload bytes,
two check bytes (R154, R172). -/
def wholeFrame : List Byte → Bool
  | _cls :: _tag :: hi :: lo :: rest =>
    let len := hi.toNat * 256 + lo.toNat
    decide (len ≤ 26) && decide (rest.length = len + 2)
  | _ => false

/-- A command whose operands can stand at its event. -/
def Instr.wellFormed : Instr → Bool
  | .powerOnReset _ _ => true
  | .uplinkFrameReceived bytes => wholeFrame bytes
  | .interbyteTimeout => true
  | .requestUnknownKind => true
  | .cardPut => true
  | .cardDrop => true
  | .cardStatus => true
  | .cardGet => true
  | .periodRoll => true
  | .stationPut => true
  | .stationGet => true
  | .lock => true
  | .unlock => true
  | .stationMessage => true
  | .containerPut => true
  | .containerGet => true
  | .containerClear => true
  | .clearInlet => true
  | .clearSensor => true
  | .fractionPut => true
  | .requestCancel => true
  | .roundOpen => true
  | .roundClose => true
  | .lineStart => true
  | .lineStop => true
  | .lineTest => true
  | .settingsPut => true
  | .settingsGet => true
  | .timeSet => true
  | .statusGet => true
  | .restart => true
  | .senderFrameStart _ => true
  | .responseFrameSent => true
  | .deferredResponseSent => true
  | .roundListFrameSent => true
  | .depositRecordSent => true
  | .relayedReportSent => true
  | .noticeFrameSent => true
  | .secondsAdvance => true
  | .requestOverdueMarking => true
  | .roundDeadlineExpiry => true
  | .hatchDeadlineExpiry => true
  | .liftDeadlineExpiry => true
  | .emptyListWrapInterval => true
  | .pollTransmission => true
  | .replyWindowExpiry => true
  | .replyStart _ => true
  | .replyLengthLimit => true
  | .replyOverrunTurnEnd => true
  | .replyEnd _ => true
  | .closingTransmissionEnd => true
  | .testTransmission => true
  | .testTransmissionJudged _ => true
  | .pollTransmissionEnd => true
  | .syncByteReceived => true
  | .lengthFieldExceeded => true

end Sys2Proof
end

