-- ==== Sys2Proof/Machine/Bytes.lean ====
section
/-! DEFINITION. Bytes of both links: most significant byte first (R175), the CRC-16 (R169), field line characters (R170). -/

namespace Sys2Proof.Machine

/-- One byte holding the low eight bits of n. -/
def byte (n : Nat) : Byte := BitVec.ofNat 8 n

/-- Two bytes, most significant first (R175). -/
def be2 (n : Nat) : List Byte := [byte (n / 0x100), byte n]

/-- Four bytes, most significant first (R175). -/
def be4 (n : Nat) : List Byte := [byte (n / 0x1000000), byte (n / 0x10000), byte (n / 0x100), byte n]

/-- Five bytes, most significant first: elapsed seconds in all 40 bits (R173, R175). -/
def be5 (n : Nat) : List Byte := byte (n / 0x100000000) :: be4 n

/-- The number that bytes spell, most significant first (R175). -/
def beNat (bytes : List Byte) : Nat := bytes.foldl (fun n b => n * 256 + b.toNat) 0

/-- A yes or no field of one byte (R173, R174): 1 for yes, 0 for no (DESIGN CHOICE, log 30). -/
def flagByte (b : Bool) : Byte := if b then 1 else 0

/-- A flag at bit n of a byte. -/
def bitAt (n : Nat) (b : Bool) : Byte := if b then 1#8 <<< n else 0

/-! ### Check sequence (R169) -/

/-- One bit of the CRC register: x^16 + x^12 + x^5 + 1 without reflection (R169). -/
def crcBit (r : BitVec 16) : BitVec 16 := if r.msb then (r <<< 1) ^^^ 0x1021#16 else r <<< 1

/-- One byte through the CRC register, most significant bit first (R169). -/
def crcByte (r : BitVec 16) (b : Byte) : BitVec 16 :=
  (List.range 8).foldl (fun x _ => crcBit x) (r ^^^ (b.zeroExtend 16 <<< 8))

/-- The CRC-16 of some bytes: the register starts at all ones and there is no final inversion (R169). -/
def crc16 (bytes : List Byte) : BitVec 16 := bytes.foldl crcByte 0xFFFF#16

/-- The two check bytes, high byte first (R169). -/
def crcBytes (bytes : List Byte) : List Byte := be2 (crc16 bytes).toNat

/-! ### Field line characters and frames (R170, R171) -/

/-- A frame character: mark bit clear (R170). -/
def frameChar (b : Byte) : LineChar := { mark := false, data := b }

/-- The part's address character: mark bit set, address in bits 0 to 5, direction downlink (R170). -/
def addressChar (address : Nat) : LineChar := { mark := true, data := byte (address % 64) }

/-- The bytes of a field line frame: kind, length, payload, CRC-16 over those three (R171, R169). -/
def fieldFrame (kind : Byte) (payload : List Byte) : List Byte :=
  let covered := kind :: byte payload.length :: payload
  covered ++ crcBytes covered

/-- The bytes of an uplink frame: sync byte, class, tag, length, payload, CRC-16 over all but the sync byte (R172, R169). -/
def uplinkFrame (cls tag : Byte) (payload : List Byte) : List Byte :=
  let covered := cls :: tag :: be2 payload.length ++ payload
  0xA5#8 :: covered ++ crcBytes covered

/-! ### Sorting -/

/-- Puts x into a list before the first element it does not come after. -/
def insertBy {α : Type} (before : α → α → Bool) (x : α) : List α → List α
  | [] => [x]
  | y :: ys => if before x y then x :: y :: ys else y :: insertBy before x ys

/-- The list put in the order of a comparison. -/
def sortBy {α : Type} (before : α → α → Bool) : List α → List α
  | [] => []
  | x :: xs => insertBy before x (sortBy before xs)

/-- Comparison by a key that is a list of numbers, compared from its head (lexicographic order). -/
def keyLe : List Nat → List Nat → Bool
  | [], _ => true
  | _ :: _, [] => false
  | x :: xs, y :: ys => decide (x < y) || (decide (x = y) && keyLe xs ys)

/-- The list in ascending order of a key. -/
def sortByKey {α : Type} (key : α → List Nat) (xs : List α) : List α := sortBy (fun a b => keyLe (key a) (key b)) xs

end Sys2Proof.Machine
end

