-- ==== Sys2Proof/Machine/State.lean ====
section
/-! DEFINITION. The state of the SC-48: every piece of state the nine blocks own (00_scope.md section 2), as plain data,
and the state after power-on reset. -/

namespace Sys2Proof.Machine

/-- A station record's position: station address a stands at position a - 1 (R27). -/
abbrev StationIx := Fin Config.stations

/-- An inlet's position: inlet n stands at position n - 1 (R27). -/
abbrev InletIx := Fin Config.inlets

/-- A container index, 0 to 127 (R85). -/
abbrev ContainerIx := Fin Config.containers

/-- A fraction, 0 to 3, and the round slot that serves it (R125, R138). -/
abbrev FractionIx := Fin Config.fractions

/-! ### Settings and clock (R159, R160) -/

/-- Field line rate in bit/s (R8, R159). -/
inductive FieldRate where
  | r19200 | r38400 | r57600 | r115200
  deriving DecidableEq, Repr

/-- Uplink rate in bit/s, chosen by the straps (R153). -/
inductive UplinkRate where
  | r57600 | r115200 | r230400 | r460800
  deriving DecidableEq, Repr

/-- The settings record (R159): seconds, milliseconds, seconds, rate. -/
structure Settings where
  hatchOpen : Nat
  window : Nat
  liftTimeout : Nat
  rate : FieldRate
  deriving DecidableEq, Repr

/-- Elapsed seconds, and the district time with its valid flag (R160). -/
structure Clock where
  elapsed : Nat
  district : Word32
  valid : Bool
  deriving DecidableEq, Repr

/-! ### Line controller (01_field_line_and_poll_cycle.md section 1.1) -/

/-- The line states (R1). -/
inductive LineState where
  | stopped | running | draining | test
  deriving DecidableEq, Repr

/-- The two kinds of slot (R11). -/
inductive SlotKind where
  | regular | session
  deriving DecidableEq, Repr

/-- How far a turn in flight has come (R13, R14, R20). -/
inductive TurnPhase where
  /-- the part sends the poll transmission -/
  | sendingPoll
  /-- the reply start window is open, with the value in milliseconds it began with (R8) -/
  | window (ms : Nat)
  /-- the reply is being received; its address character's data byte -/
  | receiving (address : Byte)
  /-- the reply ran past 150 ms and is discarded; the line must become idle (R14) -/
  | overlong
  /-- the part sends the closing transmission (R20) -/
  | closing
  deriving DecidableEq, Repr

/-- The turn in flight: station, slot kind, CLOSE-NOW inlets and message carried in its poll transmission (section 1.1),
the field line rate it began with (R8), and its phase. -/
structure Turn where
  station : StationIx
  kind : SlotKind
  closeNow : List InletIx
  message : Bool
  rate : FieldRate
  phase : TurnPhase
  deriving DecidableEq, Repr

/-- The line test record (R6). -/
structure LineTest where
  tag : Byte
  sent : Nat
  matched : Nat
  deriving DecidableEq, Repr

/-- What the line controller holds beside the per-station link records. -/
structure LineCtl where
  state : LineState
  cycleCount : Word32
  pollList : List StationIx
  /-- the regular pointer: how many entries of the poll list it has passed; at end when it has passed them all -/
  pointer : Nat
  ring : List StationIx
  turn : Option Turn
  /-- the turn chosen when the previous one ended (R11), until it begins -/
  nextTurn : Option (StationIx × SlotKind)
  /-- a wrap that fell due while a turn was in flight (R12) -/
  wrapDue : Bool
  heldStop : Option Byte
  test : Option LineTest
  /-- the test transmission sent and not yet judged (R7) -/
  testTx : Option (List LineChar)
  /-- the characters of the transmission last begun on FL_TXD -/
  flTxd : List LineChar
  deriving DecidableEq, Repr

/-- Link status (R21). -/
inductive LinkStatus where
  | unknown | online | lost | disabled
  deriving DecidableEq, Repr

/-- An accept mask: the reply number it answers and the accepted positions, position p at bit p - 1 (R17, R171). -/
structure AcceptMask where
  reply : Byte
  positions : BitVec 4
  deriving DecidableEq, Repr

/-- What the line controller holds for one station address (R21). -/
structure Link where
  status : LinkStatus
  noReply : Nat
  mismatch : Nat
  mask : Option AcceptMask
  deriving DecidableEq, Repr

/-! ### Station table (R27) -/

/-- Lockout exit mode (R27). -/
inductive ExitMode where
  | auto | cycle | command
  deriving DecidableEq, Repr

/-- The six configuration fields of a station record (R27). -/
structure StationConfig where
  configured : Bool
  enabled : Bool
  relay : Bool
  inletCount : Nat
  exitMode : ExitMode
  rank : Nat
  deriving DecidableEq, Repr

/-- A subset of FAULT, LINE, COMMAND (R27). -/
structure LockReasons where
  fault : Bool
  line : Bool
  command : Bool
  deriving DecidableEq, Repr

/-- A message in a station's slot (R27, R42). -/
structure Message where
  payload : List Byte
  tag : Byte
  tries : Nat
  carried : Bool
  deriving DecidableEq, Repr

/-- An inlet's place in the CLOSE-NOW set: not in it, or in it and marked fresh or carried (R36). -/
inductive CloseMark where
  | out | fresh | carried
  deriving DecidableEq, Repr

/-- A station record (R27). The fault summary holds HATCH JAM, HEAT, WATER, SUPPLY at bits 0 to 3 (R171). -/
structure Station where
  config : StationConfig
  staged : Option StationConfig
  summary : BitVec 4
  fault : Bool
  hold : Bool
  locked : Bool
  reasons : LockReasons
  message : Option Message
  closeNow : Vector CloseMark Config.inlets
  lockFlag : Bool
  lineFlag : Bool
  deriving DecidableEq, Repr

/-! ### Card table (R46, R48) -/

/-- Card status (R48). -/
inductive CardStatus where
  | active | suspended | revoked
  deriving DecidableEq, Repr

/-- Last use of a card: district time and container of the last charged deposit (R48). -/
structure LastUse where
  time : Word32
  container : ContainerIx
  deriving DecidableEq, Repr

/-- A card record (R48). Entitled fraction f is bit f. -/
structure Card where
  number : Word32
  household : Word16
  status : CardStatus
  entitled : BitVec 4
  allowance : Vector Nat Config.fractions
  used : Vector Nat Config.fractions
  lastUse : Option LastUse
  link : Option Word16
  deriving DecidableEq, Repr

/-! ### Admission unit (R61, R62, R79) -/

/-- A session record of the hatch table (R61). -/
structure Session where
  number : Word16
  card : Word32
  household : Word16
  container : ContainerIx
  station : StationIx
  inlet : InletIx
  fraction : FractionIx
  grantTime : Word32
  deadline : Nat
  deriving DecidableEq, Repr

/-- Outcome of a session (R79). -/
inductive DepositOutcome where
  | deposit | empty | timeout | aborted
  deriving DecidableEq, Repr

/-- A deposit record (R79). -/
structure DepositRecord where
  card : Word32
  household : Word16
  container : ContainerIx
  station : StationIx
  fraction : FractionIx
  grantTime : Word32
  endTime : Word32
  outcome : DepositOutcome
  charged : Bool
  period : Word16
  deriving DecidableEq, Repr

/-- A deposit record in the queue, with its arrival number at the fourth priority (R164). -/
structure QueuedDeposit where
  arrival : Nat
  record : DepositRecord
  deriving DecidableEq, Repr

/-! ### Container table and fill estimator (R85, R101) -/

/-- Where a container is reached, and its fraction (R85). -/
structure Binding where
  station : StationIx
  inlet : InletIx
  fraction : FractionIx
  deriving DecidableEq, Repr

/-- Geometry, projection and thresholds of a container; also the staged part (R85). -/
structure Params where
  h : Nat
  d : Nat
  capacity : Nat
  v : Nat
  k : Nat
  tCall : Nat
  tStop : Nat
  deriving DecidableEq, Repr

/-- Reason of a container's FAULT (R85). -/
inductive FaultReason where
  | hatch | lift
  deriving DecidableEq, Repr

/-- State of a configured container; a fault reason is present exactly in FAULT (R85). -/
inductive ContainerState where
  | idle | session | lifting | fault (reason : FaultReason)
  deriving DecidableEq, Repr

/-- Reason of DEGRADED mode (R101). -/
inductive DegradeReason where
  | stall | noEcho
  deriving DecidableEq, Repr

/-- Sensor mode (R101). -/
inductive SensorMode where
  | normal | degraded (reason : DegradeReason)
  deriving DecidableEq, Repr

/-- Last sensor event (R101, R119). -/
inductive SensorEvent where
  | jump | stall | noEcho | cleared | lift
  deriving DecidableEq, Repr

/-- The last reading: echo distance, measured fill, over flag (R101). -/
structure Reading where
  d : Nat
  m : Nat
  overFlag : Bool
  deriving DecidableEq, Repr

/-- The fill fields of a configured container (R101). -/
structure Fill where
  e : Nat
  cb : Nat
  suspectRun : Nat
  suspectBand : Option Nat
  lastStep : Word32
  interval : Option Nat
  since : Nat
  noEcho : Nat
  mode : SensorMode
  reading : Option Reading
  event : Option SensorEvent
  deriving DecidableEq, Repr

/-- The body of a configured container record (R85). -/
structure Container where
  binding : Binding
  params : Params
  state : ContainerState
  full : Bool
  liftStart : Option Nat
  liftDeadline : Option Nat
  lastLift : Option Word32
  staged : Option Params
  fill : Fill
  deriving DecidableEq, Repr

/-- The five pending flags of a container record (R85). -/
structure ContainerFlags where
  raised : Bool
  overdue : Bool
  inletFault : Bool
  sensor : Bool
  lifted : Bool
  deriving DecidableEq, Repr

/-- A container record: its pending flags and its body, absent while it is UNCONFIGURED (R85, R86). -/
structure ContainerRec where
  flags : ContainerFlags
  body : Option Container
  deriving DecidableEq, Repr

/-! ### Request table (R124, R125) -/

/-- Origin of a request (R124). -/
inductive Origin where
  | raised | preempt
  deriving DecidableEq, Repr

/-- State of a request; round slot and planned volume are present exactly in PLANNED (R124). -/
inductive RequestState where
  | waiting | planned (slot : FractionIx) (volume : Nat)
  deriving DecidableEq, Repr

/-- A request record; its container is its key in the table (R124). -/
structure Request where
  fraction : FractionIx
  origin : Origin
  raiseTime : Word32
  fillAtRaise : Nat
  deadline : Word32
  state : RequestState
  overdue : Bool
  deriving DecidableEq, Repr

/-- An entry of the fraction table (R125). -/
structure Fraction where
  enabled : Bool
  maxWait : Nat
  deriving DecidableEq, Repr

/-! ### Round builder (R138) -/

/-- State of a round entry; the lift time is present once LIFTED (R138). -/
inductive EntryState where
  | planned | lifted (time : Word32)
  deriving DecidableEq, Repr

/-- An entry of a round (R138). -/
structure Entry where
  container : ContainerIx
  station : StationIx
  volume : Nat
  origin : Origin
  state : EntryState
  deriving DecidableEq, Repr

/-- The fields of a slot that are present while it is DISPATCHED (R138). -/
structure Round where
  tag : Byte
  vehicle : Word16
  dispatch : Word32
  deadline : Word32
  total : Nat
  entries : List Entry
  deriving DecidableEq, Repr

/-- Reason of a round's close (R149). -/
inductive CloseReason where
  | done | command | timeout
  deriving DecidableEq, Repr

/-- The last close of a slot (R138). -/
structure LastClose where
  reason : CloseReason
  vehicle : Word16
  time : Word32
  entries : Nat
  lifted : Nat
  deriving DecidableEq, Repr

/-- A round slot: DISPATCHED when it holds a round, else FREE (R138). -/
structure Slot where
  round : Option Round
  lastClose : Option LastClose
  closedFlag : Bool
  deriving DecidableEq, Repr

/-! ### Uplink controller (R153 to R168) -/

/-- The receiver on UL_RXD hunts for a sync byte or receives a frame (R154). -/
inductive Receiver where
  | hunting | receiving
  deriving DecidableEq, Repr

/-- A request frame as it waits in the FIFO: its tag and its payload, which opens with the kind (R155, R172). -/
structure RequestFrame where
  tag : Byte
  payload : List Byte
  deriving DecidableEq, Repr

/-- The receiving side: receiver, management request FIFO, OVERRUN (R154, R155). -/
structure Intake where
  receiver : Receiver
  fifo : List RequestFrame
  overrun : Bool
  deriving DecidableEq, Repr

/-- The result codes (R157). -/
inductive ResultCode where
  | done | staged | range | full | absent | collide | state | busy | failed | unknown
  deriving DecidableEq, Repr

/-- A response: the kind echoed, the request's tag, the result code and the data (R156, R173). -/
structure Response where
  kind : Byte
  tag : Byte
  code : ResultCode
  data : List Byte
  deriving DecidableEq, Repr

/-- A round list frame as made at the dispatch: its slot and its payload (R145). -/
structure RoundListFrame where
  slot : FractionIx
  payload : List Byte
  deriving DecidableEq, Repr

/-- A relayed report, with its arrival number at the fourth priority (R163, R164). -/
structure Report where
  arrival : Nat
  station : StationIx
  reply : Byte
  payload : List Byte
  deriving DecidableEq, Repr

/-- A pending flag of a record, the notice scanner's positions (R165). -/
inductive NoticeFlag where
  | start
  | lock (a : StationIx)
  | line (a : StationIx)
  | raised (i : ContainerIx)
  | overdue (i : ContainerIx)
  | inletFault (i : ContainerIx)
  | sensor (i : ContainerIx)
  | lifted (i : ContainerIx)
  | closed (n : FractionIx)
  deriving DecidableEq, Repr

/-- The source of the frame being sent (R164). -/
inductive TxSource where
  | response | deferred | roundList | deposit | report | notice (flag : NoticeFlag)
  deriving DecidableEq, Repr

/-- The sending side: the transmitter (free, or the source of the frame being sent), the bytes of the frame last begun on
UL_TXD, and the scanner position (absent: before the device's START flag) (R164, R165). -/
structure Sender where
  tx : Option TxSource
  ulTxd : List Byte
  scan : Option NoticeFlag
  deriving DecidableEq, Repr

/-- Start reason (R166). -/
inductive StartReason where
  | power | restart
  deriving DecidableEq, Repr

/-- The device record and the strapped uplink rate (R153, R166). -/
structure Device where
  startFlag : Bool
  startReason : StartReason
  uplinkRate : UplinkRate
  deriving DecidableEq, Repr

/-! ### The whole -/

/-- The state of the SC-48, and the queue of commands waiting, first in first out. -/
@[ext]
structure State where
  clock : Clock
  settings : Settings
  line : LineCtl
  links : Vector Link Config.stations
  stations : Vector Station Config.stations
  cards : List Card
  period : Word16
  sessions : List Session
  nextSession : Word16
  deposits : List QueuedDeposit
  containers : Vector ContainerRec Config.containers
  requests : Vector (Option Request) Config.containers
  fractions : Vector Fraction Config.fractions
  slots : Vector Slot Config.fractions
  intake : Intake
  responses : List Response
  deferred : List Response
  outstanding : Nat
  roundLists : List RoundListFrame
  relay : List Report
  arrivals : Nat
  sender : Sender
  device : Device
  pending : List Instr
  deriving DecidableEq, Repr

/-- Why a step stops with a fault: never. The spec names no event that stops the part; what it calls a fault (a container's
FAULT, a station's fault present) is state. No command raises one. -/
inductive Fault where
  deriving DecidableEq, Repr

/-- Why a command has no meaning in the model. -/
inductive Refusal where
  /-- Raised by exec for a command that has no meaning yet (none is left); safe, since the run stops. -/
  | notModelled (mnemonic : String)
  deriving DecidableEq, Repr

/-! ### Values after power-on reset -/

/-- The default settings (R159). -/
def Settings.default : Settings := { hatchOpen := 60, window := 20, liftTimeout := 1800, rate := .r38400 }

/-- The line controller after power-on reset (R25). -/
def LineCtl.reset : LineCtl :=
  { state := .stopped, cycleCount := 0, pollList := [], pointer := 0, ring := [], turn := none, nextTurn := none,
    wrapDue := false, heldStop := none, test := none, testTx := none, flTxd := [] }

/-- A link record after power-on reset (R25). -/
def Link.reset : Link := { status := .unknown, noReply := 0, mismatch := 0, mask := none }

/-- The configuration fields of a station record after power-on reset (R28). -/
def StationConfig.reset : StationConfig :=
  { configured := false, enabled := false, relay := false, inletCount := 1, exitMode := .auto, rank := 0 }

/-- No lock reason (R28). -/
def LockReasons.none : LockReasons := { fault := false, line := false, command := false }

/-- A station record after power-on reset (R28). -/
def Station.reset : Station :=
  { config := .reset, staged := Option.none, summary := 0, fault := false, hold := false, locked := false,
    reasons := .none, message := Option.none, closeNow := Vector.replicate _ .out, lockFlag := false, lineFlag := false }

/-- No pending flag (R86). -/
def ContainerFlags.clear : ContainerFlags :=
  { raised := false, overdue := false, inletFault := false, sensor := false, lifted := false }

/-- An UNCONFIGURED container record (R86). -/
def ContainerRec.reset : ContainerRec := { flags := .clear, body := none }

/-- A fraction entry after power-on reset (R125). -/
def Fraction.reset : Fraction := { enabled := false, maxWait := 86400 }

/-- A round slot after power-on reset (R139). -/
def Slot.reset : Slot := { round := none, lastClose := none, closedFlag := false }

/-- The machine right after power-on reset (R25, R28, R49, R63, R86, R136, R139, R168). The straps are read low here
(DESIGN CHOICE, log 5; unsafe); POWER_ON_RESET reads them from its operands. The scanner stands before START (log 27). -/
def State.reset : State :=
  { clock := { elapsed := 0, district := 0, valid := false }
    settings := .default
    line := .reset
    links := Vector.replicate _ .reset
    stations := Vector.replicate _ .reset
    cards := []
    period := 0
    sessions := []
    nextSession := 0
    deposits := []
    containers := Vector.replicate _ .reset
    requests := Vector.replicate _ none
    fractions := Vector.replicate _ .reset
    slots := Vector.replicate _ .reset
    intake := { receiver := .hunting, fifo := [], overrun := false }
    responses := []
    deferred := []
    outstanding := 0
    roundLists := []
    relay := []
    arrivals := 0
    sender := { tx := none, ulTxd := [], scan := none }
    device := { startFlag := true, startReason := .power, uplinkRate := .r57600 }
    pending := [] }

end Sys2Proof.Machine
end

