-- ==== Sys2Proof/Machine/Ops.lean ====
section
/-! DEFINITION. The named operations over the records of State: numbers and positions, one update per table, looking
containers and sessions up, answering a request, releasing a deferred response. A block has no exception entry; raising a
pending flag is in Flags.lean. -/

namespace Sys2Proof.Machine

/-! ### Numbers and positions -/

/-- The station address of a position: 1 to 48 (R27). -/
def addr (a : StationIx) : Nat := a.val + 1

/-- The inlet number of a position: 1 to 4 (R27). -/
def inletNo (n : InletIx) : Nat := n.val + 1

/-- The position of station address a, if it lies in 1 to 48 (R27). -/
def stationIx? (a : Nat) : Option StationIx :=
  if h : 1 ≤ a ∧ a ≤ Config.stations then some ⟨a - 1, by omega⟩ else none

/-- The position of inlet n, if it lies in 1 to 4 (R27). -/
def inletIx? (n : Nat) : Option InletIx :=
  if h : 1 ≤ n ∧ n ≤ Config.inlets then some ⟨n - 1, by omega⟩ else none

/-- The container of index i, if it lies in 0 to 127 (R85). -/
def containerIx? (i : Nat) : Option ContainerIx :=
  if h : i < Config.containers then some ⟨i, h⟩ else none

/-- Fraction f, if it lies in 0 to 3 (R125). -/
def fractionIx? (f : Nat) : Option FractionIx :=
  if h : f < Config.fractions then some ⟨f, h⟩ else none

/-- A sum in district time that is held at 4,294,967,295 (R126, R132, R143). -/
def satAdd (t : Word32) (n : Nat) : Word32 := BitVec.ofNat 32 (min (t.toNat + n) 4294967295)

/-- The district time stands at or above a deadline (R127, R148). -/
def reached (now deadline : Word32) : Bool := decide (deadline.toNat ≤ now.toNat)

/-! ### One update per table -/

/-- Changes the record of station a. -/
def State.modStation (a : StationIx) (f : Station → Station) (s : State) : State :=
  { s with stations := s.stations.set a (f s.stations[a]) }

/-- Changes the link record of station a. -/
def State.modLink (a : StationIx) (f : Link → Link) (s : State) : State :=
  { s with links := s.links.set a (f s.links[a]) }

/-- Changes the record of container i. -/
def State.modRec (i : ContainerIx) (f : ContainerRec → ContainerRec) (s : State) : State :=
  { s with containers := s.containers.set i (f s.containers[i]) }

/-- Changes the body of container i; an UNCONFIGURED record has none and stays. -/
def State.modContainer (i : ContainerIx) (f : Container → Container) (s : State) : State :=
  s.modRec i fun r => { r with body := r.body.map f }

/-- Gives container i a request, or none. -/
def State.setRequest (i : ContainerIx) (r : Option Request) (s : State) : State :=
  { s with requests := s.requests.set i r }

/-- Changes round slot n. -/
def State.modSlot (n : FractionIx) (f : Slot → Slot) (s : State) : State :=
  { s with slots := s.slots.set n (f s.slots[n]) }

/-- Changes the card record of a card number; the record keeps its position (R46). -/
def State.modCard (number : Word32) (f : Card → Card) (s : State) : State :=
  { s with cards := s.cards.map fun c => if c.number = number then f c else c }

/-! ### Looking up -/

/-- The body of container i, absent while it is UNCONFIGURED. -/
def State.container (s : State) (i : ContainerIx) : Option Container := s.containers[i].body

/-- The configured container bound to (station, inlet), if there is one (R93). -/
def State.bound (s : State) (a : StationIx) (n : InletIx) : Option ContainerIx :=
  (List.finRange Config.containers).find? fun i =>
    match s.container i with
    | some c => c.binding.station = a && c.binding.inlet = n
    | none => false

/-- The configured container bound to the station and an inlet number as a frame carries it (R19, R171). -/
def State.boundAt (s : State) (a : StationIx) (inlet : Byte) : Option ContainerIx :=
  match inletIx? inlet.toNat with
  | some n => s.bound a n
  | none => none

/-- The open session at (station, inlet), if there is one (R72). -/
def State.sessionAt (s : State) (a : StationIx) (n : InletIx) : Option Session :=
  s.sessions.find? fun x => x.station = a && x.inlet = n

/-- The card record of a number (R46). -/
def State.card (s : State) (number : Word32) : Option Card := s.cards.find? fun c => c.number = number

/-- The message pool count: the occupied message slots (R28). -/
def State.poolCount (s : State) : Nat :=
  (List.finRange Config.stations).countP fun a => s.stations[a].message.isSome

/-- The number of configured containers (R162). -/
def State.configuredCount (s : State) : Nat :=
  (List.finRange Config.containers).countP fun i => (s.container i).isSome

/-- The request count (R124). -/
def State.requestCount (s : State) : Nat :=
  (List.finRange Config.containers).countP fun i => s.requests[i].isSome

/-- The number of DISPATCHED slots (R138). -/
def State.dispatchedCount (s : State) : Nat :=
  (List.finRange Config.fractions).countP fun n => s.slots[n].round.isSome

/-! ### Answering -/

/-- The kind a request frame opens with; 0 for an empty payload (R172). -/
def RequestFrame.kind (f : RequestFrame) : Byte := f.payload.headD 0

/-- A response joins the tail of the response queue with the request's tag (R156). -/
def State.respond (f : RequestFrame) (code : ResultCode) (data : List Byte) (s : State) : State :=
  { s with responses := s.responses ++ [{ kind := f.kind, tag := f.tag, code, data }] }

/-- A held response is released: it joins the tail of the deferred response list (R158). -/
def State.release (kind tag : Byte) (code : ResultCode) (data : List Byte) (s : State) : State :=
  { s with deferred := s.deferred ++ [{ kind, tag, code, data }] }

/-- A request whose response is deferred raises the outstanding count by one (R158). -/
def State.deferral (s : State) : State := { s with outstanding := s.outstanding + 1 }

/-- The kinds of the three requests that can be deferred (R172). -/
def kindStationMessage : Byte := 0x14
def kindLineStop : Byte := 0x41
def kindLineTest : Byte := 0x42

/-- The request at the FIFO head leaves the FIFO, when the response queue has a free place and the outstanding count is
below 12 (R156). -/
def State.take (s : State) : Option (RequestFrame × State) :=
  match s.intake.fifo with
  | [] => none
  | f :: rest =>
    if s.responses.length < Config.responseCapacity ∧ s.outstanding < Config.deferredCapacity then
      some (f, { s with intake := { s.intake with fifo := rest } })
    else none

/-- The take of a request of one kind: nothing happens unless a request can be taken and it is of this kind; a payload whose
length is not that of the kind is answered RANGE; otherwise the owner judges the request (R156, R172). -/
def State.takeRequest (kind : Byte) (lengthOk : Nat → Bool) (judge : RequestFrame → State → State) (s : State) : State :=
  match s.take with
  | none => s
  | some (f, t) =>
    if f.kind = kind then
      if lengthOk f.payload.length then judge f t else t.respond f .range []
    else s

end Sys2Proof.Machine
end

