-- ==== Sys2Proof/Machine/Flags.lean ====
section
/-! DEFINITION. Every flag: the pending flags of the notices (R165), full (R87), and the outputs UL_RDY and FL_DE, which
are views of the state (R155, R1). -/

namespace Sys2Proof.Machine

/-! ### Pending flags (R165) -/

/-- A pending flag as it stands. -/
def State.flag (s : State) : NoticeFlag → Bool
  | .start => s.device.startFlag
  | .lock a => s.stations[a].lockFlag
  | .line a => s.stations[a].lineFlag
  | .raised i => s.containers[i].flags.raised
  | .overdue i => s.containers[i].flags.overdue
  | .inletFault i => s.containers[i].flags.inletFault
  | .sensor i => s.containers[i].flags.sensor
  | .lifted i => s.containers[i].flags.lifted
  | .closed n => s.slots[n].closedFlag

/-- Sets or clears a pending flag. -/
def State.setFlag (p : NoticeFlag) (b : Bool) (s : State) : State :=
  match p with
  | .start => { s with device := { s.device with startFlag := b } }
  | .lock a => s.modStation a fun r => { r with lockFlag := b }
  | .line a => s.modStation a fun r => { r with lineFlag := b }
  | .raised i => s.modRec i fun r => { r with flags := { r.flags with raised := b } }
  | .overdue i => s.modRec i fun r => { r with flags := { r.flags with overdue := b } }
  | .inletFault i => s.modRec i fun r => { r with flags := { r.flags with inletFault := b } }
  | .sensor i => s.modRec i fun r => { r with flags := { r.flags with sensor := b } }
  | .lifted i => s.modRec i fun r => { r with flags := { r.flags with lifted := b } }
  | .closed n => s.modSlot n fun r => { r with closedFlag := b }

/-- Raises a notice: its pending flag is set (R165). -/
def State.raise (p : NoticeFlag) (s : State) : State := s.setFlag p true

/-! ### Full (R87) -/

/-- The container tests full: E equal to or above T_stop (R87). -/
def Container.testFull (c : Container) : Container := { c with full := decide (c.params.tStop ≤ c.fill.e) }

/-! ### Outputs -/

/-- UL_RDY: asserted while the management request FIFO has a free place (R153, R155). -/
def State.ulRdy (s : State) : Bool := decide (s.intake.fifo.length < Config.fifoCapacity)

/-- FL_DE: asserted while the part sends on the field line (R1, R14, R20). The table has no step for the end of a test
transmission, so the view also covers the idle gap before it is judged (DESIGN CHOICE, log 18). -/
def State.flDe (s : State) : Bool :=
  s.line.testTx.isSome ||
    match s.line.turn with
    | some t => decide (t.phase = .sendingPoll) || decide (t.phase = .closing)
    | none => false

end Sys2Proof.Machine
end

