-- ==== Sys2Proof/Machine/Operands.lean ====
section
/-! DEFINITION. The operands: the fields of a management request in its payload (R172), and the frames of a reply in the
characters heard (R170, R171). -/

namespace Sys2Proof.Machine

/-! ### Fields of a request (R172) -/

/-- The byte at an offset of the payload, as a number; offset 0 is the kind. -/
def RequestFrame.u8 (f : RequestFrame) (n : Nat) : Nat := (f.payload.getD n 0).toNat

/-- Two bytes at an offset, most significant first (R175). -/
def RequestFrame.u16 (f : RequestFrame) (n : Nat) : Nat := beNat ((f.payload.drop n).take 2)

/-- Four bytes at an offset, most significant first (R175). -/
def RequestFrame.u32 (f : RequestFrame) (n : Nat) : Nat := beNat ((f.payload.drop n).take 4)

/-- A bit of the byte at an offset. -/
def RequestFrame.bit (f : RequestFrame) (n b : Nat) : Bool := (f.payload.getD n 0).getLsbD b

/-- The kinds of R172's table, every one of them. -/
def knownKinds : List Byte :=
  [0x01, 0x02, 0x03, 0x04, 0x05, 0x10, 0x11, 0x12, 0x13, 0x14, 0x20, 0x21, 0x22, 0x23, 0x24, 0x30, 0x31, 0x32, 0x33,
   0x40, 0x41, 0x42, 0x50, 0x51, 0x52, 0x53, 0x54]

/-- Status by its code (R172). -/
def cardStatus? : Nat → Option CardStatus
  | 0 => some .active
  | 1 => some .suspended
  | 2 => some .revoked
  | _ => none

/-- Exit mode by its code (R172). -/
def exitMode? : Nat → Option ExitMode
  | 0 => some .auto
  | 1 => some .cycle
  | 2 => some .command
  | _ => none

/-- Field line rate by its code (R172). -/
def fieldRate? : Nat → Option FieldRate
  | 0 => some .r19200
  | 1 => some .r38400
  | 2 => some .r57600
  | 3 => some .r115200
  | _ => none

/-- A valid card number: neither 0 nor 4,294,967,295 (R50). -/
def validCard (number : Word32) : Bool := decide (number ≠ 0) && decide (number ≠ 0xFFFFFFFF)

/-- What CARD PUT carries (R51). -/
structure CardFields where
  number : Word32
  household : Word16
  status : CardStatus
  entitled : BitVec 4
  allowance : Vector Nat Config.fractions
  deriving DecidableEq, Repr

/-- The fields of CARD PUT, unless one lies outside its range (R50, R172). -/
def cardFields? (f : RequestFrame) : Option CardFields :=
  let number : Word32 := BitVec.ofNat 32 (f.u32 1)
  match cardStatus? (f.u8 7) with
  | none => none
  | some status =>
    if validCard number ∧ f.u8 8 < 16 then
      some { number, household := BitVec.ofNat 16 (f.u16 5), status, entitled := BitVec.ofNat 4 (f.u8 8),
             allowance := #v[f.u8 9, f.u8 10, f.u8 11, f.u8 12] }
    else none

/-- The station and the configuration of STATION PUT, unless one lies outside its range (R29, R172). -/
def stationFields? (f : RequestFrame) : Option (StationIx × StationConfig) :=
  match stationIx? (f.u8 1), exitMode? (f.u8 4) with
  | some a, some exitMode =>
    if 1 ≤ f.u8 3 ∧ f.u8 3 ≤ Config.inlets then
      some (a, { configured := f.bit 2 0, enabled := f.bit 2 1, relay := f.bit 2 2, inletCount := f.u8 3, exitMode,
                 rank := f.u8 5 })
    else none
  | _, _ => none

/-- The ranges of geometry, projection and thresholds (R85). -/
def Params.inRange (p : Params) : Bool :=
  decide (300 ≤ p.h ∧ p.h ≤ 4000) && decide (200 ≤ p.d ∧ p.d + 100 ≤ p.h) &&
  decide (100 ≤ p.capacity ∧ p.capacity ≤ 20000) && decide (p.v ≤ 100) && decide (1 ≤ p.k ∧ p.k ≤ 16) &&
  decide (100 ≤ p.tCall ∧ p.tCall ≤ 1000) && decide (p.tCall ≤ p.tStop ∧ p.tStop ≤ 1000)

/-- The geometry, projection and thresholds of the configuration block, which opens at offset 2 (R172). -/
def blockParams (f : RequestFrame) : Params :=
  { h := f.u16 5, d := f.u16 7, capacity := f.u16 9, v := f.u8 11, k := f.u8 12, tCall := f.u16 13, tStop := f.u16 15 }

/-- Index, binding and parameters of CONTAINER PUT, unless one lies outside its range (R88 check 1, R172). -/
def containerFields? (f : RequestFrame) : Option (ContainerIx × Binding × Params) :=
  match containerIx? (f.u8 1), stationIx? (f.u8 2), inletIx? (f.u8 3), fractionIx? (f.u8 4) with
  | some i, some station, some inlet, some fraction =>
    if (blockParams f).inRange then some (i, { station, inlet, fraction }, blockParams f) else none
  | _, _, _, _ => none

/-- Fraction and entry of FRACTION PUT, unless one lies outside its range (R125, R172). -/
def fractionFields? (f : RequestFrame) : Option (FractionIx × Fraction) :=
  match fractionIx? (f.u8 1) with
  | some n =>
    if 600 ≤ f.u32 3 ∧ f.u32 3 ≤ 1209600 then some (n, { enabled := f.bit 2 0, maxWait := f.u32 3 }) else none
  | none => none

/-- What ROUND OPEN carries (R140). -/
structure RoundFields where
  fraction : FractionIx
  vehicle : Word16
  limit : Nat
  budget : Nat
  duration : Nat
  horizon : Nat
  deriving DecidableEq, Repr

/-- The fields of ROUND OPEN, unless one lies outside its range (R140 check 1, R172). -/
def roundFields? (f : RequestFrame) : Option RoundFields :=
  match fractionIx? (f.u8 1) with
  | some fraction =>
    let r : RoundFields :=
      { fraction, vehicle := BitVec.ofNat 16 (f.u16 2), limit := f.u8 4, budget := f.u32 5, duration := f.u16 9,
        horizon := f.u32 11 }
    if (1 ≤ r.limit ∧ r.limit ≤ 24) ∧ (100 ≤ r.budget ∧ r.budget ≤ 200000) ∧
        (600 ≤ r.duration ∧ r.duration ≤ 43200) ∧ r.horizon ≤ 86400 then some r
    else none
  | none => none

/-- The settings block of SETTINGS PUT, unless a field lies outside its range (R159 check 1, R172). -/
def settingsFields? (f : RequestFrame) : Option Settings :=
  match fieldRate? (f.u8 6) with
  | some rate =>
    if (10 ≤ f.u16 1 ∧ f.u16 1 ≤ 300) ∧ (5 ≤ f.u8 3 ∧ f.u8 3 ≤ 100) ∧ (600 ≤ f.u16 4 ∧ f.u16 4 ≤ 7200) then
      some { hatchOpen := f.u16 1, window := f.u8 3, liftTimeout := f.u16 4, rate }
    else none
  | none => none

/-- The card number of CARD DROP and CARD STATUS, and of CARD GET at its own offset. -/
def RequestFrame.card (f : RequestFrame) (n : Nat) : Word32 := BitVec.ofNat 32 (f.u32 n)

/-! ### Frames of a reply (R170, R171) -/

/-- A frame found in a reply: kind, payload, and whether its CRC-16 agrees. -/
structure RawFrame where
  kind : Byte
  payload : List Byte
  sound : Bool
  deriving DecidableEq, Repr

/-- The data bytes before the first character whose mark bit is set, which ends the framing (R170). -/
def framingBytes (chars : List LineChar) : List Byte := (chars.takeWhile fun c => !c.mark).map LineChar.data

/-- The complete frames of some bytes, each ended by its length byte. A length byte above 24 and an incomplete frame end
the list: that frame and every later one are not found (R171). The number bounds how many frames are looked for. -/
def splitFrames : Nat → List Byte → List RawFrame
  | 0, _ => []
  | fuel + 1, kind :: len :: rest =>
    let n := len.toNat
    if 24 < n ∨ rest.length < n + 2 then []
    else
      { kind, payload := rest.take n,
        sound := decide ((rest.drop n).take 2 = crcBytes (kind :: len :: rest.take n)) } ::
        splitFrames fuel (rest.drop (n + 2))
  | _ + 1, _ => []

/-- A frame of a kind and length that a station sends, with its payload fields; `other` is a frame that is accepted and
then discarded (R16, R171). -/
inductive StationFrame where
  | card (inlet : Byte) (card : Word32)
  | hatchClosed (inlet : Byte) (sensed : Bool)
  | level (inlet : Byte) (d : Nat)
  | liftStart (inlet : Byte)
  | liftEnd (inlet : Byte)
  | messageAck
  | report (payload : List Byte)
  | other
  deriving DecidableEq, Repr

/-- The fields of a sound frame; none where its length disagrees with its kind (R171). -/
def stationFrame? (r : RawFrame) : Option StationFrame :=
  if r.kind = 0x41 then (if r.payload.length = 3 then some .other else none)
  else if r.kind = 0x42 then
    match r.payload with
    | [inlet, c3, c2, c1, c0] => some (.card inlet (BitVec.ofNat 32 (beNat [c3, c2, c1, c0])))
    | _ => none
  else if r.kind = 0x43 then
    match r.payload with
    | [inlet, flags] => some (.hatchClosed inlet (flags.getLsbD 0))
    | _ => none
  else if r.kind = 0x44 then
    match r.payload with
    | [inlet, hi, lo] => some (.level inlet (beNat [hi, lo]))
    | _ => none
  else if r.kind = 0x45 then
    match r.payload with
    | [inlet] => some (.liftStart inlet)
    | _ => none
  else if r.kind = 0x46 then
    match r.payload with
    | [inlet] => some (.liftEnd inlet)
    | _ => none
  else if r.kind = 0x47 then (if r.payload = [] then some .messageAck else none)
  else if r.kind = 0x48 then (if 1 ≤ r.payload.length then some (.report r.payload) else none)
  else some .other

/-- A reply as R15 classifies it. -/
inductive Reply where
  | mismatch
  | badHeader
  | good (reply : Byte) (summary : BitVec 4) (count : Nat) (frames : List RawFrame)
  deriving DecidableEq, Repr

/-- Classifies a reply by its address character (bits 0 to 5 and bit 7; bit 6 is ignored) and its HEADER frame (R15, R170,
R171). -/
def classify (a : StationIx) (address : Byte) (chars : List LineChar) : Reply :=
  if address.toNat % 64 ≠ addr a ∨ address.getLsbD 7 = false then .mismatch
  else
    let bytes := framingBytes chars
    match splitFrames bytes.length bytes with
    | [] => .badHeader
    | header :: frames =>
      match header.payload with
      | [reply, summary, count] =>
        if header.sound = true ∧ header.kind = 0x41 ∧ count.toNat ≤ 4 then
          .good reply (summary.truncate 4) count.toNat frames
        else .badHeader
      | _ => .badHeader

end Sys2Proof.Machine
end

