-- ==== Sys2Proof/Machine/Fill.lean ====
section
/-! DEFINITION. The fill estimator's arithmetic on the fill fields of one container (06_fill_estimation.md): the blend, the
echo conversion, the band check, the step timing, the deposit projection, the resets, and time-to-call. What an event does
to the rest of the part (E report, SENSOR notice) is in Containers.lean. -/

namespace Sys2Proof.Machine

/-- The fill fields of a container newly configured (R102). -/
def Fill.start (now : Word32) : Fill :=
  { e := 0, cb := 0, suspectRun := 0, suspectBand := none, lastStep := now, interval := none, since := 0, noEcho := 0,
    mode := .normal, reading := none, event := none }

/-- A quotient of an integer by 16, rounded to an integer, halves away from zero (R109). -/
def roundSixteenth (p : Int) : Int := if 0 ≤ p then (p + 8) / 16 else -((-p + 8) / 16)

/-- The blend: E moves toward M by k/16 of their difference (R109). -/
def blend (k e m : Nat) : Nat := ((e : Int) + roundSixteenth ((k : Int) * ((m : Int) - (e : Int)))).toNat

/-- The measured fill of an echo distance, with the over flag (R106). -/
def measure (p : Params) (d : Nat) : Nat × Bool :=
  if p.h ≤ d then (0, false)
  else
    let q := (p.h - d) * 1000 / p.d
    if q ≤ 1000 then (q, false) else (1000, true)

/-- The step interval captured at a correct step (R113). -/
def capture (now last : Word32) (interval : Option Nat) : Option Nat :=
  if now.toNat ≤ last.toNat then interval
  else
    let dt := now.toNat - last.toNat
    match interval with
    | none => some dt
    | some old => some ((3 * old + dt) / 4)

/-- What a reading does to the fill fields, and what follows it: whether E was written (an E report follows, R103) and
whether SENSOR is raised (R119). -/
structure FillResult where
  fill : Fill
  wroteE : Bool
  sensor : Bool
  deriving DecidableEq, Repr

/-- An ordinary reading (R108). -/
def Fill.ordinary (p : Params) (m : Nat) (f : Fill) : Fill :=
  { f with e := blend p.k f.e m, suspectRun := 0, suspectBand := none }

/-- A correct step (R110). -/
def Fill.correctStep (p : Params) (now : Word32) (m mb : Nat) (f : Fill) : Fill :=
  { f with interval := capture now f.lastStep f.interval, lastStep := now, cb := mb,
           e := max (blend p.k f.e m) (100 * mb), since := 0, suspectRun := 0, suspectBand := none }

/-- A re-sync (R112). -/
def Fill.resync (now : Word32) (m mb : Nat) (f : Fill) : Fill :=
  { f with cb := mb, e := m, lastStep := now, since := 0, suspectRun := 0, suspectBand := none, event := some .jump }

/-- The suspect run after a suspect reading of a band (R111). -/
def Fill.runAfter (mb : Nat) (f : Fill) : Nat := if f.suspectBand = some mb then f.suspectRun + 1 else 1

/-- A suspect reading (R111): the run grows or starts again, and at 3 the container re-syncs. -/
def Fill.suspect (now : Word32) (m mb : Nat) (f : Fill) : FillResult :=
  if 3 ≤ f.runAfter mb then { fill := f.resync now m mb, wroteE := true, sensor := true }
  else { fill := { f with suspectBand := some mb, suspectRun := f.runAfter mb }, wroteE := false, sensor := false }

/-- A valid echo in NORMAL mode: converted, kept as the last reading, and classed by its band against CB (R106, R107). -/
def Fill.validReading (p : Params) (now : Word32) (d : Nat) (f : Fill) : FillResult :=
  let mo := measure p d
  let m := mo.1
  let mb := m / 100
  let g : Fill := { f with reading := some { d, m, overFlag := mo.2 } }
  if mb = f.cb then { fill := g.ordinary p m, wroteE := true, sensor := false }
  else if mb = f.cb + 1 then { fill := g.correctStep p now m mb, wroteE := true, sensor := false }
  else g.suspect now m mb

/-- A level reading (R105): no echo counts the no-echo run and may degrade the container; a valid echo zeroes the run, and
in NORMAL mode goes on to the band check. -/
def Fill.level (p : Params) (now : Word32) (d : Nat) (f : Fill) : FillResult :=
  if d = 0 ∨ 4000 < d then
    let run := min 8 (f.noEcho + 1)
    if run = 8 ∧ f.mode = .normal then
      { fill := { f with noEcho := run, mode := .degraded .noEcho, event := some .noEcho }, wroteE := false, sensor := true }
    else { fill := { f with noEcho := run }, wroteE := false, sensor := false }
  else
    let g : Fill := { f with noEcho := 0 }
    match f.mode with
    | .normal => g.validReading p now d
    | .degraded _ => { fill := g, wroteE := false, sensor := false }

/-- A charged deposit projected into E (R115), with the stall test in NORMAL mode (R116). -/
def Fill.deposit (p : Params) (f : Fill) : FillResult :=
  let g : Fill := { f with e := min 1000 (f.e + p.v), since := min 65535 (f.since + 1) }
  if f.mode = .normal ∧ 200 ≤ g.since * p.v then
    { fill := { g with mode := .degraded .stall, event := some .stall }, wroteE := true, sensor := true }
  else { fill := g, wroteE := true, sensor := false }

/-- CLEAR SENSOR on the fill fields (R118). -/
def Fill.clearSensor (now : Word32) (f : Fill) : Fill :=
  { f with mode := .normal, cb := f.e / 100, suspectRun := 0, suspectBand := none, noEcho := 0, since := 0,
           lastStep := now, event := some .cleared }

/-- The lift reset of the fill fields (R120). -/
def Fill.liftReset (now : Word32) (f : Fill) : Fill :=
  { f with e := 0, cb := 0, suspectRun := 0, suspectBand := none, noEcho := 0, since := 0, lastStep := now,
           mode := .normal, reading := none, event := if f.mode = .normal then f.event else some .lift }

/-- Time-to-call in seconds: exists in NORMAL mode with a step interval; held at 4,294,967,295 (R114). -/
def Container.timeToCall (c : Container) : Option Nat :=
  match c.fill.mode, c.fill.interval with
  | .normal, some interval =>
    if c.params.tCall ≤ c.fill.e then some 0
    else some (min 4294967295 (((c.params.tCall - c.fill.e) * interval + 99) / 100))
  | _, _ => none

/-- The planned volume of a container in litres: ceil(E × capacity / 1000), at least 1 (R141). -/
def Container.plannedVolume (c : Container) : Nat := max 1 ((c.fill.e * c.params.capacity + 999) / 1000)

end Sys2Proof.Machine
end

