-- ==== Sys2Proof/Machine/Formats.lean ====
section
/-! DEFINITION. The layouts of everything the part sends (10_frame_and_record_formats.md): codes, records in responses
(R173), unsolicited frames (R173), notices (R174), and the downlink frames of the field line (R171). An absent optional
field is sent as zeros (R175). -/

namespace Sys2Proof.Machine

/-! ### Codes (R172, R173) -/

def LineState.code : LineState → Byte
  | .stopped => 0
  | .running => 1
  | .draining => 2
  | .test => 3

def LinkStatus.code : LinkStatus → Byte
  | .unknown => 0
  | .online => 1
  | .lost => 2
  | .disabled => 3

def ExitMode.code : ExitMode → Byte
  | .auto => 0
  | .cycle => 1
  | .command => 2

def CardStatus.code : CardStatus → Byte
  | .active => 0
  | .suspended => 1
  | .revoked => 2

def FieldRate.code : FieldRate → Byte
  | .r19200 => 0
  | .r38400 => 1
  | .r57600 => 2
  | .r115200 => 3

def UplinkRate.code : UplinkRate → Byte
  | .r57600 => 0
  | .r115200 => 1
  | .r230400 => 2
  | .r460800 => 3

def ResultCode.code : ResultCode → Byte
  | .done => 0
  | .staged => 1
  | .range => 2
  | .full => 3
  | .absent => 4
  | .collide => 5
  | .state => 6
  | .busy => 7
  | .failed => 8
  | .unknown => 9

def DepositOutcome.code : DepositOutcome → Byte
  | .deposit => 0
  | .empty => 1
  | .timeout => 2
  | .aborted => 3

def Origin.code : Origin → Byte
  | .raised => 0
  | .preempt => 1

def CloseReason.code : CloseReason → Byte
  | .done => 0
  | .command => 1
  | .timeout => 2

def SensorMode.code : SensorMode → Byte
  | .normal => 0
  | .degraded .stall => 1
  | .degraded .noEcho => 2

def SensorEvent.code : SensorEvent → Byte
  | .jump => 1
  | .stall => 2
  | .noEcho => 3
  | .cleared => 4
  | .lift => 5

def StartReason.code : StartReason → Byte
  | .power => 0
  | .restart => 1

/-- The container state code; 0 is UNCONFIGURED (R172). -/
def ContainerState.code : ContainerState → Byte
  | .idle => 1
  | .session => 2
  | .lifting => 3
  | .fault _ => 4

/-- The fault reason code; 0 is absent (R173). -/
def ContainerState.reasonCode : ContainerState → Byte
  | .fault .hatch => 1
  | .fault .lift => 2
  | _ => 0

/-! ### Parts of records (R173) -/

/-- Four flags at bits 0 to 3. -/
def nibbleByte (x : BitVec 4) : Byte := x.zeroExtend 8

/-- The flags byte of a station configuration: bit 0 configured, 1 enabled, 2 relay reports (R172, R173). -/
def StationConfig.flagsByte (c : StationConfig) : Byte := bitAt 0 c.configured ||| bitAt 1 c.enabled ||| bitAt 2 c.relay

/-- The lock byte without its message bit: bit 0 fault present, 1 restart hold, 2 locked (R173, R174). -/
def Station.lockByte (t : Station) : Byte := bitAt 0 t.fault ||| bitAt 1 t.hold ||| bitAt 2 t.locked

/-- Lock reasons: bit 0 FAULT, 1 LINE, 2 COMMAND (R173). -/
def LockReasons.byte (r : LockReasons) : Byte := bitAt 0 r.fault ||| bitAt 1 r.line ||| bitAt 2 r.command

/-- The inlets in a CLOSE-NOW set, in ascending order (R13). -/
def closeInlets (set : Vector CloseMark Config.inlets) : List InletIx :=
  (List.finRange Config.inlets).filter fun n => set[n] ≠ .out

/-- A CLOSE-NOW set as a byte: bits 0 to 3 for inlets 1 to 4 (R173). -/
def closeNowByte (set : Vector CloseMark Config.inlets) : Byte :=
  (closeInlets set).foldl (fun b n => b ||| bitAt n.val true) 0

/-- The staged part of a station: flags, inlet count, exit mode, route rank (R173). -/
def stagedStationBytes : Option StationConfig → List Byte
  | none => [0, 0, 0, 0]
  | some c => [c.flagsByte, byte c.inletCount, c.exitMode.code, byte c.rank]

/-- The card record, 24 bytes (R173). -/
def Card.bytes (c : Card) : List Byte :=
  be4 c.number.toNat ++ be2 c.household.toNat ++ [c.status.code, nibbleByte c.entitled] ++
    c.allowance.toList.map byte ++ c.used.toList.map byte ++
    [bitAt 0 c.lastUse.isSome ||| bitAt 1 c.link.isSome] ++
    (match c.lastUse with
      | some u => be4 u.time.toNat ++ [byte u.container.val]
      | none => be4 0 ++ [0]) ++
    be2 ((c.link.map BitVec.toNat).getD 0)

/-- The station report, 18 bytes (R173). -/
def stationReport (a : StationIx) (t : Station) (l : Link) : List Byte :=
  [byte (addr a), t.config.flagsByte ||| bitAt 3 t.staged.isSome, byte t.config.inletCount, t.config.exitMode.code,
    byte t.config.rank] ++
  stagedStationBytes t.staged ++
  [nibbleByte t.summary, t.lockByte ||| bitAt 3 t.message.isSome, t.reasons.byte,
    byte ((t.message.map Message.tries).getD 0), (t.message.map Message.tag).getD 0, closeNowByte t.closeNow,
    l.status.code, byte l.noReply, byte l.mismatch]

/-- Binding: station, inlet, fraction (R174). -/
def Binding.bytes (b : Binding) : List Byte := [byte (addr b.station), byte (inletNo b.inlet), byte b.fraction.val]

/-- H, D, capacity, v, k, T_call, T_stop, 12 bytes (R173). -/
def Params.bytes (p : Params) : List Byte :=
  be2 p.h ++ be2 p.d ++ be2 p.capacity ++ [byte p.v, byte p.k] ++ be2 p.tCall ++ be2 p.tStop

/-- n zero bytes: an absent field (R175). -/
def zeros (n : Nat) : List Byte := List.replicate n 0

/-- The request block, 17 bytes; zeros where the request is absent (R173). -/
def requestBlock : Option Request → List Byte
  | none => zeros 17
  | some r =>
    [byte r.fraction.val, r.origin.code] ++ be4 r.raiseTime.toNat ++ be2 r.fillAtRaise ++ be4 r.deadline.toNat ++
      (match r.state with
        | .waiting => [0, 0] ++ be2 0
        | .planned slot volume => [1, byte slot.val] ++ be2 volume) ++
      [flagByte r.overdue]

/-- The state byte of a container: the state code in bits 0 to 2, full in bit 7 (R173). -/
def stateByte : Option Container → Byte
  | none => 0
  | some c => c.state.code ||| bitAt 7 c.full

/-- The five pending flags at bits 0 to 4 (R173). -/
def ContainerFlags.byte (f : ContainerFlags) : Byte :=
  bitAt 0 f.raised ||| bitAt 1 f.overdue ||| bitAt 2 f.inletFault ||| bitAt 3 f.sensor ||| bitAt 4 f.lifted

/-- The fill block, 22 bytes (R173). -/
def Container.fillBlock (c : Container) : List Byte :=
  be2 c.fill.e ++ [byte c.fill.cb, byte c.fill.suspectRun, byte (c.fill.suspectBand.getD 0)] ++
    be4 c.fill.lastStep.toNat ++ be4 (c.fill.interval.getD 0) ++ be2 c.fill.since ++
    [byte c.fill.noEcho, c.fill.mode.code, (c.fill.event.map SensorEvent.code).getD 0] ++ be4 (c.timeToCall.getD 0)

/-- The container report, 85 bytes (R92, R173). An UNCONFIGURED record is reported with its state and pending flags, and
with every other field absent. -/
def containerReport (i : ContainerIx) (r : ContainerRec) (q : Option Request) : List Byte :=
  match r.body with
  | none => [byte i.val, 0, 0, 0, r.flags.byte] ++ zeros 80
  | some c =>
    [byte i.val, stateByte (some c), c.state.reasonCode,
      bitAt 0 c.staged.isSome ||| bitAt 1 c.liftStart.isSome ||| bitAt 2 c.liftDeadline.isSome |||
        bitAt 3 c.lastLift.isSome ||| bitAt 4 c.fill.interval.isSome ||| bitAt 5 c.timeToCall.isSome |||
        bitAt 6 q.isSome ||| bitAt 7 c.fill.suspectBand.isSome,
      r.flags.byte] ++
    c.binding.bytes ++ c.params.bytes ++
    (match c.staged with
      | some p => p.bytes
      | none => zeros 12) ++
    be5 (c.liftStart.getD 0) ++ be5 (c.liftDeadline.getD 0) ++ be4 ((c.lastLift.map BitVec.toNat).getD 0) ++
    c.fillBlock ++ requestBlock q

/-- The status block, 26 bytes (R162, R173). -/
def State.statusBlock (s : State) : List Byte :=
  [s.line.state.code] ++ be4 s.line.cycleCount.toNat ++ be4 s.clock.district.toNat ++ [flagByte s.clock.valid] ++
    be5 s.clock.elapsed ++ be2 s.period.toNat ++ be2 s.cards.length ++
    [byte s.configuredCount, byte s.sessions.length, byte s.deposits.length, byte s.requestCount,
      byte s.dispatchedCount, byte s.relay.length, flagByte s.intake.overrun]

/-- The settings block, 6 bytes (R172). -/
def Settings.bytes (x : Settings) : List Byte := be2 x.hatchOpen ++ [byte x.window] ++ be2 x.liftTimeout ++ [x.rate.code]

/-! ### Unsolicited frames (R173) -/

/-- A response payload: kind echoed, result code, data (R173). -/
def Response.payload (r : Response) : List Byte := r.kind :: r.code.code :: r.data

/-- A deposit record payload, 21 bytes (R173). -/
def DepositRecord.payload (r : DepositRecord) : List Byte :=
  be4 r.card.toNat ++ be2 r.household.toNat ++ [byte r.container.val, byte (addr r.station), byte r.fraction.val] ++
    be4 r.grantTime.toNat ++ be4 r.endTime.toNat ++ [r.outcome.code, flagByte r.charged] ++ be2 r.period.toNat

/-- A relayed report payload (R173). -/
def Report.bytes (r : Report) : List Byte := byte (addr r.station) :: r.reply :: r.payload

/-- One entry in a round list frame: route position, container, station, inlet, planned volume, origin (R145, R173). -/
def entryBytes (position : Nat) (inlet : Nat) (e : Entry) : List Byte :=
  [byte position, byte e.container.val, byte (addr e.station), byte inlet] ++ be2 e.volume ++ [e.origin.code]

/-! ### Notices (R174) -/

/-- The binding of a container, zeros while it is UNCONFIGURED. -/
def bindingBytes : Option Container → List Byte
  | none => zeros 3
  | some c => c.binding.bytes

/-- The head of every container notice: kind, index, binding, state byte (R174). -/
def containerNotice (kind : Byte) (i : ContainerIx) (c : Option Container) : List Byte :=
  [kind, byte i.val] ++ bindingBytes c ++ [stateByte c]

/-- RAISED and OVERDUE: request present, request block, E (R135, R174). -/
def State.requestNotice (kind : Byte) (i : ContainerIx) (s : State) : List Byte :=
  containerNotice kind i (s.container i) ++ [flagByte s.requests[i].isSome] ++ requestBlock s.requests[i] ++
    be2 (((s.container i).map fun c => c.fill.e).getD 0)

/-- The SENSOR fields: mode, event, E, CB, reading byte, d, M (R119, R174). -/
def sensorBytes : Option Container → List Byte
  | none => zeros 10
  | some c =>
    [c.fill.mode.code, (c.fill.event.map SensorEvent.code).getD 0] ++ be2 c.fill.e ++ [byte c.fill.cb] ++
      (match c.fill.reading with
        | some r => [bitAt 0 true ||| bitAt 1 r.overFlag] ++ be2 r.d ++ be2 r.m
        | none => zeros 5)

/-- The CLOSED fields after the slot: state, last close, current round (R150, R174). -/
def Slot.closedBytes (x : Slot) : List Byte :=
  [flagByte x.round.isSome, flagByte x.lastClose.isSome] ++
    (match x.lastClose with
      | some l => [l.reason.code] ++ be2 l.vehicle.toNat ++ be4 l.time.toNat ++ [byte l.entries, byte l.lifted]
      | none => zeros 9) ++
    (match x.round with
      | some r => be2 r.vehicle.toNat ++ [byte r.entries.length] ++ be4 r.dispatch.toNat
      | none => zeros 7)

/-- The payload of a notice, from the record as it stands: the snapshot (R165, R174). The station flags byte of LINE holds
configured and enabled, the fields R166 names (DEDUCED, log 14). -/
def State.snapshot (s : State) : NoticeFlag → List Byte
  | .start => [1, s.device.startReason.code] ++ s.statusBlock
  | .lock a =>
    let t := s.stations[a]
    [2, byte (addr a), t.lockByte, t.reasons.byte, nibbleByte t.summary, t.config.exitMode.code]
  | .line a =>
    let t := s.stations[a]
    let l := s.links[a]
    [3, byte (addr a), bitAt 0 t.config.configured ||| bitAt 1 t.config.enabled, l.status.code, byte l.noReply,
      byte l.mismatch]
  | .raised i => s.requestNotice 4 i
  | .overdue i => s.requestNotice 5 i
  | .inletFault i => containerNotice 6 i (s.container i) ++ [((s.container i).map fun c => c.state.reasonCode).getD 0]
  | .sensor i => containerNotice 7 i (s.container i) ++ sensorBytes (s.container i)
  | .lifted i =>
    containerNotice 8 i (s.container i) ++
      be4 (((s.container i).bind fun c => c.lastLift.map BitVec.toNat).getD 0)
  | .closed n => [9, byte n.val] ++ s.slots[n].closedBytes

/-! ### Downlink frames of the field line (R171) -/

/-- The POLL payload: mask byte and reply number (R13, R171). -/
def pollPayload : Option AcceptMask → List Byte
  | none => [0, 0]
  | some m => [bitAt 7 true ||| nibbleByte m.positions, m.reply]

/-- Deny reasons (R64, R171). -/
inductive DenyReason where
  | line | lockout | noInlet | inletOut | full | unknownCard | suspended | revoked | fraction | quota | inletBusy
  | cardBusy | capacity
  deriving DecidableEq, Repr

/-- The verdict on a card presentation (R64). -/
inductive Verdict where
  | grant (openTime : Nat)
  | deny (reason : DenyReason)
  deriving DecidableEq, Repr

/-- The deny reason codes (R171). -/
def DenyReason.code : DenyReason → Byte
  | .line => 1
  | .lockout => 2
  | .noInlet => 3
  | .inletOut => 4
  | .full => 5
  | .unknownCard => 6
  | .suspended => 7
  | .revoked => 8
  | .fraction => 9
  | .quota => 10
  | .inletBusy => 11
  | .cardBusy => 12
  | .capacity => 13

/-- The VERDICT payload: inlet and card number as presented, verdict code, open time (R20, R171). -/
def verdictPayload (inlet : Byte) (card : Word32) : Verdict → List Byte
  | .grant openTime => inlet :: be4 card.toNat ++ [0] ++ be2 openTime
  | .deny reason => inlet :: be4 card.toNat ++ [reason.code] ++ be2 0

/-- The pattern of a TEST frame (R171). -/
def testPattern : List Byte :=
  [0x00, 0xFF, 0x55, 0xAA, 0x01, 0x02, 0x04, 0x08, 0x10, 0x20, 0x40, 0x80, 0xFE, 0xFD, 0xFB, 0xF7]

/-- The characters of a test transmission: address 63 and one TEST frame with the test number (R7). -/
def testChars (number : Nat) : List LineChar := addressChar 63 :: (fieldFrame 0x05 (byte number :: testPattern)).map frameChar

/-- The characters of a poll transmission (R13). -/
def pollChars (a : StationIx) (mask : Option AcceptMask) (closeNow : List InletIx) (message : Option Message) :
    List LineChar :=
  addressChar (addr a) ::
    (fieldFrame 0x01 (pollPayload mask) ++ closeNow.flatMap (fun n => fieldFrame 0x02 [byte (inletNo n)]) ++
      (match message with
        | some m => fieldFrame 0x03 m.payload
        | none => [])).map frameChar

/-- The characters of a closing transmission: one VERDICT frame for each verdict payload (R20). -/
def closingChars (a : StationIx) (verdicts : List (List Byte)) : List LineChar :=
  addressChar (addr a) :: (verdicts.flatMap (fieldFrame 0x04)).map frameChar

end Sys2Proof.Machine
end

