-- ==== Sys2Proof/Machine/Requests.lean ====
section
/-! DEFINITION. The request table (07_emptying_requests.md): raising, the overdue marking, the waiting order, planning,
pre-emption and return, and the commands FRACTION_PUT, REQUEST_CANCEL and REQUEST_OVERDUE_MARKING. -/

namespace Sys2Proof.Machine

/-! ### Overdue marking (R127, R128) -/

/-- Marks the request of a container overdue when its flag is no and the district time stands at or above its deadline;
OVERDUE is raised (R127). -/
def State.markOverdue (i : ContainerIx) (s : State) : State :=
  match s.requests[i] with
  | none => s
  | some r =>
    if r.overdue = false ∧ reached s.clock.district r.deadline = true then
      (s.setRequest i (some { r with overdue := true })).raise (.overdue i)
    else s

/-- Marks every request whose deadline is reached (R127, R128). -/
def State.markAllOverdue (s : State) : State :=
  (List.finRange Config.containers).foldl (fun t i => t.markOverdue i) s

/-! ### Raising (R126) -/

/-- A new request of a container: deadline from the fraction's maximum wait, fill at raise from E (R126, R132). -/
def State.newRequest (c : Container) (origin : Origin) (state : RequestState) (s : State) : Request :=
  { fraction := c.binding.fraction, origin, raiseTime := s.clock.district, fillAtRaise := c.fill.e,
    deadline := satAdd s.clock.district s.fractions[c.binding.fraction].maxWait, state, overdue := false }

/-- The raise test: a configured container that is not LIFTING, holds no request and whose E is at or above T_call raises
one; RAISED is raised, and a deadline already reached is marked at once (R126). -/
def State.raiseTest (i : ContainerIx) (s : State) : State :=
  match s.container i, s.requests[i] with
  | some c, none =>
    if c.state ≠ .lifting ∧ c.params.tCall ≤ c.fill.e then
      ((s.setRequest i (some (s.newRequest c .raised .waiting))).raise (.raised i)).markOverdue i
    else s
  | _, _ => s

/-! ### Waiting order (R129) -/

/-- Container i holds a WAITING request of fraction f. -/
def State.waitsIn (s : State) (f : FractionIx) (i : ContainerIx) : Bool :=
  match s.requests[i] with
  | some r => decide (r.fraction = f) && decide (r.state = .waiting)
  | none => false

/-- Place of a container in a waiting order: deadline, then container index (R129). -/
def State.waitKey (s : State) (i : ContainerIx) : List Nat :=
  [(s.requests[i].map fun r => r.deadline.toNat).getD 0, i.val]

/-- The waiting order of a fraction: its WAITING requests by deadline, then container index (R129). -/
def State.waitingOrder (f : FractionIx) (s : State) : List ContainerIx :=
  sortByKey s.waitKey ((List.finRange Config.containers).filter (s.waitsIn f))

/-- The number of requests of a fraction whose state is WAITING (R125). -/
def State.waitingCount (f : FractionIx) (s : State) : Nat := (List.finRange Config.containers).countP (s.waitsIn f)

/-- The number of requests of a fraction whose state is PLANNED (R125). -/
def State.plannedCount (f : FractionIx) (s : State) : Nat :=
  (List.finRange Config.containers).countP fun i =>
    match s.requests[i] with
    | some r => decide (r.fraction = f) && decide (r.state ≠ .waiting)
    | none => false

/-! ### Work done for the round builder (R131, R132, R133) -/

/-- Plans the WAITING request of a container into a slot (R131). -/
def State.planRequest (i : ContainerIx) (slot : FractionIx) (volume : Nat) (s : State) : State :=
  match s.requests[i] with
  | some r => s.setRequest i (some { r with state := .planned slot volume })
  | none => s

/-- Creates a pre-empted request, PLANNED in a slot, overdue at once if its deadline is already reached (R132, R127). -/
def State.preempt (i : ContainerIx) (c : Container) (slot : FractionIx) (volume : Nat) (s : State) : State :=
  (s.setRequest i (some (s.newRequest c .preempt (.planned slot volume)))).markOverdue i

/-- Returns the PLANNED request of a container (R133). A quiet return, made by RESTART, raises no RAISED notice (R137). -/
def State.returnRequest (quiet : Bool) (i : ContainerIx) (s : State) : State :=
  match s.requests[i] with
  | none => s
  | some r =>
    match r.origin with
    | .raised => s.setRequest i (some { r with state := .waiting })
    | .preempt =>
      if (match s.container i with
          | some c => decide (c.params.tCall ≤ c.fill.e)
          | none => false) then
        let t := s.setRequest i (some { r with state := .waiting, origin := .raised })
        if quiet then t else t.raise (.raised i)
      else s.setRequest i none

/-! ### Commands -/

/-- FRACTION PUT, judged (R125): enabled, maximum wait, WAITING count, PLANNED count come with DONE. -/
def State.fractionPut (f : RequestFrame) (s : State) : State :=
  match fractionFields? f with
  | none => s.respond f .range []
  | some (n, x) =>
    let t := { s with fractions := s.fractions.set n x }
    t.respond f .done ([flagByte x.enabled] ++ be4 x.maxWait ++ [byte (t.waitingCount n), byte (t.plannedCount n)])

/-- FRACTION_PUT (R125). -/
def execFractionPut (s : State) : Host.Outcome State Fault Refusal :=
  .next (s.takeRequest 0x30 (· = 7) State.fractionPut)

/-- REQUEST CANCEL, judged (R130): origin, raise time, deadline and overdue flag come with DONE. -/
def State.requestCancel (f : RequestFrame) (s : State) : State :=
  match containerIx? (f.u8 1) with
  | none => s.respond f .range []
  | some i =>
    match s.requests[i] with
    | none => s.respond f .absent []
    | some r =>
      match r.state with
      | .planned _ _ => s.respond f .state []
      | .waiting =>
        (s.setRequest i none).respond f .done
          ([r.origin.code] ++ be4 r.raiseTime.toNat ++ be4 r.deadline.toNat ++ [flagByte r.overdue])

/-- REQUEST_CANCEL (R130). -/
def execRequestCancel (s : State) : Host.Outcome State Fault Refusal :=
  .next (s.takeRequest 0x31 (· = 2) State.requestCancel)

/-- REQUEST_OVERDUE_MARKING (R127): every request whose deadline the district time has reached becomes overdue (log 8). -/
def execRequestOverdueMarking (s : State) : Host.Outcome State Fault Refusal := .next s.markAllOverdue

end Sys2Proof.Machine
end

