-- ==== Sys2Proof/Machine/Rounds.lean ====
section
/-! DEFINITION. The round builder (08_emptying_rounds.md): the build in two passes, the dispatch with its round list, lifted
entries, the close, and the commands ROUND_OPEN, ROUND_CLOSE and ROUND_DEADLINE_EXPIRY. -/

namespace Sys2Proof.Machine

/-! ### Closing (R149) -/

/-- The entry is LIFTED (R138). -/
def Entry.isLifted (e : Entry) : Bool := decide (e.state ≠ .planned)

/-- The lifted count of a round (R146). -/
def Round.liftedCount (r : Round) : Nat := r.entries.countP Entry.isLifted

/-- Returns the requests of the entries still PLANNED, in route order (R149 step 1, R137). -/
def State.returnEntries (quiet : Bool) (entries : List Entry) (s : State) : State :=
  entries.foldl (fun t e => if e.isLifted then t else t.returnRequest quiet e.container) s

/-- A round closes: returns, last close, slot FREE, CLOSED raised (R149). A FREE slot stays. -/
def State.closeRound (n : FractionIx) (reason : CloseReason) (s : State) : State :=
  match s.slots[n].round with
  | none => s
  | some r =>
    let t := s.returnEntries false r.entries
    let close : LastClose :=
      { reason, vehicle := r.vehicle, time := t.clock.district, entries := r.entries.length, lifted := r.liftedCount }
    (t.modSlot n fun x => { x with lastClose := some close, round := none }).raise (.closed n)

/-- Closes the round of a slot with reason TIMEOUT when the district time stands at or above its deadline (R148). -/
def State.expireRound (n : FractionIx) (s : State) : State :=
  match s.slots[n].round with
  | some r => if reached s.clock.district r.deadline = true then s.closeRound n .timeout else s
  | none => s

/-- Closes every DISPATCHED round whose deadline is reached (R148, R160). -/
def State.expireRounds (s : State) : State := (List.finRange Config.fractions).foldl (fun t n => t.expireRound n) s

/-! ### Lifts (R134, R146) -/

/-- The entry of a container becomes LIFTED with a lift time (R146). -/
def markLifted (i : ContainerIx) (time : Word32) (entries : List Entry) : List Entry :=
  entries.map fun e => if e.container = i then { e with state := .lifted time } else e

/-- The round builder marks the container's entry LIFTED and judges completion (R146). -/
def State.entryLifted (n : FractionIx) (i : ContainerIx) (time : Word32) (s : State) : State :=
  match s.slots[n].round with
  | none => s
  | some r =>
    let entries := markLifted i time r.entries
    let t := s.modSlot n fun x => { x with round := some { r with entries } }
    if entries.all Entry.isLifted then t.closeRound n .done else t

/-- The close of a container's request on its lift (R134). -/
def State.closeOnLift (i : ContainerIx) (time : Word32) (s : State) : State :=
  match s.requests[i] with
  | none => s
  | some r =>
    match r.state with
    | .waiting => s.setRequest i none
    | .planned n _ => (s.entryLifted n i time).setRequest i none

/-! ### Building (R140 to R143) -/

/-- A container taken into a build: with its station, route rank, volume and origin (R142, R143). -/
structure Taken where
  container : ContainerIx
  station : StationIx
  rank : Nat
  volume : Nat
  origin : Origin
  deriving DecidableEq, Repr

/-- A build under way: the state, the remaining budget and the containers taken; the entry count is how many they are
(R140). -/
structure Build where
  state : State
  budget : Nat
  taken : List Taken
  deriving DecidableEq, Repr

/-- The fit test: the entry count is below the limit and the volume is within the remaining budget (R140). -/
def Build.fits (b : Build) (limit volume : Nat) : Bool := decide (b.taken.length < limit) && decide (volume ≤ b.budget)

/-- A container is out of reach of pass 1: station locked, LIFTING, or FAULT with either reason (R142). -/
def State.skippedAtBuild (s : State) (c : Container) : Bool :=
  s.stations[c.binding.station].locked ||
    match c.state with
    | .lifting => true
    | .fault _ => true
    | .idle => false
    | .session => false

/-- The container joins the taken ones and its volume leaves the budget. -/
def Build.add (b : Build) (i : ContainerIx) (c : Container) (origin : Origin) (s : State) : Build :=
  { state := s, budget := b.budget - c.plannedVolume,
    taken := b.taken ++ [{ container := i, station := c.binding.station, rank := s.stations[c.binding.station].config.rank,
                           volume := c.plannedVolume, origin }] }

/-- Pass 1 reaches a WAITING request (R142). -/
def Build.pass1 (slot : FractionIx) (limit : Nat) (b : Build) (i : ContainerIx) : Build :=
  match b.state.container i with
  | none => b
  | some c =>
    if b.state.skippedAtBuild c = false ∧ b.fits limit c.plannedVolume = true then
      b.add i c .raised (b.state.planRequest i slot c.plannedVolume)
    else b

/-- A candidate of pass 2 (R143). -/
def State.candidate (f : FractionIx) (horizon : Nat) (s : State) (i : ContainerIx) : Bool :=
  match s.container i with
  | none => false
  | some c =>
    decide (c.binding.fraction = f) && decide (c.state = .idle) && !s.stations[c.binding.station].locked &&
      s.requests[i].isNone && decide (c.fill.e < c.params.tCall) &&
      match c.timeToCall with
      | some t => decide (t ≤ horizon)
      | none => false

/-- Order of pass 2: time-to-call, then container index (R143). -/
def State.candidateKey (s : State) (i : ContainerIx) : List Nat :=
  [((s.container i).bind Container.timeToCall).getD 0, i.val]

/-- The candidates of pass 2 in their order (R143). -/
def State.candidates (f : FractionIx) (horizon : Nat) (s : State) : List ContainerIx :=
  sortByKey s.candidateKey ((List.finRange Config.containers).filter (s.candidate f horizon))

/-- Pass 2 reaches a candidate (R143). -/
def Build.pass2 (slot : FractionIx) (limit : Nat) (b : Build) (i : ContainerIx) : Build :=
  match b.state.container i with
  | none => b
  | some c =>
    if b.fits limit c.plannedVolume = true then
      b.add i c .preempt (b.state.preempt i c slot c.plannedVolume)
    else b

/-- Both passes; pass 2 only when the horizon is above 0 and the limit is not yet reached (R140, R143). -/
def State.build (r : RoundFields) (s : State) : Build :=
  let b : Build :=
    (s.waitingOrder r.fraction).foldl (Build.pass1 r.fraction r.limit) { state := s, budget := r.budget, taken := [] }
  if 0 < r.horizon ∧ b.taken.length < r.limit then
    (b.state.candidates r.fraction r.horizon).foldl (Build.pass2 r.fraction r.limit) b
  else b

/-- Route order: route rank, station address, container index (R143). -/
def Taken.routeKey (t : Taken) : List Nat := [t.rank, addr t.station, t.container.val]

/-- The entry list of the containers taken, in route order (R143). -/
def routeEntries (taken : List Taken) : List Entry :=
  (sortByKey Taken.routeKey taken).map fun t =>
    { container := t.container, station := t.station, volume := t.volume, origin := t.origin, state := .planned }

/-- The inlet of a container's binding, for the round list (R145). -/
def State.inletOf (s : State) (i : ContainerIx) : Nat := ((s.container i).map fun c => inletNo c.binding.inlet).getD 0

/-- The number of round list frames of n entries, up to 8 entries each (R145). -/
def frameCount (n : Nat) : Nat := (n + 7) / 8

/-- Round list frame number k + 1 of a round: its head, then entries 8k + 1 to 8k + 8 of the route order (R145, R173). -/
def State.roundListPayload (n : FractionIx) (r : Round) (k : Nat) (s : State) : List Byte :=
  [byte n.val, r.tag] ++ be2 r.vehicle.toNat ++ be4 r.dispatch.toNat ++ be4 r.deadline.toNat ++ [byte r.entries.length] ++
    be4 r.total ++ [byte (k + 1), byte (frameCount r.entries.length)] ++
    (((r.entries.zipIdx 1).drop (8 * k)).take 8).flatMap fun p => entryBytes p.2 (s.inletOf p.1.container) p.1

/-- The round list of a dispatched round, handed to the round list FIFO (R145). -/
def State.pushRoundList (n : FractionIx) (r : Round) (s : State) : State :=
  { s with roundLists := s.roundLists ++
      (List.range (frameCount r.entries.length)).map fun k => { slot := n, payload := s.roundListPayload n r k } }

/-- The round that a build makes (R143). -/
def State.newRound (f : RequestFrame) (r : RoundFields) (taken : List Taken) (s : State) : Round :=
  { tag := f.tag, vehicle := r.vehicle, dispatch := s.clock.district, deadline := satAdd s.clock.district r.duration,
    total := (taken.map Taken.volume).sum, entries := routeEntries taken }

/-- The slot is busy: DISPATCHED, or a round list frame of it is still unsent (R140 check 2). -/
def State.slotBusy (n : FractionIx) (s : State) : Bool :=
  s.slots[n].round.isSome || s.roundLists.any fun x => decide (x.slot = n)

/-- A build settled: nothing taken, or the slot is dispatched, the response given, the list made, and a round whose deadline
is already reached closed (R143). -/
def Build.settle (f : RequestFrame) (r : RoundFields) (b : Build) : State :=
  match b.taken with
  | [] => b.state.respond f .done ([0] ++ be4 0)
  | _ :: _ =>
    let round := b.state.newRound f r b.taken
    (((b.state.modSlot r.fraction fun x => { x with round := some round }).respond f .done
      ([byte round.entries.length] ++ be4 round.total)).pushRoundList r.fraction round).expireRound r.fraction

/-- ROUND OPEN, judged (R140). -/
def State.roundOpen (f : RequestFrame) (s : State) : State :=
  match roundFields? f with
  | none => s.respond f .range []
  | some r =>
    if s.slotBusy r.fraction then s.respond f .busy []
    else if s.fractions[r.fraction].enabled then (s.build r).settle f r
    else s.respond f .state []

/-- ROUND_OPEN (R140). -/
def execRoundOpen (s : State) : Host.Outcome State Fault Refusal := .next (s.takeRequest 0x32 (· = 15) State.roundOpen)

/-- ROUND CLOSE, judged (R147): entry count and lifted count come with DONE. -/
def State.roundClose (f : RequestFrame) (s : State) : State :=
  match fractionIx? (f.u8 1) with
  | none => s.respond f .range []
  | some n =>
    match s.slots[n].round with
    | none => s.respond f .state []
    | some r => (s.closeRound n .command).respond f .done [byte r.entries.length, byte r.liftedCount]

/-- ROUND_CLOSE (R147). -/
def execRoundClose (s : State) : Host.Outcome State Fault Refusal := .next (s.takeRequest 0x33 (· = 2) State.roundClose)

/-- ROUND_DEADLINE_EXPIRY (R148): every DISPATCHED round whose deadline the district time has reached closes with reason
TIMEOUT (log 8). -/
def execRoundDeadlineExpiry (s : State) : Host.Outcome State Fault Refusal := .next s.expireRounds

/-- RESTART's share of the round builder: each DISPATCHED slot returns its PLANNED entries quietly and becomes FREE; last
close and the CLOSED flag are kept (R152, R137). -/
def State.restartSlot (s : State) (n : FractionIx) : State :=
  match s.slots[n].round with
  | none => s
  | some r => (s.returnEntries true r.entries).modSlot n fun x => { x with round := none }

/-- RESTART over the four slots in ascending order (R152). -/
def State.restartRounds (s : State) : State := (List.finRange Config.fractions).foldl State.restartSlot s

end Sys2Proof.Machine
end

