-- ==== Sys2Proof/Machine/Containers.lean ====
section
/-! DEFINITION. The container table (05_container_records_and_lifts.md) and the events of the fill estimator: the E report,
level readings, deposits, applying configuration, the commands CONTAINER_PUT, CONTAINER_GET, CONTAINER_CLEAR, CLEAR_INLET,
CLEAR_SENSOR and LIFT_DEADLINE_EXPIRY, and the completion of a lift. -/

namespace Sys2Proof.Machine

/-! ### Fill events (R103, R105, R115) -/

/-- The E report: the container tests full, then the request table tests for a raise (R103). -/
def State.eReport (i : ContainerIx) (s : State) : State := (s.modContainer i Container.testFull).raiseTest i

/-- A fill event at a configured container: the new fill fields, SENSOR if raised, the E report if E was written. -/
def State.fillEvent (i : ContainerIx) (event : Container → FillResult) (s : State) : State :=
  match s.container i with
  | none => s
  | some c =>
    let r := event c
    let t := s.modContainer i fun x => { x with fill := r.fill }
    let u := if r.sensor then t.raise (.sensor i) else t
    if r.wroteE then u.eReport i else u

/-- A level reading is passed on in IDLE, SESSION and FAULT with reason HATCH, and discarded in LIFTING and FAULT with
reason LIFT (R93). -/
def ContainerState.takesReadings : ContainerState → Bool
  | .idle => true
  | .session => true
  | .fault .hatch => true
  | .lifting => false
  | .fault .lift => false

/-- A level reading handed on for a container (R93, R105). R105 speaks of two cases and states one: the hand-on of a LEVEL frame
is the only event that brings a reading here (DESIGN CHOICE, log 28). -/
def State.levelReading (i : ContainerIx) (d : Nat) (s : State) : State :=
  match s.container i with
  | none => s
  | some c =>
    if c.state.takesReadings then s.fillEvent i fun x => x.fill.level x.params s.clock.district d else s

/-- A charged deposit handed on for a container (R115). -/
def State.chargedDeposit (i : ContainerIx) (s : State) : State := s.fillEvent i fun x => x.fill.deposit x.params

/-! ### Applying configuration (R90) -/

/-- Configuration fields are applied: they take the values, full is tested again, a raise test is made, the staged part
becomes absent (R90). -/
def State.applyParams (i : ContainerIx) (p : Params) (s : State) : State :=
  ((s.modContainer i fun c => { c with params := p }.testFull).raiseTest i).modContainer i fun c => { c with staged := none }

/-- The staged part of a container is applied, if there is one (R89, R90). -/
def State.applyStaged (i : ContainerIx) (s : State) : State :=
  match (s.container i).bind Container.staged with
  | some p => s.applyParams i p
  | none => s

/-- A container leaves FAULT for IDLE: a LIFT fault also loses its lift start and deadline, INLET FAULT is raised and a
staged part is applied (R78, R95). -/
def State.faultToIdle (i : ContainerIx) (s : State) : State :=
  ((s.modContainer i fun c =>
      if c.state = .fault .lift then { c with state := .idle, liftStart := none, liftDeadline := none }
      else { c with state := .idle }).raise (.inletFault i)).applyStaged i

/-! ### Requests on container records -/

/-- The inlet limit of a station: its applied inlet count; while a write is staged the smaller of applied and staged, or 0
if the staged part makes the station not configured (R29). -/
def Station.inletLimit (t : Station) : Nat :=
  match t.staged with
  | none => t.config.inletCount
  | some p => if p.configured then min t.config.inletCount p.inletCount else 0

/-- Another configured record than i is bound to (station, inlet) (R88). -/
def State.boundElsewhere (i : ContainerIx) (b : Binding) (s : State) : Bool :=
  (List.finRange Config.containers).any fun j =>
    decide (j ≠ i) &&
      match s.container j with
      | some c => decide (c.binding.station = b.station) && decide (c.binding.inlet = b.inlet)
      | none => false

/-- The binding checks: STATE, RANGE, COLLIDE in this order (R88 check 3). -/
def State.bindingRefusal (i : ContainerIx) (b : Binding) (s : State) : Option ResultCode :=
  if s.stations[b.station].config.configured = false then some .state
  else if s.stations[b.station].inletLimit < inletNo b.inlet then some .range
  else if s.boundElsewhere i b then some .collide
  else none

/-- An UNCONFIGURED record is configured (R88, R102); the configuration writes E, so an E report follows (R103). -/
def State.configure (i : ContainerIx) (b : Binding) (p : Params) (s : State) : State :=
  let c : Container :=
    { binding := b, params := p, state := .idle, full := false, liftStart := none, liftDeadline := none, lastLift := none,
      staged := none, fill := .start s.clock.district }
  (s.modRec i fun r => { r with body := some c }).eReport i

/-- A write to a configured record: applied at once in IDLE, else staged (R89). -/
def State.writeContainer (f : RequestFrame) (i : ContainerIx) (c : Container) (b : Binding) (p : Params) (s : State) :
    State :=
  if c.state = .idle then
    ((s.modContainer i fun x => { x with binding := b }).applyParams i p).respond f .done []
  else (s.modContainer i fun x => { x with staged := some p }).respond f .staged []

/-- CONTAINER PUT, judged (R88, R89). -/
def State.containerPut (f : RequestFrame) (s : State) : State :=
  match containerFields? f with
  | none => s.respond f .range []
  | some (i, b, p) =>
    match s.container i with
    | none =>
      match s.bindingRefusal i b with
      | some code => s.respond f code []
      | none => (s.configure i b p).respond f .done []
    | some c =>
      if c.binding = b then s.writeContainer f i c b p
      else if c.state ≠ .idle ∨ s.requests[i].isSome then s.respond f .state []
      else
        match s.bindingRefusal i b with
        | some code => s.respond f code []
        | none => s.writeContainer f i c b p

/-- CONTAINER_PUT (R88). -/
def execContainerPut (s : State) : Host.Outcome State Fault Refusal :=
  .next (s.takeRequest 0x20 (· = 17) State.containerPut)

/-- CONTAINER GET, judged (R92). -/
def State.containerGet (f : RequestFrame) (s : State) : State :=
  match containerIx? (f.u8 1) with
  | none => s.respond f .range []
  | some i => s.respond f .done (containerReport i s.containers[i] s.requests[i])

/-- CONTAINER_GET (R92). -/
def execContainerGet (s : State) : Host.Outcome State Fault Refusal :=
  .next (s.takeRequest 0x21 (· = 2) State.containerGet)

/-- CONTAINER CLEAR, judged (R91). -/
def State.containerClear (f : RequestFrame) (s : State) : State :=
  match containerIx? (f.u8 1) with
  | none => s.respond f .range []
  | some i =>
    match s.container i with
    | none => s.respond f .absent []
    | some c =>
      if c.state ≠ .idle ∨ s.requests[i].isSome then s.respond f .state []
      else (s.modRec i fun _ => .reset).respond f .done []

/-- CONTAINER_CLEAR (R91). -/
def execContainerClear (s : State) : Host.Outcome State Fault Refusal :=
  .next (s.takeRequest 0x22 (· = 2) State.containerClear)

/-- CLEAR INLET, judged (R95). -/
def State.clearInlet (f : RequestFrame) (s : State) : State :=
  match containerIx? (f.u8 1) with
  | none => s.respond f .range []
  | some i =>
    match (s.container i).map Container.state with
    | some (.fault _) => (s.faultToIdle i).respond f .done []
    | _ => s.respond f .state []

/-- CLEAR_INLET (R95). -/
def execClearInlet (s : State) : Host.Outcome State Fault Refusal :=
  .next (s.takeRequest 0x23 (· = 2) State.clearInlet)

/-- CLEAR SENSOR, judged (R118): E is not written and no E report is made. -/
def State.clearSensor (f : RequestFrame) (s : State) : State :=
  match containerIx? (f.u8 1) with
  | none => s.respond f .range []
  | some i =>
    match (s.container i).map (fun c : Container => c.fill.mode) with
    | some (.degraded _) =>
      ((s.modContainer i fun c => { c with fill := c.fill.clearSensor s.clock.district }).raise (.sensor i)).respond f .done []
    | _ => s.respond f .state []

/-- CLEAR_SENSOR (R118). -/
def execClearSensor (s : State) : Host.Outcome State Fault Refusal :=
  .next (s.takeRequest 0x24 (· = 2) State.clearSensor)

/-! ### Lifts (R96, R97, R99) -/

/-- The container's part of a lift start: LIFTING, the fault reason gone, lift start and deadline set (R96). -/
def Container.startLift (elapsed timeout : Nat) (c : Container) : Container :=
  { c with state := .lifting, liftStart := some elapsed, liftDeadline := some (elapsed + timeout) }

/-- The container's part of steps 1 and 2 of a lift completion: IDLE, no lift start and deadline, last lift end (R97). -/
def Container.seat (now : Word32) (c : Container) : Container :=
  { c with state := .idle, liftStart := none, liftDeadline := none, lastLift := some now }

/-- The state is FAULT, with either reason. -/
def ContainerState.isFault : ContainerState → Bool
  | .idle => false
  | .session => false
  | .lifting => false
  | .fault _ => true

/-- Steps 1 and 2 of a lift completion; INLET FAULT is raised when the lift completes from FAULT (R97). -/
def State.seatContainer (i : ContainerIx) (was : ContainerState) (s : State) : State :=
  let t := s.modContainer i (Container.seat s.clock.district)
  if was.isFault then t.raise (.inletFault i) else t

/-- Step 3 of a lift completion: the lift reset, its SENSOR notice and its E report (R97, R120). -/
def State.resetFill (i : ContainerIx) (s : State) : State :=
  s.fillEvent i fun x =>
    { fill := x.fill.liftReset s.clock.district, wroteE := true, sensor := decide (x.fill.mode ≠ .normal) }

/-- The completion of a lift in its five steps: state and last lift end, fill, request, LIFTED and staged part (R97). -/
def State.completeLift (i : ContainerIx) (s : State) : State :=
  match s.container i with
  | none => s
  | some c =>
    let t := ((s.seatContainer i c.state).resetFill i).closeOnLift i s.clock.district
    (t.raise (.lifted i)).applyStaged i

/-- The lift deadline of container i is reached while it is LIFTING (R99). -/
def State.liftDue (s : State) (i : ContainerIx) : Option Nat :=
  match s.container i with
  | some c =>
    match c.state, c.liftDeadline with
    | .lifting, some d => if d ≤ s.clock.elapsed then some d else none
    | _, _ => none
  | none => none

/-- The container whose lift deadline expires next: earliest deadline, then lowest index (the order is the model's, log 23;
the effects commute). -/
def State.nextLiftExpiry (s : State) : Option ContainerIx :=
  (sortByKey (fun i => [(s.liftDue i).getD 0, i.val])
    ((List.finRange Config.containers).filter fun i => (s.liftDue i).isSome)).head?

/-- A lift deadline expiry: FAULT with reason LIFT; lift start and deadline are kept; INLET FAULT is raised (R99). -/
def State.liftExpiry (i : ContainerIx) (s : State) : State :=
  (s.modContainer i fun c => { c with state := .fault .lift }).raise (.inletFault i)

/-- LIFT_DEADLINE_EXPIRY (R99): the next lift deadline that the elapsed seconds have reached expires, if there is one. -/
def execLiftDeadlineExpiry (s : State) : Host.Outcome State Fault Refusal :=
  .next (match s.nextLiftExpiry with
    | some i => s.liftExpiry i
    | none => s)

end Sys2Proof.Machine
end

