-- ==== Sys2Proof/Machine/Sessions.lean ====
section
/-! DEFINITION. The admission unit (04_admission_and_hatch_sessions.md): the nine steps of a session's ending, the judging of
a card presentation, hatch closures, lift frames that end sessions, and the command HATCH_DEADLINE_EXPIRY. -/

namespace Sys2Proof.Machine

/-! ### Endings (R73) -/

/-- An outcome is charged: DEPOSIT and TIMEOUT (R79). -/
def DepositOutcome.charged : DepositOutcome → Bool
  | .deposit => true
  | .empty => false
  | .timeout => true
  | .aborted => false

/-- Where an ending leaves the container (R73 step 7). -/
inductive AfterSession where
  | idle | faultHatch | lifting
  deriving DecidableEq, Repr

/-- The card is charged in a fraction: the used count rises by one, and saturates at 254 under an unlimited allowance; last
use is set (R57). -/
def Card.charge (f : FractionIx) (now : Word32) (i : ContainerIx) (c : Card) : Card :=
  { c with
    used := c.used.set f (if c.allowance[f] = 255 ∧ c.used[f] = 254 then 254 else c.used[f] + 1)
    lastUse := some { time := now, container := i } }

/-- The deposit record of an ending (R79, R58). -/
def State.depositRecord (x : Session) (o : DepositOutcome) (s : State) : DepositRecord :=
  { card := x.card, household := x.household, container := x.container, station := x.station, fraction := x.fraction,
    grantTime := x.grantTime, endTime := s.clock.district, outcome := o, charged := o.charged, period := s.period }

/-- A deposit record joins the tail of the queue, with the next arrival number (R62, R164). -/
def State.writeDeposit (r : DepositRecord) (s : State) : State :=
  { s with deposits := s.deposits ++ [{ arrival := s.arrivals, record := r }], arrivals := s.arrivals + 1 }

/-- The container leaves SESSION (R73 step 7): IDLE with its staged part applied, FAULT with reason HATCH and INLET FAULT
raised (R75), or LIFTING (R77, R96). -/
def State.leaveSession (i : ContainerIx) (after : AfterSession) (s : State) : State :=
  match after with
  | .idle => (s.modContainer i fun c => { c with state := .idle }).applyStaged i
  | .faultHatch => (s.modContainer i fun c => { c with state := .fault .hatch }).raise (.inletFault i)
  | .lifting => s.modContainer i (Container.startLift s.clock.elapsed s.settings.liftTimeout)

/-- A station with no open session leaves the session ring (R10). -/
def State.ringLeave (a : StationIx) (s : State) : State :=
  if s.sessions.any fun x => decide (x.station = a) then s
  else { s with line := { s.line with ring := s.line.ring.filter fun b => b ≠ a } }

/-- A drain ends at the ending that leaves the hatch table empty: the line is STOPPED and the held LINE STOP response is
released DONE (R4). -/
def State.drainCheck (s : State) : State :=
  if s.line.state = .draining ∧ s.sessions = [] then
    let t := { s with line := { s.line with state := .stopped, heldStop := none } }
    match s.line.heldStop with
    | some tag => t.release kindLineStop tag .done []
    | none => t
  else s

/-- The charge of an ending (R73 steps 1 and 3): a charged outcome charges the card, then the card link is cleared. -/
def State.settleCard (x : Session) (o : DepositOutcome) (s : State) : State :=
  s.modCard x.card fun c =>
    let d := if o.charged then c.charge x.fraction s.clock.district x.container else c
    { d with link := none }

/-- The ending of a session in the nine steps of R73: charge and card link, the deposit record with the period in force, the
session record, the fill, the container, the session ring, the drain. -/
def State.endSession (o : DepositOutcome) (after : AfterSession) (x : Session) (s : State) : State :=
  let t := s.settleCard x o                                     -- 1, 3
  let t := t.writeDeposit (s.depositRecord x o)                 -- 2, 4
  let t := { t with sessions := t.sessions.erase x }            -- 5
  let t := if o.charged then t.chargedDeposit x.container else t  -- 6
  let t := t.leaveSession x.container after                     -- 7
  (t.ringLeave x.station).drainCheck                            -- 8, 9

/-- Order of endings within one event: station address, then inlet (R71, R76, R80). -/
def Session.place (x : Session) : List Nat := [x.station.val, x.inlet.val]

/-- Every open session in ascending station address and inlet (R80). -/
def State.sessionsInOrder (s : State) : List Session := sortByKey Session.place s.sessions

/-- The open sessions of a station in ascending inlet order (R76). -/
def State.sessionsOf (a : StationIx) (s : State) : List Session :=
  s.sessionsInOrder.filter fun x => x.station = a

/-- An inlet is added to a station's CLOSE-NOW set, or becomes fresh again (R36). -/
def State.addCloseNow (a : StationIx) (n : InletIx) (s : State) : State :=
  s.modStation a fun t => { t with closeNow := t.closeNow.set n .fresh }

/-- A lockout entry or a disabling write ends every session of a station ABORTED, each inlet joining the CLOSE-NOW set
(R76). -/
def State.abortStation (a : StationIx) (s : State) : State :=
  (s.sessionsOf a).foldl (fun t x => (t.endSession .aborted .idle x).addCloseNow a x.inlet) s

/-- RESTART ends every session ABORTED, in order, and queues no CLOSE-NOW (R80, R44). -/
def State.abortAll (s : State) : State := s.sessionsInOrder.foldl (fun t x => t.endSession .aborted .idle x) s

/-! ### Deadlines (R71, R75) -/

/-- The session whose hatch deadline expires next, among those the elapsed seconds have reached: earliest deadline, then
station address, then inlet (R71). -/
def State.nextHatchExpiry (s : State) : Option Session :=
  (sortByKey (fun x : Session => x.deadline :: x.place)
    (s.sessions.filter fun x => x.deadline ≤ s.clock.elapsed)).head?

/-- HATCH_DEADLINE_EXPIRY (R71, R75): the next hatch deadline that the elapsed seconds have reached expires, if there is
one; its session ends TIMEOUT and the container enters FAULT with reason HATCH. -/
def execHatchDeadlineExpiry (s : State) : Host.Outcome State Fault Refusal :=
  .next (match s.nextHatchExpiry with
    | some x => s.endSession .timeout .faultHatch x
    | none => s)

/-! ### Judging a card (R64 to R70) -/

/-- The first number from n on that no open session holds; the count bounds the search (R61). -/
def freeNumber (open_ : List Session) : Nat → Word16 → Word16
  | 0, n => n
  | fuel + 1, n => if open_.any fun x => decide (x.number = n) then freeNumber open_ fuel (n + 1) else n

/-- The session that a grant opens (R61, R69). -/
def State.newSession (a : StationIx) (n : InletIx) (i : ContainerIx) (f : FractionIx) (c : Card) (s : State) : Session :=
  { number := s.nextSession, card := c.number, household := c.household, container := i, station := a, inlet := n,
    fraction := f, grantTime := s.clock.district, deadline := s.clock.elapsed + s.settings.hatchOpen }

/-- A station that is not in the session ring joins at the tail (R10). -/
def State.ringJoin (a : StationIx) (s : State) : State :=
  if a ∈ s.line.ring then s else { s with line := { s.line with ring := s.line.ring ++ [a] } }

/-- A session is opened (R69): the record, the container's state, the card's link, the ring; the next session number passes
over those held by open sessions (R61). -/
def State.openSession (x : Session) (s : State) : State :=
  let t := { s with sessions := s.sessions ++ [x],
                    nextSession := freeNumber (s.sessions ++ [x]) (s.sessions.length + 1) (s.nextSession + 1) }
  let t := t.modContainer x.container fun c => { c with state := .session }
  let t := t.modCard x.card fun c => { c with link := some x.number }
  t.ringJoin x.station

/-- Checks 6 to 9: the card (R66). -/
def State.cardChecks (card : Word32) (f : FractionIx) (s : State) : DenyReason ⊕ Card :=
  match s.card card with
  | none => .inl .unknownCard
  | some c =>
    match c.status with
    | .suspended => .inl .suspended
    | .revoked => .inl .revoked
    | .active =>
      if c.entitled.getLsbD f.val = false then .inl .fraction
      else if c.allowance[f] = 255 ∨ c.used[f] < c.allowance[f] then .inr c
      else .inl .quota

/-- Check 4: IDLE and SESSION pass (R65). -/
def ContainerState.admits : ContainerState → Bool
  | .idle => true
  | .session => true
  | .lifting => false
  | .fault _ => false

/-- Checks 1 to 5: the line, the station and the inlet's container (R65). -/
def State.inletChecks (a : StationIx) (inlet : Byte) (s : State) : DenyReason ⊕ (InletIx × ContainerIx × Container) :=
  if s.line.state ≠ .running then .inl .line
  else if s.stations[a].locked then .inl .lockout
  else
    match inletIx? inlet.toNat with
    | none => .inl .noInlet
    | some n =>
      if s.stations[a].config.inletCount < inletNo n then .inl .noInlet
      else
        match s.bound a n with
        | none => .inl .noInlet
        | some i =>
          match s.container i with
          | none => .inl .noInlet
          | some c =>
            if c.state.admits = false then .inl .inletOut
            else if c.params.tStop ≤ c.fill.e then .inl .full
            else .inr (n, i, c)

/-- Check 11: room for one more session and its deposit record (R68). -/
def State.hasCapacity (s : State) : Bool :=
  decide (s.sessions.length < Config.sessionCapacity) &&
    decide (s.deposits.length + s.sessions.length < Config.depositCapacity)

/-- Checks 10 and 11 and the grant (R67, R68, R69). A repeat is granted the remaining open time and changes nothing. -/
def State.grantOrDeny (a : StationIx) (n : InletIx) (i : ContainerIx) (f : FractionIx) (c : Card) (s : State) :
    Verdict × State :=
  match s.sessionAt a n with
  | some x =>
    if x.card = c.number then (.grant (x.deadline - s.clock.elapsed), s) else (.deny .inletBusy, s)
  | none =>
    if c.link.isSome then (.deny .cardBusy, s)
    else if s.hasCapacity then (.grant s.settings.hatchOpen, s.openSession (s.newSession a n i f c))
    else (.deny .capacity, s)

/-- An accepted CARD frame is judged through the eleven checks; a DENY changes nothing (R64). -/
def State.judgeCard (a : StationIx) (inlet : Byte) (card : Word32) (s : State) : Verdict × State :=
  match s.inletChecks a inlet with
  | .inl r => (.deny r, s)
  | .inr (n, i, c) =>
    match s.cardChecks card c.binding.fraction with
    | .inl r => (.deny r, s)
    | .inr k => s.grantOrDeny a n i c.binding.fraction k

/-! ### Hatch closures and lift frames (R72, R78, R96, R97, R98) -/

/-- A late closure clears a HATCH fault; a stray closure has no effect (R78). -/
def State.lateClosure (a : StationIx) (n : InletIx) (s : State) : State :=
  match s.bound a n with
  | none => s
  | some i => if (s.container i).map Container.state = some (.fault .hatch) then s.faultToIdle i else s

/-- HATCH CLOSED: ends the inlet's session DEPOSIT or EMPTY, or is a late or stray closure (R72). -/
def State.hatchClosed (a : StationIx) (inlet : Byte) (sensed : Bool) (s : State) : State :=
  match inletIx? inlet.toNat with
  | none => s
  | some n =>
    match s.sessionAt a n with
    | some x => s.endSession (if sensed then .deposit else .empty) .idle x
    | none => s.lateClosure a n

/-- The start of a lift at a container (R96). In SESSION the open session ends ABORTED and the container becomes LIFTING at
its container step; where no session names the container it becomes LIFTING all the same (a state no run reaches, log 22). -/
def State.startLift (i : ContainerIx) (s : State) : State :=
  match (s.container i).map Container.state with
  | some .idle => s.modContainer i (Container.startLift s.clock.elapsed s.settings.liftTimeout)
  | some .session =>
    match s.sessions.find? fun x => x.container = i with
    | some x => s.endSession .aborted .lifting x
    | none => s.modContainer i (Container.startLift s.clock.elapsed s.settings.liftTimeout)
  | some (.fault _) =>
    (s.modContainer i (Container.startLift s.clock.elapsed s.settings.liftTimeout)).raise (.inletFault i)
  | some .lifting => s
  | none => s

/-- LIFT END: completes the lift in LIFTING and FAULT with reason LIFT (R97); otherwise a lift is started and completed in
the one event (R98). -/
def State.endLift (i : ContainerIx) (s : State) : State :=
  match (s.container i).map Container.state with
  | some .lifting => s.completeLift i
  | some (.fault .lift) => s.completeLift i
  | some _ => (s.startLift i).completeLift i
  | none => s

/-- A frame for the container bound to (station, inlet); a frame for which none is found is discarded (R19). -/
def State.forBound (a : StationIx) (inlet : Byte) (act : ContainerIx → State → State) (s : State) : State :=
  match s.boundAt a inlet with
  | some i => act i s
  | none => s

end Sys2Proof.Machine
end

