-- ==== Sys2Proof/Machine/Stations.lean ====
section
/-! DEFINITION. The station table (02_stations_and_lockout.md): fault present and lockout, lock exits, station messages, the
CLOSE-NOW set, applying station writes, and the commands STATION_PUT, STATION_GET, LOCK, UNLOCK and STATION_MESSAGE. -/

namespace Sys2Proof.Machine

/-! ### Locks (R35, R37, R38, R41) -/

/-- The lock reason of a fault from the station. -/
def LockReasons.ofFault : LockReasons := { fault := true, line := false, command := false }

/-- The lock reason of a lost link. -/
def LockReasons.ofLine : LockReasons := { fault := false, line := true, command := false }

/-- The lock reason of a LOCK request. -/
def LockReasons.ofCommand : LockReasons := { fault := false, line := false, command := true }

/-- The union of two sets of lock reasons. -/
def LockReasons.union (x y : LockReasons) : LockReasons :=
  { fault := x.fault || y.fault, line := x.line || y.line, command := x.command || y.command }

/-- A reason is added; LOCK is raised when this changes the lock reasons of a locked station (R41). -/
def State.addReason (a : StationIx) (r : LockReasons) (s : State) : State :=
  let was := s.stations[a]
  let t := s.modStation a fun x => { x with reasons := x.reasons.union r }
  if was.locked = true ∧ was.reasons.union r ≠ was.reasons then t.raise (.lock a) else t

/-- A lockout entry (R35). -/
def State.lockoutEntry (a : StationIx) (r : LockReasons) (s : State) : State :=
  ((s.modStation a fun x => { x with locked := true, reasons := r }).abortStation a).raise (.lock a)

/-- The lock leaves: locked no, no lock reasons, LOCK raised (R37, R38, R40). -/
def State.leaveLock (a : StationIx) (s : State) : State :=
  (s.modStation a fun x => { x with locked := false, reasons := .none }).raise (.lock a)

/-- The conditions under which a lock leaves by itself, under either exit mode (R37, R38). -/
def Station.exitDue (mode : ExitMode) (t : Station) : Bool :=
  decide (t.config.exitMode = mode) && t.locked && !t.fault && !t.hold && !t.reasons.command

/-- An AUTO-mode lock leaves when its conditions hold (R37). -/
def State.autoExit (a : StationIx) (s : State) : State := if s.stations[a].exitDue .auto then s.leaveLock a else s

/-- A CYCLE-mode lock leaves at a wrap when its conditions hold (R38). -/
def State.cycleExit (a : StationIx) (s : State) : State := if s.stations[a].exitDue .cycle then s.leaveLock a else s

/-! ### Messages (R43) -/

/-- The station's message is answered with a result: the deferred response is released and the slot becomes absent. -/
def State.answerMessage (a : StationIx) (code : ResultCode) (s : State) : State :=
  match s.stations[a].message with
  | none => s
  | some m => (s.release kindStationMessage m.tag code []).modStation a fun x => { x with message := none }

/-- A MESSAGE ACK: answers DONE a message that has been carried (R43). -/
def State.messageAck (a : StationIx) (s : State) : State :=
  match s.stations[a].message with
  | none => s
  | some m => if m.carried = true ∨ m.tries < 3 then s.answerMessage a .done else s

/-- A spent try is reported: tries left falls by one and the carried flag is cleared; at 0 the message fails (R43). -/
def State.messageTry (a : StationIx) (s : State) : State :=
  match s.stations[a].message with
  | none => s
  | some m =>
    if m.carried = false then s
    else if m.tries ≤ 1 then s.answerMessage a .failed
    else s.modStation a fun x => { x with message := some { m with tries := m.tries - 1, carried := false } }

/-! ### CLOSE-NOW (R36) -/

/-- Every inlet in the set is marked carried when a poll transmission begins (R36). -/
def carryCloseNow (set : Vector CloseMark Config.inlets) : Vector CloseMark Config.inlets :=
  set.map fun m => if m = .fresh then .carried else m

/-- After a GOOD turn every inlet still marked carried is removed (R36). -/
def settleCloseNow (set : Vector CloseMark Config.inlets) : Vector CloseMark Config.inlets :=
  set.map fun m => if m = .carried then .out else m

/-! ### Faults (R33, R34) -/

/-- The header's fault summary at the end of a GOOD turn (R33). -/
def State.faultSummary (a : StationIx) (summary : BitVec 4) (s : State) : State :=
  let was := s.stations[a]
  let t := s.modStation a fun x => { x with summary := summary, hold := false }
  let t := if summary ≠ was.summary then t.raise (.lock a) else t
  if summary ≠ 0 then
    let t := t.addReason a .ofFault
    if was.fault then t
    else
      let t := t.modStation a fun x => { x with fault := true }
      if was.locked then t else t.lockoutEntry a .ofFault
  else if was.fault || was.hold then (t.modStation a fun x => { x with fault := false }).autoExit a
  else t

/-- A line fault: the station's link status entered LOST or DISABLED (R34). -/
def State.lineFault (a : StationIx) (s : State) : State :=
  let was := s.stations[a]
  let t := (s.addReason a .ofLine).modStation a fun x => { x with hold := false }
  let t := (t.answerMessage a .failed).modStation a fun x => { x with fault := true }
  if was.fault = false ∧ was.locked = false then t.lockoutEntry a .ofLine else t

/-! ### Applying a station write (R31, R23) -/

/-- The link status becomes UNKNOWN with both runs 0; LINE is raised when the status changed; the accept mask is kept
(R23). -/
def State.linkUnknown (a : StationIx) (s : State) : State :=
  let t := s.modLink a fun l => { l with status := .unknown, noReply := 0, mismatch := 0 }
  if s.links[a].status ≠ .unknown then t.raise (.line a) else t

/-- A station that stops being configured or enabled: UNKNOWN unless it is DISABLED (R23). -/
def State.linkDropped (a : StationIx) (s : State) : State :=
  if s.links[a].status = .disabled then s else s.linkUnknown a

/-- The record takes the values of R28; the notice pending flags are kept as they stood. -/
def Station.unconfigure (t : Station) : Station := { Station.reset with lockFlag := t.lockFlag, lineFlag := t.lineFlag }

/-- A write with configured no is applied (R31, R28, R23). -/
def State.applyUnconfigured (a : StationIx) (s : State) : State :=
  let was := s.stations[a]
  let t := (s.answerMessage a .failed).modStation a Station.unconfigure
  let t := if was.config.configured && was.locked then t.raise (.lock a) else t
  if was.config.configured then t.linkDropped a else t

/-- A write with configured yes is applied, up to the lock exit (R31, R23). -/
def State.applyConfigured (a : StationIx) (c : StationConfig) (s : State) : State :=
  let was := s.stations[a]
  let t := s.modStation a fun x => { x with config := c, staged := none }
  let t := if was.config.configured && was.config.enabled && !c.enabled then
      (t.abortStation a).answerMessage a .failed
    else t
  if was.config.enabled && !c.enabled then t.linkDropped a
  else if c.enabled && decide (t.links[a].status = .disabled) then t.linkUnknown a
  else t

/-- The fields of a write are set, with their consequences but for the lock exit (R31). -/
def State.applyFields (a : StationIx) (c : StationConfig) (s : State) : State :=
  if c.configured then s.applyConfigured a c else s.applyUnconfigured a

/-- A write is applied, at once or from a staged part: with an exit mode of AUTO a lock can leave (R30, R31, R37). -/
def State.applyStation (a : StationIx) (c : StationConfig) (s : State) : State := (s.applyFields a c).autoExit a

/-- Step 1 of a cycle wrap for one record: the staged part, then the CYCLE-mode exit (R30). -/
def State.stationWrap (s : State) (a : StationIx) : State :=
  (match s.stations[a].staged with
    | some c => s.applyStation a c
    | none => s).cycleExit a

/-! ### RESTART (R44) -/

/-- A staged part applied by RESTART: without a lock exit, which step 3 takes over (R44; DEDUCED, log 12). -/
def State.restartStaged (s : State) (a : StationIx) : State :=
  match s.stations[a].staged with
  | some c => s.applyFields a c
  | none => s

/-- Lock and fault state after RESTART (R44 step 3). -/
def Station.restarted (t : Station) : Station :=
  { (if t.config.configured then { t with fault := false, summary := 0, hold := t.locked } else t) with
    closeNow := Vector.replicate _ .out }

/-- The LOCK and LINE pending flags of every station as another state holds them (R44 step 5). -/
def State.keepStationFlags (old s : State) : State :=
  { s with stations := Vector.ofFn fun a : StationIx =>
      { s.stations[a] with lockFlag := old.stations[a].lockFlag, lineFlag := old.stations[a].lineFlag } }

/-- RESTART's share of the station table, after every session has been aborted (R44). -/
def State.restartStations (s : State) : State :=
  let t := (List.finRange Config.stations).foldl State.restartStaged s
  let t := { t with stations := t.stations.map Station.restarted }
  let t := (List.finRange Config.stations).foldl (fun u a => u.answerMessage a .failed) t
  s.keepStationFlags t

/-! ### Commands -/

/-- A configured container is bound to the station at an inlet above n (R29, R93). -/
def State.boundAbove (a : StationIx) (n : Nat) (s : State) : Bool :=
  (List.finRange Config.containers).any fun i =>
    match s.container i with
    | some c => decide (c.binding.station = a) && decide (n < inletNo c.binding.inlet)
    | none => false

/-- A write is applied at once: the line is STOPPED and no turn is in flight (R29). -/
def State.writesAtOnce (s : State) : Bool := decide (s.line.state = .stopped) && s.line.turn.isNone

/-- STATION PUT, judged (R29). -/
def State.stationPut (f : RequestFrame) (s : State) : State :=
  match stationFields? f with
  | none => s.respond f .range []
  | some (a, c) =>
    if s.boundAbove a (if c.configured then c.inletCount else 0) then s.respond f .collide []
    else if s.writesAtOnce then (s.applyStation a c).respond f .done []
    else (s.modStation a fun x => { x with staged := some c }).respond f .staged []

/-- STATION_PUT (R29). -/
def execStationPut (s : State) : Host.Outcome State Fault Refusal := .next (s.takeRequest 0x10 (· = 6) State.stationPut)

/-- STATION GET, judged (R32). -/
def State.stationGet (f : RequestFrame) (s : State) : State :=
  match stationIx? (f.u8 1) with
  | none => s.respond f .range []
  | some a => s.respond f .done (stationReport a s.stations[a] s.links[a])

/-- STATION_GET (R32). -/
def execStationGet (s : State) : Host.Outcome State Fault Refusal := .next (s.takeRequest 0x11 (· = 2) State.stationGet)

/-- LOCK, judged (R39). -/
def State.lockStation (f : RequestFrame) (s : State) : State :=
  match stationIx? (f.u8 1) with
  | none => s.respond f .range []
  | some a =>
    if s.stations[a].config.configured = false then s.respond f .state []
    else if s.stations[a].locked then (s.addReason a .ofCommand).respond f .done []
    else (s.lockoutEntry a .ofCommand).respond f .done []

/-- LOCK (R39). -/
def execLock (s : State) : Host.Outcome State Fault Refusal := .next (s.takeRequest 0x12 (· = 2) State.lockStation)

/-- UNLOCK, judged (R40). -/
def State.unlockStation (f : RequestFrame) (s : State) : State :=
  match stationIx? (f.u8 1) with
  | none => s.respond f .range []
  | some a =>
    if s.stations[a].config.configured = false then s.respond f .state []
    else if s.stations[a].locked = false then s.respond f .done []
    else if s.stations[a].fault || s.stations[a].hold then s.respond f .state []
    else (s.leaveLock a).respond f .done []

/-- UNLOCK (R40). -/
def execUnlock (s : State) : Host.Outcome State Fault Refusal := .next (s.takeRequest 0x13 (· = 2) State.unlockStation)

/-- STATION MESSAGE, judged (R42). -/
def State.stationMessage (f : RequestFrame) (s : State) : State :=
  match stationIx? (f.u8 1) with
  | none => s.respond f .range []
  | some a =>
    let t := s.stations[a]
    if t.config.configured = false ∨ t.config.enabled = false ∨ s.links[a].status = .disabled then s.respond f .state []
    else if t.message.isSome ∨ Config.messagePool ≤ s.poolCount then s.respond f .busy []
    else
      (s.modStation a fun x =>
        { x with message := some { payload := f.payload.drop 2, tag := f.tag, tries := 3, carried := false } }).deferral

/-- STATION_MESSAGE (R42). -/
def execStationMessage (s : State) : Host.Outcome State Fault Refusal :=
  .next (s.takeRequest kindStationMessage (fun n => decide (3 ≤ n ∧ n ≤ 26)) State.stationMessage)

end Sys2Proof.Machine
end

