-- ==== Sys2Proof/Machine/Cards.lean ====
section
/-! DEFINITION. The card table (03_resident_cards.md): the commands CARD_PUT, CARD_DROP, CARD_STATUS, CARD_GET and
PERIOD_ROLL. Charging and the session link are in Sessions.lean. -/

namespace Sys2Proof.Machine

/-- A new record takes the position that keeps the card numbers ascending (R46). -/
def insertCard (c : Card) : List Card → List Card
  | [] => [c]
  | d :: ds => if c.number.toNat < d.number.toNat then c :: d :: ds else d :: insertCard c ds

/-- A new card record: used counts 0, no last use, no session link (R51). -/
def CardFields.newCard (x : CardFields) : Card :=
  { number := x.number, household := x.household, status := x.status, entitled := x.entitled, allowance := x.allowance,
    used := Vector.replicate _ 0, lastUse := none, link := none }

/-- A used count under a new allowance: kept when unlimited, else the smaller of the two (R52). -/
def clampUsed (used allowance : Nat) : Nat := if allowance = 255 then used else min used allowance

/-- A replace: the carried fields, with every used count set under its new allowance (R52). -/
def CardFields.replace (x : CardFields) (c : Card) : Card :=
  { c with household := x.household, status := x.status, entitled := x.entitled, allowance := x.allowance,
           used := Vector.zipWith clampUsed c.used x.allowance }

/-- CARD PUT, judged (R50, R51, R52): insert or replace, and the card count, come with DONE. -/
def State.cardPut (f : RequestFrame) (s : State) : State :=
  match cardFields? f with
  | none => s.respond f .range []
  | some x =>
    match s.card x.number with
    | none =>
      if Config.cardCapacity ≤ s.cards.length then s.respond f .full []
      else
        let t := { s with cards := insertCard x.newCard s.cards }
        t.respond f .done (0 :: be2 t.cards.length)
    | some c =>
      if c.link.isSome then s.respond f .collide []
      else (s.modCard x.number x.replace).respond f .done (1 :: be2 s.cards.length)

/-- CARD_PUT (R51). -/
def execCardPut (s : State) : Host.Outcome State Fault Refusal := .next (s.takeRequest 0x01 (· = 13) State.cardPut)

/-- CARD DROP, judged (R50, R53): the card count comes with DONE. -/
def State.cardDrop (f : RequestFrame) (s : State) : State :=
  let number := f.card 1
  if validCard number = false then s.respond f .range []
  else
    match s.card number with
    | none => s.respond f .absent []
    | some c =>
      if c.link.isSome then s.respond f .collide []
      else
        let t := { s with cards := s.cards.filter fun d => d.number ≠ number }
        t.respond f .done (be2 t.cards.length)

/-- CARD_DROP (R53). -/
def execCardDrop (s : State) : Host.Outcome State Fault Refusal := .next (s.takeRequest 0x02 (· = 5) State.cardDrop)

/-- CARD STATUS, judged (R50, R54): taken also while the session link is present. -/
def State.cardStatus (f : RequestFrame) (s : State) : State :=
  let number := f.card 1
  match cardStatus? (f.u8 5) with
  | none => s.respond f .range []
  | some status =>
    if validCard number = false then s.respond f .range []
    else
      match s.card number with
      | none => s.respond f .absent []
      | some _ => (s.modCard number fun c => { c with status := status }).respond f .done []

/-- CARD_STATUS (R54). -/
def execCardStatus (s : State) : Host.Outcome State Fault Refusal := .next (s.takeRequest 0x03 (· = 6) State.cardStatus)

/-- The record with the smallest card number greater than a number (R55). -/
def State.cardAfter (number : Word32) (s : State) : Option Card := s.cards.find? fun c => number.toNat < c.number.toNat

/-- The record, the period number and the card count that CARD GET returns (R55, R173). -/
def State.cardReport (c : Card) (s : State) : List Byte := c.bytes ++ be2 s.period.toNat ++ be2 s.cards.length

/-- CARD GET, judged (R50, R55): EXACT or NEXT. -/
def State.cardGet (f : RequestFrame) (s : State) : State :=
  let number := f.card 2
  let answer (found : Option Card) : State :=
    match found with
    | some c => s.respond f .done (s.cardReport c)
    | none => s.respond f .absent []
  if f.u8 1 = 0 then
    if validCard number = false then s.respond f .range [] else answer (s.card number)
  else if f.u8 1 = 1 then
    if number = 0xFFFFFFFF then s.respond f .range [] else answer (s.cardAfter number)
  else s.respond f .range []

/-- CARD_GET (R55). -/
def execCardGet (s : State) : Host.Outcome State Fault Refusal := .next (s.takeRequest 0x04 (· = 6) State.cardGet)

/-- PERIOD ROLL, judged (R59): every used count becomes 0 and the period number is the carried one. -/
def State.periodRoll (f : RequestFrame) (s : State) : State :=
  let t : State := { s with cards := s.cards.map fun c => { c with used := Vector.replicate _ 0 },
                            period := BitVec.ofNat 16 (f.u16 1) }
  t.respond f .done []

/-- PERIOD_ROLL (R59). -/
def execPeriodRoll (s : State) : Host.Outcome State Fault Refusal := .next (s.takeRequest 0x05 (· = 3) State.periodRoll)

end Sys2Proof.Machine
end

