-- ==== Sys2Proof/Machine/Line.lean ====
section
/-! DEFINITION. The line controller (01_field_line_and_poll_cycle.md): line states, the cycle wrap, the choice of turns, the
poll turn from its transmission to its end, the line test, and their commands. -/

namespace Sys2Proof.Machine

/-! ### The cycle wrap and the choice of turns (R9, R11, R12) -/

/-- The stations of the poll list: configured, enabled and not DISABLED, in ascending address (R9). -/
def State.pollStations (s : State) : List StationIx :=
  (List.finRange Config.stations).filter fun a =>
    s.stations[a].config.configured && s.stations[a].config.enabled && decide (s.links[a].status ≠ .disabled)

/-- A cycle wrap in its four steps (R12); the wrap is no longer due. -/
def State.wrap (s : State) : State :=
  let t := (List.finRange Config.stations).foldl State.stationWrap s
  { t with line := { t.line with
      cycleCount := t.line.cycleCount + 1, pollList := t.pollStations, pointer := 0, wrapDue := false } }

/-- The line state lets poll turns begin (R11). -/
def State.polling (s : State) : Bool := decide (s.line.state = .running) || decide (s.line.state = .draining)

/-- A session slot for the station at the ring's head, if the ring is not empty (R11). -/
def State.chooseSession (s : State) : State :=
  match s.line.ring with
  | [] => s
  | a :: _ => { s with line := { s.line with nextTurn := some (a, .session) } }

/-- The next station of the poll list from the regular pointer that is not DISABLED, with the entries passed up to and with
it (R11). -/
def State.nextRegular (s : State) : Option (StationIx × Nat) :=
  (((s.line.pollList.zipIdx 1).drop s.line.pointer).find? fun p => decide (s.links[p.1].status ≠ .disabled))

/-- A regular slot for a station, with the regular pointer moved past it (R11). -/
def State.chooseRegular (a : StationIx) (passed : Nat) (s : State) : State :=
  { s with line := { s.line with nextTurn := some (a, .regular), pointer := passed } }

/-- The choice that follows a wrap: the first station of the rebuilt list, or a session slot when it is empty (R11, R12). -/
def State.chooseAfterWrap (s : State) : State :=
  if s.polling = false then s
  else
    match s.line.pollList with
    | [] => s.chooseSession
    | a :: _ => s.chooseRegular a 1

/-- The choice of the next turn, after a turn of a kind or with none before it (R11): session slots alone while the poll
list is empty; a session slot after a regular one when the ring is not empty; else the next station, with a wrap when the
regular pointer passes the end of the list. -/
def State.chooseTurn (previous : Option SlotKind) (s : State) : State :=
  if s.polling = false then s
  else if s.line.pollList = [] then s.chooseSession
  else if previous = some .regular ∧ s.line.ring ≠ [] then s.chooseSession
  else
    match s.nextRegular with
    | some (a, passed) => s.chooseRegular a passed
    | none => s.wrap.chooseAfterWrap

/-- A turn ends: a wrap that fell due during it is made, and while the line state lets turns begin the next one is chosen
(R5, R11, R12). -/
def State.endTurn (kind : SlotKind) (s : State) : State :=
  let t := { s with line := { s.line with turn := none } }
  let t := if t.line.wrapDue then t.wrap else t
  t.chooseTurn (some kind)

/-! ### Link status (R21, R22) -/

/-- Outcome of a turn (R15). -/
inductive TurnOutcome where
  | good | noReply | mismatch | badHeader
  deriving DecidableEq, Repr

/-- The link record after a turn's outcome (R21). -/
def Link.after (o : TurnOutcome) (l : Link) : Link :=
  match o with
  | .good => { l with status := .online, noReply := 0, mismatch := 0 }
  | .mismatch =>
    let run := min 2 (l.mismatch + 1)
    { l with status := if run = 2 then .disabled else l.status, noReply := 0, mismatch := run }
  | .noReply | .badHeader =>
    let run := min 3 (l.noReply + 1)
    { l with status := if run = 3 then .lost else l.status, noReply := run, mismatch := 0 }

/-- The link status and runs are updated; a change raises LINE, and entering LOST or DISABLED is reported to the station
table as a line fault (R21, R22). -/
def State.linkOutcome (a : StationIx) (o : TurnOutcome) (s : State) : State :=
  let was := s.links[a]
  let now := was.after o
  let t := s.modLink a fun _ => now
  if now.status = was.status then t
  else
    let u := t.raise (.line a)
    if now.status = .lost ∨ now.status = .disabled then u.lineFault a else u

/-- Step 7 of the hand-on: a message carried in the turn has spent a try (R18, R24). -/
def State.reportTry (t : Turn) (s : State) : State := if t.message then s.messageTry t.station else s

/-- A turn ends with nothing handed on: steps 1 and 7, and the end of the turn (R18). -/
def State.failTurn (t : Turn) (o : TurnOutcome) (s : State) : State :=
  ((s.linkOutcome t.station o).reportTry t).endTurn t.kind

/-! ### Accepted frames (R16, R19) -/

/-- The hand-on of the frames under way: the state, the accepted positions, the VERDICT payloads so far. -/
structure HandOn where
  state : State
  positions : BitVec 4
  verdicts : List (List Byte)
  deriving DecidableEq, Repr

/-- A frame can be taken: a REPORT from a station whose relay flag is set needs room in the relay queue (R16). -/
def State.canTake (a : StationIx) (f : StationFrame) (s : State) : Bool :=
  match f with
  | .report _ => !s.stations[a].config.relay || decide (s.relay.length < Config.relayCapacity)
  | _ => true

/-- A report joins the tail of the relay queue, with the next arrival number (R163, R164). -/
def State.relayReport (a : StationIx) (reply : Byte) (payload : List Byte) (s : State) : State :=
  { s with relay := s.relay ++ [{ arrival := s.arrivals, station := a, reply, payload }], arrivals := s.arrivals + 1 }

/-- An accepted frame goes to the block that owns its matter; a CARD frame gives a VERDICT payload (R19, R20). -/
def State.handFrame (a : StationIx) (reply : Byte) (f : StationFrame) (s : State) : State × List (List Byte) :=
  match f with
  | .card inlet card =>
    let r := s.judgeCard a inlet card
    (r.2, [verdictPayload inlet card r.1])
  | .hatchClosed inlet sensed => (s.hatchClosed a inlet sensed, [])
  | .level inlet d => (s.forBound a inlet fun i t => t.levelReading i d, [])
  | .liftStart inlet => (s.forBound a inlet State.startLift, [])
  | .liftEnd inlet => (s.forBound a inlet State.endLift, [])
  | .messageAck => (s.messageAck a, [])
  | .report payload => (if s.stations[a].config.relay then s.relayReport a reply payload else s, [])
  | .other => (s, [])

/-- One frame at its position is judged for acceptance and handed on (R16, R18 step 4). -/
def HandOn.judge (a : StationIx) (reply : Byte) (count : Nat) (h : HandOn) (p : RawFrame × Nat) : HandOn :=
  if p.2 ≤ count ∧ p.1.sound = true then
    match stationFrame? p.1 with
    | none => h
    | some f =>
      if h.state.canTake a f then
        let r := h.state.handFrame a reply f
        { state := r.1, positions := h.positions ||| (1#4 <<< (p.2 - 1)), verdicts := h.verdicts ++ r.2 }
      else h
  else h

/-- The frames of a GOOD reply in position order (R18 step 4). -/
def State.handFrames (a : StationIx) (reply : Byte) (count : Nat) (frames : List RawFrame) (s : State) : HandOn :=
  (frames.zipIdx 1).foldl (HandOn.judge a reply count) { state := s, positions := 0, verdicts := [] }

/-- Steps 1 to 3 of the hand-on: link status, CLOSE-NOW settlement, fault summary (R18). -/
def State.goodHeader (a : StationIx) (summary : BitVec 4) (s : State) : State :=
  ((s.linkOutcome a .good).modStation a fun x => { x with closeNow := settleCloseNow x.closeNow }).faultSummary a summary

/-- Step 5 of the hand-on: the accept mask is replaced (R17, R18). -/
def HandOn.masked (a : StationIx) (reply : Byte) (h : HandOn) : State :=
  h.state.modLink a fun l => { l with mask := some { reply, positions := h.positions } }

/-- Step 6 of the hand-on: the closing transmission begins (R18, R20). -/
def State.beginClosing (t : Turn) (verdicts : List (List Byte)) (s : State) : State :=
  { s with line := { s.line with
      turn := some { t with phase := .closing }, flTxd := closingChars t.station verdicts } }

/-- The hand-on of a GOOD reply in the order of R18: header, frames, accept mask, closing transmission, message try; the
turn ends here unless a closing transmission follows (R14, R20). -/
def State.goodReply (t : Turn) (reply : Byte) (summary : BitVec 4) (count : Nat) (frames : List RawFrame) (s : State) :
    State :=
  let h := (s.goodHeader t.station summary).handFrames t.station reply count frames
  let u := h.masked t.station reply
  if h.verdicts = [] then (u.reportTry t).endTurn t.kind else (u.beginClosing t h.verdicts).reportTry t

/-! ### Commands of the poll turn -/

/-- A turn begins (R13, R36, R43): the poll transmission is sent, its CLOSE-NOW inlets and its message are marked carried,
and a station served in a session slot moves to the tail of the ring (R11). -/
def State.beginTurn (a : StationIx) (kind : SlotKind) (s : State) : State :=
  let x := s.stations[a]
  let inlets := closeInlets x.closeNow
  let t := s.modStation a fun y =>
    { y with closeNow := carryCloseNow y.closeNow, message := y.message.map fun m => { m with carried := true } }
  { t with line := { t.line with
      turn := some { station := a, kind, closeNow := inlets, message := x.message.isSome, rate := s.settings.rate,
                     phase := .sendingPoll }
      nextTurn := none
      ring := if kind = .session ∧ a ∈ t.line.ring then (t.line.ring.filter fun b => b ≠ a) ++ [a] else t.line.ring
      flTxd := pollChars a s.links[a].mask inlets x.message } }

/-- The state with the next turn chosen: as it stands, or chosen now (R11). -/
def State.withNextTurn (s : State) : State := if s.line.nextTurn.isSome then s else s.chooseTurn none

/-- The chosen turn begins, if there is one (R11, R13). -/
def State.beginNextTurn (s : State) : State :=
  match s.line.nextTurn with
  | some (a, kind) => s.beginTurn a kind
  | none => s

/-- POLL_TRANSMISSION (R11, R13): begins the turn chosen when the last one ended; with none chosen yet the choice is made
now. Nothing happens while a turn is in flight, in STOPPED and TEST, or when no station has a slot. -/
def execPollTransmission (s : State) : Host.Outcome State Fault Refusal :=
  .next (if s.line.turn.isSome || !s.polling then s else s.withNextTurn.beginNextTurn)

/-- Changes the phase of the turn in flight. -/
def State.setPhase (t : Turn) (phase : TurnPhase) (s : State) : State :=
  { s with line := { s.line with turn := some { t with phase := phase } } }

/-- POLL_TRANSMISSION_END (R14, R8): the reply start window opens with the window value now in force. -/
def execPollTransmissionEnd (s : State) : Host.Outcome State Fault Refusal :=
  .next (match s.line.turn with
    | some t => if t.phase = .sendingPoll then s.setPhase t (.window s.settings.window) else s
    | none => s)

/-- REPLY_START (R14): the station's address character arrives within the window. -/
def execReplyStart (address : Byte) (s : State) : Host.Outcome State Fault Refusal :=
  .next (match s.line.turn with
    | some t =>
      match t.phase with
      | .window _ => s.setPhase t (.receiving address)
      | _ => s
    | none => s)

/-- REPLY_WINDOW_EXPIRY (R14): no reply start within the window; the turn ends NO_REPLY. -/
def execReplyWindowExpiry (s : State) : Host.Outcome State Fault Refusal :=
  .next (match s.line.turn with
    | some t =>
      match t.phase with
      | .window _ => s.failTurn t .noReply
      | _ => s
    | none => s)

/-- REPLY_LENGTH_LIMIT (R14): the reply still runs 150 ms after its start; everything received is discarded. -/
def execReplyLengthLimit (s : State) : Host.Outcome State Fault Refusal :=
  .next (match s.line.turn with
    | some t =>
      match t.phase with
      | .receiving _ => s.setPhase t .overlong
      | _ => s
    | none => s)

/-- REPLY_OVERRUN_TURN_END (R14): after an overlong reply the turn ends NO_REPLY. -/
def execReplyOverrunTurnEnd (s : State) : Host.Outcome State Fault Refusal :=
  .next (match s.line.turn with
    | some t => if t.phase = .overlong then s.failTurn t .noReply else s
    | none => s)

/-- The end of a reply: classified, and for GOOD handed on (R15, R18). -/
def State.replyEnd (t : Turn) (address : Byte) (chars : List LineChar) (s : State) : State :=
  match classify t.station address chars with
  | .mismatch => s.failTurn t .mismatch
  | .badHeader => s.failTurn t .badHeader
  | .good reply summary count frames => s.goodReply t reply summary count frames

/-- REPLY_END (R15, R18). -/
def execReplyEnd (chars : List LineChar) (s : State) : Host.Outcome State Fault Refusal :=
  .next (match s.line.turn with
    | some t =>
      match t.phase with
      | .receiving address => s.replyEnd t address chars
      | _ => s
    | none => s)

/-- CLOSING_TRANSMISSION_END (R14, R20): the turn ends. -/
def execClosingTransmissionEnd (s : State) : Host.Outcome State Fault Refusal :=
  .next (match s.line.turn with
    | some t => if t.phase = .closing then s.endTurn t.kind else s
    | none => s)

/-- EMPTY_LIST_WRAP_INTERVAL (R12): with an empty poll list in RUNNING or DRAINING a wrap falls due, and is made at once
unless a turn is in flight. -/
def execEmptyListWrapInterval (s : State) : Host.Outcome State Fault Refusal :=
  .next (if s.polling = true ∧ s.line.pollList = [] then
      if s.line.turn.isSome then { s with line := { s.line with wrapDue := true } } else s.wrap
    else s)

/-! ### Line requests (R2, R3, R6) -/

/-- The line state changes, and nothing else. -/
def State.setLineState (x : LineState) (s : State) : State := { s with line := { s.line with state := x } }

/-- LINE START, judged (R2). -/
def State.lineStart (f : RequestFrame) (s : State) : State :=
  match s.line.state with
  | .stopped =>
    let t := { s with line := { s.line with state := .running, nextTurn := none } }
    (if t.line.turn.isSome then { t with line := { t.line with wrapDue := true } } else t.wrap).respond f .done []
  | .draining =>
    let t := { s with line := { s.line with state := .running, heldStop := none } }
    (match s.line.heldStop with
      | some tag => t.release kindLineStop tag .failed []
      | none => t).respond f .done []
  | .running => s.respond f .done []
  | .test => s.respond f .state []

/-- LINE_START (R2). -/
def execLineStart (s : State) : Host.Outcome State Fault Refusal := .next (s.takeRequest 0x40 (· = 1) State.lineStart)

/-- LINE STOP, judged (R3). -/
def State.lineStop (f : RequestFrame) (s : State) : State :=
  match s.line.state with
  | .running =>
    if s.sessions = [] then (s.setLineState .stopped).respond f .done []
    else State.deferral { s with line := { s.line with state := .draining, heldStop := some f.tag } }
  | .draining => s.respond f .busy []
  | .stopped => s.respond f .done []
  | .test => s.respond f .state []

/-- LINE_STOP (R3). -/
def execLineStop (s : State) : Host.Outcome State Fault Refusal :=
  .next (s.takeRequest kindLineStop (· = 1) State.lineStop)

/-- LINE TEST, judged (R6). -/
def State.lineTest (f : RequestFrame) (s : State) : State :=
  match s.line.state with
  | .stopped =>
    State.deferral
      { s with line := { s.line with state := .test, test := some { tag := f.tag, sent := 0, matched := 0 } } }
  | .running => s.respond f .state []
  | .draining => s.respond f .state []
  | .test => s.respond f .state []

/-- LINE_TEST (R6). -/
def execLineTest (s : State) : Host.Outcome State Fault Refusal :=
  .next (s.takeRequest kindLineTest (· = 1) State.lineTest)

/-! ### The line test (R6, R7) -/

/-- TEST_TRANSMISSION (R5, R7): in TEST, with no turn in flight and no test transmission unjudged, the next of the 16 test
transmissions is sent. -/
def execTestTransmission (s : State) : Host.Outcome State Fault Refusal :=
  .next (match s.line.test with
    | some x =>
      if s.line.state = .test ∧ s.line.turn = none ∧ s.line.testTx = none ∧ x.sent < 16 then
        let chars := testChars (x.sent + 1)
        { s with line := { s.line with test := some { x with sent := x.sent + 1 }, testTx := some chars, flTxd := chars } }
      else s
    | none => s)

/-- The line test record after a transmission has been judged: a match when exactly the characters sent were heard (R7). -/
def LineTest.judged (sent heard : List LineChar) (x : LineTest) : LineTest :=
  if heard = sent then { x with matched := x.matched + 1 } else x

/-- What follows a judged transmission: after the sixteenth the line becomes STOPPED and the response is released DONE with
the match count (R6); before it the test goes on. -/
def State.settleTest (x : LineTest) (s : State) : State :=
  if x.sent = 16 then
    State.release kindLineTest x.tag .done [byte x.matched]
      { s with line := { s.line with state := .stopped, test := none, testTx := none } }
  else { s with line := { s.line with test := some x, testTx := none } }

/-- TEST_TRANSMISSION_JUDGED (R7, R6): the test transmission sent and not yet judged is judged by what was heard. -/
def execTestTransmissionJudged (heard : List LineChar) (s : State) : Host.Outcome State Fault Refusal :=
  .next (match s.line.test, s.line.testTx with
    | some x, some sent => s.settleTest (x.judged sent heard)
    | _, _ => s)

end Sys2Proof.Machine
end

