-- ==== Sys2Proof/Machine/Uplink.lean ====
section
/-! DEFINITION. The uplink controller (09_uplink_management_requests_and_notices.md): the receiver, requests of unknown kind,
settings, district time and status, the sender with its five sources, and the advance of the seconds. -/

namespace Sys2Proof.Machine

/-! ### Receiving (R154, R155) -/

/-- SYNC_BYTE_RECEIVED (R154): while hunting, a sync byte starts a frame. -/
def execSyncByteReceived (s : State) : Host.Outcome State Fault Refusal :=
  .next { s with intake := { s.intake with receiver := .receiving } }

/-- The receiver discards the frame and hunts again (R154). -/
def State.hunt (s : State) : State := { s with intake := { s.intake with receiver := .hunting } }

/-- INTERBYTE_TIMEOUT (R154): more than 20 ms between two bytes of a frame. -/
def execInterbyteTimeout (s : State) : Host.Outcome State Fault Refusal := .next s.hunt

/-- LENGTH_FIELD_EXCEEDED (R154): the length field exceeds 26. -/
def execLengthFieldExceeded (s : State) : Host.Outcome State Fault Refusal := .next s.hunt

/-- A request frame is offered to the FIFO: it joins the tail, or is discarded with OVERRUN set when the FIFO is full
(R155). -/
def State.offer (f : RequestFrame) (s : State) : State :=
  if s.intake.fifo.length < Config.fifoCapacity then { s with intake := { s.intake with fifo := s.intake.fifo ++ [f] } }
  else { s with intake := { s.intake with overrun := true } }

/-- The greatest payload of a management request (R172). -/
def greatestPayload : Nat := 26

/-- A frame received to its length is checked and the receiver hunts again; a sound frame of the request class is offered
(R154, R169, R172). Bytes that are not yet a whole frame leave the receiver receiving (log 20). -/
def State.receiveFrame (bytes : List Byte) (s : State) : State :=
  match bytes with
  | cls :: tag :: hi :: lo :: rest =>
    let len := beNat [hi, lo]
    if greatestPayload < len then s.hunt
    else if rest.length < len + 2 then s
    else
      let payload := rest.take len
      let sound := decide ((rest.drop len).take 2 = crcBytes (cls :: tag :: hi :: lo :: payload))
      if sound = true ∧ cls = 0x01 then s.hunt.offer { tag, payload } else s.hunt
  | _ => s

/-- UPLINK_FRAME_RECEIVED (R154, R155): while hunting nothing is received. -/
def execUplinkFrameReceived (bytes : List Byte) (s : State) : Host.Outcome State Fault Refusal :=
  .next (match s.intake.receiver with
    | .receiving => s.receiveFrame bytes
    | .hunting => s)

/-- REQUEST_UNKNOWN_KIND (R156, R172): a request whose kind is not listed is taken and answered UNKNOWN. -/
def execRequestUnknownKind (s : State) : Host.Outcome State Fault Refusal :=
  .next (match s.take with
    | some (f, t) => if f.kind ∈ knownKinds then s else t.respond f .unknown []
    | none => s)

/-! ### Settings, time, status (R159 to R162) -/

/-- SETTINGS PUT, judged (R159, R8). -/
def State.settingsPut (f : RequestFrame) (s : State) : State :=
  match settingsFields? f with
  | none => s.respond f .range []
  | some x =>
    if x.rate ≠ s.settings.rate ∧ s.line.state ≠ .stopped then s.respond f .state []
    else State.respond f .done x.bytes { s with settings := x }

/-- SETTINGS_PUT (R159). -/
def execSettingsPut (s : State) : Host.Outcome State Fault Refusal := .next (s.takeRequest 0x50 (· = 7) State.settingsPut)

/-- SETTINGS GET, judged (R159): the four fields and the strapped uplink rate. -/
def State.settingsGet (f : RequestFrame) (s : State) : State :=
  s.respond f .done (s.settings.bytes ++ [s.device.uplinkRate.code])

/-- SETTINGS_GET (R159). -/
def execSettingsGet (s : State) : Host.Outcome State Fault Refusal := .next (s.takeRequest 0x51 (· = 1) State.settingsGet)

/-- What follows a new district time: the overdue marking, then the closing of the rounds whose deadline is reached (R160,
R161). -/
def State.afterTime (s : State) : State := s.markAllOverdue.expireRounds

/-- TIME SET, judged (R161): the new time, the previous time and the previous valid flag come with DONE. -/
def State.timeSet (f : RequestFrame) (s : State) : State :=
  let t : State := { s with clock := { s.clock with district := BitVec.ofNat 32 (f.u32 1), valid := true } }
  t.afterTime.respond f .done
    (be4 (f.u32 1) ++ be4 s.clock.district.toNat ++ [flagByte s.clock.valid])

/-- TIME_SET (R161). -/
def execTimeSet (s : State) : Host.Outcome State Fault Refusal := .next (s.takeRequest 0x52 (· = 5) State.timeSet)

/-- STATUS GET, judged (R162): OVERRUN is cleared after it has been read. -/
def State.statusGet (f : RequestFrame) (s : State) : State :=
  State.respond f .done s.statusBlock { s with intake := { s.intake with overrun := false } }

/-- STATUS_GET (R162). -/
def execStatusGet (s : State) : Host.Outcome State Fault Refusal := .next (s.takeRequest 0x53 (· = 1) State.statusGet)

/-- The next count of elapsed seconds, in 40 bits (R160; beyond them log 16). -/
def nextElapsed (n : Nat) : Nat := (n + 1) % 1099511627776

/-- SECONDS_ADVANCE (R160): both counts advance by one, the district time wrapping; then the overdue marking and the rounds. -/
def execSecondsAdvance (s : State) : Host.Outcome State Fault Refusal :=
  .next (State.afterTime
    { s with clock := { s.clock with elapsed := nextElapsed s.clock.elapsed, district := s.clock.district + 1 } })

/-! ### The notice scanner (R165) -/

/-- The pending flags of station a in scan order. -/
def stationFlags (a : StationIx) : List NoticeFlag := [.lock a, .line a]

/-- The pending flags of container i in scan order. -/
def containerFlags (i : ContainerIx) : List NoticeFlag := [.raised i, .overdue i, .inletFault i, .sensor i, .lifted i]

/-- The fixed cycle of the scanner (R165). -/
def noticeCycle : List NoticeFlag :=
  .start :: (List.finRange Config.stations).flatMap stationFlags ++
    (List.finRange Config.containers).flatMap containerFlags ++ (List.finRange Config.fractions).map .closed

/-- The flags in the order the scanner searches them: forward from the flag after its position, round the cycle (R165). -/
def scanOrder : Option NoticeFlag → List NoticeFlag
  | none => noticeCycle
  | some p => (noticeCycle.dropWhile fun q => q ≠ p).drop 1 ++ (noticeCycle.takeWhile fun q => q ≠ p) ++ [p]

/-- The flag the scanner finds, if one is set (R165). -/
def State.nextNotice (s : State) : Option NoticeFlag := (scanOrder s.sender.scan).find? s.flag

/-! ### The sender (R164) -/

/-- A frame is begun from a source (R164, R172). -/
def State.beginFrame (source : TxSource) (cls tag : Byte) (payload : List Byte) (s : State) : State :=
  { s with sender := { s.sender with tx := some source, ulTxd := uplinkFrame cls tag payload } }

/-- A notice is begun: the scanner's position is the flag, the flag is cleared, and the frame is built from the snapshot
(R165). The snapshot is this flag's alone, taken now: a RAISED and an OVERDUE pending together (R135) are built from the record
as each of them finds it (DESIGN CHOICE, log 29). -/
def State.beginNotice (p : NoticeFlag) (s : State) : State :=
  let t := s.setFlag p false
  { t with sender := { tx := some (.notice p), ulTxd := uplinkFrame 0x85 0 (s.snapshot p), scan := some p } }

/-- The fifth source: the notice scanner (R165). -/
def State.beginFifth (s : State) : State :=
  match s.nextNotice with
  | some p => s.beginNotice p
  | none => s

/-- The fourth source: deposit records and relayed reports together in order of arrival (R164). -/
def State.beginFourth (s : State) : State :=
  match s.deposits, s.relay with
  | d :: _, r :: _ =>
    if d.arrival ≤ r.arrival then s.beginFrame .deposit 0x82 0 d.record.payload else s.beginFrame .report 0x84 0 r.bytes
  | d :: _, [] => s.beginFrame .deposit 0x82 0 d.record.payload
  | [], r :: _ => s.beginFrame .report 0x84 0 r.bytes
  | [], [] => s.beginFifth

/-- The arbiter begins the next frame from the first source that has one ready (R164). -/
def State.arbitrate (s : State) : State :=
  match s.responses, s.deferred, s.roundLists with
  | r :: _, _, _ => s.beginFrame .response 0x81 r.tag r.payload
  | [], r :: _, _ => s.beginFrame .deferred 0x81 r.tag r.payload
  | [], [], x :: _ => s.beginFrame .roundList 0x83 0 x.payload
  | [], [], [] => s.beginFourth

/-- SENDER_FRAME_START (R153, R164): with the transmitter free and UL_CTS asserted a frame begins; otherwise none does. -/
def execSenderFrameStart (cts : Bool) (s : State) : Host.Outcome State Fault Refusal :=
  .next (if cts = true ∧ s.sender.tx = none then s.arbitrate else s)

/-- A frame from a source has been sent in full: the transmitter is free and the source is served. -/
def State.frameSent (source : TxSource) (served : State → State) (s : State) : State :=
  if s.sender.tx = some source then served { s with sender := { s.sender with tx := none } } else s

/-- RESPONSE_FRAME_SENT (R156). -/
def execResponseFrameSent (s : State) : Host.Outcome State Fault Refusal :=
  .next (s.frameSent .response fun t => { t with responses := t.responses.tail })

/-- DEFERRED_RESPONSE_SENT (R158): the outstanding count falls by one. -/
def execDeferredResponseSent (s : State) : Host.Outcome State Fault Refusal :=
  .next (s.frameSent .deferred fun t => { t with deferred := t.deferred.tail, outstanding := t.outstanding - 1 })

/-- ROUND_LIST_FRAME_SENT (R145). -/
def execRoundListFrameSent (s : State) : Host.Outcome State Fault Refusal :=
  .next (s.frameSent .roundList fun t => { t with roundLists := t.roundLists.tail })

/-- DEPOSIT_RECORD_SENT (R81). -/
def execDepositRecordSent (s : State) : Host.Outcome State Fault Refusal :=
  .next (s.frameSent .deposit fun t => { t with deposits := t.deposits.tail })

/-- RELAYED_REPORT_SENT (R163). -/
def execRelayedReportSent (s : State) : Host.Outcome State Fault Refusal :=
  .next (s.frameSent .report fun t => { t with relay := t.relay.tail })

/-- NOTICE_FRAME_SENT (R165): the transmitter is free again. -/
def execNoticeFrameSent (s : State) : Host.Outcome State Fault Refusal :=
  .next (match s.sender.tx with
    | some (.notice _) => { s with sender := { s.sender with tx := none } }
    | _ => s)

end Sys2Proof.Machine
end

