-- ==== Sys2Proof/Machine/Reset.lean ====
section
/-! DEFINITION. The two resets: POWER_ON_RESET (R168) and RESTART (R167) with every block's share. -/

namespace Sys2Proof.Machine

/-- The uplink rate that the straps RATE1 and RATE0 select (R153). -/
def strapRate : Bool → Bool → UplinkRate
  | false, false => .r57600
  | false, true => .r115200
  | true, false => .r230400
  | true, true => .r460800

/-- POWER_ON_RESET (R153, R168): every block takes its reset values, and the straps are sampled. -/
def execPowerOnReset (rate1 rate0 : Bool) (s : State) : Host.Outcome State Fault Refusal :=
  .next { State.reset with
    device := { State.reset.device with uplinkRate := strapRate rate1 rate0 }, pending := s.pending }

/-! ### RESTART -/

/-- Steps 1 and 2 of the line controller's share: the turn in flight is abandoned, a line test ends with its response
released FAILED (R26). -/
def State.restartTurn (s : State) : State :=
  let t : State :=
    { s with line := { s.line with turn := none, nextTurn := none, wrapDue := false, test := none, testTx := none } }
  match s.line.test with
  | some x => t.release kindLineTest x.tag .failed []
  | none => t

/-- The link record after RESTART: UNKNOWN, both runs 0, the accept mask kept (R26 steps 6 and 7). -/
def Link.restarted (l : Link) : Link := { l with status := .unknown, noReply := 0, mismatch := 0 }

/-- Steps 4 to 7 of the line controller's share, after the sessions have been aborted (R26). -/
def State.restartLine (s : State) : State :=
  let t : State :=
    { s with
      line := { s.line with state := .stopped, heldStop := none, cycleCount := 0, pollList := [], pointer := 0, ring := [] }
      links := s.links.map Link.restarted }
  match s.line.heldStop with
  | some tag => t.release kindLineStop tag .done []
  | none => t

/-- The frame being sent is cut off: a notice has its pending flag set again; round list frames are discarded; every other
frame stays at the head of its source (R167 steps 1 and 2, R152). -/
def State.cutFrame (s : State) : State :=
  let t : State := { s with sender := { s.sender with tx := none }, roundLists := [] }
  match s.sender.tx with
  | some (.notice p) => t.raise p
  | _ => t

/-- RESTART, carried out (R167): line controller, sessions, station table, round builder, sender, START. The RAISED and OVERDUE
flags are kept as they stood (R100, R137), but for a raise that the staged part of an aborted session's container makes (R80, R90,
R126), which sets RAISED, and OVERDUE when it is overdue at once (DESIGN CHOICE, log 31). -/
def State.restart (f : RequestFrame) (s : State) : State :=
  let t := s.restartTurn.abortAll.restartLine.restartStations.restartRounds.cutFrame
  State.respond f .done [] { t with device := { t.device with startFlag := true, startReason := .restart } }

/-- RESTART (R167). -/
def execRestart (s : State) : Host.Outcome State Fault Refusal := .next (s.takeRequest 0x54 (· = 1) State.restart)

end Sys2Proof.Machine
end

