-- ==== Sys2Proof/Machine/Dispatch.lean ====
section
/-! DEFINITION. One arm for each command: its meaning. -/

namespace Sys2Proof.Machine

/-- The effect of a command on everything but the queue of commands. -/
def exec (i : Instr) (s : State) : Host.Outcome State Fault Refusal :=
  match i with
  | .powerOnReset rate1 rate0 => Sys2Proof.Machine.execPowerOnReset rate1 rate0 s
  | .uplinkFrameReceived bytes => Sys2Proof.Machine.execUplinkFrameReceived bytes s
  | .interbyteTimeout => Sys2Proof.Machine.execInterbyteTimeout s
  | .requestUnknownKind => Sys2Proof.Machine.execRequestUnknownKind s
  | .cardPut => Sys2Proof.Machine.execCardPut s
  | .cardDrop => Sys2Proof.Machine.execCardDrop s
  | .cardStatus => Sys2Proof.Machine.execCardStatus s
  | .cardGet => Sys2Proof.Machine.execCardGet s
  | .periodRoll => Sys2Proof.Machine.execPeriodRoll s
  | .stationPut => Sys2Proof.Machine.execStationPut s
  | .stationGet => Sys2Proof.Machine.execStationGet s
  | .lock => Sys2Proof.Machine.execLock s
  | .unlock => Sys2Proof.Machine.execUnlock s
  | .stationMessage => Sys2Proof.Machine.execStationMessage s
  | .containerPut => Sys2Proof.Machine.execContainerPut s
  | .containerGet => Sys2Proof.Machine.execContainerGet s
  | .containerClear => Sys2Proof.Machine.execContainerClear s
  | .clearInlet => Sys2Proof.Machine.execClearInlet s
  | .clearSensor => Sys2Proof.Machine.execClearSensor s
  | .fractionPut => Sys2Proof.Machine.execFractionPut s
  | .requestCancel => Sys2Proof.Machine.execRequestCancel s
  | .roundOpen => Sys2Proof.Machine.execRoundOpen s
  | .roundClose => Sys2Proof.Machine.execRoundClose s
  | .lineStart => Sys2Proof.Machine.execLineStart s
  | .lineStop => Sys2Proof.Machine.execLineStop s
  | .lineTest => Sys2Proof.Machine.execLineTest s
  | .settingsPut => Sys2Proof.Machine.execSettingsPut s
  | .settingsGet => Sys2Proof.Machine.execSettingsGet s
  | .timeSet => Sys2Proof.Machine.execTimeSet s
  | .statusGet => Sys2Proof.Machine.execStatusGet s
  | .restart => Sys2Proof.Machine.execRestart s
  | .senderFrameStart cts => Sys2Proof.Machine.execSenderFrameStart cts s
  | .responseFrameSent => Sys2Proof.Machine.execResponseFrameSent s
  | .deferredResponseSent => Sys2Proof.Machine.execDeferredResponseSent s
  | .roundListFrameSent => Sys2Proof.Machine.execRoundListFrameSent s
  | .depositRecordSent => Sys2Proof.Machine.execDepositRecordSent s
  | .relayedReportSent => Sys2Proof.Machine.execRelayedReportSent s
  | .noticeFrameSent => Sys2Proof.Machine.execNoticeFrameSent s
  | .secondsAdvance => Sys2Proof.Machine.execSecondsAdvance s
  | .requestOverdueMarking => Sys2Proof.Machine.execRequestOverdueMarking s
  | .roundDeadlineExpiry => Sys2Proof.Machine.execRoundDeadlineExpiry s
  | .hatchDeadlineExpiry => Sys2Proof.Machine.execHatchDeadlineExpiry s
  | .liftDeadlineExpiry => Sys2Proof.Machine.execLiftDeadlineExpiry s
  | .emptyListWrapInterval => Sys2Proof.Machine.execEmptyListWrapInterval s
  | .pollTransmission => Sys2Proof.Machine.execPollTransmission s
  | .replyWindowExpiry => Sys2Proof.Machine.execReplyWindowExpiry s
  | .replyStart address => Sys2Proof.Machine.execReplyStart address s
  | .replyLengthLimit => Sys2Proof.Machine.execReplyLengthLimit s
  | .replyOverrunTurnEnd => Sys2Proof.Machine.execReplyOverrunTurnEnd s
  | .replyEnd chars => Sys2Proof.Machine.execReplyEnd chars s
  | .closingTransmissionEnd => Sys2Proof.Machine.execClosingTransmissionEnd s
  | .testTransmission => Sys2Proof.Machine.execTestTransmission s
  | .testTransmissionJudged heard => Sys2Proof.Machine.execTestTransmissionJudged heard s
  | .pollTransmissionEnd => Sys2Proof.Machine.execPollTransmissionEnd s
  | .syncByteReceived => Sys2Proof.Machine.execSyncByteReceived s
  | .lengthFieldExceeded => Sys2Proof.Machine.execLengthFieldExceeded s

end Sys2Proof.Machine
end

