-- ==== Sys2Proof/Safety.lean ====
section
/-! DEFINITION. What the spec promises of every state the block can reach: the bounds and orders that its numbered rules say
every event keeps. And the vocabulary of the statements about requests: a request that can be taken, and its answer. -/

namespace Sys2Proof.Machine

/-! ### Invariants -/

/-- R61, R62: at most 16 open sessions, and the deposit records queued plus the open sessions never exceed 32. -/
def State.RoomKept (s : State) : Prop := s.sessions.length ≤ 16 ∧ s.deposits.length + s.sessions.length ≤ 32

/-- A configured container's applied and staged parameters lie in the ranges of R85, its fill keeps the bound of R104, and
its full field is the one R87 gives. -/
structure Container.Sound (c : Container) : Prop where
  applied : c.params.inRange = true
  staged : ∀ p, c.staged = some p → p.inRange = true
  bandBelow : 100 * c.fill.cb ≤ c.fill.e
  fillBound : c.fill.e ≤ 1000
  full : c.full = decide (c.params.tStop ≤ c.fill.e)

/-- Every configured container is sound (R85, R87, R104). -/
def State.ContainersSound (s : State) : Prop := ∀ i c, s.container i = some c → c.Sound

/-- R85: two configured records never hold the same (station, inlet). -/
def State.BindingsDistinct (s : State) : Prop :=
  ∀ i j c d, s.container i = some c → s.container j = some d →
    c.binding.station = d.binding.station → c.binding.inlet = d.binding.inlet → i = j

/-- R46: the card records stand in strictly ascending card number, and are at most 4,096. -/
def State.CardsOrdered (s : State) : Prop :=
  s.cards.Pairwise (fun c d => c.number.toNat < d.number.toNat) ∧ s.cards.length ≤ 4096

/-- R155, R156, R158, R163: the capacities of the management request FIFO, the response queue, the deferred responses
outstanding and the relay queue. -/
structure State.QueuesBounded (s : State) : Prop where
  fifo : s.intake.fifo.length ≤ 4
  responses : s.responses.length ≤ 8
  outstanding : s.outstanding ≤ 12
  relay : s.relay.length ≤ 4

/-! ### Multi-byte fields, most significant byte first (R175) -/

/-- The 16-bit field of two bytes. -/
def word16 (hi lo : Byte) : Word16 := hi ++ lo

/-- The 32-bit field of four bytes. -/
def word32 (a b c d : Byte) : Word32 := a ++ b ++ c ++ d

/-! ### Requests at the FIFO head (R156) -/

/-- The request f stands at the FIFO head with rest behind it, and both conditions of the take hold (R156). -/
def State.Takes (s : State) (f : RequestFrame) (rest : List RequestFrame) : Prop :=
  s.intake.fifo = f :: rest ∧ s.responses.length < 8 ∧ s.outstanding < 12

/-- The state once the head request has left the FIFO. -/
def State.took (rest : List RequestFrame) (s : State) : State := { s with intake := { s.intake with fifo := rest } }

/-- The head request f has been taken and answered, and nothing else has changed (R156). -/
def State.answered (rest : List RequestFrame) (f : RequestFrame) (code : ResultCode) (data : List Byte) (s : State) : State :=
  { s with
    intake := { s.intake with fifo := rest }
    responses := s.responses ++ [{ kind := f.kind, tag := f.tag, code, data }] }

/-! ### Codes of R172 that the statements spell out -/

/-- Card status codes. -/
def statusCodes : List (Byte × CardStatus) := [(0, .active), (1, .suspended), (2, .revoked)]

/-- Lockout exit mode codes. -/
def exitModeCodes : List (Byte × ExitMode) := [(0, .auto), (1, .cycle), (2, .command)]

/-- Field line rate codes: 19,200, 38,400, 57,600 and 115,200 bit/s. -/
def fieldRateCodes : List (Byte × FieldRate) := [(0, .r19200), (1, .r38400), (2, .r57600), (3, .r115200)]

/-! ### Records after an event -/

/-- The station record after an AUTO-mode lock exit, when one is due (R37). -/
def Station.autoReleased (t : Station) : Station :=
  if t.config.exitMode = .auto ∧ t.locked = true ∧ t.fault = false ∧ t.hold = false ∧ t.reasons.command = false then
    { t with locked := false, reasons := { fault := false, line := false, command := false }, lockFlag := true }
  else t

/-- The deferred response list once the message of station a, if its slot holds one, has been answered (R43). -/
def State.messageAnswered (a : StationIx) (code : ResultCode) (s : State) : List Response :=
  match s.stations[a].message with
  | none => s.deferred
  | some m => s.deferred ++ [{ kind := 0x14, tag := m.tag, code, data := [] }]

/-- The deposit record of a session that ends with an outcome in state s (R79, R58). -/
def Session.record (s : State) (o : DepositOutcome) (x : Session) : DepositRecord :=
  { card := x.card, household := x.household, container := x.container, station := x.station, fraction := x.fraction,
    grantTime := x.grantTime, endTime := s.clock.district, outcome := o,
    charged := decide (o = .deposit ∨ o = .timeout), period := s.period }

/-! ### Containers after an event -/

/-- The request that a raise test adds for a container (R126): its deadline is held at 4,294,967,295, and it is overdue at
once when the district time stands at or above it (R127). -/
def Container.raisedRequest (s : State) (c : Container) : Request :=
  let due := min (s.clock.district.toNat + s.fractions[c.binding.fraction].maxWait) 4294967295
  { fraction := c.binding.fraction, origin := .raised, raiseTime := s.clock.district, fillAtRaise := c.fill.e,
    deadline := BitVec.ofNat 32 due, state := .waiting, overdue := decide (due ≤ s.clock.district.toNat) }

/-- A raise test for container i with body c raises a request (R126). -/
def Container.raises (s : State) (i : ContainerIx) (c : Container) : Bool :=
  decide (c.state ≠ .lifting ∧ s.requests[i] = none ∧ c.params.tCall ≤ c.fill.e)

/-- The state in which container i holds a set of flags and a body, and a raise test has been made for it (R126, R127). -/
def State.tested (i : ContainerIx) (flags : ContainerFlags) (c : Container) (s : State) : State :=
  { s with
    containers := s.containers.set i {
      flags := { flags with
        raised := flags.raised || c.raises s i
        overdue := flags.overdue || (c.raises s i && (c.raisedRequest s).overdue) }
      body := some c }
    requests := if c.raises s i then s.requests.set i (some (c.raisedRequest s)) else s.requests }

/-- A container whose full field has been tested (R87). -/
def Container.fullTested (c : Container) : Container := { c with full := decide (c.params.tStop ≤ c.fill.e) }

/-- A container to which configuration fields have been applied (R90). -/
def Container.withParams (p : Params) (c : Container) : Container := ({ c with params := p, staged := none } : Container).fullTested

/-- The state in which container i has become IDLE with a set of flags and a body: a staged part is applied, with its raise
test (R89, R90). -/
def State.becomesIdle (i : ContainerIx) (flags : ContainerFlags) (c : Container) (s : State) : State :=
  match c.staged with
  | none => { s with containers := s.containers.set i { flags, body := some { c with state := .idle } } }
  | some p => s.tested i flags (({ c with state := .idle } : Container).withParams p)

/-! ### The sessions of a station, ended -/

/-- The open sessions at a station, in ascending inlet (R76). -/
def State.sessionsAt (a : StationIx) (s : State) : List Session :=
  (List.finRange 4).flatMap fun n : InletIx => s.sessions.filter fun x => x.station = a ∧ x.inlet = n

/-- The state in which container i, if it is configured, has gone from SESSION to IDLE (R73). -/
def State.sessionOver (i : ContainerIx) (s : State) : State :=
  match s.container i with
  | none => s
  | some c => s.becomesIdle i s.containers[i].flags c

/-- The state once every session at station a has ended ABORTED (R73, R76): one uncharged deposit record each, in ascending
inlet; the links of their cards gone, their containers IDLE with a staged part applied, the station out of the session ring;
and in DRAINING, when no session is left, the line STOPPED with the held LINE STOP response released DONE (R4). -/
def State.sessionsAborted (a : StationIx) (s : State) : State :=
  let ended := s.sessionsAt a
  let left := s.sessions.filter fun x => x.station ≠ a
  let after (i : ContainerIx) : State := if ∃ x ∈ ended, x.container = i then s.sessionOver i else s
  let drained : Bool := decide (ended ≠ [] ∧ left = [] ∧ s.line.state = .draining)
  { s with
    cards := s.cards.map fun k => if ∃ x ∈ ended, x.card = k.number then { k with link := none } else k
    deposits := s.deposits ++
      (ended.zipIdx s.arrivals).map fun p => { arrival := p.2, record := p.1.record s .aborted }
    arrivals := s.arrivals + ended.length
    sessions := left
    containers := Vector.ofFn fun i : ContainerIx => (after i).containers[i]
    requests := Vector.ofFn fun i : ContainerIx => (after i).requests[i]
    line := { s.line with
      ring := if ended = [] then s.line.ring else s.line.ring.filter fun b => b ≠ a
      state := if drained then .stopped else s.line.state
      heldStop := if drained then none else s.line.heldStop }
    deferred := s.deferred ++ (if drained then
      (s.line.heldStop.map fun tag => { kind := 0x41, tag, code := .done, data := [] }).toList else []) }

/-- The station record once sessions have been ended for it: the inlet of each is fresh in the CLOSE-NOW set (R35, R36). -/
def Station.closing (ended : List Session) (t : Station) : Station :=
  { t with closeNow := Vector.ofFn fun n : InletIx => if ∃ x ∈ ended, x.inlet = n then .fresh else t.closeNow[n] }

/-- The state once every session at station a has ended ABORTED, with their inlets fresh in its CLOSE-NOW set (R35, R76). -/
def State.stationAborted (a : StationIx) (s : State) : State :=
  let t := s.sessionsAborted a
  { t with stations := s.stations.set a (s.stations[a].closing (s.sessionsAt a)) }

/-! ### Requests and rounds after an event -/

/-- A request is due for the overdue marking (R127). -/
def Request.due (now : Word32) (r : Request) : Bool := !r.overdue && decide (r.deadline.toNat ≤ now.toNat)

/-- The state once every request whose deadline is reached has been marked overdue, with OVERDUE raised (R127, R128). -/
def State.overdueMarked (s : State) : State :=
  { s with
    containers := Vector.ofFn fun i : ContainerIx =>
      { s.containers[i] with flags := { s.containers[i].flags with
          overdue := s.containers[i].flags.overdue || s.requests[i].any (Request.due s.clock.district) } }
    requests := s.requests.map fun q => q.map fun r => { r with overdue := r.overdue || r.due s.clock.district } }

/-- What a return makes of the request of container i (R133): one of origin RAISED, and one of origin PREEMPT whose container
has reached T_call, waits as RAISED; another of origin PREEMPT is removed. -/
def Request.returned (s : State) (i : ContainerIx) (r : Request) : Option Request :=
  if r.origin = .raised ∨ ∃ c, s.container i = some c ∧ c.params.tCall ≤ c.fill.e then
    some { r with state := .waiting, origin := .raised }
  else none

/-- The entry of container i is still PLANNED in a round (R138). -/
def Round.plans (r : Round) (i : ContainerIx) : Bool := r.entries.any fun e => e.container = i && e.state = .planned

/-- The state once the round r of slot n has closed with a reason (R133, R149). -/
def State.roundClosed (n : FractionIx) (r : Round) (reason : CloseReason) (s : State) : State :=
  { s with
    requests := Vector.ofFn fun i : ContainerIx =>
      if r.plans i then s.requests[i].bind (Request.returned s i) else s.requests[i]
    containers := Vector.ofFn fun i : ContainerIx =>
      { s.containers[i] with flags := { s.containers[i].flags with
          raised := s.containers[i].flags.raised ||
            (r.plans i && s.requests[i].any fun q => q.origin = .preempt && (q.returned s i).isSome) } }
    slots := s.slots.set n {
      round := none
      lastClose := some {
        reason, vehicle := r.vehicle, time := s.clock.district, entries := r.entries.length
        lifted := r.entries.countP fun e => e.state ≠ .planned }
      closedFlag := true } }

/-- The DISPATCHED rounds whose deadline the district time has reached, in ascending slot (R148). -/
def State.dueRounds (s : State) : List (FractionIx × Round) :=
  (List.finRange 4).filterMap fun n =>
    (s.slots[n].round.filter fun r => r.deadline.toNat ≤ s.clock.district.toNat).map fun r => (n, r)

/-- The walk of a build over containers with their planned volumes, under an entry limit and a remaining budget: those taken,
in the order of the walk (R140, R142, R143). -/
def greedy : Nat → Nat → List (ContainerIx × Nat) → List (ContainerIx × Nat)
  | 0, _, _ => []
  | _ + 1, _, [] => []
  | limit + 1, budget, x :: xs =>
    if x.2 ≤ budget then x :: greedy limit (budget - x.2) xs else greedy (limit + 1) budget xs

/-! ### The line after an event -/

/-- The link record after a turn without a sound header: a reply from another station counts the mismatch run, any other
failure the no-reply run, and each zeroes the other; the third and the second in a row enter LOST and DISABLED (R21). -/
def Link.failed (mismatched : Bool) (l : Link) : Link :=
  if mismatched then
    { l with
      status := if 1 ≤ l.mismatch then .disabled else l.status
      noReply := 0
      mismatch := min 2 (l.mismatch + 1) }
  else
    { l with
      status := if 2 ≤ l.noReply then .lost else l.status
      noReply := min 3 (l.noReply + 1)
      mismatch := 0 }

/-- The station record after a line fault, before its sessions end: fault present, no restart hold, no message, LINE raised,
and locked with reason LINE, or LINE added to the reasons of a lock that stands (R22, R34, R35, R41). -/
def Station.lineFaulted (t : Station) : Station :=
  if t.locked = true ∨ t.fault = true then
    { t with
      fault := true, hold := false, message := none, lineFlag := true
      reasons := { t.reasons with line := true }
      lockFlag := t.lockFlag || (t.locked && !t.reasons.line) }
  else
    { t with
      fault := true, hold := false, message := none, lineFlag := true, locked := true
      reasons := { fault := false, line := true, command := false }
      lockFlag := true }

/-- A rise of fault present at the station makes a lockout entry (R33, R34, R35). -/
def Station.entersLockout (t : Station) : Bool := !t.fault && !t.locked

/-- The state once the link record of station a has become l by entering LOST or DISABLED, which is a line fault at the
station: its record, its message answered FAILED, and at a lockout entry every session at the station ended (R22, R34, R35). -/
def State.lineFaulted (a : StationIx) (l : Link) (s : State) : State :=
  let t : State := { s with
    links := s.links.set a l
    stations := s.stations.set a s.stations[a].lineFaulted
    deferred := s.messageAnswered a .failed }
  if s.stations[a].entersLockout then t.stationAborted a else t

/-- The state once a try of the message at station a has been spent: one try fewer and not carried, or after the last try no
message, with its response released FAILED (R43). -/
def State.trySpent (a : StationIx) (s : State) : State :=
  match s.stations[a].message with
  | none => s
  | some m =>
    if m.carried = false then s
    else if 1 < m.tries then
      { s with stations := s.stations.set a { s.stations[a] with
          message := some { m with tries := m.tries - 1, carried := false } } }
    else
      { s with
        stations := s.stations.set a { s.stations[a] with message := none }
        deferred := s.deferred ++ [{ kind := 0x14, tag := m.tag, code := .failed, data := [] }] }

/-- The station record once the fault summary of a sound header has been taken, before its sessions end (R33, R35, R37,
R41). -/
def Station.summaryTaken (summary : BitVec 4) (t : Station) : Station :=
  let raised := t.lockFlag || decide (summary ≠ t.summary)
  if summary = 0 then
    let cleared : Station := { t with summary := 0, hold := false, fault := false, lockFlag := raised }
    if t.fault = true ∨ t.hold = true then cleared.autoReleased else cleared
  else if t.locked = true ∨ t.fault = true then
    { t with
      summary := summary, hold := false, fault := true
      reasons := { t.reasons with fault := true }
      lockFlag := raised || (t.locked && !t.reasons.fault) }
  else
    { t with
      summary := summary, hold := false, fault := true, locked := true
      reasons := { fault := true, line := false, command := false }
      lockFlag := true }

/-- The state once the header of a GOOD reply has been taken: the link ONLINE with both runs 0, LINE raised if it was not, the
carried CLOSE-NOW inlets removed, the summary taken, and at a lockout entry every session at the station ended (R18 steps 1 to
3, R33, R35). -/
def State.headerTaken (a : StationIx) (summary : BitVec 4) (s : State) : State :=
  let t : State := { s with
    links := s.links.set a { s.links[a] with status := .online, noReply := 0, mismatch := 0 }
    stations := s.stations.set a (Station.summaryTaken summary { s.stations[a] with
      lineFlag := s.stations[a].lineFlag || decide (s.links[a].status ≠ .online)
      closeNow := s.stations[a].closeNow.map fun m => if m = .carried then .out else m }) }
  if summary ≠ 0 ∧ s.stations[a].entersLockout = true then t.stationAborted a else t

/-- The state once the accept mask of a station has been replaced (R17). -/
def State.maskReplaced (a : StationIx) (reply : Byte) (positions : BitVec 4) (s : State) : State :=
  { s with links := s.links.set a { s.links[a] with mask := some { reply, positions } } }

/-! ### Frames of a reply -/

/-- A frame as it stands in a reply: kind, payload and the check it carries. -/
structure HeardFrame where
  kind : Byte
  payload : List Byte
  check : Word16
  deriving DecidableEq, Repr

/-- The bytes of a frame (R171). -/
def HeardFrame.bytes (f : HeardFrame) : List Byte :=
  f.kind :: byte f.payload.length :: (f.payload ++ be2 f.check.toNat)

/-- The frame passes its check (R169). -/
def HeardFrame.passes (f : HeardFrame) : Bool :=
  decide (f.check = crc16 (f.kind :: byte f.payload.length :: f.payload))

/-- The verdict code and the open time of a VERDICT frame (R171). -/
def Verdict.bytes : Verdict → List Byte
  | .grant openTime => 0 :: be2 openTime
  | .deny reason => [reason.code, 0, 0]

/-- The state once a frame for the container bound to (station, inlet) has had its effect; with none bound the frame is
discarded (R19). -/
def State.atBound (a : StationIx) (inlet : Byte) (effect : ContainerIx → State → State) (s : State) : State :=
  match (List.finRange 128).find? fun i : ContainerIx => (s.container i).any fun c =>
      c.binding.station = a && inletNo c.binding.inlet = inlet.toNat with
  | none => s
  | some i => effect i s

/-- The state once a MESSAGE ACK has been taken: a message that has been carried is answered DONE (R43). -/
def State.messageAcked (a : StationIx) (s : State) : State :=
  if s.stations[a].message.any (fun m => m.carried || decide (m.tries < 3)) then
    { s with
      stations := s.stations.set a { s.stations[a] with message := none }, deferred := s.messageAnswered a .done }
  else s

/-- The state once a report has been taken: relayed where the station's relay flag is set, else discarded (R16, R19, R163). -/
def State.reportTaken (a : StationIx) (reply : Byte) (payload : List Byte) (s : State) : State :=
  if s.stations[a].config.relay then
    { s with relay := s.relay ++ [{ arrival := s.arrivals, station := a, reply, payload }], arrivals := s.arrivals + 1 }
  else s

/-- What a frame that passes its check does, with the VERDICT payloads it gives; none where it is not accepted, since its
length is not that of its kind or the relay queue is full (R16, R19, R20, R171). -/
def State.frameTaken (a : StationIx) (reply kind : Byte) (payload : List Byte) (s : State) :
    Option (State × List (List Byte)) :=
  if kind = 0x41 then (if payload.length = 3 then some (s, []) else none)
  else if kind = 0x42 then
    match payload with
    | [inlet, c3, c2, c1, c0] =>
      let judged := s.judgeCard a inlet (word32 c3 c2 c1 c0)
      some (judged.2, [[inlet, c3, c2, c1, c0] ++ judged.1.bytes])
    | _ => none
  else if kind = 0x43 then
    match payload with
    | [inlet, flags] => some (s.hatchClosed a inlet (flags.getLsbD 0), [])
    | _ => none
  else if kind = 0x44 then
    match payload with
    | [inlet, hi, lo] => some (s.atBound a inlet fun i t => t.levelReading i (word16 hi lo).toNat, [])
    | _ => none
  else if kind = 0x45 then
    match payload with
    | [inlet] => some (s.atBound a inlet State.startLift, [])
    | _ => none
  else if kind = 0x46 then
    match payload with
    | [inlet] => some (s.atBound a inlet State.endLift, [])
    | _ => none
  else if kind = 0x47 then (if payload = [] then some (s.messageAcked a, []) else none)
  else if kind = 0x48 then
    if payload = [] ∨ (s.stations[a].config.relay = true ∧ 4 ≤ s.relay.length) then none
    else some (s.reportTaken a reply payload, [])
  else some (s, [])

/-- What the frames of a reply have come to: the state, the accepted positions, the VERDICT payloads. -/
structure Handed where
  state : State
  positions : BitVec 4
  verdicts : List (List Byte)
  deriving DecidableEq, Repr

/-- The frames of a reply from a position on, judged and handed on one after another: each on the state the one before it left;
one that fails its check, stands beyond the header's count or cannot be taken is passed over (R16 to R18, R20). -/
def State.framesTaken (a : StationIx) (reply : Byte) (count : Nat) : Nat → List HeardFrame → State → Handed
  | _, [], s => { state := s, positions := 0, verdicts := [] }
  | position, f :: more, s =>
    match if position ≤ count ∧ f.passes = true then s.frameTaken a reply f.kind f.payload else none with
    | none => State.framesTaken a reply count (position + 1) more s
    | some (t, verdicts) =>
      let h := State.framesTaken a reply count (position + 1) more t
      { state := h.state, positions := (1#4 <<< (position - 1)) ||| h.positions, verdicts := verdicts ++ h.verdicts }

/-- The state once the closing transmission of a turn has begun (R20). -/
def State.closingBegun (t : Turn) (verdicts : List (List Byte)) (s : State) : State :=
  { s with line := { s.line with
      turn := some { t with phase := .closing }
      flTxd := { mark := true, data := byte (addr t.station) } ::
        (verdicts.flatMap (fieldFrame 0x04)).map fun b => { mark := false, data := b } } }

/-! ### A cycle wrap -/

/-- The station record after a CYCLE-mode lock exit, when one is due (R38). -/
def Station.cycleReleased (t : Station) : Station :=
  if t.config.exitMode = .cycle ∧ t.locked = true ∧ t.fault = false ∧ t.hold = false ∧ t.reasons.command = false then
    { t with locked := false, reasons := { fault := false, line := false, command := false }, lockFlag := true }
  else t

/-- The state once a write has been applied to station a, with the AUTO-mode lock exit it allows (R31, R23, R28, R37). With
configured no the record takes the values of R28, a message fails, LOCK is raised when a lock is released and the link status
becomes UNKNOWN unless it is DISABLED; with enabled yes the fields are taken and a DISABLED link becomes UNKNOWN; where enabled
changes to no the fields are taken, the link status becomes UNKNOWN unless it is DISABLED, every session at the station ends
ABORTED and a message fails. LINE is raised where the link status changes. -/
def State.writeApplied (a : StationIx) (c : StationConfig) (s : State) : State :=
  let old := s.stations[a]
  let status := s.links[a].status
  let leaves : Bool :=
    decide (status ≠ .disabled) && (if c.configured then old.config.enabled && !c.enabled else old.config.configured)
  let returns : Bool := decide (status = .disabled) && c.configured && c.enabled
  let flag := old.lineFlag || returns || (leaves && decide (status ≠ .unknown))
  let links := if leaves || returns then
    s.links.set a { s.links[a] with status := .unknown, noReply := 0, mismatch := 0 } else s.links
  if c.configured = false then
    { s with
      links
      stations := s.stations.set a { Station.reset with
        lockFlag := old.lockFlag || (old.config.configured && old.locked), lineFlag := flag }
      deferred := s.messageAnswered a .failed }
  else
    let t : State := { s with
      links
      stations := s.stations.set a { ({ old with config := c, staged := none } : Station).autoReleased with
        lineFlag := flag } }
    if old.config.configured && old.config.enabled && !c.enabled then
      let u := t.stationAborted a
      { u with
        stations := u.stations.set a { u.stations[a] with message := none }, deferred := u.messageAnswered a .failed }
    else t

/-- Step 1 of a wrap for one station: its staged part, then its CYCLE-mode lock exit (R30). -/
def State.stationWrapped (s : State) (a : StationIx) : State :=
  let t := match s.stations[a].staged with
    | none => s
    | some c => s.writeApplied a c
  { t with stations := t.stations.set a t.stations[a].cycleReleased }

/-! ### The notice scanner's cycle -/

/-- The place of a pending flag in the fixed cycle of the scanner: the device's, the stations' two each, the containers' five
each, the slots' (R165). -/
def NoticeFlag.place : NoticeFlag → Nat
  | .start => 0
  | .lock a => 1 + 2 * a.val
  | .line a => 2 + 2 * a.val
  | .raised i => 97 + 5 * i.val
  | .overdue i => 98 + 5 * i.val
  | .inletFault i => 99 + 5 * i.val
  | .sensor i => 100 + 5 * i.val
  | .lifted i => 101 + 5 * i.val
  | .closed n => 737 + n.val

/-- How many flags of the cycle, 741 in all, stand between the scanner's position and a flag in the forward direction; with no
position the search starts at the device's flag (R165). -/
def NoticeFlag.ahead (p : NoticeFlag) : Option NoticeFlag → Nat
  | none => p.place
  | some q => (p.place + 741 - q.place - 1) % 741

/-! ### The request kinds of R172 -/

/-- A row of the request table of R172: the command, its kind's code, and the least and greatest payload length of the
kind. -/
structure RequestRow where
  command : Instr
  kind : Byte
  least : Nat
  greatest : Nat
  deriving DecidableEq, Repr

/-- The card table's requests. -/
def cardRows : List RequestRow :=
  [⟨.cardPut, 0x01, 13, 13⟩, ⟨.cardDrop, 0x02, 5, 5⟩, ⟨.cardStatus, 0x03, 6, 6⟩, ⟨.cardGet, 0x04, 6, 6⟩,
    ⟨.periodRoll, 0x05, 3, 3⟩]

/-- The station table's requests. -/
def stationRows : List RequestRow :=
  [⟨.stationPut, 0x10, 6, 6⟩, ⟨.stationGet, 0x11, 2, 2⟩, ⟨.lock, 0x12, 2, 2⟩, ⟨.unlock, 0x13, 2, 2⟩,
    ⟨.stationMessage, 0x14, 3, 26⟩]

/-- The container table's requests and CLEAR SENSOR. -/
def containerRows : List RequestRow :=
  [⟨.containerPut, 0x20, 17, 17⟩, ⟨.containerGet, 0x21, 2, 2⟩, ⟨.containerClear, 0x22, 2, 2⟩, ⟨.clearInlet, 0x23, 2, 2⟩,
    ⟨.clearSensor, 0x24, 2, 2⟩]

/-- The requests of the request table and the round builder. -/
def roundRows : List RequestRow :=
  [⟨.fractionPut, 0x30, 7, 7⟩, ⟨.requestCancel, 0x31, 2, 2⟩, ⟨.roundOpen, 0x32, 15, 15⟩, ⟨.roundClose, 0x33, 2, 2⟩]

/-- The line controller's requests. -/
def lineRows : List RequestRow := [⟨.lineStart, 0x40, 1, 1⟩, ⟨.lineStop, 0x41, 1, 1⟩, ⟨.lineTest, 0x42, 1, 1⟩]

/-- The uplink controller's requests. -/
def uplinkRows : List RequestRow :=
  [⟨.settingsPut, 0x50, 7, 7⟩, ⟨.settingsGet, 0x51, 1, 1⟩, ⟨.timeSet, 0x52, 5, 5⟩, ⟨.statusGet, 0x53, 1, 1⟩,
    ⟨.restart, 0x54, 1, 1⟩]

/-- Every request kind of R172. -/
def requestRows : List RequestRow := cardRows ++ stationRows ++ containerRows ++ roundRows ++ lineRows ++ uplinkRows

end Sys2Proof.Machine
end

