-- ==== Sys2Proof/Certificates/Slice0/Obligations.lean ====
section
/-! DEFINITION. The statements for the provers, in the spec's order of chapters. A statement about a request says what becomes
of the state when the request stands at the FIFO head and can be taken (State.Takes), with the payload's bytes written out as
R172 lays them out; State.answered is the state in which the request has left the FIFO and its response has joined the
response queue, all else as it was. -/

open Sys2Proof Sys2Proof.Machine

/-! ### Steps -/

/-- One step takes the command at the front of the queue and carries it out on the state with the queue's rest. -/
def Obligations.StepRunsTheFrontCommand : Prop :=
  ∀ (c : Instr) (rest : List Instr) (s : State),
    step { s with pending := c :: rest } = exec c { s with pending := rest }

/-- Every command is carried out whole in every state: it answers a next state, and it leaves the queue of commands. On an
empty queue the block idles: this clause is the model's choice (DESIGN CHOICE, log 2), as is that a command whose occasion is
absent answers too (log 1). -/
def Obligations.EveryCommandAnswersAndKeepsTheQueue : Prop :=
  (∀ (c : Instr) (s : State), ∃ t, exec c s = .next t ∧ t.pending = s.pending) ∧
  (∀ s : State, s.pending = [] → step s = .next s)

/-! ### Power-on reset (R25, R28, R49, R63, R86, R125, R136, R139, R153, R168) -/

/-- POWER_ON_RESET completes in every state; the line controller, every link record and every station record hold the values
of R25 and R28, and every container record is UNCONFIGURED with every pending flag clear (R86). -/
def Obligations.PowerOnResetStopsTheLine : Prop :=
  ∀ (rate1 rate0 : Bool) (s : State), ∃ t, exec (.powerOnReset rate1 rate0) s = .next t ∧
    (t.line.state = .stopped ∧ t.line.cycleCount = 0 ∧ t.line.pollList = [] ∧ t.line.ring = [] ∧ t.line.turn = none ∧
      t.line.heldStop = none ∧ t.line.test = none ∧ t.flDe = false) ∧
    (∀ a : StationIx, t.links[a] = { status := .unknown, noReply := 0, mismatch := 0, mask := none }) ∧
    (∀ a : StationIx,
      t.stations[a].config =
        { configured := false, enabled := false, relay := false, inletCount := 1, exitMode := .auto, rank := 0 } ∧
      t.stations[a].staged = none ∧ t.stations[a].summary = 0 ∧ t.stations[a].fault = false ∧
      t.stations[a].hold = false ∧ t.stations[a].locked = false ∧
      t.stations[a].reasons = { fault := false, line := false, command := false } ∧ t.stations[a].message = none ∧
      (∀ n : InletIx, t.stations[a].closeNow[n] = .out) ∧ t.stations[a].lockFlag = false ∧
      t.stations[a].lineFlag = false) ∧
    t.poolCount = 0 ∧
    (∀ i : ContainerIx, t.container i = none ∧
      t.containers[i].flags = { raised := false, overdue := false, inletFault := false, sensor := false, lifted := false })

/-- R49, R63, R136, R139: after power-on reset the card table, the hatch table, the deposit record queue, the request table
and the four round slots are empty, and the fraction table holds the values of R125. -/
def Obligations.PowerOnResetEmptiesTheTables : Prop :=
  ∀ (rate1 rate0 : Bool) (s : State), ∃ t, exec (.powerOnReset rate1 rate0) s = .next t ∧
    (t.cards = [] ∧ t.period = 0) ∧
    (t.sessions = [] ∧ t.nextSession = 0 ∧ t.deposits = [] ∧ t.deposits.length + t.sessions.length = 0) ∧
    ((∀ i : ContainerIx, t.requests[i] = none) ∧ (∀ n : FractionIx, t.waitingOrder n = []) ∧
      (∀ n : FractionIx, t.fractions[n] = { enabled := false, maxWait := 86400 }) ∧
      (∀ i : ContainerIx, t.containers[i].flags.raised = false ∧ t.containers[i].flags.overdue = false ∧
        t.container i = none)) ∧
    (∀ n : FractionIx, t.slots[n].round = none ∧ t.slots[n].lastClose = none ∧ t.slots[n].closedFlag = false)

/-- After POWER_ON_RESET the uplink controller's queues, FIFO, clock and START flag hold the values of R168, the settings their
defaults, and the uplink rate is the one the straps select: RATE1 and RATE0 low and low, low and high, high and low, high and
high give 57,600, 115,200, 230,400 and 460,800 bit/s (R153). (R168 names no value for the receiver and the transmitter: that
the receiver is hunting and no transmission is in hand after reset is the model's choice, log 24.) -/
def Obligations.PowerOnResetUplink : Prop :=
  ∀ (rate1 rate0 : Bool) (s : State), ∃ t, exec (.powerOnReset rate1 rate0) s = .next t ∧
    t.device.uplinkRate =
      (match rate1, rate0 with
        | false, false => .r57600
        | false, true => .r115200
        | true, false => .r230400
        | true, true => .r460800) ∧
    t.device.startFlag = true ∧ t.device.startReason = .power ∧
    t.intake = { receiver := .hunting, fifo := [], overrun := false } ∧ t.ulRdy = true ∧
    t.responses = [] ∧ t.deferred = [] ∧ t.outstanding = 0 ∧ t.roundLists = [] ∧ t.relay = [] ∧
    t.settings = { hatchOpen := 60, window := 20, liftTimeout := 1800, rate := .r38400 } ∧
    t.clock = { elapsed := 0, district := 0, valid := false } ∧ t.sender.tx = none ∧
    t.nextNotice = some .start

/-! ### Receiving (R154, R155, R169, R172) -/

/-- A sync byte starts a frame; a gap of more than 20 ms and a length field above 26 return the receiver to hunting; nothing
else changes, so no response is made and OVERRUN is not set. -/
def Obligations.ReceiverEvents : Prop :=
  ∀ s : State,
    exec .syncByteReceived s = .next { s with intake := { s.intake with receiver := .receiving } } ∧
    exec .interbyteTimeout s = .next { s with intake := { s.intake with receiver := .hunting } } ∧
    exec .lengthFieldExceeded s = .next { s with intake := { s.intake with receiver := .hunting } }

/-- A sound frame of the request class with a payload of at most 26 bytes joins the FIFO's tail while a place is free; when the
FIFO is full it is discarded, the four requests are kept and OVERRUN is set. Either way the receiver hunts again, and UL_RDY
shows whether a place is free. -/
def Obligations.RequestFrameIsOffered : Prop :=
  ∀ (s : State) (tag : Byte) (payload : List Byte), s.intake.receiver = .receiving → payload.length ≤ 26 →
    let covered := [0x01, tag, 0, BitVec.ofNat 8 payload.length] ++ payload
    let bytes := covered ++ [BitVec.ofNat 8 ((crc16 covered).toNat / 256), BitVec.ofNat 8 ((crc16 covered).toNat % 256)]
    (s.intake.fifo.length < 4 → ∃ t, exec (.uplinkFrameReceived bytes) s = .next t ∧
      t = { s with intake :=
              { receiver := .hunting, fifo := s.intake.fifo ++ [{ tag, payload }], overrun := s.intake.overrun } } ∧
      t.ulRdy = decide (s.intake.fifo.length < 3)) ∧
    (4 ≤ s.intake.fifo.length → ∃ t, exec (.uplinkFrameReceived bytes) s = .next t ∧
      t = { s with intake := { receiver := .hunting, fifo := s.intake.fifo, overrun := true } } ∧ t.ulRdy = false)

/-- A whole frame whose check fails, or whose class is not that of a request, is discarded: the receiver hunts again and
nothing else changes. (That a frame event while the receiver hunts, its sync byte not heard, changes nothing whatever its bytes is
the model's choice, log 1: R154 discards only the bytes other than the sync byte while hunting.) -/
def Obligations.DefectiveFrameIsDiscarded : Prop :=
  ∀ (s : State) (cls tag c1 c0 : Byte) (payload : List Byte), payload.length ≤ 26 →
    let covered := [cls, tag, 0, BitVec.ofNat 8 payload.length] ++ payload
    (s.intake.receiver = .receiving → cls ≠ 0x01 ∨ word16 c1 c0 ≠ crc16 covered →
      exec (.uplinkFrameReceived (covered ++ [c1, c0])) s =
        .next { s with intake := { s.intake with receiver := .hunting } }) ∧
    (s.intake.receiver = .hunting → exec (.uplinkFrameReceived (covered ++ [c1, c0])) s = .next s)

/-- The CRC-16 is the one of R169: the register starts at all ones; each bit of each byte, most significant first, is added to
the bit that leaves the register at the top, and a sum of 1 adds x^12 + x^5 + 1 to the shifted register; there is no final
inversion. Over the nine ASCII characters 123456789 the check value is 0x29B1. -/
def Obligations.CrcIsTheOneOfR169 : Prop :=
  (∀ bytes : List Byte, crc16 bytes =
    (bytes.flatMap fun b => (List.range 8).map fun k => b.getMsbD k).foldl
      (fun (r : BitVec 16) (bit : Bool) => if r.msb ≠ bit then (r <<< 1) ^^^ 0x1021#16 else r <<< 1) 0xFFFF#16) ∧
  crc16 [0x31, 0x32, 0x33, 0x34, 0x35, 0x36, 0x37, 0x38, 0x39] = 0x29B1

/-! ### Taking a request (R156, R157, R172) -/

/-- A request command whose request does not stand at the FIFO head, or cannot be taken, changes nothing. This is the model's
choice for a command without its occasion (DESIGN CHOICE, log 1). -/
def Obligations.RequestWithoutItsOccasionChangesNothing : Prop :=
  ∀ r ∈ requestRows, ∀ s : State,
    (s.intake.fifo = [] ∨ 8 ≤ s.responses.length ∨ 12 ≤ s.outstanding ∨
      ∃ f rest, s.intake.fifo = f :: rest ∧ f.kind ≠ r.kind) →
    exec r.command s = .next s

/-- A request whose payload is empty, or opens with a kind that R172 does not list, is taken and answered UNKNOWN with its
kind echoed, 0 for an empty payload; nothing else changes. -/
def Obligations.UnknownKindIsAnsweredUnknown : Prop :=
  ∀ (s : State) (rest : List RequestFrame) (tag : Byte),
    (s.Takes { tag, payload := [] } rest → exec .requestUnknownKind s = .next { s with
      intake := { s.intake with fifo := rest }
      responses := s.responses ++ [{ kind := 0, tag, code := .unknown, data := [] }] }) ∧
    (∀ (kind : Byte) (fields : List Byte), kind ∉ requestRows.map RequestRow.kind →
      s.Takes { tag, payload := kind :: fields } rest → exec .requestUnknownKind s = .next { s with
        intake := { s.intake with fifo := rest }
        responses := s.responses ++ [{ kind, tag, code := .unknown, data := [] }] })

/-- A listed kind whose payload length is not that of the kind is answered RANGE, and nothing else changes. -/
def Obligations.WrongLengthIsAnsweredRange : Prop :=
  ∀ r ∈ requestRows, ∀ (s : State) (rest : List RequestFrame) (tag : Byte) (fields : List Byte),
    fields.length + 1 < r.least ∨ r.greatest < fields.length + 1 →
    s.Takes { tag, payload := r.kind :: fields } rest →
    exec r.command s = .next (s.answered rest { tag, payload := r.kind :: fields } .range [])

/-- R157: a request answered with RANGE, FULL, ABSENT, COLLIDE, STATE, BUSY or UNKNOWN changes no state in any block: it has
left the FIFO, its response has joined the queue, and all else is as it was. (STATUS GET is answered none of these.) -/
def Obligations.RefusedRequestChangesNothing : Prop :=
  ∀ r ∈ requestRows, ∀ (s t : State) (rest : List RequestFrame) (f : RequestFrame) (code : ResultCode) (data : List Byte),
    s.Takes f rest → f.kind = r.kind → exec r.command s = .next t →
    t.responses = s.responses ++ [{ kind := f.kind, tag := f.tag, code, data }] →
    code ∈ [.range, .full, .absent, .collide, .state, .busy, .unknown] →
    t = s.answered rest f code data

/-! ### Cards (R46, R50 to R55, R59) -/

/-- R50, R51, R52: CARD PUT taken. A valid card that the table does not hold, with room for it, gets a record with the carried
fields, used counts 0, no last use and no session link, in ascending order; DONE reports an insert and the new card count. A
card that the table holds without a session link has its four carried fields replaced and each used count set under its new
allowance; number, last use and position are kept, and DONE reports a replace and the card count. Nothing else changes. -/
def Obligations.CardPutIsTaken : Prop :=
  ∀ (s : State) (rest : List RequestFrame) (tag n3 n2 n1 n0 h1 h0 code ent a0 a1 a2 a3 : Byte) (status : CardStatus),
    let number := word32 n3 n2 n1 n0
    let f : RequestFrame := { tag, payload := [0x01, n3, n2, n1, n0, h1, h0, code, ent, a0, a1, a2, a3] }
    let allowance : Vector Nat 4 := #v[a0.toNat, a1.toNat, a2.toNat, a3.toNat]
    s.Takes f rest → number ≠ 0 → number ≠ 0xFFFFFFFF → (code, status) ∈ statusCodes → ent.toNat < 16 →
    ((∀ c ∈ s.cards, c.number ≠ number) → s.cards.length < 4096 →
      ∃ cards,
        exec .cardPut s = .next (State.answered rest f .done (0 :: be2 (s.cards.length + 1)) { s with cards := cards }) ∧
        cards.Perm ({
            number, household := word16 h1 h0, status, entitled := ent.truncate 4, allowance, used := #v[0, 0, 0, 0]
            lastUse := none, link := none } :: s.cards) ∧
        (s.CardsOrdered → cards.Pairwise fun c d => c.number.toNat < d.number.toNat)) ∧
    (∀ c ∈ s.cards, s.CardsOrdered → c.number = number → c.link = none →
      exec .cardPut s = .next (State.answered rest f .done (1 :: be2 s.cards.length)
        { s with cards := s.cards.map fun d =>
            if d.number = number then
              { d with
                household := word16 h1 h0, status, entitled := ent.truncate 4, allowance,
                used := Vector.ofFn fun n : FractionIx =>
                  if allowance[n] = 255 then d.used[n] else min d.used[n] allowance[n] }
            else d }))

/-- R50, R51, R52: CARD PUT is refused with RANGE for an invalid number, status or fraction, with FULL when the table is full
and does not hold the card, with COLLIDE while the card's session link is present. -/
def Obligations.CardPutIsRefused : Prop :=
  ∀ (s : State) (rest : List RequestFrame) (tag n3 n2 n1 n0 h1 h0 code ent a0 a1 a2 a3 : Byte),
    let number := word32 n3 n2 n1 n0
    let f : RequestFrame := { tag, payload := [0x01, n3, n2, n1, n0, h1, h0, code, ent, a0, a1, a2, a3] }
    s.Takes f rest →
    (number = 0 ∨ number = 0xFFFFFFFF ∨ 2 < code.toNat ∨ 15 < ent.toNat →
      exec .cardPut s = .next (s.answered rest f .range [])) ∧
    (number ≠ 0 → number ≠ 0xFFFFFFFF → code.toNat ≤ 2 → ent.toNat ≤ 15 →
      ((∀ c ∈ s.cards, c.number ≠ number) → 4096 ≤ s.cards.length →
        exec .cardPut s = .next (s.answered rest f .full [])) ∧
      (∀ c ∈ s.cards, s.CardsOrdered → c.number = number → c.link ≠ none →
        exec .cardPut s = .next (s.answered rest f .collide [])))

/-- R50, R53: CARD DROP is refused with RANGE, ABSENT or COLLIDE; otherwise the record leaves the table, the others keep their
order, the card count falls by one and DONE reports it. -/
def Obligations.CardDrop : Prop :=
  ∀ (s : State) (rest : List RequestFrame) (tag n3 n2 n1 n0 : Byte),
    let number := word32 n3 n2 n1 n0
    let f : RequestFrame := { tag, payload := [0x02, n3, n2, n1, n0] }
    s.Takes f rest →
    (number = 0 ∨ number = 0xFFFFFFFF → exec .cardDrop s = .next (s.answered rest f .range [])) ∧
    (number ≠ 0 → number ≠ 0xFFFFFFFF →
      ((∀ c ∈ s.cards, c.number ≠ number) → exec .cardDrop s = .next (s.answered rest f .absent [])) ∧
      (∀ c ∈ s.cards, s.CardsOrdered → c.number = number →
        (c.link ≠ none → exec .cardDrop s = .next (s.answered rest f .collide [])) ∧
        (c.link = none → exec .cardDrop s = .next (State.answered rest f .done (be2 (s.cards.length - 1))
          { s with cards := s.cards.filter fun d => d.number ≠ number }))))

/-- R50, R54, R59: CARD STATUS is refused with RANGE or ABSENT; otherwise the status is replaced, session link or not, and no
other field changes. PERIOD ROLL sets every used count of every card to 0 and the period number to the carried one; it is
never refused. -/
def Obligations.CardStatusAndPeriodRoll : Prop :=
  (∀ (s : State) (rest : List RequestFrame) (tag n3 n2 n1 n0 code : Byte),
    let number := word32 n3 n2 n1 n0
    let f : RequestFrame := { tag, payload := [0x03, n3, n2, n1, n0, code] }
    s.Takes f rest →
    (number = 0 ∨ number = 0xFFFFFFFF ∨ 2 < code.toNat → exec .cardStatus s = .next (s.answered rest f .range [])) ∧
    (∀ status, number ≠ 0 → number ≠ 0xFFFFFFFF → (code, status) ∈ statusCodes →
      ((∀ c ∈ s.cards, c.number ≠ number) → exec .cardStatus s = .next (s.answered rest f .absent [])) ∧
      ((∃ c ∈ s.cards, c.number = number) → exec .cardStatus s = .next (State.answered rest f .done []
        { s with cards := s.cards.map fun d => if d.number = number then { d with status := status } else d })))) ∧
  (∀ (s : State) (rest : List RequestFrame) (tag p1 p0 : Byte),
    let f : RequestFrame := { tag, payload := [0x05, p1, p0] }
    s.Takes f rest → exec .periodRoll s = .next (State.answered rest f .done []
      { s with cards := s.cards.map fun c => { c with used := #v[0, 0, 0, 0] }, period := word16 p1 p0 }))

/-- R50, R55: CARD GET changes no state. EXACT answers the record of the number, NEXT the record with the smallest greater
number, with the period number and the card count; ABSENT where there is none; RANGE for a number the form excludes and for
a form other than 0 and 1. -/
def Obligations.CardGet : Prop :=
  ∀ (s : State) (rest : List RequestFrame) (tag form n3 n2 n1 n0 : Byte),
    let number := word32 n3 n2 n1 n0
    let f : RequestFrame := { tag, payload := [0x04, form, n3, n2, n1, n0] }
    s.Takes f rest → s.CardsOrdered →
    (1 < form.toNat ∨ (form = 0 ∧ number = 0) ∨ number = 0xFFFFFFFF →
      exec .cardGet s = .next (s.answered rest f .range [])) ∧
    (form = 0 → number ≠ 0 → number ≠ 0xFFFFFFFF →
      ((∀ c ∈ s.cards, c.number ≠ number) → exec .cardGet s = .next (s.answered rest f .absent [])) ∧
      (∀ c ∈ s.cards, c.number = number → exec .cardGet s =
        .next (s.answered rest f .done (c.bytes ++ be2 s.period.toNat ++ be2 s.cards.length)))) ∧
    (form = 1 → number ≠ 0xFFFFFFFF →
      ((∀ c ∈ s.cards, c.number.toNat ≤ number.toNat) → exec .cardGet s = .next (s.answered rest f .absent [])) ∧
      (∀ c ∈ s.cards, number.toNat < c.number.toNat →
        (∀ d ∈ s.cards, number.toNat < d.number.toNat → c.number.toNat ≤ d.number.toNat) → exec .cardGet s =
          .next (s.answered rest f .done (c.bytes ++ be2 s.period.toNat ++ be2 s.cards.length))))

/-! ### Stations (R29 to R31, R35, R39, R40, R42) -/

/-- R29: STATION PUT is refused with RANGE for an address, an inlet count or an exit mode outside its range, then with COLLIDE
when a configured container stands at an inlet the write takes away; otherwise, unless the line is STOPPED with no turn in
flight, the write becomes the staged part and the answer is STAGED. -/
def Obligations.StationPutIsRefusedOrStaged : Prop :=
  ∀ (s : State) (rest : List RequestFrame) (tag b flags count code rank : Byte),
    let f : RequestFrame := { tag, payload := [0x10, b, flags, count, code, rank] }
    s.Takes f rest →
    (b.toNat = 0 ∨ 48 < b.toNat ∨ count.toNat = 0 ∨ 4 < count.toNat ∨ 2 < code.toNat →
      exec .stationPut s = .next (s.answered rest f .range [])) ∧
    (∀ (a : StationIx) (mode : ExitMode), b.toNat = addr a → 1 ≤ count.toNat → count.toNat ≤ 4 →
      (code, mode) ∈ exitModeCodes →
      ((∃ i c, s.container i = some c ∧ c.binding.station = a ∧
          (flags.getLsbD 0 = false ∨ count.toNat < inletNo c.binding.inlet)) →
        exec .stationPut s = .next (s.answered rest f .collide [])) ∧
      ((∀ i c, s.container i = some c → c.binding.station = a →
          flags.getLsbD 0 = true ∧ inletNo c.binding.inlet ≤ count.toNat) →
        s.line.state ≠ .stopped ∨ s.line.turn ≠ none →
        exec .stationPut s = .next (State.answered rest f .staged []
          { s with stations := s.stations.set a { s.stations[a] with
              staged := some {
                configured := flags.getLsbD 0, enabled := flags.getLsbD 1, relay := flags.getLsbD 2,
                inletCount := count.toNat, exitMode := mode, rank := rank.toNat } } })))

/-- R29, R31, R23, R37: a STATION PUT accepted while the line is STOPPED with no turn in flight (the hatch table is empty then,
R1) is applied at once. With configured no the record takes the values of R28, its message is answered FAILED, LOCK is
raised when a lock is released, and the link status becomes UNKNOWN unless it is DISABLED. With configured and enabled yes
the fields are taken and a DISABLED link becomes UNKNOWN. With configured yes and enabled no the fields are taken, a message
fails and the link status becomes UNKNOWN where the station was enabled. An AUTO-mode lock whose conditions hold leaves. -/
def Obligations.StationPutIsAppliedAtOnce : Prop :=
  ∀ (s : State) (rest : List RequestFrame) (tag b flags count code rank : Byte) (a : StationIx) (mode : ExitMode),
    let f : RequestFrame := { tag, payload := [0x10, b, flags, count, code, rank] }
    let c : StationConfig := {
      configured := flags.getLsbD 0, enabled := flags.getLsbD 1, relay := flags.getLsbD 2,
      inletCount := count.toNat, exitMode := mode, rank := rank.toNat }
    let old := s.stations[a]
    let link := s.links[a]
    let unknown : Link := { status := .unknown, noReply := 0, mismatch := 0, mask := link.mask }
    s.Takes f rest → b.toNat = addr a → 1 ≤ count.toNat → count.toNat ≤ 4 → (code, mode) ∈ exitModeCodes →
    (∀ i d, s.container i = some d → d.binding.station = a →
      flags.getLsbD 0 = true ∧ inletNo d.binding.inlet ≤ count.toNat) →
    s.line.state = .stopped → s.line.turn = none → s.sessions = [] →
    (c.configured = false →
      let drops := old.config.configured && decide (link.status ≠ .disabled)
      exec .stationPut s = .next (State.answered rest f .done [] { s with
        stations := s.stations.set a { Station.reset with
          lockFlag := old.lockFlag || (old.config.configured && old.locked)
          lineFlag := old.lineFlag || (drops && decide (link.status ≠ .unknown)) }
        links := if drops then s.links.set a unknown else s.links
        deferred := s.messageAnswered a .failed })) ∧
    (c.configured = true → c.enabled = true →
      exec .stationPut s = .next (State.answered rest f .done [] { s with
        stations := s.stations.set a { ({ old with config := c, staged := none } : Station).autoReleased with
          lineFlag := old.lineFlag || decide (link.status = .disabled) }
        links := if link.status = .disabled then s.links.set a unknown else s.links })) ∧
    (c.configured = true → c.enabled = false → (old.config.enabled = true → old.config.configured = true) →
      let drops := old.config.enabled && decide (link.status ≠ .disabled)
      exec .stationPut s = .next (State.answered rest f .done [] { s with
        stations := s.stations.set a { ({ old with config := c, staged := none } : Station).autoReleased with
          message := if old.config.enabled then none else old.message
          lineFlag := old.lineFlag || (drops && decide (link.status ≠ .unknown)) }
        links := if drops then s.links.set a unknown else s.links
        deferred := if old.config.enabled then s.messageAnswered a .failed else s.deferred }))

/-- R4, R35, R36, R39, R73, R76: LOCK is refused with RANGE or STATE. At a locked station COMMAND joins the lock reasons, and LOCK is raised if
they changed. At a station that is not locked it makes a lockout entry: locked with the reason COMMAND alone, LOCK raised,
every session at the station ended ABORTED in ascending inlet order with one deposit record each, uncharged, and its inlet
fresh in the CLOSE-NOW set; the links of their cards go, their containers become IDLE with a staged part applied, the station
leaves the session ring, and in DRAINING, when no session is left, the line stops and the held LINE STOP is released DONE
(R35, R36, R73, R76, R4). Every other session and every other station stay. (The arrival numbers of the records are the
model's, log 17.) -/
def Obligations.LockMakesALockoutEntry : Prop :=
  ∀ (s : State) (rest : List RequestFrame) (tag b : Byte),
    let f : RequestFrame := { tag, payload := [0x12, b] }
    s.Takes f rest →
    (b.toNat = 0 ∨ 48 < b.toNat → exec .lock s = .next (s.answered rest f .range [])) ∧
    (∀ a : StationIx, b.toNat = addr a →
      (s.stations[a].config.configured = false → exec .lock s = .next (s.answered rest f .state [])) ∧
      (s.stations[a].config.configured = true → s.stations[a].locked = true →
        exec .lock s = .next (State.answered rest f .done [] { s with
          stations := s.stations.set a { s.stations[a] with
            reasons := { s.stations[a].reasons with command := true }
            lockFlag := s.stations[a].lockFlag || !s.stations[a].reasons.command } })) ∧
      (s.stations[a].config.configured = true → s.stations[a].locked = false →
        ∃ (t : State) (ended : List Session), exec .lock s = .next t ∧
          t = State.answered rest f .done [] (State.stationAborted a { s with
            stations := s.stations.set a { s.stations[a] with
              locked := true, reasons := { fault := false, line := false, command := true }, lockFlag := true } }) ∧
          t.responses = s.responses ++ [{ kind := 0x12, tag, code := .done, data := [] }] ∧ t.intake.fifo = rest ∧
          t.stations[a] = { s.stations[a] with
            locked := true
            reasons := { fault := false, line := false, command := true }
            lockFlag := true
            closeNow := Vector.ofFn fun n : InletIx =>
              if ∃ x ∈ s.sessions, x.station = a ∧ x.inlet = n then .fresh else s.stations[a].closeNow[n] } ∧
          (∀ b : StationIx, b ≠ a → t.stations[b] = s.stations[b]) ∧ t.links = s.links ∧
          ended.Perm (s.sessions.filter fun x => x.station = a) ∧ ended.Pairwise (fun x y => x.inlet ≤ y.inlet) ∧
          (∀ x, x ∈ t.sessions ↔ x ∈ s.sessions ∧ x.station ≠ a) ∧
          t.deposits.map QueuedDeposit.record =
            s.deposits.map QueuedDeposit.record ++ ended.map (Session.record s .aborted) ∧
          t.cards.map (fun c => { c with link := none }) = s.cards.map (fun c => { c with link := none })))

/-- R40: UNLOCK is refused with RANGE, with STATE at a station that is not configured, and with STATE at a locked station whose
fault is present or whose restart hold is set, in every exit mode; a station that is not locked is answered DONE unchanged;
otherwise the lock leaves, its reasons go and LOCK is raised. -/
def Obligations.Unlock : Prop :=
  ∀ (s : State) (rest : List RequestFrame) (tag b : Byte),
    let f : RequestFrame := { tag, payload := [0x13, b] }
    s.Takes f rest →
    (b.toNat = 0 ∨ 48 < b.toNat → exec .unlock s = .next (s.answered rest f .range [])) ∧
    (∀ a : StationIx, b.toNat = addr a →
      (s.stations[a].config.configured = false → exec .unlock s = .next (s.answered rest f .state [])) ∧
      (s.stations[a].config.configured = true →
        (s.stations[a].locked = false → exec .unlock s = .next (s.answered rest f .done [])) ∧
        (s.stations[a].locked = true → (s.stations[a].fault = true ∨ s.stations[a].hold = true) →
          exec .unlock s = .next (s.answered rest f .state [])) ∧
        (s.stations[a].locked = true → s.stations[a].fault = false → s.stations[a].hold = false →
          exec .unlock s = .next (State.answered rest f .done [] { s with
            stations := s.stations.set a { s.stations[a] with
              locked := false, reasons := { fault := false, line := false, command := false }, lockFlag := true } }))))

/-- R42: STATION MESSAGE is refused with RANGE, then STATE at a station that is not configured, not enabled or DISABLED, then
BUSY when the slot is occupied or 8 messages wait; otherwise the message takes the slot with the tag, 3 tries left and the
carried flag clear, no response joins the queue and one more deferred response is outstanding. -/
def Obligations.StationMessage : Prop :=
  ∀ (s : State) (rest : List RequestFrame) (tag b : Byte) (message : List Byte),
    let f : RequestFrame := { tag, payload := 0x14 :: b :: message }
    s.Takes f rest → 1 ≤ message.length → message.length ≤ 24 →
    (b.toNat = 0 ∨ 48 < b.toNat → exec .stationMessage s = .next (s.answered rest f .range [])) ∧
    (∀ a : StationIx, b.toNat = addr a →
      (s.stations[a].config.configured = false ∨ s.stations[a].config.enabled = false ∨ s.links[a].status = .disabled →
        exec .stationMessage s = .next (s.answered rest f .state [])) ∧
      (s.stations[a].config.configured = true → s.stations[a].config.enabled = true → s.links[a].status ≠ .disabled →
        (s.stations[a].message ≠ none ∨ 8 ≤ s.poolCount →
          exec .stationMessage s = .next (s.answered rest f .busy [])) ∧
        (s.stations[a].message = none → s.poolCount < 8 →
          exec .stationMessage s = .next { s with
            intake := { s.intake with fifo := rest }
            stations := s.stations.set a { s.stations[a] with
              message := some { payload := message, tag, tries := 3, carried := false } }
            outstanding := s.outstanding + 1 })))

/-! ### Reads (R32, R92, R162, R173) -/

/-- R32, R92: STATION GET and CONTAINER GET change no state. An address outside 1 to 48 and an index above 127 get RANGE;
otherwise DONE carries the report, whose bytes are those of R173. An UNCONFIGURED record is reported with its pending flags
and every other field absent. (That the overdue byte of a request block is 1 for yes is the model's choice, log 30.) -/
def Obligations.ReadsChangeNothing : Prop :=
  (∀ (s : State) (rest : List RequestFrame) (tag b : Byte),
    let f : RequestFrame := { tag, payload := [0x11, b] }
    s.Takes f rest →
    (b.toNat = 0 ∨ 48 < b.toNat → exec .stationGet s = .next (s.answered rest f .range [])) ∧
    (∀ a : StationIx, b.toNat = addr a →
      let t := s.stations[a]
      let l := s.links[a]
      exec .stationGet s = .next (s.answered rest f .done (
        [b, bitAt 0 t.config.configured ||| bitAt 1 t.config.enabled ||| bitAt 2 t.config.relay ||| bitAt 3 t.staged.isSome,
          byte t.config.inletCount, t.config.exitMode.code, byte t.config.rank] ++
        (match t.staged with
          | none => [0, 0, 0, 0]
          | some c => [bitAt 0 c.configured ||| bitAt 1 c.enabled ||| bitAt 2 c.relay, byte c.inletCount, c.exitMode.code,
              byte c.rank]) ++
        [t.summary.zeroExtend 8, bitAt 0 t.fault ||| bitAt 1 t.hold ||| bitAt 2 t.locked ||| bitAt 3 t.message.isSome,
          bitAt 0 t.reasons.fault ||| bitAt 1 t.reasons.line ||| bitAt 2 t.reasons.command] ++
        (match t.message with
          | none => [0, 0]
          | some m => [byte m.tries, m.tag]) ++
        [closeNowByte t.closeNow, l.status.code, byte l.noReply, byte l.mismatch])))) ∧
  (∀ (s : State) (rest : List RequestFrame) (tag b : Byte),
    let f : RequestFrame := { tag, payload := [0x21, b] }
    s.Takes f rest →
    (128 ≤ b.toNat → exec .containerGet s = .next (s.answered rest f .range [])) ∧
    (∀ i : ContainerIx, b.toNat = i.val →
      (s.container i = none → exec .containerGet s =
        .next (s.answered rest f .done ([b, 0, 0, 0, s.containers[i].flags.byte] ++ List.replicate 80 0))) ∧
      (∀ c, s.container i = some c → exec .containerGet s =
        .next (s.answered rest f .done (
          [b, c.state.code ||| bitAt 7 c.full, c.state.reasonCode,
            bitAt 0 c.staged.isSome ||| bitAt 1 c.liftStart.isSome ||| bitAt 2 c.liftDeadline.isSome |||
              bitAt 3 c.lastLift.isSome ||| bitAt 4 c.fill.interval.isSome ||| bitAt 5 c.timeToCall.isSome |||
              bitAt 6 s.requests[i].isSome ||| bitAt 7 c.fill.suspectBand.isSome, s.containers[i].flags.byte] ++
          c.binding.bytes ++ c.params.bytes ++
          (match c.staged with
            | none => List.replicate 12 0
            | some p => p.bytes) ++
          be5 (c.liftStart.getD 0) ++ be5 (c.liftDeadline.getD 0) ++ be4 ((c.lastLift.map BitVec.toNat).getD 0) ++
          be2 c.fill.e ++ [byte c.fill.cb, byte c.fill.suspectRun, byte (c.fill.suspectBand.getD 0)] ++
          be4 c.fill.lastStep.toNat ++ be4 (c.fill.interval.getD 0) ++ be2 c.fill.since ++
          [byte c.fill.noEcho, c.fill.mode.code, (c.fill.event.map SensorEvent.code).getD 0] ++
          be4 (c.timeToCall.getD 0) ++ requestBlock s.requests[i])))))

/-- R157, R162: STATUS GET is answered DONE with the status block of R173, as things stand at the take; then OVERRUN is
cleared, and nothing else changes. (That the valid flag and OVERRUN are sent as 1 for yes is the model's choice, log 30.) -/
def Obligations.StatusGetClearsOverrun : Prop :=
  ∀ (s : State) (rest : List RequestFrame) (tag : Byte),
    let f : RequestFrame := { tag, payload := [0x53] }
    s.Takes f rest → ∃ state : Byte,
      (s.line.state, state) ∈ [(.stopped, (0 : Byte)), (.running, 1), (.draining, 2), (.test, 3)] ∧
      exec .statusGet s = .next { s with
        intake := { s.intake with fifo := rest, overrun := false }
        responses := s.responses ++ [{
          kind := 0x53, tag, code := .done
          data := [state] ++ be4 s.line.cycleCount.toNat ++ be4 s.clock.district.toNat ++
            [if s.clock.valid then 1 else 0] ++ be5 s.clock.elapsed ++ be2 s.period.toNat ++ be2 s.cards.length ++
            [byte ((List.finRange 128).countP fun i : ContainerIx => (s.container i).isSome), byte s.sessions.length,
              byte s.deposits.length, byte ((List.finRange 128).countP fun i : ContainerIx => s.requests[i].isSome),
              byte ((List.finRange 4).countP fun n : FractionIx => s.slots[n].round.isSome), byte s.relay.length,
              if s.intake.overrun then 1 else 0] }] }

/-- R145, R171 to R175: codes, records, notices and frames have the bytes and the lengths of their layouts. Every enumeration is
sent as its code; fields of two, four and five bytes go most significant byte first; flags stand at their bits; an absent field
is sent as zeros with its presence bit clear. Spelled out are the codes, the card record, the binding, the parameters, the
pending flags, the CLOSE-NOW set, the request block, the status and settings blocks, responses, deposit records, round list
frames (frame k + 1 carries entries 8k + 1 to 8k + 8), relayed reports, the nine notices, and the frames of both links with
their check; the two reports are spelled out in ReadsChangeNothing. (That LINE's station flags are configured and enabled is
the model's reading, log 14; that every field of an UNCONFIGURED record's notice is sent as zeros, its binding, state, fault
reason, E and the SENSOR and LIFTED fields among them, its reading, log 15; that a one-byte yes or no field is 1 for yes, log 30,
its choice.) -/
def Obligations.RecordLengths : Prop :=
  (([DenyReason.line, .lockout, .noInlet, .inletOut, .full, .unknownCard, .suspended, .revoked, .fraction, .quota,
      .inletBusy, .cardBusy, .capacity].map DenyReason.code = [1, 2, 3, 4, 5, 6, 7, 8, 9, 10, 11, 12, 13]) ∧
    ([ResultCode.done, .staged, .range, .full, .absent, .collide, .state, .busy, .failed, .unknown].map ResultCode.code =
      [0, 1, 2, 3, 4, 5, 6, 7, 8, 9]) ∧
    ([CardStatus.active, .suspended, .revoked].map CardStatus.code = [0, 1, 2]) ∧
    ([ExitMode.auto, .cycle, .command].map ExitMode.code = [0, 1, 2]) ∧
    ([FieldRate.r19200, .r38400, .r57600, .r115200].map FieldRate.code = [0, 1, 2, 3]) ∧
    ([UplinkRate.r57600, .r115200, .r230400, .r460800].map UplinkRate.code = [0, 1, 2, 3]) ∧
    ([LineState.stopped, .running, .draining, .test].map LineState.code = [0, 1, 2, 3]) ∧
    ([LinkStatus.unknown, .online, .lost, .disabled].map LinkStatus.code = [0, 1, 2, 3]) ∧
    ([ContainerState.idle, .session, .lifting, .fault .hatch, .fault .lift].map
      (fun x => (x.code, x.reasonCode)) = [(1, 0), (2, 0), (3, 0), (4, 1), (4, 2)]) ∧
    ([DepositOutcome.deposit, .empty, .timeout, .aborted].map DepositOutcome.code = [0, 1, 2, 3]) ∧
    ([Origin.raised, .preempt].map Origin.code = [0, 1]) ∧
    ([CloseReason.done, .command, .timeout].map CloseReason.code = [0, 1, 2]) ∧
    ([SensorMode.normal, .degraded .stall, .degraded .noEcho].map SensorMode.code = [0, 1, 2]) ∧
    ([SensorEvent.jump, .stall, .noEcho, .cleared, .lift].map SensorEvent.code = [1, 2, 3, 4, 5]) ∧
    ([StartReason.power, .restart].map StartReason.code = [0, 1])) ∧
  ((∀ n : Nat, n < 256 → (byte n).toNat = n) ∧
    (∀ a b : Byte, be2 (word16 a b).toNat = [a, b]) ∧
    (∀ a b c d : Byte, be4 (word32 a b c d).toNat = [a, b, c, d]) ∧
    (∀ a b c d e : Byte, be5 (a.toNat * 4294967296 + (word32 b c d e).toNat) = [a, b, c, d, e]) ∧
    (∀ (n m : Nat) (b : Bool), n < 8 → m < 8 → (bitAt n b).getLsbD m = (decide (n = m) && b))) ∧
  ((∀ c : Card, c.bytes =
      be4 c.number.toNat ++ be2 c.household.toNat ++ [c.status.code, c.entitled.zeroExtend 8] ++
        [byte c.allowance[0], byte c.allowance[1], byte c.allowance[2], byte c.allowance[3]] ++
        [byte c.used[0], byte c.used[1], byte c.used[2], byte c.used[3]] ++
        [bitAt 0 c.lastUse.isSome ||| bitAt 1 c.link.isSome] ++
        (match c.lastUse with
          | none => [0, 0, 0, 0, 0]
          | some u => be4 u.time.toNat ++ [byte u.container.val]) ++
        (match c.link with
          | none => [0, 0]
          | some n => be2 n.toNat)) ∧
    (∀ b : Binding, b.bytes = [byte (addr b.station), byte (inletNo b.inlet), byte b.fraction.val]) ∧
    (∀ p : Params, p.bytes =
      be2 p.h ++ be2 p.d ++ be2 p.capacity ++ [byte p.v, byte p.k] ++ be2 p.tCall ++ be2 p.tStop) ∧
    (∀ x : ContainerFlags, x.byte =
      bitAt 0 x.raised ||| bitAt 1 x.overdue ||| bitAt 2 x.inletFault ||| bitAt 3 x.sensor ||| bitAt 4 x.lifted) ∧
    (∀ (set : Vector CloseMark 4) (m : Nat), (closeNowByte set).getLsbD m =
      (List.finRange 4).any fun n : InletIx => n.val = m && decide (set[n] ≠ .out)) ∧
    (requestBlock none = List.replicate 17 0) ∧
    (∀ r : Request, requestBlock (some r) =
      [byte r.fraction.val, r.origin.code] ++ be4 r.raiseTime.toNat ++ be2 r.fillAtRaise ++ be4 r.deadline.toNat ++
        (match r.state with
          | .waiting => [0, 0, 0, 0]
          | .planned slot volume => [1, byte slot.val] ++ be2 volume) ++
        [if r.overdue then 1 else 0]) ∧
    (∀ s : State, s.statusBlock =
      [s.line.state.code] ++ be4 s.line.cycleCount.toNat ++ be4 s.clock.district.toNat ++
        [if s.clock.valid then 1 else 0] ++ be5 s.clock.elapsed ++ be2 s.period.toNat ++ be2 s.cards.length ++
        [byte ((List.finRange 128).countP fun i : ContainerIx => (s.container i).isSome), byte s.sessions.length,
          byte s.deposits.length, byte ((List.finRange 128).countP fun i : ContainerIx => s.requests[i].isSome),
          byte ((List.finRange 4).countP fun n : FractionIx => s.slots[n].round.isSome), byte s.relay.length,
          if s.intake.overrun then 1 else 0]) ∧
    (∀ x : Settings, x.bytes = be2 x.hatchOpen ++ [byte x.window] ++ be2 x.liftTimeout ++ [x.rate.code]) ∧
    (∀ r : Response, r.payload = [r.kind, r.code.code] ++ r.data) ∧
    (∀ r : DepositRecord, r.payload =
      be4 r.card.toNat ++ be2 r.household.toNat ++ [byte r.container.val, byte (addr r.station), byte r.fraction.val] ++
        be4 r.grantTime.toNat ++ be4 r.endTime.toNat ++ [r.outcome.code, if r.charged then 1 else 0] ++
        be2 r.period.toNat) ∧
    (∀ (s : State) (n : FractionIx) (r : Round) (k : Nat), s.roundListPayload n r k =
      [byte n.val, r.tag] ++ be2 r.vehicle.toNat ++ be4 r.dispatch.toNat ++ be4 r.deadline.toNat ++
        [byte r.entries.length] ++ be4 r.total ++ [byte (k + 1), byte ((r.entries.length + 7) / 8)] ++
        (((r.entries.zipIdx 1).drop (8 * k)).take 8).flatMap fun p =>
          [byte p.2, byte p.1.container.val, byte (addr p.1.station),
            byte (((s.container p.1.container).map fun c => inletNo c.binding.inlet).getD 0)] ++
          be2 p.1.volume ++ [p.1.origin.code]) ∧
    (∀ r : Report, r.bytes = [byte (addr r.station), r.reply] ++ r.payload)) ∧
  (∀ s : State,
    let head (kind : Byte) (i : ContainerIx) : List Byte := [kind, byte i.val] ++
      (match s.container i with
        | none => [0, 0, 0, 0]
        | some c => c.binding.bytes ++ [c.state.code ||| bitAt 7 c.full])
    let request (i : ContainerIx) : List Byte :=
      [if s.requests[i].isSome then 1 else 0] ++ requestBlock s.requests[i] ++
        (match s.container i with
          | none => [0, 0]
          | some c => be2 c.fill.e)
    s.snapshot .start = [1, s.device.startReason.code] ++ s.statusBlock ∧
    (∀ a, let t := s.stations[a]
      s.snapshot (.lock a) = [2, byte (addr a), bitAt 0 t.fault ||| bitAt 1 t.hold ||| bitAt 2 t.locked,
        bitAt 0 t.reasons.fault ||| bitAt 1 t.reasons.line ||| bitAt 2 t.reasons.command, t.summary.zeroExtend 8,
        t.config.exitMode.code]) ∧
    (∀ a, let t := s.stations[a]
      s.snapshot (.line a) = [3, byte (addr a), bitAt 0 t.config.configured ||| bitAt 1 t.config.enabled,
        s.links[a].status.code, byte s.links[a].noReply, byte s.links[a].mismatch]) ∧
    (∀ i, s.snapshot (.raised i) = head 4 i ++ request i) ∧ (∀ i, s.snapshot (.overdue i) = head 5 i ++ request i) ∧
    (∀ i, s.snapshot (.inletFault i) = head 6 i ++
      (match s.container i with
        | none => [0]
        | some c => [c.state.reasonCode])) ∧
    (∀ i, s.snapshot (.sensor i) = head 7 i ++
      (match s.container i with
        | none => List.replicate 10 0
        | some c => [c.fill.mode.code, (c.fill.event.map SensorEvent.code).getD 0] ++ be2 c.fill.e ++ [byte c.fill.cb] ++
          (match c.fill.reading with
            | none => [0, 0, 0, 0, 0]
            | some r => [bitAt 0 true ||| bitAt 1 r.overFlag] ++ be2 r.d ++ be2 r.m))) ∧
    (∀ i, s.snapshot (.lifted i) = head 8 i ++
      (match (s.container i).bind Container.lastLift with
        | none => [0, 0, 0, 0]
        | some t => be4 t.toNat)) ∧
    (∀ n, s.snapshot (.closed n) =
      [9, byte n.val, if s.slots[n].round.isSome then 1 else 0, if s.slots[n].lastClose.isSome then 1 else 0] ++
        (match s.slots[n].lastClose with
          | none => List.replicate 9 0
          | some l => [l.reason.code] ++ be2 l.vehicle.toNat ++ be4 l.time.toNat ++ [byte l.entries, byte l.lifted]) ++
        (match s.slots[n].round with
          | none => List.replicate 7 0
          | some r => be2 r.vehicle.toNat ++ [byte r.entries.length] ++ be4 r.dispatch.toNat))) ∧
  ((∀ (kind : Byte) (payload : List Byte),
      let covered := [kind, byte payload.length] ++ payload
      fieldFrame kind payload = covered ++ be2 (crc16 covered).toNat) ∧
    (∀ (cls tag : Byte) (payload : List Byte),
      let covered := [cls, tag] ++ be2 payload.length ++ payload
      uplinkFrame cls tag payload = [0xA5] ++ covered ++ be2 (crc16 covered).toNat)) ∧
  (∀ c : Card, c.bytes.length = 24) ∧
  (∀ a t l, (stationReport a t l).length = 18) ∧
  (∀ i r q, (containerReport i r q).length = 85) ∧
  (∀ q, (requestBlock q).length = 17) ∧
  (∀ s : State, s.statusBlock.length = 26) ∧
  (∀ x : Settings, x.bytes.length = 6) ∧
  (∀ r : DepositRecord, r.payload.length = 21) ∧
  (∀ position inlet e, (entryBytes position inlet e).length = 7) ∧
  (∀ s : State, (s.snapshot .start).length = 28 ∧ (∀ a, (s.snapshot (.lock a)).length = 6) ∧
    (∀ a, (s.snapshot (.line a)).length = 6) ∧ (∀ i, (s.snapshot (.raised i)).length = 26) ∧
    (∀ i, (s.snapshot (.overdue i)).length = 26) ∧ (∀ i, (s.snapshot (.inletFault i)).length = 7) ∧
    (∀ i, (s.snapshot (.sensor i)).length = 16) ∧ (∀ i, (s.snapshot (.lifted i)).length = 10) ∧
    (∀ n, (s.snapshot (.closed n)).length = 20)) ∧
  (∀ (kind : Byte) (payload : List Byte), (fieldFrame kind payload).length = payload.length + 4) ∧
  (∀ (cls tag : Byte) (payload : List Byte), (uplinkFrame cls tag payload).length = payload.length + 7)

/-! ### Container records (R88 to R91, R95, R118) -/

/-- R88: the refusals of CONTAINER PUT in their order. RANGE for a field outside its range; STATE for another binding while
the container is not IDLE or has a request; and for a new or another binding STATE when the station is not configured, RANGE
when the inlet is above the station's inlet limit, COLLIDE when another configured record holds the (station, inlet). -/
def Obligations.ContainerPutIsRefused : Prop :=
  (∀ (s : State) (rest : List RequestFrame) (tag idx st il fr h1 h0 d1 d0 c1 c0 v k t1 t0 u1 u0 : Byte),
    let f : RequestFrame := { tag, payload := [0x20, idx, st, il, fr, h1, h0, d1, d0, c1, c0, v, k, t1, t0, u1, u0] }
    let h := (word16 h1 h0).toNat
    let d := (word16 d1 d0).toNat
    let capacity := (word16 c1 c0).toNat
    let tCall := (word16 t1 t0).toNat
    let tStop := (word16 u1 u0).toNat
    s.Takes f rest →
    127 < idx.toNat ∨ st.toNat = 0 ∨ 48 < st.toNat ∨ il.toNat = 0 ∨ 4 < il.toNat ∨ 3 < fr.toNat ∨ h < 300 ∨ 4000 < h ∨
      d < 200 ∨ h < d + 100 ∨ capacity < 100 ∨ 20000 < capacity ∨ 100 < v.toNat ∨ k.toNat = 0 ∨ 16 < k.toNat ∨
      tCall < 100 ∨ 1000 < tCall ∨ tStop < tCall ∨ 1000 < tStop →
    exec .containerPut s = .next (s.answered rest f .range [])) ∧
  (∀ (s : State) (rest : List RequestFrame) (tag : Byte) (i : ContainerIx) (b : Binding) (p : Params),
    let f : RequestFrame := { tag, payload := 0x20 :: byte i.val :: (b.bytes ++ p.bytes) }
    let t := s.stations[b.station]
    let limit := match t.staged with
      | none => t.config.inletCount
      | some x => if x.configured then min t.config.inletCount x.inletCount else 0
    s.Takes f rest → p.inRange = true →
    (∀ c, s.container i = some c → c.binding ≠ b → c.state ≠ .idle ∨ s.requests[i] ≠ none →
      exec .containerPut s = .next (s.answered rest f .state [])) ∧
    ((∀ c, s.container i = some c → c.binding ≠ b ∧ c.state = .idle ∧ s.requests[i] = none) →
      (t.config.configured = false → exec .containerPut s = .next (s.answered rest f .state [])) ∧
      (t.config.configured = true → limit < inletNo b.inlet →
        exec .containerPut s = .next (s.answered rest f .range [])) ∧
      (t.config.configured = true → inletNo b.inlet ≤ limit →
        (∃ j d, j ≠ i ∧ s.container j = some d ∧ d.binding.station = b.station ∧ d.binding.inlet = b.inlet) →
        exec .containerPut s = .next (s.answered rest f .collide []))))

/-- R88, R102: an accepted CONTAINER PUT configures an UNCONFIGURED record; at a station with a staged write the inlet lies
within the lower of the applied and the staged inlet count. The record takes the carried values, IDLE, no lift times, not full,
the starting fill fields with last step time now; the pending flags stay, nothing else changes, and the answer is DONE. -/
def Obligations.ContainerPutConfigures : Prop :=
  ∀ (s : State) (rest : List RequestFrame) (tag : Byte) (i : ContainerIx) (b : Binding) (p : Params),
    let f : RequestFrame := { tag, payload := 0x20 :: byte i.val :: (b.bytes ++ p.bytes) }
    let t := s.stations[b.station]
    let limit := match t.staged with
      | none => t.config.inletCount
      | some x => if x.configured then min t.config.inletCount x.inletCount else 0
    s.Takes f rest → p.inRange = true → s.container i = none → t.config.configured = true → inletNo b.inlet ≤ limit →
    (∀ j d, s.container j = some d → d.binding.station ≠ b.station ∨ d.binding.inlet ≠ b.inlet) →
    exec .containerPut s = .next (State.answered rest f .done [] { s with
      containers := s.containers.set i { s.containers[i] with body := some {
        binding := b, params := p, state := .idle, full := false, liftStart := none, liftDeadline := none,
        lastLift := none, staged := none
        fill := {
          e := 0, cb := 0, suspectRun := 0, suspectBand := none, lastStep := s.clock.district, interval := none,
          since := 0, noEcho := 0, mode := .normal, reading := none, event := none } } } })

/-- R88 to R90: CONTAINER PUT on a configured record. An IDLE container takes the carried values at once (another binding only
without a request, and when the binding checks pass, the inlet limit under a staged write being the lower of the two), full is tested, a raise test is made, DONE; fill fields and last lift
end are kept. In SESSION, LIFTING and FAULT the carried parameters become the staged part, STAGED. -/
def Obligations.ContainerPutWrites : Prop :=
  ∀ (s : State) (rest : List RequestFrame) (tag : Byte) (i : ContainerIx) (b : Binding) (p : Params) (c : Container),
    let f : RequestFrame := { tag, payload := 0x20 :: byte i.val :: (b.bytes ++ p.bytes) }
    let t := s.stations[b.station]
    let limit := match t.staged with
      | none => t.config.inletCount
      | some x => if x.configured then min t.config.inletCount x.inletCount else 0
    s.Takes f rest → p.inRange = true → s.container i = some c →
    (c.state = .idle →
      c.binding = b ∨ (s.requests[i] = none ∧ t.config.configured = true ∧ inletNo b.inlet ≤ limit ∧
        ∀ j d, s.container j = some d → j = i ∨ d.binding.station ≠ b.station ∨ d.binding.inlet ≠ b.inlet) →
      exec .containerPut s = .next (State.answered rest f .done []
        (s.tested i s.containers[i].flags (({ c with binding := b } : Container).withParams p)))) ∧
    (c.state ≠ .idle → c.binding = b →
      exec .containerPut s = .next (State.answered rest f .staged [] { s with
        containers := s.containers.set i { s.containers[i] with body := some { c with staged := some p } } }))

/-- R91: CONTAINER CLEAR is refused with RANGE, ABSENT or STATE; otherwise the record becomes UNCONFIGURED with its pending
flags cleared. -/
def Obligations.ContainerClear : Prop :=
  ∀ (s : State) (rest : List RequestFrame) (tag b : Byte),
    let f : RequestFrame := { tag, payload := [0x22, b] }
    s.Takes f rest →
    (128 ≤ b.toNat → exec .containerClear s = .next (s.answered rest f .range [])) ∧
    (∀ i : ContainerIx, b.toNat = i.val →
      (s.container i = none → exec .containerClear s = .next (s.answered rest f .absent [])) ∧
      (∀ c, s.container i = some c →
        (c.state ≠ .idle ∨ s.requests[i] ≠ none → exec .containerClear s = .next (s.answered rest f .state [])) ∧
        (c.state = .idle → s.requests[i] = none →
          exec .containerClear s = .next (State.answered rest f .done [] { s with
            containers := s.containers.set i {
              flags := { raised := false, overdue := false, inletFault := false, sensor := false, lifted := false }
              body := none } }))))

/-- R94, R95, R118: CLEAR INLET is refused with RANGE, and with STATE unless the container is in FAULT; otherwise the container
becomes IDLE, under reason LIFT its lift start and deadline become absent, INLET FAULT is raised, a staged part is applied
and the answer is DONE. CLEAR SENSOR is refused with RANGE, and with STATE for an UNCONFIGURED record or in NORMAL mode;
otherwise, in every container state, the mode becomes NORMAL, CB the band of E, the runs and the deposits since step 0, last
step time now, the last event CLEARED, SENSOR is raised, and E and the request stay. -/
def Obligations.ClearInletAndSensor : Prop :=
  ∀ (s : State) (rest : List RequestFrame) (tag b : Byte),
    (let f : RequestFrame := { tag, payload := [0x23, b] }
    s.Takes f rest →
    (128 ≤ b.toNat → exec .clearInlet s = .next (s.answered rest f .range [])) ∧
    (∀ i : ContainerIx, b.toNat = i.val →
      ((∀ c reason, s.container i = some c → c.state ≠ .fault reason) →
        exec .clearInlet s = .next (s.answered rest f .state [])) ∧
      (∀ c reason, s.container i = some c → c.state = .fault reason →
        exec .clearInlet s = .next (State.answered rest f .done []
          (s.becomesIdle i { s.containers[i].flags with inletFault := true } { c with
            liftStart := if reason = .lift then none else c.liftStart
            liftDeadline := if reason = .lift then none else c.liftDeadline }))))) ∧
    (let f : RequestFrame := { tag, payload := [0x24, b] }
    s.Takes f rest →
    (128 ≤ b.toNat → exec .clearSensor s = .next (s.answered rest f .range [])) ∧
    (∀ i : ContainerIx, b.toNat = i.val →
      ((∀ c, s.container i = some c → c.fill.mode = .normal) →
        exec .clearSensor s = .next (s.answered rest f .state [])) ∧
      (∀ c, s.container i = some c → c.fill.mode ≠ .normal →
        exec .clearSensor s = .next (State.answered rest f .done [] { s with
          containers := s.containers.set i {
            flags := { s.containers[i].flags with sensor := true }
            body := some { c with fill := { c.fill with
              mode := .normal, cb := c.fill.e / 100, suspectRun := 0, suspectBand := none, noEcho := 0, since := 0
              lastStep := s.clock.district, event := some .cleared } } } }))))

/-! ### Fill estimation (R105 to R116, R141) -/

/-- R109: the blend adds to E the quotient k × (M − E) / 16 rounded to an integer, halves away from zero; E then lies between
its old value and M. -/
def Obligations.BlendRoundsHalvesAway : Prop :=
  ∀ k e m : Nat, 1 ≤ k → k ≤ 16 → ∃ increment : Int,
    let product : Int := k * ((m : Int) - e)
    (blend k e m : Int) = e + increment ∧ |16 * increment - product| ≤ 8 ∧
    (|16 * increment - product| = 8 → |product| < |16 * increment|) ∧
    |increment| ≤ |(m : Int) - e| ∧ min e m ≤ blend k e m ∧ blend k e m ≤ max e m

/-- R114: time-to-call exists exactly in NORMAL mode with a step interval; it is 0 from T_call on, and below it the least whole
number of seconds not under (T_call − E) × interval / 100, held at 4,294,967,295. -/
def Obligations.TimeToCall : Prop :=
  ∀ c : Container,
    (c.fill.mode ≠ .normal ∨ c.fill.interval = none → c.timeToCall = none) ∧
    (∀ interval, c.fill.mode = .normal → c.fill.interval = some interval →
      (c.params.tCall ≤ c.fill.e → c.timeToCall = some 0) ∧
      (c.fill.e < c.params.tCall → ∃ x : Nat, c.timeToCall = some (min x 4294967295) ∧
        (c.params.tCall - c.fill.e) * interval ≤ 100 * x ∧
        100 * x < (c.params.tCall - c.fill.e) * interval + 100))

/-- R141: the planned volume is the least whole number of litres not under E × capacity / 1000, and 1 litre at E 0. -/
def Obligations.PlannedVolume : Prop :=
  ∀ c : Container,
    (c.fill.e = 0 → c.plannedVolume = 1) ∧
    (0 < c.fill.e → 0 < c.params.capacity →
      c.fill.e * c.params.capacity ≤ 1000 * c.plannedVolume ∧
      1000 * c.plannedVolume < c.fill.e * c.params.capacity + 1000)

/-- R93, R105 to R113, R116: a level reading. In LIFTING and in FAULT with reason LIFT it is discarded. No echo counts the
no-echo run up to 8, and at 8 in NORMAL mode the container becomes DEGRADED with reason NO_ECHO and SENSOR is raised. A valid
echo zeroes the run, and in DEGRADED mode does nothing more. In NORMAL mode it is converted to a measured fill m and becomes
the last reading; in the band of CB it is blended, in the band above it is a correct step, in any other it is suspect, and the
third suspect reading of one band running is adopted, with SENSOR raised. Where E is written, full and the request are
tested. (R105 speaks of two cases in which a reading reaches the estimator and states one, a LEVEL frame handed on: that no
other event brings a reading is the model's choice, log 28.) -/
def Obligations.LevelReading : Prop :=
  ∀ (s : State) (i : ContainerIx) (c : Container) (d : Nat), s.container i = some c →
    let f := c.fill
    let flags := s.containers[i].flags
    let now := s.clock.district
    let kept (flags : ContainerFlags) (g : Fill) : State :=
      { s with containers := s.containers.set i { flags, body := some { c with fill := g } } }
    let reported (flags : ContainerFlags) (g : Fill) : State :=
      s.tested i flags ({ c with fill := g } : Container).fullTested
    (c.state = .lifting ∨ c.state = .fault .lift → s.levelReading i d = s) ∧
    (c.state ≠ .lifting → c.state ≠ .fault .lift →
      (d = 0 ∨ 4000 < d →
        (f.mode = .normal → 7 ≤ f.noEcho → s.levelReading i d =
          kept { flags with sensor := true } { f with noEcho := 8, mode := .degraded .noEcho, event := some .noEcho }) ∧
        (f.mode ≠ .normal ∨ f.noEcho < 7 → s.levelReading i d = kept flags { f with noEcho := min 8 (f.noEcho + 1) })) ∧
      (1 ≤ d → d ≤ 4000 → f.mode ≠ .normal → s.levelReading i d = kept flags { f with noEcho := 0 }) ∧
      (1 ≤ d → d ≤ 4000 → f.mode = .normal →
        let quotient := (c.params.h - d) * 1000 / c.params.d
        let m := if c.params.h ≤ d then 0 else min quotient 1000
        let g : Fill := { f with
          noEcho := 0, reading := some { d, m, overFlag := decide (d < c.params.h ∧ 1000 < quotient) } }
        (m / 100 = f.cb → s.levelReading i d =
          reported flags { g with e := blend c.params.k f.e m, suspectRun := 0, suspectBand := none }) ∧
        (m / 100 = f.cb + 1 → s.levelReading i d = reported flags { g with
          interval :=
            if now.toNat ≤ f.lastStep.toNat then f.interval
            else match f.interval with
              | none => some (now.toNat - f.lastStep.toNat)
              | some old => some ((3 * old + (now.toNat - f.lastStep.toNat)) / 4)
          lastStep := now, cb := m / 100, e := max (blend c.params.k f.e m) (100 * (m / 100)), since := 0, suspectRun := 0
          suspectBand := none }) ∧
        (m / 100 < f.cb ∨ f.cb + 1 < m / 100 →
          let run := if f.suspectBand = some (m / 100) then f.suspectRun + 1 else 1
          (run < 3 → s.levelReading i d = kept flags { g with suspectBand := some (m / 100), suspectRun := run }) ∧
          (3 ≤ run → s.levelReading i d = reported { flags with sensor := true } { g with
            cb := m / 100, e := m, lastStep := now, since := 0, suspectRun := 0, suspectBand := none
            event := some .jump }))))

/-- R115, R116: a charged deposit adds the deposit step to E, at most to 1,000, and counts; in NORMAL mode the container
becomes DEGRADED with reason STALL, with SENSOR raised, when the deposits since the last step times the deposit step reach
200; then full and the request are tested. -/
def Obligations.ChargedDeposit : Prop :=
  ∀ (s : State) (i : ContainerIx) (c : Container), s.container i = some c →
    let f := c.fill
    let flags := s.containers[i].flags
    let g : Fill := { f with e := min 1000 (f.e + c.params.v), since := min 65535 (f.since + 1) }
    (f.mode ≠ .normal ∨ g.since * c.params.v < 200 →
      s.chargedDeposit i = s.tested i flags ({ c with fill := g } : Container).fullTested) ∧
    (f.mode = .normal → 200 ≤ g.since * c.params.v →
      s.chargedDeposit i = s.tested i { flags with sensor := true }
        ({ c with fill := { g with mode := .degraded .stall, event := some .stall } } : Container).fullTested)

/-! ### Requests and district time (R125 to R130, R160, R161) -/

/-- R125: FRACTION PUT is refused with RANGE, or sets the entry and answers DONE with the entry and the fraction's counts of
WAITING and PLANNED requests; held requests keep their deadlines. (That enabled is answered as 1 for yes is the model's choice,
log 30.) -/
def Obligations.FractionPut : Prop :=
  ∀ (s : State) (rest : List RequestFrame) (tag b flags : Byte) (wait : Nat), wait < 4294967296 →
    let f : RequestFrame := { tag, payload := [0x30, b, flags] ++ be4 wait }
    s.Takes f rest →
    (3 < b.toNat ∨ wait < 600 ∨ 1209600 < wait → exec .fractionPut s = .next (s.answered rest f .range [])) ∧
    (∀ n : FractionIx, b.toNat = n.val → 600 ≤ wait → wait ≤ 1209600 →
      let held (test : RequestState → Bool) : Nat := (List.finRange 128).countP fun i : ContainerIx =>
        s.requests[i].any fun r => r.fraction = n && test r.state
      exec .fractionPut s = .next (State.answered rest f .done
        ([if flags.getLsbD 0 then 1 else 0] ++ be4 wait ++
          [byte (held fun x => x = .waiting), byte (held fun x => x ≠ .waiting)])
        { s with fractions := s.fractions.set n { enabled := flags.getLsbD 0, maxWait := wait } }))

/-- R130: REQUEST CANCEL is refused with RANGE, ABSENT, or STATE for a PLANNED request; otherwise the record is removed and
DONE carries its origin, raise time, deadline and overdue flag; pending flags stay. (That the overdue flag is sent as 1 for yes
is the model's choice, log 30.) -/
def Obligations.RequestCancel : Prop :=
  ∀ (s : State) (rest : List RequestFrame) (tag b : Byte),
    let f : RequestFrame := { tag, payload := [0x31, b] }
    s.Takes f rest →
    (128 ≤ b.toNat → exec .requestCancel s = .next (s.answered rest f .range [])) ∧
    (∀ i : ContainerIx, b.toNat = i.val →
      (s.requests[i] = none → exec .requestCancel s = .next (s.answered rest f .absent [])) ∧
      (∀ r, s.requests[i] = some r →
        (r.state ≠ .waiting → exec .requestCancel s = .next (s.answered rest f .state [])) ∧
        (r.state = .waiting → exec .requestCancel s = .next (State.answered rest f .done
          ([r.origin.code] ++ be4 r.raiseTime.toNat ++ be4 r.deadline.toNat ++ [if r.overdue then 1 else 0])
          { s with requests := s.requests.set i none }))))

/-- R127, R160, R161: the overdue marking marks every request that is not yet overdue and whose deadline the district time has
reached, raises OVERDUE on its container, and changes nothing else. An advance of the seconds adds one to the elapsed seconds
(40 bits) and to the district time, which wraps from 4,294,967,295 to 0; TIME SET replaces the district time, makes it valid
and answers DONE with the new time, the previous time and the previous valid flag. Each of the two then makes the overdue
marking and closes the rounds whose deadline is reached. (That the marking command marks all the due requests at once is the
model's reading, log 8; that the previous valid flag is sent as 1 for yes is its choice, log 30.) -/
def Obligations.TimeGoesOn : Prop :=
  (∀ s : State, exec .requestOverdueMarking s = .next s.overdueMarked) ∧
  (∀ s : State, s.clock.elapsed < 1099511627775 →
    ∃ t, exec .roundDeadlineExpiry (State.overdueMarked { s with clock := { s.clock with
        elapsed := s.clock.elapsed + 1
        district := if s.clock.district = 0xFFFFFFFF then 0 else BitVec.ofNat 32 (s.clock.district.toNat + 1) } }) = .next t ∧
      exec .secondsAdvance s = .next t) ∧
  (∀ (s : State) (rest : List RequestFrame) (tag t3 t2 t1 t0 : Byte),
    let f : RequestFrame := { tag, payload := [0x52, t3, t2, t1, t0] }
    s.Takes f rest → ∃ t, exec .roundDeadlineExpiry (State.overdueMarked { s with
        intake := { s.intake with fifo := rest }
        clock := { s.clock with district := word32 t3 t2 t1 t0, valid := true } }) = .next t ∧
      exec .timeSet s = .next { t with responses := s.responses ++ [{
        kind := 0x52, tag, code := .done
        data := [t3, t2, t1, t0] ++ be4 s.clock.district.toNat ++ [if s.clock.valid then 1 else 0] }] })

/-! ### Rounds (R140 to R149) -/

/-- R147 to R149: ROUND CLOSE is refused with RANGE, and with STATE for a FREE slot; otherwise the round closes with reason
COMMAND and DONE carries the entry count and the lifted count. A round whose deadline the district time has reached closes
with reason TIMEOUT; one whose deadline it has not reached stays; where several are due they close one after another in
ascending slot, each on the state the one before it left, and nothing else changes. (A round holds no container twice, R138. That
the expiry command closes all the due rounds, and their order, are the model's reading, log 8.) -/
def Obligations.RoundCloses : Prop :=
  (∀ (s : State) (rest : List RequestFrame) (tag b : Byte),
    let f : RequestFrame := { tag, payload := [0x33, b] }
    s.Takes f rest →
    (3 < b.toNat → exec .roundClose s = .next (s.answered rest f .range [])) ∧
    (∀ n : FractionIx, b.toNat = n.val →
      (s.slots[n].round = none → exec .roundClose s = .next (s.answered rest f .state [])) ∧
      (∀ r, s.slots[n].round = some r → (r.entries.map Entry.container).Nodup →
        exec .roundClose s = .next (State.answered rest f .done
          [byte r.entries.length, byte (r.entries.countP fun e => e.state ≠ .planned)]
          (s.roundClosed n r .command))))) ∧
  (∀ s : State,
    let due (n : FractionIx) : Prop := ∃ r, s.slots[n].round = some r ∧ r.deadline.toNat ≤ s.clock.district.toNat
    ((∀ n, ¬ due n) → exec .roundDeadlineExpiry s = .next s) ∧
    (∀ n r, s.slots[n].round = some r → (r.entries.map Entry.container).Nodup → due n → (∀ m, due m → m = n) →
      exec .roundDeadlineExpiry s = .next (s.roundClosed n r .timeout)) ∧
    ((∀ p ∈ s.dueRounds, (p.2.entries.map Entry.container).Nodup) →
      exec .roundDeadlineExpiry s = .next (s.dueRounds.foldl (fun t p => t.roundClosed p.1 p.2 .timeout) s)) ∧
    (∃ t, exec .roundDeadlineExpiry s = .next t ∧
      (∀ n, ¬ due n → t.slots[n] = s.slots[n]) ∧
      (∀ n r, s.slots[n].round = some r → due n → t.slots[n] = {
        round := none, closedFlag := true
        lastClose := some {
          reason := .timeout, vehicle := r.vehicle, time := s.clock.district, entries := r.entries.length
          lifted := r.entries.countP fun e => e.state ≠ .planned } })))

/-- R140: ROUND OPEN is refused with RANGE for a field outside its range, with BUSY while the slot is DISPATCHED or a round
list frame of it is unsent, with STATE for a disabled fraction. -/
def Obligations.RoundOpenIsRefused : Prop :=
  ∀ (s : State) (rest : List RequestFrame) (tag b limit : Byte) (vehicle : Word16) (budget duration horizon : Nat),
    budget < 4294967296 → duration < 65536 → horizon < 4294967296 →
    let f : RequestFrame := {
      tag, payload := [0x32, b] ++ be2 vehicle.toNat ++ [limit] ++ be4 budget ++ be2 duration ++ be4 horizon }
    s.Takes f rest →
    (3 < b.toNat ∨ limit.toNat = 0 ∨ 24 < limit.toNat ∨ budget < 100 ∨ 200000 < budget ∨ duration < 600 ∨
        43200 < duration ∨ 86400 < horizon → exec .roundOpen s = .next (s.answered rest f .range [])) ∧
    (∀ n : FractionIx, b.toNat = n.val → 1 ≤ limit.toNat → limit.toNat ≤ 24 → 100 ≤ budget → budget ≤ 200000 →
      600 ≤ duration → duration ≤ 43200 → horizon ≤ 86400 →
      (s.slots[n].round ≠ none ∨ (∃ x ∈ s.roundLists, x.slot = n) →
        exec .roundOpen s = .next (s.answered rest f .busy [])) ∧
      (s.slots[n].round = none → (∀ x ∈ s.roundLists, x.slot ≠ n) → s.fractions[n].enabled = false →
        exec .roundOpen s = .next (s.answered rest f .state [])))

/-- R140 to R145, R148: an accepted ROUND OPEN. Pass 1 walks the fraction's WAITING requests by deadline and container index,
passing over locked stations, LIFTING and FAULT; pass 2, when the horizon is above 0 and the limit is not reached, walks the
idle containers in NORMAL mode without a request, below T_call and within the horizon, by time-to-call and index. Each walk
takes what fits the entry limit and the remaining budget. With nothing taken nothing changes and DONE carries 0 and 0. Else the
slot holds the round with its entries in route order, the requests taken are PLANNED in it, the round list joins the FIFO, and
DONE carries the entry count and the volume total; all the rest is as before. The round deadline is the dispatch time plus the
duration, held at 4,294,967,295; a round whose deadline is reached at its dispatch then closes TIMEOUT (R143, R148, R149). -/
def Obligations.RoundOpenBuildsARound : Prop :=
  ∀ (s : State) (rest : List RequestFrame) (tag : Byte) (n : FractionIx) (vehicle : Word16)
    (limit budget duration horizon : Nat),
    let f : RequestFrame := {
      tag
      payload := [0x32, byte n.val] ++ be2 vehicle.toNat ++ [byte limit] ++ be4 budget ++ be2 duration ++ be4 horizon }
    let now := s.clock.district
    let volume (i : ContainerIx) : Nat := ((s.container i).map Container.plannedVolume).getD 0
    let waits (i : ContainerIx) : Bool := s.requests[i].any fun r => r.fraction = n && r.state = .waiting
    let deadline (i : ContainerIx) : Nat := (s.requests[i].map fun r => r.deadline.toNat).getD 0
    let inReach (i : ContainerIx) : Bool := (s.container i).any fun c =>
      !s.stations[c.binding.station].locked && (c.state = .idle || c.state = .session)
    let candidate (i : ContainerIx) : Bool := (s.container i).any fun c =>
      c.binding.fraction = n && c.state = .idle && c.fill.mode = .normal && !s.stations[c.binding.station].locked &&
        s.requests[i].isNone && c.fill.e < c.params.tCall && c.timeToCall.any fun x => x ≤ horizon
    let time (i : ContainerIx) : Nat := ((s.container i).bind Container.timeToCall).getD 0
    s.Takes f rest → 1 ≤ limit → limit ≤ 24 → 100 ≤ budget → budget ≤ 200000 → 600 ≤ duration → duration ≤ 43200 →
    horizon ≤ 86400 → s.slots[n].round = none → (∀ x ∈ s.roundLists, x.slot ≠ n) → s.fractions[n].enabled = true →
    let due := min (now.toNat + duration) 4294967295
    ∃ first second : List ContainerIx,
      first.Perm ((List.finRange 128).filter waits) ∧
      first.Pairwise (fun i j => deadline i < deadline j ∨ (deadline i = deadline j ∧ i < j)) ∧
      second.Perm ((List.finRange 128).filter candidate) ∧
      second.Pairwise (fun i j => time i < time j ∨ (time i = time j ∧ i < j)) ∧
      (let pass1 := greedy limit budget ((first.filter inReach).map fun i => (i, volume i))
      let spent := (pass1.map Prod.snd).sum
      let pass2 :=
        if 0 < horizon then greedy (limit - pass1.length) (budget - spent) (second.map fun i => (i, volume i)) else []
      let total := ((pass1 ++ pass2).map Prod.snd).sum
      (pass1 ++ pass2 = [] → exec .roundOpen s = .next (s.answered rest f .done [0, 0, 0, 0, 0])) ∧
      (pass1 ++ pass2 ≠ [] →
        ∃ (entries : List Entry) (round : Round) (t : State),
          exec .roundOpen s = .next (if due ≤ now.toNat then t.roundClosed n round .timeout else t) ∧
          (entries.map fun e => (e.container, e.volume)).Perm (pass1 ++ pass2) ∧
          (∀ e ∈ entries, e.state = .planned ∧ (∃ c, s.container e.container = some c ∧ e.station = c.binding.station) ∧
            e.origin = if e.container ∈ pass1.map Prod.fst then .raised else .preempt) ∧
          entries.Pairwise (fun d e =>
            let p := s.stations[d.station].config.rank
            let q := s.stations[e.station].config.rank
            p < q ∨ (p = q ∧ (d.station < e.station ∨ (d.station = e.station ∧ d.container < e.container)))) ∧
          round = { tag, vehicle, dispatch := now, deadline := BitVec.ofNat 32 due, total, entries } ∧
          t.slots = s.slots.set n { s.slots[n] with round := some round } ∧
          t.responses = s.responses ++ [{
            kind := 0x32, tag, code := .done, data := byte entries.length :: be4 total }] ∧
          t.roundLists = s.roundLists ++ (List.range ((entries.length + 7) / 8)).map
            (fun k => { slot := n, payload := s.roundListPayload n round k }) ∧
          (∀ i, t.requests[i] =
            if i ∈ pass1.map Prod.fst then s.requests[i].map fun r => { r with state := .planned n (volume i) }
            else if i ∈ pass2.map Prod.fst then
              (s.container i).map fun c => { c.raisedRequest s with origin := .preempt, state := .planned n (volume i) }
            else s.requests[i]) ∧
          (∀ i, t.containers[i] =
            if i ∈ pass2.map Prod.fst then
              { s.containers[i] with flags := { s.containers[i].flags with
                  overdue := s.containers[i].flags.overdue || t.requests[i].any Request.overdue } }
            else s.containers[i]) ∧
          t.intake = { s.intake with fifo := rest } ∧ t.stations = s.stations ∧
          t.links = s.links ∧ t.cards = s.cards ∧ t.sessions = s.sessions ∧ t.line = s.line ∧ t.clock = s.clock ∧
          t.settings = s.settings ∧ t.period = s.period ∧ t.nextSession = s.nextSession ∧ t.deposits = s.deposits ∧
          t.arrivals = s.arrivals ∧ t.fractions = s.fractions ∧ t.deferred = s.deferred ∧ t.outstanding = s.outstanding ∧
          t.relay = s.relay ∧ t.sender = s.sender ∧ t.device = s.device ∧ t.pending = s.pending))

/-! ### Settings (R8, R159) -/

/-- R8, R159: SETTINGS PUT is refused with RANGE for a field outside its range, and with STATE when it names another field
line rate while the line is not STOPPED; otherwise all four fields are taken and DONE carries them. SETTINGS GET answers DONE
with the four fields and the strapped uplink rate and changes nothing. -/
def Obligations.SettingsPutAndGet : Prop :=
  (∀ (s : State) (rest : List RequestFrame) (tag o1 o0 w l1 l0 code : Byte),
    let f : RequestFrame := { tag, payload := [0x50, o1, o0, w, l1, l0, code] }
    let hatch := (word16 o1 o0).toNat
    let lift := (word16 l1 l0).toNat
    s.Takes f rest →
    (hatch < 10 ∨ 300 < hatch ∨ w.toNat < 5 ∨ 100 < w.toNat ∨ lift < 600 ∨ 7200 < lift ∨ 3 < code.toNat →
      exec .settingsPut s = .next (s.answered rest f .range [])) ∧
    (∀ rate, 10 ≤ hatch → hatch ≤ 300 → 5 ≤ w.toNat → w.toNat ≤ 100 → 600 ≤ lift → lift ≤ 7200 →
      (code, rate) ∈ fieldRateCodes →
      (rate ≠ s.settings.rate → s.line.state ≠ .stopped →
        exec .settingsPut s = .next (s.answered rest f .state [])) ∧
      (rate = s.settings.rate ∨ s.line.state = .stopped →
        exec .settingsPut s = .next (State.answered rest f .done [o1, o0, w, l1, l0, code]
          { s with settings := { hatchOpen := hatch, window := w.toNat, liftTimeout := lift, rate := rate } })))) ∧
  (∀ (s : State) (rest : List RequestFrame) (tag : Byte),
    let f : RequestFrame := { tag, payload := [0x51] }
    s.Takes f rest → ∃ code uplink : Byte,
      (code, s.settings.rate) ∈ fieldRateCodes ∧
      (uplink, s.device.uplinkRate) ∈ [((0 : Byte), UplinkRate.r57600), (1, .r115200), (2, .r230400), (3, .r460800)] ∧
      exec .settingsGet s = .next (s.answered rest f .done
        (be2 s.settings.hatchOpen ++ [byte s.settings.window] ++ be2 s.settings.liftTimeout ++ [code, uplink])))

/-! ### Line states (R2 to R7, R12) -/

/-- R2, R3: LINE START in STOPPED makes the line RUNNING with a cycle wrap, made when the turn ends if one is in flight; in
DRAINING it makes the line RUNNING and releases the held LINE STOP response FAILED; in RUNNING it changes nothing, DONE each
time; in TEST it gets STATE. LINE STOP in RUNNING makes the line STOPPED, DONE, or with sessions open DRAINING with the
response held; in DRAINING it gets BUSY, in STOPPED DONE, in TEST STATE. (That LINE START forgets a turn chosen earlier and
that a due wrap is held as one flag are the model's readings, logs 10 and 9.) -/
def Obligations.LineStartAndStop : Prop :=
  (∀ (s : State) (rest : List RequestFrame) (tag : Byte),
    let f : RequestFrame := { tag, payload := [0x40] }
    s.Takes f rest →
    (s.line.state = .stopped → s.line.turn = none → exec .lineStart s =
      .next (State.answered rest f .done []
        (State.wrap { s.took rest with line := { s.line with state := .running, nextTurn := none } }))) ∧
    (s.line.state = .stopped → s.line.turn ≠ none → exec .lineStart s =
      .next (State.answered rest f .done []
        { s with line := { s.line with state := .running, nextTurn := none, wrapDue := true } })) ∧
    (s.line.state = .draining → exec .lineStart s = .next (State.answered rest f .done [] { s with
      line := { s.line with state := .running, heldStop := none }
      deferred := s.deferred ++
        (s.line.heldStop.map fun held => { kind := 0x41, tag := held, code := .failed, data := [] }).toList })) ∧
    (s.line.state = .running → exec .lineStart s = .next (s.answered rest f .done [])) ∧
    (s.line.state = .test → exec .lineStart s = .next (s.answered rest f .state []))) ∧
  (∀ (s : State) (rest : List RequestFrame) (tag : Byte),
    let f : RequestFrame := { tag, payload := [0x41] }
    s.Takes f rest →
    (s.line.state = .running → s.sessions = [] → exec .lineStop s =
      .next (State.answered rest f .done [] { s with line := { s.line with state := .stopped } })) ∧
    (s.line.state = .running → s.sessions ≠ [] → exec .lineStop s = .next { s with
      intake := { s.intake with fifo := rest }
      line := { s.line with state := .draining, heldStop := some tag }
      outstanding := s.outstanding + 1 }) ∧
    (s.line.state = .draining → exec .lineStop s = .next (s.answered rest f .busy [])) ∧
    (s.line.state = .stopped → exec .lineStop s = .next (s.answered rest f .done [])) ∧
    (s.line.state = .test → exec .lineStop s = .next (s.answered rest f .state [])))

/-- R6, R7: LINE TEST makes a STOPPED line TEST with its response held, and gets STATE in every other line state. In TEST,
with no turn in flight and the last transmission judged, the next of 16 transmissions goes out: address 63 downlink, one TEST
frame of its number and the fixed pattern. It is judged a match when exactly the characters sent were heard; after the
sixteenth the line is STOPPED and the response is released DONE with the match count. (That a test transmission without its
occasion changes nothing is the model's choice, log 1.) -/
def Obligations.LineTestRuns : Prop :=
  (∀ (s : State) (rest : List RequestFrame) (tag : Byte),
    let f : RequestFrame := { tag, payload := [0x42] }
    s.Takes f rest →
    (s.line.state = .stopped → exec .lineTest s = .next { s with
      intake := { s.intake with fifo := rest }
      line := { s.line with state := .test, test := some { tag, sent := 0, matched := 0 } }
      outstanding := s.outstanding + 1 }) ∧
    (s.line.state ≠ .stopped → exec .lineTest s = .next (s.answered rest f .state []))) ∧
  (∀ (s : State) (x : LineTest), s.line.test = some x → s.line.state = .test → s.line.turn = none →
    s.line.testTx = none → x.sent < 16 →
    let covered : List Byte := [0x05, 17, byte (x.sent + 1), 0x00, 0xFF, 0x55, 0xAA, 0x01, 0x02, 0x04, 0x08, 0x10, 0x20,
      0x40, 0x80, 0xFE, 0xFD, 0xFB, 0xF7]
    let chars : List LineChar := { mark := true, data := 63 } :: (covered ++ be2 (crc16 covered).toNat).map
      fun b => { mark := false, data := b }
    exec .testTransmission s = .next { s with line := { s.line with
      test := some { x with sent := x.sent + 1 }, testTx := some chars, flTxd := chars } }) ∧
  (∀ s : State, s.line.state ≠ .test ∨ s.line.turn ≠ none ∨ s.line.testTx ≠ none ∨ s.line.test = none →
    exec .testTransmission s = .next s) ∧
  (∀ (s : State) (x : LineTest) (sent heard : List LineChar), s.line.test = some x → s.line.testTx = some sent →
    let matched := if heard = sent then x.matched + 1 else x.matched
    (x.sent ≠ 16 → exec (.testTransmissionJudged heard) s = .next { s with line := { s.line with
      test := some { x with matched := matched }, testTx := none } }) ∧
    (x.sent = 16 → exec (.testTransmissionJudged heard) s = .next { s with
      line := { s.line with state := .stopped, test := none, testTx := none }
      deferred := s.deferred ++ [{ kind := 0x42, tag := x.tag, code := .done, data := [byte matched] }] }))

/-- R9, R12, R30, R31, R38: a cycle wrap. For each station in ascending address its staged part is applied, and then a CYCLE-mode
lock whose conditions hold leaves. A part with configured yes sets the fields, and an AUTO-mode lock whose conditions hold
leaves (R37); where enabled changes to no every session at the station ends ABORTED with its inlet in the CLOSE-NOW set (R73,
R76, R36), its message fails (R43), and the link status becomes UNKNOWN unless it is DISABLED; with enabled yes a DISABLED link
becomes UNKNOWN; LINE is raised where the status changes (R23). A part with configured no gives the record the values of R28.
A station without a staged part is otherwise untouched. The cycle count rises by one, wrapping to 0; the poll list becomes the
stations configured, enabled and not DISABLED, in ascending order, with the regular pointer before the first. The one-second
interval makes a wrap at once in RUNNING and DRAINING with an empty poll list, or when the turn in flight ends; otherwise it
changes nothing. (The flag of a due wrap, log 9, that the interval changes nothing outside its occasion, log 1, and the arrival
numbers of the deposit records, log 17, are the model's.) -/
def Obligations.CycleWrap : Prop :=
  (∀ s : State,
    let t := s.wrap
    let u := (List.finRange 48).foldl State.stationWrapped s
    t = { u with line := { u.line with
      cycleCount := u.line.cycleCount + 1
      pollList := (List.finRange 48).filter fun a : StationIx =>
        u.stations[a].config.configured && u.stations[a].config.enabled && decide (u.links[a].status ≠ .disabled)
      pointer := 0, wrapDue := false } } ∧
    t.line.cycleCount.toNat = (s.line.cycleCount.toNat + 1) % 4294967296 ∧
    t.line.pollList.Pairwise (fun a b => a < b) ∧
    (∀ a : StationIx, a ∈ t.line.pollList ↔ t.stations[a].config.configured = true ∧ t.stations[a].config.enabled = true ∧
      t.links[a].status ≠ .disabled) ∧
    t.line.pointer = 0 ∧ t.line.wrapDue = false ∧
    (∀ a : StationIx, t.stations[a].staged = none) ∧
    (∀ (a : StationIx) (c : StationConfig), s.stations[a].staged = some c → c.configured = true →
      t.stations[a].config = c) ∧
    (∀ (a : StationIx) (c : StationConfig), s.stations[a].staged = some c → c.configured = false → t.stations[a].config =
      { configured := false, enabled := false, relay := false, inletCount := 1, exitMode := .auto, rank := 0 }) ∧
    (∀ a : StationIx, s.stations[a].staged = none → t.links[a] = s.links[a] ∧
      t.stations[a] =
        (if s.stations[a].config.exitMode = .cycle ∧ s.stations[a].locked = true ∧ s.stations[a].fault = false ∧
            s.stations[a].hold = false ∧ s.stations[a].reasons.command = false then
          { s.stations[a] with
            locked := false, reasons := { fault := false, line := false, command := false }, lockFlag := true }
        else s.stations[a]))) ∧
  (∀ s : State,
    (s.line.state = .running ∨ s.line.state = .draining → s.line.pollList = [] →
      (s.line.turn = none → exec .emptyListWrapInterval s = .next s.wrap) ∧
      (s.line.turn ≠ none →
        exec .emptyListWrapInterval s = .next { s with line := { s.line with wrapDue := true } })) ∧
    (s.line.state = .stopped ∨ s.line.state = .test ∨ s.line.pollList ≠ [] →
      exec .emptyListWrapInterval s = .next s))

/-! ### Poll turns (R8, R11, R13 to R15, R20 to R22) -/

/-- R5, R11, R12: the choice of the next turn. None in STOPPED and TEST. With an empty poll list the ring's head gets a
session slot, if there is one. After a regular slot the ring's head gets a session slot, if there is one. Else the first
station from the regular pointer on that is not DISABLED gets a regular slot; where there is none the list has been passed, a
wrap is made, and the first station of the new list gets the slot, or with an empty new list the ring's head a session slot,
if there is one; nobody where the wrap has ended a drain. At the end of a turn a wrap that is due is made first, and then the
choice. (That the choice is held until the poll transmission, and
the flag of a due wrap, are the model's readings, logs 10 and 9.) -/
def Obligations.NextTurnIsChosen : Prop :=
  ∀ (s : State) (previous : Option SlotKind),
    (s.line.state = .stopped ∨ s.line.state = .test → s.chooseTurn previous = s) ∧
    (s.line.state = .running ∨ s.line.state = .draining →
      (s.line.pollList = [] ∨ previous = some .regular → ∀ a ring, s.line.ring = a :: ring →
        s.chooseTurn previous = { s with line := { s.line with nextTurn := some (a, .session) } }) ∧
      (s.line.pollList = [] → s.line.ring = [] → s.chooseTurn previous = s) ∧
      (s.line.pollList ≠ [] → previous ≠ some .regular ∨ s.line.ring = [] →
        (∀ (k : Nat) (a : StationIx), s.line.pointer ≤ k → s.line.pollList[k]? = some a → s.links[a].status ≠ .disabled →
          (∀ j b, s.line.pointer ≤ j → j < k → s.line.pollList[j]? = some b → s.links[b].status = .disabled) →
          s.chooseTurn previous = { s with line := { s.line with nextTurn := some (a, .regular), pointer := k + 1 } }) ∧
        ((∀ k b, s.line.pointer ≤ k → s.line.pollList[k]? = some b → s.links[b].status = .disabled) →
          let w := s.wrap
          (w.line.state = .stopped ∨ w.line.state = .test → s.chooseTurn previous = w) ∧
          (w.line.state = .running ∨ w.line.state = .draining →
            (∀ a list, w.line.pollList = a :: list → s.chooseTurn previous =
              { w with line := { w.line with nextTurn := some (a, .regular), pointer := 1 } }) ∧
            (w.line.pollList = [] →
              (∀ a ring, w.line.ring = a :: ring → s.chooseTurn previous =
                { w with line := { w.line with nextTurn := some (a, .session) } }) ∧
              (w.line.ring = [] → s.chooseTurn previous = w)))))) ∧
    (∀ kind,
      let left : State := { s with line := { s.line with turn := none } }
      (s.line.wrapDue = false → s.endTurn kind = left.chooseTurn (some kind)) ∧
      (s.line.wrapDue = true → s.endTurn kind = left.wrap.chooseTurn (some kind)))

/-- R8, R11, R13, R14, R36, R43: the parts of a turn up to the reply. A chosen turn begins with the poll transmission: POLL
with the accept mask, a CLOSE-NOW frame for each inlet of the set, ascending, and the message; inlets and message are marked
carried, and a station served in a session slot goes to the ring's tail. When the transmission ends the reply start window
opens with the setting in force; an address character in it starts the reply; a reply that runs past its limit is given up.
(That a choice is held, or made at the transmission where none is, and that a transmission without its occasion changes
nothing, are the model's readings, logs 10 and 1.) -/
def Obligations.PollTurnGoesOn : Prop :=
  (∀ (s : State) (a : StationIx) (kind : SlotKind), s.line.turn = none →
    s.line.state = .running ∨ s.line.state = .draining → s.line.nextTurn = some (a, kind) →
    let x := s.stations[a]
    let inlets := (List.finRange 4).filter fun n : InletIx => x.closeNow[n] ≠ .out
    let poll := fieldFrame 0x01 (match s.links[a].mask with
      | none => [0, 0]
      | some m => [bitAt 7 true ||| m.positions.zeroExtend 8, m.reply])
    let closes := inlets.flatMap fun n => fieldFrame 0x02 [byte (inletNo n)]
    let message := match x.message with
      | none => []
      | some m => fieldFrame 0x03 m.payload
    exec .pollTransmission s = .next { s with
      stations := s.stations.set a { x with
        closeNow := x.closeNow.map fun m => if m = .fresh then .carried else m
        message := x.message.map fun m => { m with carried := true } }
      line := { s.line with
        turn := some {
          station := a, kind, closeNow := inlets, message := x.message.isSome, rate := s.settings.rate
          phase := .sendingPoll }
        nextTurn := none
        ring := if kind = .session ∧ a ∈ s.line.ring then (s.line.ring.filter fun b => b ≠ a) ++ [a] else s.line.ring
        flTxd := { mark := true, data := byte (addr a) } ::
          (poll ++ closes ++ message).map fun b => { mark := false, data := b } } }) ∧
  (∀ s : State, s.line.turn ≠ none ∨ s.line.state = .stopped ∨ s.line.state = .test →
    exec .pollTransmission s = .next s) ∧
  (∀ s : State, s.line.turn = none → s.line.state = .running ∨ s.line.state = .draining → s.line.nextTurn = none →
    ((s.chooseTurn none).line.nextTurn = none → exec .pollTransmission s = .next (s.chooseTurn none)) ∧
    (∀ a kind, (s.chooseTurn none).line.nextTurn = some (a, kind) →
      exec .pollTransmission s = .next ((s.chooseTurn none).beginTurn a kind))) ∧
  (∀ (s : State) (t : Turn), s.line.turn = some t →
    let phase (p : TurnPhase) : State := { s with line := { s.line with turn := some { t with phase := p } } }
    (t.phase = .sendingPoll → exec .pollTransmissionEnd s = .next (phase (.window s.settings.window))) ∧
    (∀ ms address, t.phase = .window ms → exec (.replyStart address) s = .next (phase (.receiving address))) ∧
    (∀ address, t.phase = .receiving address → exec .replyLengthLimit s = .next (phase .overlong)))

/-- R14, R15, R18, R21, R22, R24, R34, R43: a turn without a sound header. No reply start in the window, a reply that ran too
long and a reply without a sound HEADER count the no-reply run, an address character of another station or not of the uplink
the mismatch run. Where the link status stays, a message carried in the turn has spent a try. Where it enters LOST or
DISABLED, LINE is raised and a line fault is made: the message is answered FAILED, and at a station that was neither locked
nor faulted every session at it ends ABORTED with its inlet fresh in the CLOSE-NOW set (R35, R36, R73, R76). Nothing else
changes before the turn ends. (The arrival numbers of the deposit records are the model's, log 17.) -/
def Obligations.TurnsThatFail : Prop :=
  ∀ (s : State) (t : Turn), s.line.turn = some t →
    let a := t.station
    let fails (command : Instr) (mismatched : Bool) : Prop :=
      let l := s.links[a].failed mismatched
      (l.status = s.links[a].status →
        let u : State := { s with links := s.links.set a l }
        exec command s = .next (State.endTurn t.kind (if t.message then u.trySpent a else u))) ∧
      (l.status ≠ s.links[a].status → exec command s = .next (State.endTurn t.kind (s.lineFaulted a l)))
    (∀ ms, t.phase = .window ms → fails .replyWindowExpiry false) ∧
    (t.phase = .overlong → fails .replyOverrunTurnEnd false) ∧
    (∀ address chars, t.phase = .receiving address →
      (address.toNat % 64 ≠ addr a ∨ address.getLsbD 7 = false → fails (.replyEnd chars) true) ∧
      (address.toNat % 64 = addr a → address.getLsbD 7 = true → classify a address chars = .badHeader →
        fails (.replyEnd chars) false))

/-- R15, R16, R169 to R171: from the characters of a reply whose address character names the station with the uplink direction,
the frames are found as they were sent, each with its check passed or failed, up to an incomplete frame, a length byte above 24,
or the first character with its mark bit set; what follows these is not framed. A HEADER with its check passed and a frame
count of at most 4 makes the reply GOOD, with its reply number, fault summary, frame count and the frames that follow. Without
one whole frame, or with a first frame whose check fails, whose kind or length is not HEADER's, or whose count is above 4, the
reply is BAD_HEADER. -/
def Obligations.ReplyFramesAreFound : Prop :=
  ∀ (a : StationIx) (address : Byte) (frames : List HeardFrame) (tail : List Byte) (rest : List LineChar),
    address.toNat % 64 = addr a → address.getLsbD 7 = true → (∀ f ∈ frames, f.payload.length ≤ 24) →
    tail.length < 2 ∨ (∃ kind len more, tail = kind :: len :: more ∧ (24 < len.toNat ∨ more.length < len.toNat + 2)) →
    rest = [] ∨ (∃ c cs, rest = c :: cs ∧ c.mark = true) →
    let bytes := frames.flatMap HeardFrame.bytes ++ tail
    let chars := (bytes.map fun b => { mark := false, data := b }) ++ rest
    (∀ header more reply summary count, frames = header :: more → header.passes = true → header.kind = 0x41 →
      header.payload = [reply, summary, count] → count.toNat ≤ 4 →
      classify a address chars = .good reply (summary.truncate 4) count.toNat
        (more.map fun f => { kind := f.kind, payload := f.payload, sound := f.passes })) ∧
    ((∀ header more reply summary count, frames = header :: more → header.passes = true → header.kind = 0x41 →
      header.payload = [reply, summary, count] → 4 < count.toNat) →
      classify a address chars = .badHeader)

/-- R17, R18, R21, R33, R35, R36, R73, R76: a GOOD reply without further frames. The link is ONLINE with both runs 0, and LINE is raised
if it was not; the CLOSE-NOW inlets the poll carried leave the set; the fault summary is taken, and where it makes a lockout
entry every session at the station ends ABORTED with its inlet fresh in the CLOSE-NOW set; the accept mask becomes the reply
number with no position; a message carried and not acknowledged has spent a try; the turn ends. The end of a closing
transmission ends the turn too. (The order of the message try and the end of the turn follows log 11; the arrival numbers of
the deposit records are the model's, log 17.) -/
def Obligations.GoodReplyWithoutFrames : Prop :=
  (∀ (s : State) (t : Turn) (address reply summary count : Byte), s.line.turn = some t → t.phase = .receiving address →
    address.toNat % 64 = addr t.station → address.getLsbD 7 = true → count.toNat ≤ 4 →
    let a := t.station
    let chars := (fieldFrame 0x41 [reply, summary, count]).map fun b => { mark := false, data := b }
    let u : State := (s.headerTaken a (summary.truncate 4)).maskReplaced a reply 0
    exec (.replyEnd chars) s = .next (State.endTurn t.kind (if t.message then u.trySpent a else u))) ∧
  (∀ (s : State) (t : Turn), s.line.turn = some t → t.phase = .closing →
    exec .closingTransmissionEnd s = .next (s.endTurn t.kind))

/-! ### Admission (R20, R61, R64 to R70) -/

/-- R64 to R70: a CARD frame judged through the eleven checks, the first that fails giving the deny reason. A DENY changes
nothing. A repeat at the session's own inlet is granted the remaining open time and changes nothing. Else the grant carries
the hatch open time and opens the session: its record, the container in SESSION, the card's link, the station in the session
ring; the next session number passes over those of open sessions. The verdict of a reply's only frame, judged once the header
has been taken with the sessions its fault summary may end (R33, R35, R73, R76), is sent in the closing transmission with the
inlet and the card number as presented. (That the message try falls within the reply's end is the model's reading, log 11; a
repeat after the deadline's second, log 21; the arrival numbers of deposit records are the model's, log 17.) -/
def Obligations.CardIsJudged : Prop :=
  (∀ (s : State) (a : StationIx) (inlet : Byte) (card : Word32),
    let denied (r : DenyReason) : Prop := s.judgeCard a inlet card = (.deny r, s)
    let here (c : Container) : Prop := c.binding.station = a ∧ inletNo c.binding.inlet = inlet.toNat
    (s.line.state ≠ .running → denied .line) ∧
    (s.line.state = .running → s.stations[a].locked = true → denied .lockout) ∧
    (s.line.state = .running → s.stations[a].locked = false →
      (s.stations[a].config.inletCount < inlet.toNat ∨ (∀ i c, s.container i = some c → ¬ here c) → denied .noInlet) ∧
      (inlet.toNat ≤ s.stations[a].config.inletCount →
        ∀ i c, s.container i = some c → here c → (∀ j d, s.container j = some d → here d → j = i) →
          let f := c.binding.fraction
          let k := s.cards.find? fun k => k.number = card
          let open_ := s.sessions.find? fun x => x.station = a ∧ x.inlet = c.binding.inlet
          let inletAdmits : Prop := (c.state = .idle ∨ c.state = .session) ∧ c.fill.e < c.params.tStop
          (c.state ≠ .idle → c.state ≠ .session → denied .inletOut) ∧
          (c.state = .idle ∨ c.state = .session → c.params.tStop ≤ c.fill.e → denied .full) ∧
          (inletAdmits → k = none → denied .unknownCard) ∧
          (∀ k', inletAdmits → k = some k' →
            let quotaLeft : Prop := k'.allowance[f] = 255 ∨ k'.used[f] < k'.allowance[f]
            (k'.status = .suspended → denied .suspended) ∧
            (k'.status = .revoked → denied .revoked) ∧
            (k'.status = .active → k'.entitled.getLsbD f = false → denied .fraction) ∧
            (k'.status = .active → k'.entitled.getLsbD f = true → ¬ quotaLeft → denied .quota) ∧
            (k'.status = .active → k'.entitled.getLsbD f = true → quotaLeft →
              (∀ x, open_ = some x → x.card ≠ card → denied .inletBusy) ∧
              (∀ x, open_ = some x → x.card = card →
                s.judgeCard a inlet card = (.grant (x.deadline - s.clock.elapsed), s)) ∧
              (open_ = none → k'.link ≠ none → denied .cardBusy) ∧
              (open_ = none → k'.link = none →
                16 ≤ s.sessions.length ∨ 32 ≤ s.deposits.length + s.sessions.length → denied .capacity) ∧
              (open_ = none → k'.link = none → s.sessions.length < 16 → s.deposits.length + s.sessions.length < 32 →
                let x : Session := {
                  number := s.nextSession, card, household := k'.household, container := i, station := a
                  inlet := c.binding.inlet, fraction := f, grantTime := s.clock.district
                  deadline := s.clock.elapsed + s.settings.hatchOpen }
                ∃ n : Nat, 1 ≤ n ∧ (∀ y ∈ x :: s.sessions, y.number ≠ s.nextSession + BitVec.ofNat 16 n) ∧
                  (∀ m : Nat, 1 ≤ m → m < n → ∃ y ∈ s.sessions, y.number = s.nextSession + BitVec.ofNat 16 m) ∧
                  s.judgeCard a inlet card = (.grant s.settings.hatchOpen, { s with
                    sessions := s.sessions ++ [x]
                    nextSession := s.nextSession + BitVec.ofNat 16 n
                    containers := s.containers.set i {
                      s.containers[i] with body := some { c with state := .session } }
                    cards := s.cards.map fun d => if d.number = card then { d with link := some s.nextSession } else d
                    line := { s.line with
                      ring := if a ∈ s.line.ring then s.line.ring else s.line.ring ++ [a] } }))))))) ∧
  (∀ (s : State) (t : Turn) (address reply summary inlet c3 c2 c1 c0 : Byte), s.line.turn = some t →
    t.phase = .receiving address → address.toNat % 64 = addr t.station → address.getLsbD 7 = true →
    let a := t.station
    let chars := (fieldFrame 0x41 [reply, summary, 1] ++ fieldFrame 0x42 [inlet, c3, c2, c1, c0]).map
      fun b => { mark := false, data := b }
    let judged := (s.headerTaken a (summary.truncate 4)).judgeCard a inlet (word32 c3 c2 c1 c0)
    let verdict : List Byte := match judged.1 with
      | .grant openTime => 0 :: be2 openTime
      | .deny r => [r.code, 0, 0]
    let u : State := judged.2.maskReplaced a reply 1
    let v : State := { u with line := { u.line with
      turn := some { t with phase := .closing }
      flTxd := { mark := true, data := byte (addr a) } ::
        (fieldFrame 0x04 ([inlet, c3, c2, c1, c0] ++ verdict)).map fun b => { mark := false, data := b } } }
    exec (.replyEnd chars) s = .next (if t.message then v.trySpent a else v))

/-! ### Frames of a reply handed on (R16 to R19) -/

/-- R16 to R20, R43, R163: the frames of a GOOD reply, after its header has been taken (R18, R33, R35, R73, R76). Up to four frames within
the header's count are judged in position order, each on the state the one before it left, and each accepted one sets its
position's bit of the accept mask; a frame beyond the count has no effect and no bit. Every CARD frame accepted gives a VERDICT;
with one or more, the closing transmission carries them in order, and without one the turn ends. A single frame that is no CARD
frame is spelled out: HATCH CLOSED, LEVEL, LIFT START and LIFT END
have their effect at the container bound to the inlet, and a frame for which none is bound is discarded; MESSAGE ACK answers
DONE a message that has been carried; REPORT joins the relay queue when the station's relay flag is set. Each is accepted, but
for a REPORT that finds the relay queue full, a defective frame, and one whose length is not that of its kind. The accept mask
is replaced, a message carried has spent a try, and the turn ends. (That the try falls within the reply's end is the model's
reading, log 11; the arrival numbers of reports and deposit records are its own, log 17.) -/
def Obligations.FramesAreHandedOn : Prop :=
  ∀ (s : State) (t : Turn) (address reply summary : Byte), s.line.turn = some t → t.phase = .receiving address →
    address.toNat % 64 = addr t.station → address.getLsbD 7 = true →
    let a := t.station
    let u : State := s.headerTaken a (summary.truncate 4)
    let ends (frame : List Byte) (positions : BitVec 4) (v : State) : Prop :=
      let chars := (fieldFrame 0x41 [reply, summary, 1] ++ frame).map fun b => { mark := false, data := b }
      let w : State := v.maskReplaced a reply positions
      exec (.replyEnd chars) s = .next (State.endTurn t.kind (if t.message then w.trySpent a else w))
    (∀ inlet flags : Byte, ends (fieldFrame 0x43 [inlet, flags]) 1 (u.hatchClosed a inlet (flags.getLsbD 0))) ∧
    (∀ (inlet hi lo : Byte) (i : ContainerIx) (c : Container), u.container i = some c → c.binding.station = a →
      inletNo c.binding.inlet = inlet.toNat →
      (∀ j d, u.container j = some d → d.binding.station = a → d.binding.inlet = c.binding.inlet → j = i) →
      ends (fieldFrame 0x44 [inlet, hi, lo]) 1 (u.levelReading i (word16 hi lo).toNat) ∧
      ends (fieldFrame 0x45 [inlet]) 1 (u.startLift i) ∧ ends (fieldFrame 0x46 [inlet]) 1 (u.endLift i)) ∧
    (∀ inlet hi lo : Byte,
      (∀ i c, u.container i = some c → c.binding.station = a → inletNo c.binding.inlet ≠ inlet.toNat) →
      ends (fieldFrame 0x44 [inlet, hi, lo]) 1 u ∧ ends (fieldFrame 0x45 [inlet]) 1 u ∧
        ends (fieldFrame 0x46 [inlet]) 1 u) ∧
    (∀ m, u.stations[a].message = some m → m.carried = true ∨ m.tries < 3 →
      ends (fieldFrame 0x47 []) 1 { u with
        stations := u.stations.set a { u.stations[a] with message := none }, deferred := u.messageAnswered a .done }) ∧
    ((∀ m, u.stations[a].message = some m → m.carried = false ∧ 3 ≤ m.tries) → ends (fieldFrame 0x47 []) 1 u) ∧
    (∀ payload : List Byte, 1 ≤ payload.length → payload.length ≤ 24 →
      (s.stations[a].config.relay = false → ends (fieldFrame 0x48 payload) 1 u) ∧
      (s.stations[a].config.relay = true → s.relay.length < 4 → ends (fieldFrame 0x48 payload) 1 { u with
        relay := u.relay ++ [{ arrival := u.arrivals, station := a, reply, payload }], arrivals := u.arrivals + 1 }) ∧
      (s.stations[a].config.relay = true → 4 ≤ s.relay.length → ends (fieldFrame 0x48 payload) 0 u)) ∧
    (∀ (kind : Byte) (payload : List Byte), payload.length ≤ 24 →
      kind.toNat < 0x41 ∨ 0x48 < kind.toNat ∨ (kind = 0x41 ∧ payload.length = 3) → ends (fieldFrame kind payload) 1 u) ∧
    (∀ (kind : Byte) (payload : List Byte), payload.length ≤ 24 →
      (kind, payload.length) ∉ [((0x41 : Byte), 3), (0x42, 5), (0x43, 2), (0x44, 3), (0x45, 1), (0x46, 1), (0x47, 0)] →
      0x41 ≤ kind.toNat → kind.toNat ≤ 0x47 ∨ (kind = 0x48 ∧ payload = []) → ends (fieldFrame kind payload) 0 u) ∧
    (∀ (kind c1 c0 : Byte) (payload : List Byte), payload.length ≤ 24 →
      word16 c1 c0 ≠ crc16 (kind :: byte payload.length :: payload) →
      ends (kind :: byte payload.length :: payload ++ [c1, c0]) 0 u) ∧
    (∀ (count : Byte) (frames : List HeardFrame), count.toNat ≤ 4 → (∀ f ∈ frames, f.payload.length ≤ 24) →
      let chars := (fieldFrame 0x41 [reply, summary, count] ++ frames.flatMap HeardFrame.bytes).map
        fun b => { mark := false, data := b }
      let h := u.framesTaken a reply count.toNat 1 frames
      let w : State := h.state.maskReplaced a reply h.positions
      let v : State := w.closingBegun t h.verdicts
      exec (.replyEnd chars) s = .next (
        if h.verdicts = [] then State.endTurn t.kind (if t.message then w.trySpent a else w)
        else if t.message then v.trySpent a else v))

/-! ### Endings of sessions (R71 to R79, R83) -/

/-- R71 to R75, R77 to R79, R83: an ending in its nine steps. A charged outcome (DEPOSIT, TIMEOUT) charges the card in the
session's fraction and hands the estimator one deposit; the card link goes; the deposit record joins the queue; the session
leaves the hatch table; the container becomes IDLE with its staged part applied, or FAULT with reason HATCH and INLET FAULT
raised, or LIFTING; a station without another session leaves the ring; in DRAINING the last ending stops the line and releases
the held response DONE. The earliest hatch deadline reached ends its session TIMEOUT. HATCH CLOSED ends the inlet's session
DEPOSIT or EMPTY; a late one clears a HATCH fault; a stray one has no effect. (That an expiry is a command of its own, one
session each, and none where none is due, and the arrival number of a record, are the model's readings, logs 7, 1 and 17.) -/
def Obligations.SessionEndings : Prop :=
  (∀ (s : State) (x : Session) (o : DepositOutcome) (after : AfterSession) (c : Container),
    x ∈ s.sessions → s.container x.container = some c →
    let i := x.container
    let f := x.fraction
    let charged : Bool := decide (o = .deposit ∨ o = .timeout)
    let left := s.sessions.erase x
    let drained : Bool := decide (s.line.state = .draining ∧ left = [])
    let u : State := if charged then s.chargedDeposit i else s
    ∃ d, u.container i = some d ∧
      let flags := u.containers[i].flags
      let v : State := match after with
        | .idle => u.becomesIdle i flags d
        | .faultHatch => { u with
            containers := u.containers.set i { flags := { flags with inletFault := true }, body := some { d with state := .fault .hatch } } }
        | .lifting => { u with containers := u.containers.set i { flags, body := some { d with
            state := .lifting, liftStart := some s.clock.elapsed
            liftDeadline := some (s.clock.elapsed + s.settings.liftTimeout) } } }
      s.endSession o after x = { s with
        cards := s.cards.map fun k =>
          if k.number = x.card then
            (if charged then { k with
              link := none
              used := k.used.set f (if k.allowance[f] = 255 ∧ k.used[f] = 254 then 254 else k.used[f] + 1)
              lastUse := some { time := s.clock.district, container := i } }
            else { k with link := none })
          else k
        deposits := s.deposits ++ [{ arrival := s.arrivals, record := x.record s o }]
        arrivals := s.arrivals + 1
        sessions := left
        containers := v.containers
        requests := v.requests
        line := { s.line with
          ring := if ∃ y ∈ left, y.station = x.station then s.line.ring else s.line.ring.filter fun b => b ≠ x.station
          state := if drained then .stopped else s.line.state
          heldStop := if drained then none else s.line.heldStop }
        deferred := s.deferred ++ (if drained then
          (s.line.heldStop.map fun tag => { kind := 0x41, tag, code := .done, data := [] }).toList else []) }) ∧
  (∀ s : State,
    ((∀ x ∈ s.sessions, s.clock.elapsed < x.deadline) → exec .hatchDeadlineExpiry s = .next s) ∧
    (∀ x ∈ s.sessions, x.deadline ≤ s.clock.elapsed →
      (∀ y ∈ s.sessions, y = x ∨ x.deadline < y.deadline ∨ (x.deadline = y.deadline ∧
        (x.station < y.station ∨ (x.station = y.station ∧ x.inlet < y.inlet)))) →
      exec .hatchDeadlineExpiry s = .next (s.endSession .timeout .faultHatch x))) ∧
  (∀ (s : State) (a : StationIx) (inlet : Byte) (sensed : Bool),
    (∀ x ∈ s.sessions, x.station = a → inletNo x.inlet = inlet.toNat →
      (∀ y ∈ s.sessions, y.station = a → y.inlet = x.inlet → y = x) →
      s.hatchClosed a inlet sensed = s.endSession (if sensed then .deposit else .empty) .idle x) ∧
    ((∀ x ∈ s.sessions, x.station = a → inletNo x.inlet ≠ inlet.toNat) →
      (∀ i c, s.container i = some c → c.binding.station = a → inletNo c.binding.inlet = inlet.toNat →
        (∀ j d, s.container j = some d → d.binding.station = a → d.binding.inlet = c.binding.inlet → j = i) →
        c.state = .fault .hatch → s.hatchClosed a inlet sensed =
          s.becomesIdle i { s.containers[i].flags with inletFault := true } c) ∧
      ((∀ i c, s.container i = some c → c.binding.station = a → inletNo c.binding.inlet = inlet.toNat →
        c.state ≠ .fault .hatch) → s.hatchClosed a inlet sensed = s)))

/-! ### Lifts (R96 to R99, R120, R134, R146) -/

/-- R96 to R99, R120, R134, R146: a lift start makes an IDLE container or one in FAULT LIFTING, with lift start and deadline,
and raises INLET FAULT from FAULT; in SESSION it ends the session ABORTED; in LIFTING it has no effect. A lift end completes a
lift in LIFTING and in FAULT with reason LIFT: IDLE, last lift end now, the fill fields reset, full no, SENSOR raised from
DEGRADED and INLET FAULT from FAULT, the request closed, its round's entry LIFTED and the round closed DONE after its last
one, LIFTED raised, a staged part applied. In any other state it starts and completes a lift at once. The earliest lift
deadline reached (then lowest index: the model's order, log 23) makes the container FAULT with reason LIFT and raises INLET
FAULT. (That an expiry is a command of its own, one deadline for each command, log 7, and that the command changes nothing where
none is reached, log 1, are the model's readings.) -/
def Obligations.Lifts : Prop :=
  (∀ (s : State) (i : ContainerIx) (c : Container), s.container i = some c →
    let flags := s.containers[i].flags
    let now := s.clock.district
    let started (flags : ContainerFlags) : State := { s with
      containers := s.containers.set i { flags, body := some { c with
        state := .lifting, liftStart := some s.clock.elapsed
        liftDeadline := some (s.clock.elapsed + s.settings.liftTimeout) } } }
    (c.state = .idle → s.startLift i = started flags) ∧
    (∀ reason, c.state = .fault reason → s.startLift i = started { flags with inletFault := true }) ∧
    (c.state = .lifting → s.startLift i = s) ∧
    (∀ x ∈ s.sessions, c.state = .session → x.container = i → (∀ y ∈ s.sessions, y.container = i → y = x) →
      s.startLift i = s.endSession .aborted .lifting x) ∧
    (c.state ≠ .lifting → c.state ≠ .fault .lift → s.endLift i = (s.startLift i).endLift i) ∧
    (c.state = .lifting ∨ c.state = .fault .lift → c.params.inRange = true →
      let flags' : ContainerFlags := { flags with
        inletFault := flags.inletFault || decide (c.state = .fault .lift)
        sensor := flags.sensor || decide (c.fill.mode ≠ .normal)
        lifted := true }
      let c' : Container := { c with
        full := false, liftStart := none, liftDeadline := none, lastLift := some now
        fill := { c.fill with
          e := 0, cb := 0, suspectRun := 0, suspectBand := none, noEcho := 0, since := 0, lastStep := now, mode := .normal
          reading := none
          event := if c.fill.mode = .normal then c.fill.event else some .lift } }
      (s.requests[i] = none → s.endLift i = s.becomesIdle i flags' c') ∧
      (∀ q, s.requests[i] = some q → q.state = .waiting →
        s.endLift i = State.becomesIdle i flags' c' { s with requests := s.requests.set i none }) ∧
      (∀ q n volume r, s.requests[i] = some q → q.state = .planned n volume → s.slots[n].round = some r →
        let entries := r.entries.map fun e => if e.container = i then { e with state := .lifted now } else e
        s.endLift i = State.becomesIdle i flags' c' { s with
          requests := s.requests.set i none
          slots := s.slots.set n (
            if ∃ e ∈ entries, e.state = .planned then { s.slots[n] with round := some { r with entries } }
            else {
              round := none, closedFlag := true
              lastClose := some {
                reason := .done, vehicle := r.vehicle, time := now, entries := entries.length
                lifted := entries.length } }) }))) ∧
  (∀ s : State,
    let due (i : ContainerIx) (c : Container) (d : Nat) : Prop :=
      s.container i = some c ∧ c.state = .lifting ∧ c.liftDeadline = some d ∧ d ≤ s.clock.elapsed
    ((∀ i c d, ¬ due i c d) → exec .liftDeadlineExpiry s = .next s) ∧
    (∀ i c d, due i c d → (∀ j c' d', due j c' d' → d < d' ∨ (d = d' ∧ i ≤ j)) →
      exec .liftDeadlineExpiry s = .next { s with
        containers := s.containers.set i {
          flags := { s.containers[i].flags with inletFault := true }, body := some { c with state := .fault .lift } } }))

/-! ### The sender (R81, R145, R153, R156, R158, R163 to R165) -/

/-- R164, R165: with the transmitter free and UL_CTS asserted a frame begins from the first source that has one ready: the
response queue, the deferred responses, the round list, deposit records and relayed reports in order of arrival, the notice
scanner, which takes the first flag set from its position on, clears it and builds the notice from its snapshot. With no frame
ready, the transmitter busy or UL_CTS away, nothing changes. When a frame has been sent the transmitter is free and the head
of its source is gone; a deferred response sent lowers the outstanding count. (That each notice of a record has a snapshot of
its own, log 29, is the model's choice; the arrival numbers are its own fields, log 17; that a frame-sent command without its occasion changes nothing is its choice, log 1.) -/
def Obligations.SenderServesItsSources : Prop :=
  (∀ s : State,
    exec (.senderFrameStart false) s = .next s ∧
    (∀ cts, s.sender.tx ≠ none → exec (.senderFrameStart cts) s = .next s) ∧
    (s.sender.tx = none →
      let begins (source : TxSource) (cls tag : Byte) (payload : List Byte) : Prop :=
        exec (.senderFrameStart true) s =
          .next { s with sender := { s.sender with tx := some source, ulTxd := uplinkFrame cls tag payload } }
      (∀ r more, s.responses = r :: more → begins .response 0x81 r.tag (r.kind :: r.code.code :: r.data)) ∧
      (s.responses = [] →
        (∀ r more, s.deferred = r :: more → begins .deferred 0x81 r.tag (r.kind :: r.code.code :: r.data)) ∧
        (s.deferred = [] →
          (∀ x more, s.roundLists = x :: more → begins .roundList 0x83 0 x.payload) ∧
          (s.roundLists = [] →
            (∀ d more, s.deposits = d :: more → (∀ r ∈ s.relay.head?, d.arrival ≤ r.arrival) →
              begins .deposit 0x82 0 d.record.payload) ∧
            (∀ r more, s.relay = r :: more → (∀ d ∈ s.deposits.head?, r.arrival < d.arrival) →
              begins .report 0x84 0 (byte (addr r.station) :: r.reply :: r.payload)) ∧
            (s.deposits = [] → s.relay = [] →
              ((∀ p, s.flag p = false) → exec (.senderFrameStart true) s = .next s) ∧
              (∀ p, s.flag p = true → (∀ q, s.flag q = true → p.ahead s.sender.scan ≤ q.ahead s.sender.scan) →
                ∃ t, exec (.senderFrameStart true) s = .next t ∧ t.flag p = false ∧ (∀ q, q ≠ p → t.flag q = s.flag q) ∧
                  t = { s.setFlag p false with sender := {
                    tx := some (.notice p), ulTxd := uplinkFrame 0x85 0 (s.snapshot p), scan := some p } }))))))) ∧
  (∀ s : State,
    let free : Sender := { s.sender with tx := none }
    let sent (command : Instr) (source : TxSource) (t : State) : Prop :=
      (s.sender.tx = some source → exec command s = .next t) ∧ (s.sender.tx ≠ some source → exec command s = .next s)
    sent .responseFrameSent .response { s with sender := free, responses := s.responses.drop 1 } ∧
    sent .deferredResponseSent .deferred { s with
      sender := free, deferred := s.deferred.drop 1, outstanding := s.outstanding - 1 } ∧
    sent .roundListFrameSent .roundList { s with sender := free, roundLists := s.roundLists.drop 1 } ∧
    sent .depositRecordSent .deposit { s with sender := free, deposits := s.deposits.drop 1 } ∧
    sent .relayedReportSent .report { s with sender := free, relay := s.relay.drop 1 } ∧
    (∀ p, s.sender.tx = some (.notice p) → exec .noticeFrameSent s = .next { s with sender := free }) ∧
    ((∀ p, s.sender.tx ≠ some (.notice p)) → exec .noticeFrameSent s = .next s))

/-! ### RESTART (R26, R44, R60, R80, R84, R100, R137, R152, R166, R167) -/

/-- R26, R44, R60, R80, R84, R90, R100, R123, R126, R137, R152, R166, R167: RESTART, in every line state. The line is STOPPED, its
lists empty, no turn or test; every link UNKNOWN with its accept mask kept; every session ended ABORTED in order of station and
inlet, its card's link gone, its container IDLE with its staged part applied; staged station parts applied, fault present and
summary cleared at configured stations with a hold where they are locked, no message, no CLOSE-NOW; every slot FREE with its last
close, its requests still PLANNED returned; the round list discarded and the frame being sent cut off, a notice's flag set again;
START set with reason RESTART; DONE answered; the responses of the line test, of LINE STOP and of every message released. Every
other pending flag, every other container record and all the rest are kept; a request joins, and RAISED and OVERDUE are set, only
where the staged part of an aborted session's container is applied, by its raise test. (That such a raise sets RAISED, and OVERDUE
when it is overdue at once, where R137 keeps both flags as they stood, is the model's choice, log 31. That a staged station part is
applied without the AUTO exit of R37, that a notice cut off is pending again also for a cleared record, and that the choice of a
turn and a due wrap are forgotten are its readings, logs 12, 13, 10 and 9; the arrival numbers are its own, log 17; the order of
the releases, log 19, is not stated.) -/
def Obligations.RestartCarriesOut : Prop :=
  ∀ (s : State) (rest : List RequestFrame) (tag : Byte),
    let f : RequestFrame := { tag, payload := [0x54] }
    s.Takes f rest →
    ∃ (t : State) (order : List Session), exec .restart s = .next t ∧
      t.line = {
        state := .stopped, cycleCount := 0, pollList := [], pointer := 0, ring := [], turn := none, nextTurn := none
        wrapDue := false, heldStop := none, test := none, testTx := none, flTxd := s.line.flTxd } ∧
      t.links = s.links.map (fun l => { l with status := .unknown, noReply := 0, mismatch := 0 }) ∧
      t.sessions = [] ∧ order.Perm s.sessions ∧
      order.Pairwise (fun x y => x.station < y.station ∨ (x.station = y.station ∧ x.inlet ≤ y.inlet)) ∧
      t.deposits = s.deposits ++
        (order.zipIdx s.arrivals).map (fun p => { arrival := p.2, record := p.1.record s .aborted }) ∧
      t.arrivals = s.arrivals + s.sessions.length ∧
      t.cards = s.cards.map (fun k => if ∃ x ∈ s.sessions, x.card = k.number then { k with link := none } else k) ∧
      (∀ x ∈ s.sessions, ∀ c, s.container x.container = some c →
        ∃ d, t.container x.container = some d ∧ d.state = .idle ∧ d.staged = none ∧ d.binding = c.binding ∧ d.fill = c.fill ∧
          d.params = c.staged.getD c.params) ∧
      (∀ i, (∀ x ∈ s.sessions, x.container ≠ i) → t.container i = s.container i) ∧
      (∀ i q, s.requests[i] = some q → t.requests[i] =
        if ∃ n : FractionIx, s.slots[n].round.any (fun r => r.plans i) then q.returned t i else some q) ∧
      (∀ p, p ≠ .start → (∀ i, p ≠ .raised i ∧ p ≠ .overdue i) →
        t.flag p = (s.flag p || decide (s.sender.tx = some (.notice p)))) ∧
      (∀ i : ContainerIx,
        let aborted : Prop := ∃ x ∈ s.sessions, x.container = i
        let u : State := if aborted then s.sessionOver i else s
        t.container i = u.container i ∧
        t.requests[i] = (if ∃ n : FractionIx, s.slots[n].round.any (fun r => r.plans i) then
          u.requests[i].bind (Request.returned u i) else u.requests[i]) ∧
        (∀ p ∈ [NoticeFlag.raised i, .overdue i], t.flag p = (u.flag p || decide (s.sender.tx = some (.notice p)))) ∧
        (¬ aborted ∨ (∀ c, s.container i = some c → c.staged = none) →
          (s.requests[i] = none → t.requests[i] = none) ∧
          ∀ p ∈ [NoticeFlag.raised i, .overdue i],
            t.flag p = (s.flag p || decide (s.sender.tx = some (.notice p))))) ∧
      (∀ a : StationIx,
        let x := s.stations[a]
        t.stations[a] = (match x.staged with
          | none =>
            if x.config.configured then { x with
              summary := 0, fault := false, hold := x.locked, message := none, closeNow := Vector.replicate _ .out
              lockFlag := t.flag (.lock a), lineFlag := t.flag (.line a) }
            else { x with
              message := none, closeNow := Vector.replicate _ .out
              lockFlag := t.flag (.lock a), lineFlag := t.flag (.line a) }
          | some c =>
            if c.configured then { x with
              config := c, staged := none, summary := 0, fault := false, hold := x.locked, message := none
              closeNow := Vector.replicate _ .out, lockFlag := t.flag (.lock a), lineFlag := t.flag (.line a) }
            else {
              config := { configured := false, enabled := false, relay := false, inletCount := 1, exitMode := .auto, rank := 0 }
              staged := none, summary := 0, fault := false, hold := false, locked := false
              reasons := { fault := false, line := false, command := false }, message := none
              closeNow := Vector.replicate _ .out, lockFlag := t.flag (.lock a), lineFlag := t.flag (.line a) })) ∧
      (∀ a : StationIx, t.flag (.lock a) = (s.flag (.lock a) || decide (s.sender.tx = some (.notice (.lock a)))) ∧
        t.flag (.line a) = (s.flag (.line a) || decide (s.sender.tx = some (.notice (.line a))))) ∧
      (∃ released, t.deferred = s.deferred ++ released ∧ released.Perm (
        (s.line.test.map fun x => { kind := 0x42, tag := x.tag, code := .failed, data := [] }).toList ++
        (s.line.heldStop.map fun held => { kind := 0x41, tag := held, code := .done, data := [] }).toList ++
        (List.finRange 48).filterMap fun a : StationIx => s.stations[a].message.map fun m =>
          { kind := 0x14, tag := m.tag, code := .failed, data := [] })) ∧
      (∀ n : FractionIx, t.slots[n].round = none ∧ t.slots[n].lastClose = s.slots[n].lastClose) ∧
      t.roundLists = [] ∧ t.sender = { s.sender with tx := none } ∧
      t.device = { s.device with startFlag := true, startReason := .restart } ∧
      t.responses = s.responses ++ [{ kind := 0x54, tag, code := .done, data := [] }] ∧
      t.intake = { s.intake with fifo := rest } ∧ t.outstanding = s.outstanding ∧ t.relay = s.relay ∧
      t.clock = s.clock ∧ t.settings = s.settings ∧ t.period = s.period ∧ t.nextSession = s.nextSession ∧
      t.fractions = s.fractions ∧ t.pending = s.pending

/-! ### Invariants -/

/-- R46, R61, R62, R155, R156, R158, R163: every step keeps the capacities of the hatch table, the deposit record queue with
the open sessions, the card table, the request FIFO, the response queue, the outstanding count and the relay queue, and the
ascending order of the card numbers. -/
def Obligations.EveryStepKeepsTheCapacities : Prop :=
  ∀ s t : State, step s = .next t →
    (s.RoomKept → t.RoomKept) ∧ (s.CardsOrdered → t.CardsOrdered) ∧ (s.QueuesBounded → t.QueuesBounded)

/-- R85, R87, R104: every step keeps every configured container's parameters, applied and staged, in their ranges, its fill
between the floor of its band and 1,000, and its full field equal to the test of E against T_stop; and no two configured
containers ever share a (station, inlet). -/
def Obligations.EveryStepKeepsTheContainersSound : Prop :=
  ∀ s t : State, step s = .next t → s.ContainersSound → s.BindingsDistinct → t.ContainersSound ∧ t.BindingsDistinct

/-- What the two invariants above speak of holds right after reset. -/
def Obligations.InvariantsHoldAtReset : Prop :=
  State.reset.RoomKept ∧ State.reset.CardsOrdered ∧ State.reset.QueuesBounded ∧ State.reset.ContainersSound ∧
    State.reset.BindingsDistinct
end

