-- ==== Sys2Proof/Laws/State.lean ====
section
/-! SUPPORT. One lemma per field for each of the small updates of State, true by rfl, so that no later proof unfolds a record
update. -/

namespace Sys2Proof.Machine

variable (s : State)

/-! ### modStation -/

@[simp] theorem State.modStation_clock (a : StationIx) (f : Station → Station) : (s.modStation a f).clock = s.clock := rfl
@[simp] theorem State.modStation_settings (a : StationIx) (f : Station → Station) :
    (s.modStation a f).settings = s.settings := rfl
@[simp] theorem State.modStation_line (a : StationIx) (f : Station → Station) : (s.modStation a f).line = s.line := rfl
@[simp] theorem State.modStation_links (a : StationIx) (f : Station → Station) : (s.modStation a f).links = s.links := rfl
@[simp] theorem State.modStation_stations (a : StationIx) (f : Station → Station) :
    (s.modStation a f).stations = s.stations.set a (f s.stations[a]) := rfl
@[simp] theorem State.modStation_cards (a : StationIx) (f : Station → Station) : (s.modStation a f).cards = s.cards := rfl
@[simp] theorem State.modStation_period (a : StationIx) (f : Station → Station) : (s.modStation a f).period = s.period := rfl
@[simp] theorem State.modStation_sessions (a : StationIx) (f : Station → Station) :
    (s.modStation a f).sessions = s.sessions := rfl
@[simp] theorem State.modStation_nextSession (a : StationIx) (f : Station → Station) :
    (s.modStation a f).nextSession = s.nextSession := rfl
@[simp] theorem State.modStation_deposits (a : StationIx) (f : Station → Station) :
    (s.modStation a f).deposits = s.deposits := rfl
@[simp] theorem State.modStation_containers (a : StationIx) (f : Station → Station) :
    (s.modStation a f).containers = s.containers := rfl
@[simp] theorem State.modStation_requests (a : StationIx) (f : Station → Station) :
    (s.modStation a f).requests = s.requests := rfl
@[simp] theorem State.modStation_fractions (a : StationIx) (f : Station → Station) :
    (s.modStation a f).fractions = s.fractions := rfl
@[simp] theorem State.modStation_slots (a : StationIx) (f : Station → Station) : (s.modStation a f).slots = s.slots := rfl
@[simp] theorem State.modStation_intake (a : StationIx) (f : Station → Station) : (s.modStation a f).intake = s.intake := rfl
@[simp] theorem State.modStation_responses (a : StationIx) (f : Station → Station) :
    (s.modStation a f).responses = s.responses := rfl
@[simp] theorem State.modStation_deferred (a : StationIx) (f : Station → Station) :
    (s.modStation a f).deferred = s.deferred := rfl
@[simp] theorem State.modStation_outstanding (a : StationIx) (f : Station → Station) :
    (s.modStation a f).outstanding = s.outstanding := rfl
@[simp] theorem State.modStation_roundLists (a : StationIx) (f : Station → Station) :
    (s.modStation a f).roundLists = s.roundLists := rfl
@[simp] theorem State.modStation_relay (a : StationIx) (f : Station → Station) : (s.modStation a f).relay = s.relay := rfl
@[simp] theorem State.modStation_arrivals (a : StationIx) (f : Station → Station) :
    (s.modStation a f).arrivals = s.arrivals := rfl
@[simp] theorem State.modStation_sender (a : StationIx) (f : Station → Station) : (s.modStation a f).sender = s.sender := rfl
@[simp] theorem State.modStation_device (a : StationIx) (f : Station → Station) : (s.modStation a f).device = s.device := rfl
@[simp] theorem State.modStation_pending (a : StationIx) (f : Station → Station) : (s.modStation a f).pending = s.pending := rfl

/-! ### modLink -/

@[simp] theorem State.modLink_clock (a : StationIx) (f : Link → Link) : (s.modLink a f).clock = s.clock := rfl
@[simp] theorem State.modLink_settings (a : StationIx) (f : Link → Link) : (s.modLink a f).settings = s.settings := rfl
@[simp] theorem State.modLink_line (a : StationIx) (f : Link → Link) : (s.modLink a f).line = s.line := rfl
@[simp] theorem State.modLink_links (a : StationIx) (f : Link → Link) :
    (s.modLink a f).links = s.links.set a (f s.links[a]) := rfl
@[simp] theorem State.modLink_stations (a : StationIx) (f : Link → Link) : (s.modLink a f).stations = s.stations := rfl
@[simp] theorem State.modLink_cards (a : StationIx) (f : Link → Link) : (s.modLink a f).cards = s.cards := rfl
@[simp] theorem State.modLink_period (a : StationIx) (f : Link → Link) : (s.modLink a f).period = s.period := rfl
@[simp] theorem State.modLink_sessions (a : StationIx) (f : Link → Link) : (s.modLink a f).sessions = s.sessions := rfl
@[simp] theorem State.modLink_nextSession (a : StationIx) (f : Link → Link) : (s.modLink a f).nextSession = s.nextSession := rfl
@[simp] theorem State.modLink_deposits (a : StationIx) (f : Link → Link) : (s.modLink a f).deposits = s.deposits := rfl
@[simp] theorem State.modLink_containers (a : StationIx) (f : Link → Link) : (s.modLink a f).containers = s.containers := rfl
@[simp] theorem State.modLink_requests (a : StationIx) (f : Link → Link) : (s.modLink a f).requests = s.requests := rfl
@[simp] theorem State.modLink_fractions (a : StationIx) (f : Link → Link) : (s.modLink a f).fractions = s.fractions := rfl
@[simp] theorem State.modLink_slots (a : StationIx) (f : Link → Link) : (s.modLink a f).slots = s.slots := rfl
@[simp] theorem State.modLink_intake (a : StationIx) (f : Link → Link) : (s.modLink a f).intake = s.intake := rfl
@[simp] theorem State.modLink_responses (a : StationIx) (f : Link → Link) : (s.modLink a f).responses = s.responses := rfl
@[simp] theorem State.modLink_deferred (a : StationIx) (f : Link → Link) : (s.modLink a f).deferred = s.deferred := rfl
@[simp] theorem State.modLink_outstanding (a : StationIx) (f : Link → Link) : (s.modLink a f).outstanding = s.outstanding := rfl
@[simp] theorem State.modLink_roundLists (a : StationIx) (f : Link → Link) : (s.modLink a f).roundLists = s.roundLists := rfl
@[simp] theorem State.modLink_relay (a : StationIx) (f : Link → Link) : (s.modLink a f).relay = s.relay := rfl
@[simp] theorem State.modLink_arrivals (a : StationIx) (f : Link → Link) : (s.modLink a f).arrivals = s.arrivals := rfl
@[simp] theorem State.modLink_sender (a : StationIx) (f : Link → Link) : (s.modLink a f).sender = s.sender := rfl
@[simp] theorem State.modLink_device (a : StationIx) (f : Link → Link) : (s.modLink a f).device = s.device := rfl
@[simp] theorem State.modLink_pending (a : StationIx) (f : Link → Link) : (s.modLink a f).pending = s.pending := rfl

/-! ### modRec -/

@[simp] theorem State.modRec_clock (i : ContainerIx) (f : ContainerRec → ContainerRec) : (s.modRec i f).clock = s.clock := rfl
@[simp] theorem State.modRec_settings (i : ContainerIx) (f : ContainerRec → ContainerRec) :
    (s.modRec i f).settings = s.settings := rfl
@[simp] theorem State.modRec_line (i : ContainerIx) (f : ContainerRec → ContainerRec) : (s.modRec i f).line = s.line := rfl
@[simp] theorem State.modRec_links (i : ContainerIx) (f : ContainerRec → ContainerRec) : (s.modRec i f).links = s.links := rfl
@[simp] theorem State.modRec_stations (i : ContainerIx) (f : ContainerRec → ContainerRec) :
    (s.modRec i f).stations = s.stations := rfl
@[simp] theorem State.modRec_cards (i : ContainerIx) (f : ContainerRec → ContainerRec) : (s.modRec i f).cards = s.cards := rfl
@[simp] theorem State.modRec_period (i : ContainerIx) (f : ContainerRec → ContainerRec) : (s.modRec i f).period = s.period := rfl
@[simp] theorem State.modRec_sessions (i : ContainerIx) (f : ContainerRec → ContainerRec) :
    (s.modRec i f).sessions = s.sessions := rfl
@[simp] theorem State.modRec_nextSession (i : ContainerIx) (f : ContainerRec → ContainerRec) :
    (s.modRec i f).nextSession = s.nextSession := rfl
@[simp] theorem State.modRec_deposits (i : ContainerIx) (f : ContainerRec → ContainerRec) :
    (s.modRec i f).deposits = s.deposits := rfl
@[simp] theorem State.modRec_containers (i : ContainerIx) (f : ContainerRec → ContainerRec) :
    (s.modRec i f).containers = s.containers.set i (f s.containers[i]) := rfl
@[simp] theorem State.modRec_requests (i : ContainerIx) (f : ContainerRec → ContainerRec) :
    (s.modRec i f).requests = s.requests := rfl
@[simp] theorem State.modRec_fractions (i : ContainerIx) (f : ContainerRec → ContainerRec) :
    (s.modRec i f).fractions = s.fractions := rfl
@[simp] theorem State.modRec_slots (i : ContainerIx) (f : ContainerRec → ContainerRec) : (s.modRec i f).slots = s.slots := rfl
@[simp] theorem State.modRec_intake (i : ContainerIx) (f : ContainerRec → ContainerRec) : (s.modRec i f).intake = s.intake := rfl
@[simp] theorem State.modRec_responses (i : ContainerIx) (f : ContainerRec → ContainerRec) :
    (s.modRec i f).responses = s.responses := rfl
@[simp] theorem State.modRec_deferred (i : ContainerIx) (f : ContainerRec → ContainerRec) :
    (s.modRec i f).deferred = s.deferred := rfl
@[simp] theorem State.modRec_outstanding (i : ContainerIx) (f : ContainerRec → ContainerRec) :
    (s.modRec i f).outstanding = s.outstanding := rfl
@[simp] theorem State.modRec_roundLists (i : ContainerIx) (f : ContainerRec → ContainerRec) :
    (s.modRec i f).roundLists = s.roundLists := rfl
@[simp] theorem State.modRec_relay (i : ContainerIx) (f : ContainerRec → ContainerRec) : (s.modRec i f).relay = s.relay := rfl
@[simp] theorem State.modRec_arrivals (i : ContainerIx) (f : ContainerRec → ContainerRec) :
    (s.modRec i f).arrivals = s.arrivals := rfl
@[simp] theorem State.modRec_sender (i : ContainerIx) (f : ContainerRec → ContainerRec) : (s.modRec i f).sender = s.sender := rfl
@[simp] theorem State.modRec_device (i : ContainerIx) (f : ContainerRec → ContainerRec) : (s.modRec i f).device = s.device := rfl
@[simp] theorem State.modRec_pending (i : ContainerIx) (f : ContainerRec → ContainerRec) :
    (s.modRec i f).pending = s.pending := rfl

/-! ### modContainer -/

@[simp] theorem State.modContainer_clock (i : ContainerIx) (f : Container → Container) :
    (s.modContainer i f).clock = s.clock := rfl
@[simp] theorem State.modContainer_settings (i : ContainerIx) (f : Container → Container) :
    (s.modContainer i f).settings = s.settings := rfl
@[simp] theorem State.modContainer_line (i : ContainerIx) (f : Container → Container) : (s.modContainer i f).line = s.line := rfl
@[simp] theorem State.modContainer_links (i : ContainerIx) (f : Container → Container) :
    (s.modContainer i f).links = s.links := rfl
@[simp] theorem State.modContainer_stations (i : ContainerIx) (f : Container → Container) :
    (s.modContainer i f).stations = s.stations := rfl
@[simp] theorem State.modContainer_cards (i : ContainerIx) (f : Container → Container) :
    (s.modContainer i f).cards = s.cards := rfl
@[simp] theorem State.modContainer_period (i : ContainerIx) (f : Container → Container) :
    (s.modContainer i f).period = s.period := rfl
@[simp] theorem State.modContainer_sessions (i : ContainerIx) (f : Container → Container) :
    (s.modContainer i f).sessions = s.sessions := rfl
@[simp] theorem State.modContainer_nextSession (i : ContainerIx) (f : Container → Container) :
    (s.modContainer i f).nextSession = s.nextSession := rfl
@[simp] theorem State.modContainer_deposits (i : ContainerIx) (f : Container → Container) :
    (s.modContainer i f).deposits = s.deposits := rfl
@[simp] theorem State.modContainer_containers (i : ContainerIx) (f : Container → Container) :
    (s.modContainer i f).containers = s.containers.set i { s.containers[i] with body := s.containers[i].body.map f } := rfl
@[simp] theorem State.modContainer_requests (i : ContainerIx) (f : Container → Container) :
    (s.modContainer i f).requests = s.requests := rfl
@[simp] theorem State.modContainer_fractions (i : ContainerIx) (f : Container → Container) :
    (s.modContainer i f).fractions = s.fractions := rfl
@[simp] theorem State.modContainer_slots (i : ContainerIx) (f : Container → Container) :
    (s.modContainer i f).slots = s.slots := rfl
@[simp] theorem State.modContainer_intake (i : ContainerIx) (f : Container → Container) :
    (s.modContainer i f).intake = s.intake := rfl
@[simp] theorem State.modContainer_responses (i : ContainerIx) (f : Container → Container) :
    (s.modContainer i f).responses = s.responses := rfl
@[simp] theorem State.modContainer_deferred (i : ContainerIx) (f : Container → Container) :
    (s.modContainer i f).deferred = s.deferred := rfl
@[simp] theorem State.modContainer_outstanding (i : ContainerIx) (f : Container → Container) :
    (s.modContainer i f).outstanding = s.outstanding := rfl
@[simp] theorem State.modContainer_roundLists (i : ContainerIx) (f : Container → Container) :
    (s.modContainer i f).roundLists = s.roundLists := rfl
@[simp] theorem State.modContainer_relay (i : ContainerIx) (f : Container → Container) :
    (s.modContainer i f).relay = s.relay := rfl
@[simp] theorem State.modContainer_arrivals (i : ContainerIx) (f : Container → Container) :
    (s.modContainer i f).arrivals = s.arrivals := rfl
@[simp] theorem State.modContainer_sender (i : ContainerIx) (f : Container → Container) :
    (s.modContainer i f).sender = s.sender := rfl
@[simp] theorem State.modContainer_device (i : ContainerIx) (f : Container → Container) :
    (s.modContainer i f).device = s.device := rfl
@[simp] theorem State.modContainer_pending (i : ContainerIx) (f : Container → Container) :
    (s.modContainer i f).pending = s.pending := rfl

/-! ### setRequest -/

@[simp] theorem State.setRequest_clock (i : ContainerIx) (r : Option Request) : (s.setRequest i r).clock = s.clock := rfl
@[simp] theorem State.setRequest_settings (i : ContainerIx) (r : Option Request) : (s.setRequest i r).settings = s.settings := rfl
@[simp] theorem State.setRequest_line (i : ContainerIx) (r : Option Request) : (s.setRequest i r).line = s.line := rfl
@[simp] theorem State.setRequest_links (i : ContainerIx) (r : Option Request) : (s.setRequest i r).links = s.links := rfl
@[simp] theorem State.setRequest_stations (i : ContainerIx) (r : Option Request) : (s.setRequest i r).stations = s.stations := rfl
@[simp] theorem State.setRequest_cards (i : ContainerIx) (r : Option Request) : (s.setRequest i r).cards = s.cards := rfl
@[simp] theorem State.setRequest_period (i : ContainerIx) (r : Option Request) : (s.setRequest i r).period = s.period := rfl
@[simp] theorem State.setRequest_sessions (i : ContainerIx) (r : Option Request) : (s.setRequest i r).sessions = s.sessions := rfl
@[simp] theorem State.setRequest_nextSession (i : ContainerIx) (r : Option Request) :
    (s.setRequest i r).nextSession = s.nextSession := rfl
@[simp] theorem State.setRequest_deposits (i : ContainerIx) (r : Option Request) : (s.setRequest i r).deposits = s.deposits := rfl
@[simp] theorem State.setRequest_containers (i : ContainerIx) (r : Option Request) :
    (s.setRequest i r).containers = s.containers := rfl
@[simp] theorem State.setRequest_requests (i : ContainerIx) (r : Option Request) :
    (s.setRequest i r).requests = s.requests.set i r := rfl
@[simp] theorem State.setRequest_fractions (i : ContainerIx) (r : Option Request) :
    (s.setRequest i r).fractions = s.fractions := rfl
@[simp] theorem State.setRequest_slots (i : ContainerIx) (r : Option Request) : (s.setRequest i r).slots = s.slots := rfl
@[simp] theorem State.setRequest_intake (i : ContainerIx) (r : Option Request) : (s.setRequest i r).intake = s.intake := rfl
@[simp] theorem State.setRequest_responses (i : ContainerIx) (r : Option Request) :
    (s.setRequest i r).responses = s.responses := rfl
@[simp] theorem State.setRequest_deferred (i : ContainerIx) (r : Option Request) : (s.setRequest i r).deferred = s.deferred := rfl
@[simp] theorem State.setRequest_outstanding (i : ContainerIx) (r : Option Request) :
    (s.setRequest i r).outstanding = s.outstanding := rfl
@[simp] theorem State.setRequest_roundLists (i : ContainerIx) (r : Option Request) :
    (s.setRequest i r).roundLists = s.roundLists := rfl
@[simp] theorem State.setRequest_relay (i : ContainerIx) (r : Option Request) : (s.setRequest i r).relay = s.relay := rfl
@[simp] theorem State.setRequest_arrivals (i : ContainerIx) (r : Option Request) : (s.setRequest i r).arrivals = s.arrivals := rfl
@[simp] theorem State.setRequest_sender (i : ContainerIx) (r : Option Request) : (s.setRequest i r).sender = s.sender := rfl
@[simp] theorem State.setRequest_device (i : ContainerIx) (r : Option Request) : (s.setRequest i r).device = s.device := rfl
@[simp] theorem State.setRequest_pending (i : ContainerIx) (r : Option Request) : (s.setRequest i r).pending = s.pending := rfl

/-! ### modSlot -/

@[simp] theorem State.modSlot_clock (n : FractionIx) (f : Slot → Slot) : (s.modSlot n f).clock = s.clock := rfl
@[simp] theorem State.modSlot_settings (n : FractionIx) (f : Slot → Slot) : (s.modSlot n f).settings = s.settings := rfl
@[simp] theorem State.modSlot_line (n : FractionIx) (f : Slot → Slot) : (s.modSlot n f).line = s.line := rfl
@[simp] theorem State.modSlot_links (n : FractionIx) (f : Slot → Slot) : (s.modSlot n f).links = s.links := rfl
@[simp] theorem State.modSlot_stations (n : FractionIx) (f : Slot → Slot) : (s.modSlot n f).stations = s.stations := rfl
@[simp] theorem State.modSlot_cards (n : FractionIx) (f : Slot → Slot) : (s.modSlot n f).cards = s.cards := rfl
@[simp] theorem State.modSlot_period (n : FractionIx) (f : Slot → Slot) : (s.modSlot n f).period = s.period := rfl
@[simp] theorem State.modSlot_sessions (n : FractionIx) (f : Slot → Slot) : (s.modSlot n f).sessions = s.sessions := rfl
@[simp] theorem State.modSlot_nextSession (n : FractionIx) (f : Slot → Slot) : (s.modSlot n f).nextSession = s.nextSession := rfl
@[simp] theorem State.modSlot_deposits (n : FractionIx) (f : Slot → Slot) : (s.modSlot n f).deposits = s.deposits := rfl
@[simp] theorem State.modSlot_containers (n : FractionIx) (f : Slot → Slot) : (s.modSlot n f).containers = s.containers := rfl
@[simp] theorem State.modSlot_requests (n : FractionIx) (f : Slot → Slot) : (s.modSlot n f).requests = s.requests := rfl
@[simp] theorem State.modSlot_fractions (n : FractionIx) (f : Slot → Slot) : (s.modSlot n f).fractions = s.fractions := rfl
@[simp] theorem State.modSlot_slots (n : FractionIx) (f : Slot → Slot) :
    (s.modSlot n f).slots = s.slots.set n (f s.slots[n]) := rfl
@[simp] theorem State.modSlot_intake (n : FractionIx) (f : Slot → Slot) : (s.modSlot n f).intake = s.intake := rfl
@[simp] theorem State.modSlot_responses (n : FractionIx) (f : Slot → Slot) : (s.modSlot n f).responses = s.responses := rfl
@[simp] theorem State.modSlot_deferred (n : FractionIx) (f : Slot → Slot) : (s.modSlot n f).deferred = s.deferred := rfl
@[simp] theorem State.modSlot_outstanding (n : FractionIx) (f : Slot → Slot) : (s.modSlot n f).outstanding = s.outstanding := rfl
@[simp] theorem State.modSlot_roundLists (n : FractionIx) (f : Slot → Slot) : (s.modSlot n f).roundLists = s.roundLists := rfl
@[simp] theorem State.modSlot_relay (n : FractionIx) (f : Slot → Slot) : (s.modSlot n f).relay = s.relay := rfl
@[simp] theorem State.modSlot_arrivals (n : FractionIx) (f : Slot → Slot) : (s.modSlot n f).arrivals = s.arrivals := rfl
@[simp] theorem State.modSlot_sender (n : FractionIx) (f : Slot → Slot) : (s.modSlot n f).sender = s.sender := rfl
@[simp] theorem State.modSlot_device (n : FractionIx) (f : Slot → Slot) : (s.modSlot n f).device = s.device := rfl
@[simp] theorem State.modSlot_pending (n : FractionIx) (f : Slot → Slot) : (s.modSlot n f).pending = s.pending := rfl

/-! ### modCard -/

@[simp] theorem State.modCard_clock (n : Word32) (f : Card → Card) : (s.modCard n f).clock = s.clock := rfl
@[simp] theorem State.modCard_settings (n : Word32) (f : Card → Card) : (s.modCard n f).settings = s.settings := rfl
@[simp] theorem State.modCard_line (n : Word32) (f : Card → Card) : (s.modCard n f).line = s.line := rfl
@[simp] theorem State.modCard_links (n : Word32) (f : Card → Card) : (s.modCard n f).links = s.links := rfl
@[simp] theorem State.modCard_stations (n : Word32) (f : Card → Card) : (s.modCard n f).stations = s.stations := rfl
@[simp] theorem State.modCard_cards (n : Word32) (f : Card → Card) :
    (s.modCard n f).cards = s.cards.map fun c => if c.number = n then f c else c := rfl
@[simp] theorem State.modCard_period (n : Word32) (f : Card → Card) : (s.modCard n f).period = s.period := rfl
@[simp] theorem State.modCard_sessions (n : Word32) (f : Card → Card) : (s.modCard n f).sessions = s.sessions := rfl
@[simp] theorem State.modCard_nextSession (n : Word32) (f : Card → Card) : (s.modCard n f).nextSession = s.nextSession := rfl
@[simp] theorem State.modCard_deposits (n : Word32) (f : Card → Card) : (s.modCard n f).deposits = s.deposits := rfl
@[simp] theorem State.modCard_containers (n : Word32) (f : Card → Card) : (s.modCard n f).containers = s.containers := rfl
@[simp] theorem State.modCard_requests (n : Word32) (f : Card → Card) : (s.modCard n f).requests = s.requests := rfl
@[simp] theorem State.modCard_fractions (n : Word32) (f : Card → Card) : (s.modCard n f).fractions = s.fractions := rfl
@[simp] theorem State.modCard_slots (n : Word32) (f : Card → Card) : (s.modCard n f).slots = s.slots := rfl
@[simp] theorem State.modCard_intake (n : Word32) (f : Card → Card) : (s.modCard n f).intake = s.intake := rfl
@[simp] theorem State.modCard_responses (n : Word32) (f : Card → Card) : (s.modCard n f).responses = s.responses := rfl
@[simp] theorem State.modCard_deferred (n : Word32) (f : Card → Card) : (s.modCard n f).deferred = s.deferred := rfl
@[simp] theorem State.modCard_outstanding (n : Word32) (f : Card → Card) : (s.modCard n f).outstanding = s.outstanding := rfl
@[simp] theorem State.modCard_roundLists (n : Word32) (f : Card → Card) : (s.modCard n f).roundLists = s.roundLists := rfl
@[simp] theorem State.modCard_relay (n : Word32) (f : Card → Card) : (s.modCard n f).relay = s.relay := rfl
@[simp] theorem State.modCard_arrivals (n : Word32) (f : Card → Card) : (s.modCard n f).arrivals = s.arrivals := rfl
@[simp] theorem State.modCard_sender (n : Word32) (f : Card → Card) : (s.modCard n f).sender = s.sender := rfl
@[simp] theorem State.modCard_device (n : Word32) (f : Card → Card) : (s.modCard n f).device = s.device := rfl
@[simp] theorem State.modCard_pending (n : Word32) (f : Card → Card) : (s.modCard n f).pending = s.pending := rfl

/-! ### respond -/

@[simp] theorem State.respond_clock (f : RequestFrame) (code : ResultCode) (data : List Byte) :
    (s.respond f code data).clock = s.clock := rfl
@[simp] theorem State.respond_settings (f : RequestFrame) (code : ResultCode) (data : List Byte) :
    (s.respond f code data).settings = s.settings := rfl
@[simp] theorem State.respond_line (f : RequestFrame) (code : ResultCode) (data : List Byte) :
    (s.respond f code data).line = s.line := rfl
@[simp] theorem State.respond_links (f : RequestFrame) (code : ResultCode) (data : List Byte) :
    (s.respond f code data).links = s.links := rfl
@[simp] theorem State.respond_stations (f : RequestFrame) (code : ResultCode) (data : List Byte) :
    (s.respond f code data).stations = s.stations := rfl
@[simp] theorem State.respond_cards (f : RequestFrame) (code : ResultCode) (data : List Byte) :
    (s.respond f code data).cards = s.cards := rfl
@[simp] theorem State.respond_period (f : RequestFrame) (code : ResultCode) (data : List Byte) :
    (s.respond f code data).period = s.period := rfl
@[simp] theorem State.respond_sessions (f : RequestFrame) (code : ResultCode) (data : List Byte) :
    (s.respond f code data).sessions = s.sessions := rfl
@[simp] theorem State.respond_nextSession (f : RequestFrame) (code : ResultCode) (data : List Byte) :
    (s.respond f code data).nextSession = s.nextSession := rfl
@[simp] theorem State.respond_deposits (f : RequestFrame) (code : ResultCode) (data : List Byte) :
    (s.respond f code data).deposits = s.deposits := rfl
@[simp] theorem State.respond_containers (f : RequestFrame) (code : ResultCode) (data : List Byte) :
    (s.respond f code data).containers = s.containers := rfl
@[simp] theorem State.respond_requests (f : RequestFrame) (code : ResultCode) (data : List Byte) :
    (s.respond f code data).requests = s.requests := rfl
@[simp] theorem State.respond_fractions (f : RequestFrame) (code : ResultCode) (data : List Byte) :
    (s.respond f code data).fractions = s.fractions := rfl
@[simp] theorem State.respond_slots (f : RequestFrame) (code : ResultCode) (data : List Byte) :
    (s.respond f code data).slots = s.slots := rfl
@[simp] theorem State.respond_intake (f : RequestFrame) (code : ResultCode) (data : List Byte) :
    (s.respond f code data).intake = s.intake := rfl
@[simp] theorem State.respond_responses (f : RequestFrame) (code : ResultCode) (data : List Byte) :
    (s.respond f code data).responses = s.responses ++ [({ kind := f.kind, tag := f.tag, code, data } : Response)] := rfl
@[simp] theorem State.respond_deferred (f : RequestFrame) (code : ResultCode) (data : List Byte) :
    (s.respond f code data).deferred = s.deferred := rfl
@[simp] theorem State.respond_outstanding (f : RequestFrame) (code : ResultCode) (data : List Byte) :
    (s.respond f code data).outstanding = s.outstanding := rfl
@[simp] theorem State.respond_roundLists (f : RequestFrame) (code : ResultCode) (data : List Byte) :
    (s.respond f code data).roundLists = s.roundLists := rfl
@[simp] theorem State.respond_relay (f : RequestFrame) (code : ResultCode) (data : List Byte) :
    (s.respond f code data).relay = s.relay := rfl
@[simp] theorem State.respond_arrivals (f : RequestFrame) (code : ResultCode) (data : List Byte) :
    (s.respond f code data).arrivals = s.arrivals := rfl
@[simp] theorem State.respond_sender (f : RequestFrame) (code : ResultCode) (data : List Byte) :
    (s.respond f code data).sender = s.sender := rfl
@[simp] theorem State.respond_device (f : RequestFrame) (code : ResultCode) (data : List Byte) :
    (s.respond f code data).device = s.device := rfl
@[simp] theorem State.respond_pending (f : RequestFrame) (code : ResultCode) (data : List Byte) :
    (s.respond f code data).pending = s.pending := rfl

/-! ### release -/

@[simp] theorem State.release_clock (kind tag : Byte) (code : ResultCode) (data : List Byte) :
    (s.release kind tag code data).clock = s.clock := rfl
@[simp] theorem State.release_settings (kind tag : Byte) (code : ResultCode) (data : List Byte) :
    (s.release kind tag code data).settings = s.settings := rfl
@[simp] theorem State.release_line (kind tag : Byte) (code : ResultCode) (data : List Byte) :
    (s.release kind tag code data).line = s.line := rfl
@[simp] theorem State.release_links (kind tag : Byte) (code : ResultCode) (data : List Byte) :
    (s.release kind tag code data).links = s.links := rfl
@[simp] theorem State.release_stations (kind tag : Byte) (code : ResultCode) (data : List Byte) :
    (s.release kind tag code data).stations = s.stations := rfl
@[simp] theorem State.release_cards (kind tag : Byte) (code : ResultCode) (data : List Byte) :
    (s.release kind tag code data).cards = s.cards := rfl
@[simp] theorem State.release_period (kind tag : Byte) (code : ResultCode) (data : List Byte) :
    (s.release kind tag code data).period = s.period := rfl
@[simp] theorem State.release_sessions (kind tag : Byte) (code : ResultCode) (data : List Byte) :
    (s.release kind tag code data).sessions = s.sessions := rfl
@[simp] theorem State.release_nextSession (kind tag : Byte) (code : ResultCode) (data : List Byte) :
    (s.release kind tag code data).nextSession = s.nextSession := rfl
@[simp] theorem State.release_deposits (kind tag : Byte) (code : ResultCode) (data : List Byte) :
    (s.release kind tag code data).deposits = s.deposits := rfl
@[simp] theorem State.release_containers (kind tag : Byte) (code : ResultCode) (data : List Byte) :
    (s.release kind tag code data).containers = s.containers := rfl
@[simp] theorem State.release_requests (kind tag : Byte) (code : ResultCode) (data : List Byte) :
    (s.release kind tag code data).requests = s.requests := rfl
@[simp] theorem State.release_fractions (kind tag : Byte) (code : ResultCode) (data : List Byte) :
    (s.release kind tag code data).fractions = s.fractions := rfl
@[simp] theorem State.release_slots (kind tag : Byte) (code : ResultCode) (data : List Byte) :
    (s.release kind tag code data).slots = s.slots := rfl
@[simp] theorem State.release_intake (kind tag : Byte) (code : ResultCode) (data : List Byte) :
    (s.release kind tag code data).intake = s.intake := rfl
@[simp] theorem State.release_responses (kind tag : Byte) (code : ResultCode) (data : List Byte) :
    (s.release kind tag code data).responses = s.responses := rfl
@[simp] theorem State.release_deferred (kind tag : Byte) (code : ResultCode) (data : List Byte) :
    (s.release kind tag code data).deferred = s.deferred ++ [({ kind, tag, code, data } : Response)] := rfl
@[simp] theorem State.release_outstanding (kind tag : Byte) (code : ResultCode) (data : List Byte) :
    (s.release kind tag code data).outstanding = s.outstanding := rfl
@[simp] theorem State.release_roundLists (kind tag : Byte) (code : ResultCode) (data : List Byte) :
    (s.release kind tag code data).roundLists = s.roundLists := rfl
@[simp] theorem State.release_relay (kind tag : Byte) (code : ResultCode) (data : List Byte) :
    (s.release kind tag code data).relay = s.relay := rfl
@[simp] theorem State.release_arrivals (kind tag : Byte) (code : ResultCode) (data : List Byte) :
    (s.release kind tag code data).arrivals = s.arrivals := rfl
@[simp] theorem State.release_sender (kind tag : Byte) (code : ResultCode) (data : List Byte) :
    (s.release kind tag code data).sender = s.sender := rfl
@[simp] theorem State.release_device (kind tag : Byte) (code : ResultCode) (data : List Byte) :
    (s.release kind tag code data).device = s.device := rfl
@[simp] theorem State.release_pending (kind tag : Byte) (code : ResultCode) (data : List Byte) :
    (s.release kind tag code data).pending = s.pending := rfl

/-! ### deferral -/

@[simp] theorem State.deferral_clock : s.deferral.clock = s.clock := rfl
@[simp] theorem State.deferral_settings : s.deferral.settings = s.settings := rfl
@[simp] theorem State.deferral_line : s.deferral.line = s.line := rfl
@[simp] theorem State.deferral_links : s.deferral.links = s.links := rfl
@[simp] theorem State.deferral_stations : s.deferral.stations = s.stations := rfl
@[simp] theorem State.deferral_cards : s.deferral.cards = s.cards := rfl
@[simp] theorem State.deferral_period : s.deferral.period = s.period := rfl
@[simp] theorem State.deferral_sessions : s.deferral.sessions = s.sessions := rfl
@[simp] theorem State.deferral_nextSession : s.deferral.nextSession = s.nextSession := rfl
@[simp] theorem State.deferral_deposits : s.deferral.deposits = s.deposits := rfl
@[simp] theorem State.deferral_containers : s.deferral.containers = s.containers := rfl
@[simp] theorem State.deferral_requests : s.deferral.requests = s.requests := rfl
@[simp] theorem State.deferral_fractions : s.deferral.fractions = s.fractions := rfl
@[simp] theorem State.deferral_slots : s.deferral.slots = s.slots := rfl
@[simp] theorem State.deferral_intake : s.deferral.intake = s.intake := rfl
@[simp] theorem State.deferral_responses : s.deferral.responses = s.responses := rfl
@[simp] theorem State.deferral_deferred : s.deferral.deferred = s.deferred := rfl
@[simp] theorem State.deferral_outstanding : s.deferral.outstanding = s.outstanding + 1 := rfl
@[simp] theorem State.deferral_roundLists : s.deferral.roundLists = s.roundLists := rfl
@[simp] theorem State.deferral_relay : s.deferral.relay = s.relay := rfl
@[simp] theorem State.deferral_arrivals : s.deferral.arrivals = s.arrivals := rfl
@[simp] theorem State.deferral_sender : s.deferral.sender = s.sender := rfl
@[simp] theorem State.deferral_device : s.deferral.device = s.device := rfl
@[simp] theorem State.deferral_pending : s.deferral.pending = s.pending := rfl

/-! ### took -/

@[simp] theorem State.took_clock (rest : List RequestFrame) : (s.took rest).clock = s.clock := rfl
@[simp] theorem State.took_settings (rest : List RequestFrame) : (s.took rest).settings = s.settings := rfl
@[simp] theorem State.took_line (rest : List RequestFrame) : (s.took rest).line = s.line := rfl
@[simp] theorem State.took_links (rest : List RequestFrame) : (s.took rest).links = s.links := rfl
@[simp] theorem State.took_stations (rest : List RequestFrame) : (s.took rest).stations = s.stations := rfl
@[simp] theorem State.took_cards (rest : List RequestFrame) : (s.took rest).cards = s.cards := rfl
@[simp] theorem State.took_period (rest : List RequestFrame) : (s.took rest).period = s.period := rfl
@[simp] theorem State.took_sessions (rest : List RequestFrame) : (s.took rest).sessions = s.sessions := rfl
@[simp] theorem State.took_nextSession (rest : List RequestFrame) : (s.took rest).nextSession = s.nextSession := rfl
@[simp] theorem State.took_deposits (rest : List RequestFrame) : (s.took rest).deposits = s.deposits := rfl
@[simp] theorem State.took_containers (rest : List RequestFrame) : (s.took rest).containers = s.containers := rfl
@[simp] theorem State.took_requests (rest : List RequestFrame) : (s.took rest).requests = s.requests := rfl
@[simp] theorem State.took_fractions (rest : List RequestFrame) : (s.took rest).fractions = s.fractions := rfl
@[simp] theorem State.took_slots (rest : List RequestFrame) : (s.took rest).slots = s.slots := rfl
@[simp] theorem State.took_intake (rest : List RequestFrame) : (s.took rest).intake = { s.intake with fifo := rest } := rfl
@[simp] theorem State.took_responses (rest : List RequestFrame) : (s.took rest).responses = s.responses := rfl
@[simp] theorem State.took_deferred (rest : List RequestFrame) : (s.took rest).deferred = s.deferred := rfl
@[simp] theorem State.took_outstanding (rest : List RequestFrame) : (s.took rest).outstanding = s.outstanding := rfl
@[simp] theorem State.took_roundLists (rest : List RequestFrame) : (s.took rest).roundLists = s.roundLists := rfl
@[simp] theorem State.took_relay (rest : List RequestFrame) : (s.took rest).relay = s.relay := rfl
@[simp] theorem State.took_arrivals (rest : List RequestFrame) : (s.took rest).arrivals = s.arrivals := rfl
@[simp] theorem State.took_sender (rest : List RequestFrame) : (s.took rest).sender = s.sender := rfl
@[simp] theorem State.took_device (rest : List RequestFrame) : (s.took rest).device = s.device := rfl
@[simp] theorem State.took_pending (rest : List RequestFrame) : (s.took rest).pending = s.pending := rfl

end Sys2Proof.Machine
end

