-- ==== Sys2Proof/Laws/Frames.lean ====
section
/-! SUPPORT. What each shared operation leaves unchanged, said once for each: five frames, each within the next (requests;
rounds; containers; sessions; a poll turn), and the lemma that places every shared operation in its frame. -/

namespace Sys2Proof.Machine

/-! ### The frames -/

/-- Outside a poll turn's reach: what no event of a turn, a session or a container changes. -/
structure OnlyTurn (s t : State) : Prop where
  clock : t.clock = s.clock
  settings : t.settings = s.settings
  period : t.period = s.period
  fractions : t.fractions = s.fractions
  intake : t.intake = s.intake
  responses : t.responses = s.responses
  outstanding : t.outstanding = s.outstanding
  roundLists : t.roundLists = s.roundLists
  sender : t.sender = s.sender
  device : t.device = s.device
  pending : t.pending = s.pending

/-- Opening and ending sessions also leave links, stations and the relay queue. -/
structure OnlySessions (s t : State) : Prop extends OnlyTurn s t where
  links : t.links = s.links
  stations : t.stations = s.stations
  relay : t.relay = s.relay

/-- Container events also leave the line, the cards, the sessions, the deposit queue and the deferred list. -/
structure OnlyContainers (s t : State) : Prop extends OnlySessions s t where
  line : t.line = s.line
  cards : t.cards = s.cards
  sessions : t.sessions = s.sessions
  nextSession : t.nextSession = s.nextSession
  deposits : t.deposits = s.deposits
  deferred : t.deferred = s.deferred
  arrivals : t.arrivals = s.arrivals

/-- Round events also leave every container's body: of a container record they change pending flags alone. -/
structure OnlyRounds (s t : State) : Prop extends OnlyContainers s t where
  container : ∀ i, t.container i = s.container i

/-- Request events also leave the round slots. -/
structure OnlyRequests (s t : State) : Prop extends OnlyRounds s t where
  slots : t.slots = s.slots

theorem OnlyTurn.refl (s : State) : OnlyTurn s s := by constructor <;> rfl
theorem OnlySessions.refl (s : State) : OnlySessions s s := ⟨.refl s, rfl, rfl, rfl⟩
theorem OnlyContainers.refl (s : State) : OnlyContainers s s := ⟨.refl s, rfl, rfl, rfl, rfl, rfl, rfl, rfl⟩
theorem OnlyRounds.refl (s : State) : OnlyRounds s s := ⟨.refl s, fun _ => rfl⟩
theorem OnlyRequests.refl (s : State) : OnlyRequests s s := ⟨.refl s, rfl⟩

theorem OnlyTurn.trans {s t u : State} (h : OnlyTurn s t) (k : OnlyTurn t u) : OnlyTurn s u :=
  ⟨k.1.trans h.1, k.2.trans h.2, k.3.trans h.3, k.4.trans h.4, k.5.trans h.5, k.6.trans h.6, k.7.trans h.7, k.8.trans h.8,
    k.9.trans h.9, k.10.trans h.10, k.11.trans h.11⟩

theorem OnlyTurn.ite {s t u : State} {p : Prop} [Decidable p] (h : OnlyTurn s t) (k : OnlyTurn s u) :
    OnlyTurn s (if p then t else u) := by
  split
  · exact h
  · exact k

theorem OnlySessions.trans {s t u : State} (h : OnlySessions s t) (k : OnlySessions t u) : OnlySessions s u :=
  ⟨h.toOnlyTurn.trans k.toOnlyTurn, k.2.trans h.2, k.3.trans h.3, k.4.trans h.4⟩

theorem OnlyContainers.trans {s t u : State} (h : OnlyContainers s t) (k : OnlyContainers t u) : OnlyContainers s u :=
  ⟨h.toOnlySessions.trans k.toOnlySessions, k.2.trans h.2, k.3.trans h.3, k.4.trans h.4, k.5.trans h.5, k.6.trans h.6,
    k.7.trans h.7, k.8.trans h.8⟩

theorem OnlyRounds.trans {s t u : State} (h : OnlyRounds s t) (k : OnlyRounds t u) : OnlyRounds s u :=
  ⟨h.toOnlyContainers.trans k.toOnlyContainers, fun i => (k.2 i).trans (h.2 i)⟩

theorem OnlyRequests.trans {s t u : State} (h : OnlyRequests s t) (k : OnlyRequests t u) : OnlyRequests s u :=
  ⟨h.toOnlyRounds.trans k.toOnlyRounds, k.2.trans h.2⟩

/-- A relation that every step of a fold keeps holds of the fold. -/
theorem foldl_rel {α : Type} {R : State → State → Prop} (refl : ∀ s, R s s) (trans : ∀ {s t u}, R s t → R t u → R s u)
    {f : State → α → State} (step : ∀ s a, R s (f s a)) (xs : List α) (s : State) : R s (xs.foldl f s) := by
  induction xs generalizing s with
  | nil => exact refl s
  | cons x xs ih => exact trans (step s x) (ih (f s x))

/-! ### Container records -/

/-- The record of container j after a change of record i. -/
theorem State.modRec_at (s : State) (i j : ContainerIx) (f : ContainerRec → ContainerRec) :
    (s.modRec i f).containers[j] = if i = j then f s.containers[i] else s.containers[j] := by
  simp [State.modRec_containers, Vector.getElem_set, Fin.ext_iff]

/-- The body of container j after a change of record i. -/
theorem State.modRec_container (s : State) (i j : ContainerIx) (f : ContainerRec → ContainerRec) :
    (s.modRec i f).container j = if i = j then (f s.containers[i]).body else s.container j := by
  unfold State.container
  rw [State.modRec_at]
  split <;> rfl

/-- The body of container j after a change of the body of container i. -/
theorem State.modContainer_container (s : State) (i j : ContainerIx) (f : Container → Container) :
    (s.modContainer i f).container j = if i = j then (s.container i).map f else s.container j :=
  State.modRec_container s i j _

/-- A change of container i's body alone. -/
theorem modContainer_only (s : State) (i : ContainerIx) (f : Container → Container) : OnlyContainers s (s.modContainer i f) := by
  constructor <;> first | rfl | (constructor <;> first | rfl | (constructor <;> rfl))

/-- A change of a record that keeps its body. -/
theorem modRec_flags_only (s : State) (i : ContainerIx) (f : ContainerRec → ContainerRec) (h : ∀ r, (f r).body = r.body) :
    OnlyRequests s (s.modRec i f) := by
  refine ⟨⟨⟨⟨?_, rfl, rfl, rfl⟩, rfl, rfl, rfl, rfl, rfl, rfl, rfl⟩, fun j => ?_⟩, rfl⟩
  · constructor <;> rfl
  · rw [State.modRec_container]
    split
    · subst_vars; exact h _
    · rfl

theorem setRequest_only (s : State) (i : ContainerIx) (r : Option Request) : OnlyRequests s (s.setRequest i r) :=
  ⟨⟨⟨⟨by constructor <;> rfl, rfl, rfl, rfl⟩, rfl, rfl, rfl, rfl, rfl, rfl, rfl⟩, fun _ => rfl⟩, rfl⟩

theorem modSlot_only (s : State) (n : FractionIx) (f : Slot → Slot) : OnlyRounds s (s.modSlot n f) :=
  ⟨⟨⟨by constructor <;> rfl, rfl, rfl, rfl⟩, rfl, rfl, rfl, rfl, rfl, rfl, rfl⟩, fun _ => rfl⟩

theorem raise_raised_only (s : State) (i : ContainerIx) : OnlyRequests s (s.raise (.raised i)) :=
  modRec_flags_only s i (fun r => { r with flags := { r.flags with raised := true } }) fun _ => rfl
theorem raise_overdue_only (s : State) (i : ContainerIx) : OnlyRequests s (s.raise (.overdue i)) :=
  modRec_flags_only s i (fun r => { r with flags := { r.flags with overdue := true } }) fun _ => rfl
theorem raise_inletFault_only (s : State) (i : ContainerIx) : OnlyRequests s (s.raise (.inletFault i)) :=
  modRec_flags_only s i (fun r => { r with flags := { r.flags with inletFault := true } }) fun _ => rfl
theorem raise_sensor_only (s : State) (i : ContainerIx) : OnlyRequests s (s.raise (.sensor i)) :=
  modRec_flags_only s i (fun r => { r with flags := { r.flags with sensor := true } }) fun _ => rfl
theorem raise_lifted_only (s : State) (i : ContainerIx) : OnlyRequests s (s.raise (.lifted i)) :=
  modRec_flags_only s i (fun r => { r with flags := { r.flags with lifted := true } }) fun _ => rfl
theorem raise_closed_only (s : State) (n : FractionIx) : OnlyRounds s (s.raise (.closed n)) :=
  modSlot_only s n fun r => { r with closedFlag := true }

/-! ### The request table -/

theorem markOverdue_only (i : ContainerIx) (s : State) : OnlyRequests s (s.markOverdue i) := by
  unfold State.markOverdue
  split
  · exact .refl s
  · split
    · exact (setRequest_only ..).trans (raise_overdue_only ..)
    · exact .refl s

theorem markAllOverdue_only (s : State) : OnlyRequests s s.markAllOverdue :=
  foldl_rel .refl .trans (fun s i => markOverdue_only i s) _ s

theorem raiseTest_only (i : ContainerIx) (s : State) : OnlyRequests s (s.raiseTest i) := by
  unfold State.raiseTest
  split
  · split
    · exact ((setRequest_only ..).trans (raise_raised_only ..)).trans (markOverdue_only ..)
    · exact .refl s
  · exact .refl s

theorem planRequest_only (i : ContainerIx) (n : FractionIx) (v : Nat) (s : State) : OnlyRequests s (s.planRequest i n v) := by
  unfold State.planRequest
  split
  · exact setRequest_only ..
  · exact .refl s

theorem preempt_only (i : ContainerIx) (c : Container) (n : FractionIx) (v : Nat) (s : State) :
    OnlyRequests s (s.preempt i c n v) := (setRequest_only ..).trans (markOverdue_only ..)

theorem returnRequest_only (q : Bool) (i : ContainerIx) (s : State) : OnlyRequests s (s.returnRequest q i) := by
  unfold State.returnRequest
  split
  · exact .refl s
  · split
    · exact setRequest_only ..
    · dsimp only
      split_ifs
      · exact setRequest_only ..
      · exact (setRequest_only ..).trans (raise_raised_only ..)
      · exact setRequest_only ..

/-! ### The round builder -/

theorem returnEntries_only (q : Bool) (es : List Entry) (s : State) : OnlyRequests s (s.returnEntries q es) :=
  foldl_rel .refl .trans (fun s e => by split; exacts [.refl s, returnRequest_only ..]) es s

theorem closeRound_only (n : FractionIx) (r : CloseReason) (s : State) : OnlyRounds s (s.closeRound n r) := by
  unfold State.closeRound
  split
  · exact .refl s
  · exact ((returnEntries_only ..).toOnlyRounds.trans (modSlot_only ..)).trans (raise_closed_only ..)

theorem expireRound_only (n : FractionIx) (s : State) : OnlyRounds s (s.expireRound n) := by
  unfold State.expireRound
  split
  · split
    · exact closeRound_only ..
    · exact .refl s
  · exact .refl s

theorem expireRounds_only (s : State) : OnlyRounds s s.expireRounds :=
  foldl_rel .refl .trans (fun s n => expireRound_only n s) _ s

theorem entryLifted_only (n : FractionIx) (i : ContainerIx) (t : Word32) (s : State) : OnlyRounds s (s.entryLifted n i t) := by
  unfold State.entryLifted
  split
  · exact .refl s
  · dsimp only
    split
    · exact (modSlot_only ..).trans (closeRound_only ..)
    · exact modSlot_only ..

theorem closeOnLift_only (i : ContainerIx) (t : Word32) (s : State) : OnlyRounds s (s.closeOnLift i t) := by
  unfold State.closeOnLift
  split
  · exact .refl s
  · split
    · exact (setRequest_only ..).toOnlyRounds
    · exact (entryLifted_only ..).trans (setRequest_only ..).toOnlyRounds

theorem restartSlot_only (s : State) (n : FractionIx) : OnlyRounds s (s.restartSlot n) := by
  unfold State.restartSlot
  split
  · exact .refl s
  · exact (returnEntries_only ..).toOnlyRounds.trans (modSlot_only ..)

theorem restartRounds_only (s : State) : OnlyRounds s s.restartRounds := foldl_rel .refl .trans restartSlot_only _ s

/-! ### The container table -/

theorem eReport_only (i : ContainerIx) (s : State) : OnlyContainers s (s.eReport i) :=
  (modContainer_only ..).trans (raiseTest_only ..).toOnlyContainers

theorem fillEvent_only (i : ContainerIx) (e : Container → FillResult) (s : State) : OnlyContainers s (s.fillEvent i e) := by
  unfold State.fillEvent
  split
  · exact .refl s
  · dsimp only
    split_ifs
    · exact ((modContainer_only ..).trans (raise_sensor_only ..).toOnlyContainers).trans (eReport_only ..)
    · exact (modContainer_only ..).trans (eReport_only ..)
    · exact (modContainer_only ..).trans (raise_sensor_only ..).toOnlyContainers
    · exact modContainer_only ..

theorem levelReading_only (i : ContainerIx) (d : Nat) (s : State) : OnlyContainers s (s.levelReading i d) := by
  unfold State.levelReading
  split
  · exact .refl s
  · split
    · exact fillEvent_only ..
    · exact .refl s

theorem chargedDeposit_only (i : ContainerIx) (s : State) : OnlyContainers s (s.chargedDeposit i) := fillEvent_only ..

theorem applyParams_only (i : ContainerIx) (p : Params) (s : State) : OnlyContainers s (s.applyParams i p) :=
  ((modContainer_only ..).trans (raiseTest_only ..).toOnlyContainers).trans (modContainer_only ..)

theorem applyStaged_only (i : ContainerIx) (s : State) : OnlyContainers s (s.applyStaged i) := by
  unfold State.applyStaged
  split
  · exact applyParams_only ..
  · exact .refl s

theorem faultToIdle_only (i : ContainerIx) (s : State) : OnlyContainers s (s.faultToIdle i) :=
  ((modContainer_only ..).trans (raise_inletFault_only ..).toOnlyContainers).trans (applyStaged_only ..)

theorem liftExpiry_only (i : ContainerIx) (s : State) : OnlyContainers s (s.liftExpiry i) :=
  (modContainer_only ..).trans (raise_inletFault_only ..).toOnlyContainers

theorem OnlyContainers.ite {s t u : State} {p : Prop} [Decidable p] (h : OnlyContainers s t) (k : OnlyContainers s u) :
    OnlyContainers s (if p then t else u) := by
  split
  · exact h
  · exact k

theorem seatContainer_only (i : ContainerIx) (was : ContainerState) (s : State) : OnlyContainers s (s.seatContainer i was) :=
  .ite ((modContainer_only ..).trans (raise_inletFault_only ..).toOnlyContainers) (modContainer_only ..)

theorem completeLift_only (i : ContainerIx) (s : State) : OnlyContainers s (s.completeLift i) := by
  unfold State.completeLift
  split
  · exact .refl s
  · exact ((((seatContainer_only ..).trans (fillEvent_only ..)).trans (closeOnLift_only ..).toOnlyContainers).trans
      (raise_lifted_only ..).toOnlyContainers).trans (applyStaged_only ..)

theorem modRec_only (s : State) (i : ContainerIx) (f : ContainerRec → ContainerRec) : OnlyContainers s (s.modRec i f) :=
  ⟨⟨by constructor <;> rfl, rfl, rfl, rfl⟩, rfl, rfl, rfl, rfl, rfl, rfl, rfl⟩

theorem configure_only (i : ContainerIx) (b : Binding) (p : Params) (s : State) : OnlyContainers s (s.configure i b p) :=
  (modRec_only ..).trans (eReport_only ..)

theorem leaveSession_only (i : ContainerIx) (a : AfterSession) (s : State) : OnlyContainers s (s.leaveSession i a) := by
  cases a
  · exact (modContainer_only ..).trans (applyStaged_only ..)
  · exact (modContainer_only ..).trans (raise_inletFault_only ..).toOnlyContainers
  · exact modContainer_only ..

/-! ### The admission unit -/

theorem settleCard_only (x : Session) (o : DepositOutcome) (s : State) : OnlySessions s (s.settleCard x o) :=
  ⟨by constructor <;> rfl, rfl, rfl, rfl⟩

theorem writeDeposit_only (r : DepositRecord) (s : State) : OnlySessions s (s.writeDeposit r) :=
  ⟨by constructor <;> rfl, rfl, rfl, rfl⟩

theorem ringLeave_only (a : StationIx) (s : State) : OnlySessions s (s.ringLeave a) := by
  unfold State.ringLeave
  split
  · exact .refl s
  · exact ⟨by constructor <;> rfl, rfl, rfl, rfl⟩

theorem drainCheck_only (s : State) : OnlySessions s s.drainCheck := by
  unfold State.drainCheck
  split
  · dsimp only
    split <;> exact ⟨by constructor <;> rfl, rfl, rfl, rfl⟩
  · exact .refl s

theorem endSession_only (o : DepositOutcome) (after : AfterSession) (x : Session) (s : State) :
    OnlySessions s (s.endSession o after x) := by
  unfold State.endSession
  dsimp only
  refine .trans (.trans (.trans ?_ (leaveSession_only ..).toOnlySessions) (ringLeave_only ..)) (drainCheck_only _)
  split
  · exact .trans (t := { (s.settleCard x o).writeDeposit (s.depositRecord x o) with sessions := s.sessions.erase x })
      ⟨by constructor <;> rfl, rfl, rfl, rfl⟩ (chargedDeposit_only ..).toOnlySessions
  · exact ⟨by constructor <;> rfl, rfl, rfl, rfl⟩

theorem ringJoin_only (a : StationIx) (s : State) : OnlySessions s (s.ringJoin a) := by
  unfold State.ringJoin
  split
  · exact .refl s
  · exact ⟨by constructor <;> rfl, rfl, rfl, rfl⟩

theorem openSession_only (x : Session) (s : State) : OnlySessions s (s.openSession x) :=
  .trans (t := (State.modContainer x.container (fun c => { c with state := .session })
      { s with sessions := s.sessions ++ [x],
               nextSession := freeNumber (s.sessions ++ [x]) (s.sessions.length + 1) (s.nextSession + 1) }).modCard x.card
        fun c => { c with link := some x.number })
    ⟨by constructor <;> rfl, rfl, rfl, rfl⟩ (ringJoin_only ..)

theorem judgeCard_only (a : StationIx) (inlet : Byte) (card : Word32) (s : State) :
    OnlySessions s (s.judgeCard a inlet card).2 := by
  unfold State.judgeCard
  split
  · exact .refl s
  · split
    · exact .refl s
    · unfold State.grantOrDeny
      split
      · split <;> exact .refl s
      · split
        · exact .refl s
        · split
          · exact openSession_only ..
          · exact .refl s

theorem lateClosure_only (a : StationIx) (n : InletIx) (s : State) : OnlySessions s (s.lateClosure a n) := by
  unfold State.lateClosure
  split
  · exact .refl s
  · split
    · exact (faultToIdle_only ..).toOnlySessions
    · exact .refl s

theorem hatchClosed_only (a : StationIx) (inlet : Byte) (b : Bool) (s : State) : OnlySessions s (s.hatchClosed a inlet b) := by
  unfold State.hatchClosed
  split
  · exact .refl s
  · split
    · exact endSession_only ..
    · exact lateClosure_only ..

theorem startLift_only (i : ContainerIx) (s : State) : OnlySessions s (s.startLift i) := by
  unfold State.startLift
  split
  · exact (modContainer_only ..).toOnlySessions
  · split
    · exact endSession_only ..
    · exact (modContainer_only ..).toOnlySessions
  · exact ((modContainer_only ..).trans (raise_inletFault_only ..).toOnlyContainers).toOnlySessions
  · exact .refl s
  · exact .refl s

theorem endLift_only (i : ContainerIx) (s : State) : OnlySessions s (s.endLift i) := by
  unfold State.endLift
  split
  · exact (completeLift_only ..).toOnlySessions
  · exact (completeLift_only ..).toOnlySessions
  · exact (startLift_only ..).trans (completeLift_only ..).toOnlySessions
  · exact .refl s

theorem abortAll_only (s : State) : OnlySessions s s.abortAll := foldl_rel .refl .trans (fun s x => endSession_only _ _ x s) _ s

/-! ### The station table and the line -/

theorem modStation_only (s : State) (a : StationIx) (f : Station → Station) : OnlyTurn s (s.modStation a f) := by
  constructor <;> rfl

theorem modLink_only (s : State) (a : StationIx) (f : Link → Link) : OnlyTurn s (s.modLink a f) := by constructor <;> rfl

theorem release_only (s : State) (k t : Byte) (c : ResultCode) (d : List Byte) : OnlyTurn s (s.release k t c d) := by
  constructor <;> rfl

theorem raise_lock_only (s : State) (a : StationIx) : OnlyTurn s (s.raise (.lock a)) :=
  modStation_only s a fun r => { r with lockFlag := true }

theorem raise_line_only (s : State) (a : StationIx) : OnlyTurn s (s.raise (.line a)) :=
  modStation_only s a fun r => { r with lineFlag := true }

theorem abortStation_only (a : StationIx) (s : State) : OnlyTurn s (s.abortStation a) :=
  foldl_rel .refl .trans (fun s x => (endSession_only _ _ x s).toOnlyTurn.trans (modStation_only ..)) _ s

theorem addReason_only (a : StationIx) (r : LockReasons) (s : State) : OnlyTurn s (s.addReason a r) := by
  unfold State.addReason
  dsimp only
  split
  · exact (modStation_only ..).trans (raise_lock_only ..)
  · exact modStation_only ..

theorem lockoutEntry_only (a : StationIx) (r : LockReasons) (s : State) : OnlyTurn s (s.lockoutEntry a r) :=
  ((modStation_only ..).trans (abortStation_only ..)).trans (raise_lock_only ..)

theorem leaveLock_only (a : StationIx) (s : State) : OnlyTurn s (s.leaveLock a) :=
  (modStation_only ..).trans (raise_lock_only ..)

theorem autoExit_only (a : StationIx) (s : State) : OnlyTurn s (s.autoExit a) := by
  unfold State.autoExit
  split
  · exact leaveLock_only ..
  · exact .refl s

theorem cycleExit_only (a : StationIx) (s : State) : OnlyTurn s (s.cycleExit a) := by
  unfold State.cycleExit
  split
  · exact leaveLock_only ..
  · exact .refl s

theorem answerMessage_only (a : StationIx) (c : ResultCode) (s : State) : OnlyTurn s (s.answerMessage a c) := by
  unfold State.answerMessage
  split
  · exact .refl s
  · exact (release_only ..).trans (modStation_only ..)

theorem messageAck_only (a : StationIx) (s : State) : OnlyTurn s (s.messageAck a) := by
  unfold State.messageAck
  split
  · exact .refl s
  · split
    · exact answerMessage_only ..
    · exact .refl s

theorem messageTry_only (a : StationIx) (s : State) : OnlyTurn s (s.messageTry a) := by
  unfold State.messageTry
  split
  · exact .refl s
  · split
    · exact .refl s
    · split
      · exact answerMessage_only ..
      · exact modStation_only ..

theorem faultSummary_only (a : StationIx) (x : BitVec 4) (s : State) : OnlyTurn s (s.faultSummary a x) := by
  unfold State.faultSummary
  dsimp only
  have first : OnlyTurn s (if x ≠ s.stations[a].summary then
      (s.modStation a fun r => { r with summary := x, hold := false }).raise (.lock a)
      else s.modStation a fun r => { r with summary := x, hold := false }) := by
    split
    · exact (modStation_only ..).trans (raise_lock_only ..)
    · exact modStation_only ..
  split
  · split
    · exact first.trans (addReason_only ..)
    · split
      · exact (first.trans (addReason_only ..)).trans (modStation_only ..)
      · exact ((first.trans (addReason_only ..)).trans (modStation_only ..)).trans (lockoutEntry_only ..)
  · split
    · exact (first.trans (modStation_only ..)).trans (autoExit_only ..)
    · exact first

theorem lineFault_only (a : StationIx) (s : State) : OnlyTurn s (s.lineFault a) := by
  unfold State.lineFault
  dsimp only
  have first := (((addReason_only a .ofLine s).trans (modStation_only _ a fun x => { x with hold := false })).trans
    (answerMessage_only a .failed _)).trans (modStation_only _ a fun x => { x with fault := true })
  split
  · exact first.trans (lockoutEntry_only ..)
  · exact first

theorem linkUnknown_only (a : StationIx) (s : State) : OnlyTurn s (s.linkUnknown a) := by
  unfold State.linkUnknown
  dsimp only
  split
  · exact (modLink_only ..).trans (raise_line_only ..)
  · exact modLink_only ..

theorem linkDropped_only (a : StationIx) (s : State) : OnlyTurn s (s.linkDropped a) := by
  unfold State.linkDropped
  split
  · exact .refl s
  · exact linkUnknown_only ..

theorem applyUnconfigured_only (a : StationIx) (s : State) : OnlyTurn s (s.applyUnconfigured a) :=
  have first := (answerMessage_only a .failed s).trans (modStation_only _ a Station.unconfigure)
  have second := .ite (first.trans (raise_lock_only ..)) first
  .ite (second.trans (linkDropped_only ..)) second

theorem applyConfigured_only (a : StationIx) (c : StationConfig) (s : State) : OnlyTurn s (s.applyConfigured a c) :=
  have first := modStation_only s a fun x => { x with config := c, staged := none }
  have second := .ite ((first.trans (abortStation_only ..)).trans (answerMessage_only ..)) first
  .ite (second.trans (linkDropped_only ..)) (.ite (second.trans (linkUnknown_only ..)) second)

theorem applyFields_only (a : StationIx) (c : StationConfig) (s : State) : OnlyTurn s (s.applyFields a c) := by
  unfold State.applyFields
  split
  · exact applyConfigured_only ..
  · exact applyUnconfigured_only ..

theorem applyStation_only (a : StationIx) (c : StationConfig) (s : State) : OnlyTurn s (s.applyStation a c) :=
  (applyFields_only ..).trans (autoExit_only ..)

theorem stationWrap_only (s : State) (a : StationIx) : OnlyTurn s (s.stationWrap a) := by
  unfold State.stationWrap
  split
  · exact (applyStation_only ..).trans (cycleExit_only ..)
  · exact cycleExit_only ..

theorem restartStaged_only (s : State) (a : StationIx) : OnlyTurn s (s.restartStaged a) := by
  unfold State.restartStaged
  split
  · exact applyFields_only ..
  · exact .refl s

theorem withStations_only (s : State) (v : Vector Station Config.stations) : OnlyTurn s { s with stations := v } := by
  constructor <;> rfl

theorem withLine_only (s : State) (x : LineCtl) : OnlyTurn s { s with line := x } := by constructor <;> rfl

theorem restartStations_only (s : State) : OnlyTurn s s.restartStations :=
  have first : OnlyTurn s ((List.finRange Config.stations).foldl State.restartStaged s) :=
    foldl_rel .refl .trans restartStaged_only _ s
  ((first.trans (withStations_only _ _)).trans
    (foldl_rel .refl .trans (fun s a => answerMessage_only a .failed s) _ _)).trans (withStations_only _ _)

theorem wrap_only (s : State) : OnlyTurn s s.wrap :=
  (foldl_rel .refl .trans stationWrap_only (List.finRange Config.stations) s).trans (withLine_only _ _)

theorem chooseSession_only (s : State) : OnlyTurn s s.chooseSession := by
  unfold State.chooseSession
  split
  · exact .refl s
  · constructor <;> rfl

theorem chooseAfterWrap_only (s : State) : OnlyTurn s s.chooseAfterWrap := by
  unfold State.chooseAfterWrap
  split
  · exact .refl s
  · split
    · exact chooseSession_only s
    · constructor <;> rfl

theorem chooseTurn_only (k : Option SlotKind) (s : State) : OnlyTurn s (s.chooseTurn k) := by
  unfold State.chooseTurn
  split
  · exact .refl s
  · split
    · exact chooseSession_only s
    · split
      · exact chooseSession_only s
      · split
        · constructor <;> rfl
        · exact (wrap_only s).trans (chooseAfterWrap_only _)

theorem endTurn_only (k : SlotKind) (s : State) : OnlyTurn s (s.endTurn k) :=
  have first := withLine_only s { s.line with turn := none }
  (OnlyTurn.ite (first.trans (wrap_only _)) first).trans (chooseTurn_only ..)

theorem linkOutcome_only (a : StationIx) (o : TurnOutcome) (s : State) : OnlyTurn s (s.linkOutcome a o) := by
  unfold State.linkOutcome
  dsimp only
  split
  · exact modLink_only ..
  · split
    · exact ((modLink_only ..).trans (raise_line_only ..)).trans (lineFault_only ..)
    · exact (modLink_only ..).trans (raise_line_only ..)

theorem reportTry_only (t : Turn) (s : State) : OnlyTurn s (s.reportTry t) := by
  unfold State.reportTry
  split
  · exact messageTry_only ..
  · exact .refl s

theorem failTurn_only (t : Turn) (o : TurnOutcome) (s : State) : OnlyTurn s (s.failTurn t o) :=
  ((linkOutcome_only ..).trans (reportTry_only ..)).trans (endTurn_only ..)

theorem forBound_only (a : StationIx) (inlet : Byte) (act : ContainerIx → State → State)
    (h : ∀ i s, OnlySessions s (act i s)) (s : State) : OnlySessions s (s.forBound a inlet act) := by
  unfold State.forBound
  split
  · exact h ..
  · exact .refl s

theorem handFrame_only (a : StationIx) (reply : Byte) (f : StationFrame) (s : State) :
    OnlyTurn s (s.handFrame a reply f).1 := by
  unfold State.handFrame
  split
  · exact (judgeCard_only ..).toOnlyTurn
  · exact (hatchClosed_only ..).toOnlyTurn
  · exact (forBound_only _ _ _ (fun i s => (levelReading_only i _ s).toOnlySessions) s).toOnlyTurn
  · exact (forBound_only _ _ _ startLift_only s).toOnlyTurn
  · exact (forBound_only _ _ _ endLift_only s).toOnlyTurn
  · exact messageAck_only ..
  · dsimp only
    split
    · constructor <;> rfl
    · exact .refl s
  · exact .refl s

theorem handFrames_only (a : StationIx) (reply : Byte) (count : Nat) (frames : List RawFrame) (s : State) :
    OnlyTurn s (s.handFrames a reply count frames).state := by
  unfold State.handFrames
  have step : ∀ (ps : List (RawFrame × Nat)) (h : HandOn), OnlyTurn h.state (ps.foldl (HandOn.judge a reply count) h).state := by
    intro ps
    induction ps with
    | nil => exact fun h => .refl _
    | cons p ps ih =>
      intro h
      refine .trans ?_ (ih _)
      unfold HandOn.judge
      split
      · split
        · exact .refl _
        · split
          · exact handFrame_only ..
          · exact .refl _
      · exact .refl _
  exact step _ { state := s, positions := 0, verdicts := [] }

theorem goodHeader_only (a : StationIx) (x : BitVec 4) (s : State) : OnlyTurn s (s.goodHeader a x) :=
  ((linkOutcome_only ..).trans (modStation_only ..)).trans (faultSummary_only ..)

theorem goodReply_only (t : Turn) (reply : Byte) (x : BitVec 4) (count : Nat) (frames : List RawFrame) (s : State) :
    OnlyTurn s (s.goodReply t reply x count frames) :=
  have first := ((goodHeader_only t.station x s).trans (handFrames_only t.station reply count frames _)).trans
    (modLink_only _ t.station _)
  .ite ((first.trans (reportTry_only ..)).trans (endTurn_only ..))
    ((first.trans (withLine_only ..)).trans (reportTry_only ..))

theorem replyEnd_only (t : Turn) (address : Byte) (chars : List LineChar) (s : State) :
    OnlyTurn s (s.replyEnd t address chars) := by
  unfold State.replyEnd
  split
  · exact failTurn_only ..
  · exact failTurn_only ..
  · exact goodReply_only ..

theorem beginTurn_only (a : StationIx) (k : SlotKind) (s : State) : OnlyTurn s (s.beginTurn a k) := by constructor <;> rfl

theorem setPhase_only (t : Turn) (p : TurnPhase) (s : State) : OnlyTurn s (s.setPhase t p) := by constructor <;> rfl

end Sys2Proof.Machine
end

