-- ==== Sys2Proof/Laws/Steps.lean ====
section
/-! SUPPORT. What a step can do to the block's records (sessions, deposit records, cards, container bodies, relayed reports),
said once: a property of the records that each of the few events of `Keeps` keeps is kept by every command. -/

namespace Sys2Proof.Machine

/-! ### States with the same records -/

/-- Two states hold the same sessions, deposit records, cards, container bodies and relayed reports. -/
structure SameRecords (s t : State) : Prop where
  sessions : t.sessions = s.sessions
  deposits : t.deposits = s.deposits
  cards : t.cards = s.cards
  container : ∀ i, t.container i = s.container i
  relay : t.relay = s.relay

theorem SameRecords.refl (s : State) : SameRecords s s := ⟨rfl, rfl, rfl, fun _ => rfl, rfl⟩

theorem SameRecords.trans {s t u : State} (h : SameRecords s t) (k : SameRecords t u) : SameRecords s u :=
  ⟨k.1.trans h.1, k.2.trans h.2, k.3.trans h.3, fun i => (k.4 i).trans (h.4 i), k.5.trans h.5⟩

theorem SameRecords.ite {s t u : State} {p : Prop} [Decidable p] (h : SameRecords s t) (k : SameRecords s u) :
    SameRecords s (if p then t else u) := by
  split
  · exact h
  · exact k

theorem OnlyRounds.same {s t : State} (h : OnlyRounds s t) : SameRecords s t :=
  ⟨h.sessions, h.deposits, h.cards, h.container, h.relay⟩

theorem modStation_same (s : State) (a : StationIx) (f : Station → Station) : SameRecords s (s.modStation a f) :=
  ⟨rfl, rfl, rfl, fun _ => rfl, rfl⟩

theorem modLink_same (s : State) (a : StationIx) (f : Link → Link) : SameRecords s (s.modLink a f) :=
  ⟨rfl, rfl, rfl, fun _ => rfl, rfl⟩

theorem withLine_same (s : State) (x : LineCtl) : SameRecords s { s with line := x } := ⟨rfl, rfl, rfl, fun _ => rfl, rfl⟩

theorem withStations_same (s : State) (v : Vector Station Config.stations) : SameRecords s { s with stations := v } :=
  ⟨rfl, rfl, rfl, fun _ => rfl, rfl⟩

theorem release_same (s : State) (k t : Byte) (c : ResultCode) (d : List Byte) : SameRecords s (s.release k t c d) :=
  ⟨rfl, rfl, rfl, fun _ => rfl, rfl⟩

theorem respond_same (s : State) (f : RequestFrame) (c : ResultCode) (d : List Byte) : SameRecords s (s.respond f c d) :=
  ⟨rfl, rfl, rfl, fun _ => rfl, rfl⟩

theorem deferral_same (s : State) : SameRecords s s.deferral := ⟨rfl, rfl, rfl, fun _ => rfl, rfl⟩

/-- Setting or clearing any pending flag keeps the records. -/
theorem setFlag_same (p : NoticeFlag) (b : Bool) (s : State) : SameRecords s (s.setFlag p b) := by
  cases p with
  | start => exact ⟨rfl, rfl, rfl, fun _ => rfl, rfl⟩
  | lock a => exact modStation_same s a fun r => { r with lockFlag := b }
  | line a => exact modStation_same s a fun r => { r with lineFlag := b }
  | raised i =>
    exact (modRec_flags_only s i (fun r => { r with flags := { r.flags with raised := b } }) fun _ => rfl).same
  | overdue i =>
    exact (modRec_flags_only s i (fun r => { r with flags := { r.flags with overdue := b } }) fun _ => rfl).same
  | inletFault i =>
    exact (modRec_flags_only s i (fun r => { r with flags := { r.flags with inletFault := b } }) fun _ => rfl).same
  | sensor i =>
    exact (modRec_flags_only s i (fun r => { r with flags := { r.flags with sensor := b } }) fun _ => rfl).same
  | lifted i =>
    exact (modRec_flags_only s i (fun r => { r with flags := { r.flags with lifted := b } }) fun _ => rfl).same
  | closed n => exact (modSlot_only s n fun r => { r with closedFlag := b }).same

theorem raise_same (p : NoticeFlag) (s : State) : SameRecords s (s.raise p) := setFlag_same p true s

theorem addCloseNow_same (a : StationIx) (n : InletIx) (s : State) : SameRecords s (s.addCloseNow a n) := modStation_same ..

theorem addReason_same (a : StationIx) (r : LockReasons) (s : State) : SameRecords s (s.addReason a r) :=
  .ite ((modStation_same ..).trans (raise_same ..)) (modStation_same ..)

theorem leaveLock_same (a : StationIx) (s : State) : SameRecords s (s.leaveLock a) := (modStation_same ..).trans (raise_same ..)
theorem autoExit_same (a : StationIx) (s : State) : SameRecords s (s.autoExit a) := .ite (leaveLock_same ..) (.refl s)
theorem cycleExit_same (a : StationIx) (s : State) : SameRecords s (s.cycleExit a) := .ite (leaveLock_same ..) (.refl s)

theorem answerMessage_same (a : StationIx) (c : ResultCode) (s : State) : SameRecords s (s.answerMessage a c) := by
  unfold State.answerMessage
  split
  · exact .refl s
  · exact (release_same ..).trans (modStation_same ..)

theorem messageAck_same (a : StationIx) (s : State) : SameRecords s (s.messageAck a) := by
  unfold State.messageAck
  split
  · exact .refl s
  · exact .ite (answerMessage_same ..) (.refl s)

theorem messageTry_same (a : StationIx) (s : State) : SameRecords s (s.messageTry a) := by
  unfold State.messageTry
  split
  · exact .refl s
  · exact .ite (.refl s) (.ite (answerMessage_same ..) (modStation_same ..))

theorem linkUnknown_same (a : StationIx) (s : State) : SameRecords s (s.linkUnknown a) :=
  .ite ((modLink_same ..).trans (raise_same ..)) (modLink_same ..)

theorem linkDropped_same (a : StationIx) (s : State) : SameRecords s (s.linkDropped a) := .ite (.refl s) (linkUnknown_same ..)

theorem applyUnconfigured_same (a : StationIx) (s : State) : SameRecords s (s.applyUnconfigured a) :=
  have first := (answerMessage_same a .failed s).trans (modStation_same _ a Station.unconfigure)
  have second := .ite (first.trans (raise_same (.lock a) _)) first
  .ite (second.trans (linkDropped_same ..)) second

theorem chooseSession_same (s : State) : SameRecords s s.chooseSession := by
  unfold State.chooseSession
  split
  · exact .refl s
  · exact withLine_same ..

theorem chooseAfterWrap_same (s : State) : SameRecords s s.chooseAfterWrap := by
  unfold State.chooseAfterWrap
  split
  · exact .refl s
  · split
    · exact chooseSession_same s
    · exact withLine_same ..

/-! ### The events that change the records -/

/-- A property of the records that every event which changes them keeps. -/
structure Keeps (P : State → Prop) : Prop where
  same : ∀ {s t}, SameRecords s t → P s → P t
  ending : ∀ {s} o after {x}, x ∈ s.sessions → P s → P (s.endSession o after x)
  opening : ∀ {s} x, s.hasCapacity = true → P s → P (s.openSession x)
  level : ∀ {s} i d, P s → P (s.levelReading i d)
  lifting : ∀ {s} i e t, P s → P (s.modContainer i (Container.startLift e t))
  lifted : ∀ {s} i, P s → P (s.completeLift i)
  liftOverdue : ∀ {s} i, P s → P (s.liftExpiry i)
  cleared : ∀ {s} i, P s → P (s.faultToIdle i)
  report : ∀ {s} a r p, s.relay.length < Config.relayCapacity → P s → P (s.relayReport a r p)
  depositSent : ∀ {s}, P s → P { s with deposits := s.deposits.tail }
  reportSent : ∀ {s}, P s → P { s with relay := s.relay.tail }
  cardPut : ∀ {s} f, P s → P (s.cardPut f)
  cardDrop : ∀ {s} f, P s → P (s.cardDrop f)
  cardStatus : ∀ {s} f, P s → P (s.cardStatus f)
  periodRoll : ∀ {s} f, P s → P (s.periodRoll f)
  containerPut : ∀ {s} f, P s → P (s.containerPut f)
  containerClear : ∀ {s} f, P s → P (s.containerClear f)
  clearSensor : ∀ {s} f, P s → P (s.clearSensor f)
  reset : P State.reset

/-! ### Sorting and the endings of several sessions -/

theorem insertBy_perm {α : Type} (before : α → α → Bool) (x : α) (ys : List α) : (insertBy before x ys).Perm (x :: ys) := by
  induction ys with
  | nil => exact .refl _
  | cons y ys ih =>
    unfold insertBy
    split
    · exact .refl _
    · exact (ih.cons y).trans (.swap x y ys)

/-- Sorting keeps the elements. -/
theorem sortByKey_perm {α : Type} (key : α → List Nat) (xs : List α) : (sortByKey key xs).Perm xs := by
  unfold sortByKey
  induction xs with
  | nil => exact .refl _
  | cons x xs ih => exact (insertBy_perm ..).trans (ih.cons x)

theorem endSession_sessions (o : DepositOutcome) (after : AfterSession) (x : Session) (s : State) :
    (s.endSession o after x).sessions = s.sessions.erase x := by
  unfold State.endSession
  dsimp only
  have drain : ∀ u : State, u.drainCheck.sessions = u.sessions := by
    intro u; unfold State.drainCheck; split
    · dsimp only; split <;> rfl
    · rfl
  have ring : ∀ u : State, (u.ringLeave x.station).sessions = u.sessions := by
    intro u; unfold State.ringLeave; split <;> rfl
  rw [drain, ring, (leaveSession_only ..).sessions]
  split
  · exact (chargedDeposit_only ..).sessions
  · rfl

theorem endSession_deposits (o : DepositOutcome) (after : AfterSession) (x : Session) (s : State) :
    (s.endSession o after x).deposits = s.deposits ++ [{ arrival := s.arrivals, record := s.depositRecord x o }] := by
  unfold State.endSession
  dsimp only
  have drain : ∀ u : State, u.drainCheck.deposits = u.deposits := by
    intro u; unfold State.drainCheck; split
    · dsimp only; split <;> rfl
    · rfl
  have ring : ∀ u : State, (u.ringLeave x.station).deposits = u.deposits := by
    intro u; unfold State.ringLeave; split <;> rfl
  rw [drain, ring, (leaveSession_only ..).deposits]
  split
  · exact (chargedDeposit_only ..).deposits
  · rfl

/-- Endings of sessions drawn from the hatch table keep a kept property. -/
theorem Keeps.endings {P : State → Prop} (k : Keeps P) {f : State → Session → State} {o : DepositOutcome}
    {after : AfterSession} (step : ∀ s x, SameRecords (s.endSession o after x) (f s x)) :
    ∀ (xs : List Session) (s : State), xs.Subperm s.sessions → P s → P (xs.foldl f s)
  | [], _, _, h => h
  | x :: xs, s, sub, h => by
    refine Keeps.endings k step xs _ ?_ (k.same (step s x) (k.ending o after (sub.subset List.mem_cons_self) h))
    rw [(step s x).sessions, endSession_sessions]
    simpa using sub.erase x

variable {P : State → Prop} {s t : State}

theorem Keeps.abortStation (k : Keeps P) (a : StationIx) (h : P s) : P (s.abortStation a) := by
  refine k.endings (fun s x => addCloseNow_same a x.inlet _) _ s ?_ h
  exact List.filter_sublist.subperm.trans (sortByKey_perm ..).subperm

theorem Keeps.abortAll (k : Keeps P) (h : P s) : P s.abortAll :=
  k.endings (fun _ _ => .refl _) _ s (sortByKey_perm ..).subperm h

/-! ### The station table -/

theorem Keeps.lockoutEntry (k : Keeps P) (a : StationIx) (r : LockReasons) (h : P s) : P (s.lockoutEntry a r) :=
  k.same (raise_same ..) (k.abortStation a (k.same (modStation_same ..) h))

theorem Keeps.ite {u : State} {p : Prop} [Decidable p] (h : P t) (h' : P u) : P (if p then t else u) := by
  split
  · exact h
  · exact h'

theorem Keeps.faultSummary (k : Keeps P) (a : StationIx) (x : BitVec 4) (h : P s) : P (s.faultSummary a x) :=
  have first := .ite ((modStation_same s a fun r => { r with summary := x, hold := false }).trans (raise_same (.lock a) _))
    (modStation_same s a fun r => { r with summary := x, hold := false })
  have second := first.trans (addReason_same a .ofFault _)
  Keeps.ite
    (Keeps.ite (k.same second h)
      (Keeps.ite (k.same (second.trans (modStation_same _ a fun r => { r with fault := true })) h)
        (k.lockoutEntry a .ofFault (k.same (second.trans (modStation_same _ a fun r => { r with fault := true })) h))))
    (Keeps.ite (k.same ((first.trans (modStation_same ..)).trans (autoExit_same ..)) h) (k.same first h))

theorem Keeps.lineFault (k : Keeps P) (a : StationIx) (h : P s) : P (s.lineFault a) :=
  have first := (((addReason_same a .ofLine s).trans (modStation_same _ a fun x => { x with hold := false })).trans
    (answerMessage_same a .failed _)).trans (modStation_same _ a fun x => { x with fault := true })
  Keeps.ite (k.lockoutEntry a .ofLine (k.same first h)) (k.same first h)

theorem Keeps.applyFields (k : Keeps P) (a : StationIx) (c : StationConfig) (h : P s) : P (s.applyFields a c) := by
  unfold State.applyFields
  split
  · have h1 := k.same (modStation_same s a fun x => { x with config := c, staged := none }) h
    have h2 : P (if s.stations[a].config.configured && s.stations[a].config.enabled && !c.enabled then
        ((s.modStation a fun x => { x with config := c, staged := none }).abortStation a).answerMessage a .failed
        else s.modStation a fun x => { x with config := c, staged := none }) :=
      Keeps.ite (k.same (answerMessage_same ..) (k.abortStation a h1)) h1
    exact Keeps.ite (k.same (linkDropped_same ..) h2) (Keeps.ite (k.same (linkUnknown_same ..) h2) h2)
  · exact k.same (applyUnconfigured_same ..) h

theorem Keeps.applyStation (k : Keeps P) (a : StationIx) (c : StationConfig) (h : P s) : P (s.applyStation a c) :=
  k.same (autoExit_same ..) (k.applyFields a c h)

theorem Keeps.stationWrap (k : Keeps P) (a : StationIx) (h : P s) : P (s.stationWrap a) := by
  unfold State.stationWrap
  refine k.same (cycleExit_same ..) ?_
  split
  · exact k.applyStation a _ h
  · exact h

/-- A fold of steps that each keep P keeps P. -/
theorem foldl_keeps {α : Type} {f : State → α → State} (step : ∀ s x, P s → P (f s x)) :
    ∀ (xs : List α) (s : State), P s → P (xs.foldl f s)
  | [], _, h => h
  | x :: xs, s, h => foldl_keeps step xs _ (step s x h)

theorem Keeps.restartStations (k : Keeps P) (h : P s) : P s.restartStations := by
  have h1 : P ((List.finRange Config.stations).foldl State.restartStaged s) := by
    refine foldl_keeps (fun s a h => ?_) _ s h
    unfold State.restartStaged
    split
    · exact k.applyFields a _ h
    · exact h
  exact k.same (withStations_same _ _)
    (foldl_keeps (fun s a h => k.same (answerMessage_same a .failed s) h) _ _ (k.same (withStations_same _ _) h1))

/-! ### The line controller -/

theorem Keeps.wrap (k : Keeps P) (h : P s) : P s.wrap :=
  k.same (withLine_same _ _) (foldl_keeps (fun _ a h => k.stationWrap a h) (List.finRange Config.stations) s h)

theorem Keeps.chooseTurn (k : Keeps P) (q : Option SlotKind) (h : P s) : P (s.chooseTurn q) := by
  unfold State.chooseTurn
  split
  · exact h
  · split
    · exact k.same (chooseSession_same s) h
    · split
      · exact k.same (chooseSession_same s) h
      · split
        · exact k.same (withLine_same ..) h
        · exact k.same (chooseAfterWrap_same _) (k.wrap h)

theorem Keeps.endTurn (k : Keeps P) (q : SlotKind) (h : P s) : P (s.endTurn q) :=
  have h1 := k.same (withLine_same s { s.line with turn := none }) h
  k.chooseTurn (some q) (Keeps.ite (k.wrap h1) h1)

theorem Keeps.linkOutcome (k : Keeps P) (a : StationIx) (o : TurnOutcome) (h : P s) : P (s.linkOutcome a o) :=
  have h1 := k.same (modLink_same s a fun _ => s.links[a].after o) h
  have h2 := k.same (raise_same (.line a) _) h1
  Keeps.ite h1 (Keeps.ite (k.lineFault a h2) h2)

theorem Keeps.reportTry (k : Keeps P) (x : Turn) (h : P s) : P (s.reportTry x) :=
  Keeps.ite (k.same (messageTry_same ..) h) h

theorem Keeps.failTurn (k : Keeps P) (x : Turn) (o : TurnOutcome) (h : P s) : P (s.failTurn x o) :=
  k.endTurn _ (k.reportTry x (k.linkOutcome _ o h))

/-! ### Frames of a reply -/

theorem Keeps.judgeCard (k : Keeps P) (a : StationIx) (inlet : Byte) (card : Word32) (h : P s) :
    P (s.judgeCard a inlet card).2 := by
  unfold State.judgeCard
  split
  · exact h
  · split
    · exact h
    · unfold State.grantOrDeny
      split
      · split <;> exact h
      · split
        · exact h
        · split
          · exact k.opening _ ‹_› h
          · exact h

theorem Keeps.hatchClosed (k : Keeps P) (a : StationIx) (inlet : Byte) (b : Bool) (h : P s) : P (s.hatchClosed a inlet b) := by
  unfold State.hatchClosed
  split
  · exact h
  · split
    · exact k.ending _ _ (List.mem_of_find?_eq_some ‹_›) h
    · unfold State.lateClosure
      split
      · exact h
      · exact Keeps.ite (k.cleared _ h) h

theorem Keeps.startLift (k : Keeps P) (i : ContainerIx) (h : P s) : P (s.startLift i) := by
  unfold State.startLift
  split
  · exact k.lifting i _ _ h
  · split
    · exact k.ending _ _ (List.mem_of_find?_eq_some ‹_›) h
    · exact k.lifting i _ _ h
  · exact k.same (raise_same ..) (k.lifting i _ _ h)
  · exact h
  · exact h

theorem Keeps.endLift (k : Keeps P) (i : ContainerIx) (h : P s) : P (s.endLift i) := by
  unfold State.endLift
  split
  · exact k.lifted i h
  · exact k.lifted i h
  · exact k.lifted i (k.startLift i h)
  · exact h

theorem Keeps.forBound (a : StationIx) (inlet : Byte) {act : ContainerIx → State → State}
    (step : ∀ i, P (act i s)) (h : P s) : P (s.forBound a inlet act) := by
  unfold State.forBound
  split
  · exact step _
  · exact h

theorem Keeps.handFrame (k : Keeps P) (a : StationIx) (reply : Byte) (f : StationFrame) (room : s.canTake a f = true)
    (h : P s) : P (s.handFrame a reply f).1 := by
  cases f with
  | card inlet card => exact k.judgeCard a inlet card h
  | hatchClosed inlet b => exact k.hatchClosed a inlet b h
  | level inlet d => exact Keeps.forBound a inlet (fun i => k.level i d h) h
  | liftStart inlet => exact Keeps.forBound a inlet (fun i => k.startLift i h) h
  | liftEnd inlet => exact Keeps.forBound a inlet (fun i => k.endLift i h) h
  | messageAck => exact k.same (messageAck_same ..) h
  | report payload =>
    show P (if s.stations[a].config.relay = true then s.relayReport a reply payload else s)
    split
    · next hr =>
      refine k.report a reply payload ?_ h
      unfold State.canTake at room
      rw [hr] at room
      simpa using room
    · exact h
  | other => exact h

theorem Keeps.judge (k : Keeps P) (a : StationIx) (reply : Byte) (count : Nat) (x : HandOn) (p : RawFrame × Nat)
    (h : P x.state) : P (x.judge a reply count p).state := by
  unfold HandOn.judge
  split
  · split
    · exact h
    · split
      · exact k.handFrame a reply _ ‹_› h
      · exact h
  · exact h

theorem Keeps.handFrames (k : Keeps P) (a : StationIx) (reply : Byte) (count : Nat) (frames : List RawFrame) (h : P s) :
    P (s.handFrames a reply count frames).state := by
  unfold State.handFrames
  have step : ∀ (ps : List (RawFrame × Nat)) (x : HandOn), P x.state → P (ps.foldl (HandOn.judge a reply count) x).state := by
    intro ps
    induction ps with
    | nil => exact fun x h => h
    | cons p ps ih => exact fun x h => ih _ (k.judge a reply count x p h)
  exact step _ { state := s, positions := 0, verdicts := [] } h

theorem Keeps.goodReply (k : Keeps P) (x : Turn) (reply : Byte) (b : BitVec 4) (count : Nat) (frames : List RawFrame)
    (h : P s) : P (s.goodReply x reply b count frames) :=
  have h1 : P (s.goodHeader x.station b) :=
    k.faultSummary _ b (k.same (modStation_same ..) (k.linkOutcome x.station .good h))
  have h2 := k.same (modLink_same _ x.station _) (k.handFrames x.station reply count frames h1)
  Keeps.ite (k.endTurn _ (k.reportTry x h2)) (k.reportTry x (k.same (withLine_same ..) h2))

theorem Keeps.replyEnd (k : Keeps P) (x : Turn) (address : Byte) (chars : List LineChar) (h : P s) :
    P (s.replyEnd x address chars) := by
  unfold State.replyEnd
  split
  · exact k.failTurn x _ h
  · exact k.failTurn x _ h
  · exact k.goodReply x _ _ _ _ h

/-! ### Every command -/

theorem Keeps.takeRequest (k : Keeps P) {kind : Byte} {ok : Nat → Bool} {judge : RequestFrame → State → State}
    (step : ∀ f s, P s → P (judge f s)) (h : P s) : P (s.takeRequest kind ok judge) := by
  unfold State.takeRequest
  split
  · exact h
  · next f t ht =>
    have h1 : P t := by
      unfold State.take at ht
      split at ht
      · cases ht
      · split at ht
        · cases ht; exact k.same (s := s) ⟨rfl, rfl, rfl, fun _ => rfl, rfl⟩ h
        · cases ht
    split
    · split
      · exact step f t h1
      · exact k.same (respond_same ..) h1
    · exact h

theorem Build.pass1_only (n : FractionIx) (limit : Nat) (b : Build) (i : ContainerIx) :
    OnlyRequests b.state (b.pass1 n limit i).state := by
  unfold Build.pass1
  split
  · exact .refl _
  · split
    · exact planRequest_only ..
    · exact .refl _

theorem Build.pass2_only (n : FractionIx) (limit : Nat) (b : Build) (i : ContainerIx) :
    OnlyRequests b.state (b.pass2 n limit i).state := by
  unfold Build.pass2
  split
  · exact .refl _
  · split
    · exact preempt_only ..
    · exact .refl _

/-- A build changes requests and pending flags alone. -/
theorem build_only (r : RoundFields) (s : State) : OnlyRequests s (s.build r).state := by
  have fold1 : ∀ (is : List ContainerIx) (b : Build),
      OnlyRequests b.state (is.foldl (Build.pass1 r.fraction r.limit) b).state := by
    intro is
    induction is with
    | nil => exact fun b => .refl _
    | cons i is ih => exact fun b => (Build.pass1_only ..).trans (ih _)
  have fold2 : ∀ (is : List ContainerIx) (b : Build),
      OnlyRequests b.state (is.foldl (Build.pass2 r.fraction r.limit) b).state := by
    intro is
    induction is with
    | nil => exact fun b => .refl _
    | cons i is ih => exact fun b => (Build.pass2_only ..).trans (ih _)
  unfold State.build
  dsimp only
  split
  · exact (fold1 (s.waitingOrder r.fraction) { state := s, budget := r.budget, taken := [] }).trans (fold2 _ _)
  · exact fold1 (s.waitingOrder r.fraction) { state := s, budget := r.budget, taken := [] }

theorem settle_same (f : RequestFrame) (r : RoundFields) (b : Build) : SameRecords b.state (b.settle f r) := by
  unfold Build.settle
  split
  · exact respond_same ..
  · refine .trans ?_ (expireRound_only ..).same
    exact ⟨rfl, rfl, rfl, fun _ => rfl, rfl⟩

theorem afterTime_only (s : State) : OnlyRounds s s.afterTime := (markAllOverdue_only s).toOnlyRounds.trans (expireRounds_only _)

theorem cutFrame_same (s : State) : SameRecords s s.cutFrame := by
  unfold State.cutFrame
  dsimp only
  have h : SameRecords s { s with sender := { s.sender with tx := none }, roundLists := [] } :=
    ⟨rfl, rfl, rfl, fun _ => rfl, rfl⟩
  split
  · exact h.trans (raise_same ..)
  · exact h

theorem restartTurn_same (s : State) : SameRecords s s.restartTurn := by
  unfold State.restartTurn
  dsimp only
  split
  · exact (withLine_same ..).trans (release_same ..)
  · exact withLine_same ..

theorem restartLine_same (s : State) : SameRecords s s.restartLine := by
  unfold State.restartLine
  dsimp only
  split <;> exact ⟨rfl, rfl, rfl, fun _ => rfl, rfl⟩

theorem arbitrate_same (s : State) : SameRecords s s.arbitrate := by
  unfold State.arbitrate State.beginFourth State.beginFifth
  split <;> (try exact ⟨rfl, rfl, rfl, fun _ => rfl, rfl⟩)
  split <;> (try exact ⟨rfl, rfl, rfl, fun _ => rfl, rfl⟩)
  · split <;> exact ⟨rfl, rfl, rfl, fun _ => rfl, rfl⟩
  · split
    · refine .trans (setFlag_same _ false s) ⟨rfl, rfl, rfl, fun _ => rfl, rfl⟩
    · exact .refl s

theorem frameSent_keeps (src : TxSource) (g : State → State) (free : ∀ u, P u → P (g u)) (k : Keeps P) (h : P s) :
    P (s.frameSent src g) :=
  Keeps.ite (free _ (k.same (s := s) ⟨rfl, rfl, rfl, fun _ => rfl, rfl⟩ h)) h

theorem withDevice_same (s : State) (d : Device) : SameRecords s { s with device := d } := ⟨rfl, rfl, rfl, fun _ => rfl, rfl⟩

theorem withClock_same (s : State) (x : Clock) : SameRecords s { s with clock := x } := ⟨rfl, rfl, rfl, fun _ => rfl, rfl⟩

theorem withIntake_same (s : State) (x : Intake) : SameRecords s { s with intake := x } := ⟨rfl, rfl, rfl, fun _ => rfl, rfl⟩

theorem Keeps.restart (k : Keeps P) (f : RequestFrame) (h : P s) : P (s.restart f) := by
  unfold State.restart
  dsimp only
  refine k.same (respond_same ..) (k.same (withDevice_same ..) (k.same (cutFrame_same _) (k.same (restartRounds_only _).same
    (k.restartStations (k.same (restartLine_same _) (k.abortAll (k.same (restartTurn_same s) h)))))))

/-- The judgements of the requests that leave the records as they are. -/
theorem Keeps.judgements (k : Keeps P) (f : RequestFrame) (h : P s) :
    P (s.cardGet f) ∧ P (s.stationGet f) ∧ P (s.containerGet f) ∧ P (s.unlockStation f) ∧ P (s.stationMessage f) ∧
      P (s.fractionPut f) ∧ P (s.requestCancel f) ∧ P (s.settingsPut f) ∧ P (s.settingsGet f) ∧ P (s.statusGet f) ∧
      P (s.lineStop f) ∧ P (s.lineTest f) := by
  refine ⟨?_, ?_, ?_, ?_, ?_, ?_, ?_, ?_, ?_, ?_, ?_, ?_⟩
  · unfold State.cardGet
    dsimp only
    repeat' split
    all_goals exact k.same (respond_same ..) h
  · unfold State.stationGet
    split <;> exact k.same (respond_same ..) h
  · unfold State.containerGet
    split <;> exact k.same (respond_same ..) h
  · unfold State.unlockStation
    repeat' split
    all_goals first | exact k.same (respond_same ..) h | exact k.same ((leaveLock_same ..).trans (respond_same ..)) h
  · unfold State.stationMessage
    dsimp only
    repeat' split
    all_goals first | exact k.same (respond_same ..) h | exact k.same ((modStation_same ..).trans (deferral_same ..)) h
  · unfold State.fractionPut
    split
    · exact k.same (respond_same ..) h
    · exact k.same (s := s) ⟨rfl, rfl, rfl, fun _ => rfl, rfl⟩ h
  · unfold State.requestCancel
    repeat' split
    all_goals first
      | exact k.same (respond_same ..) h
      | exact k.same ((setRequest_only ..).same.trans (respond_same ..)) h
  · unfold State.settingsPut
    split
    · exact k.same (respond_same ..) h
    · split
      · exact k.same (respond_same ..) h
      · exact k.same (s := s) ⟨rfl, rfl, rfl, fun _ => rfl, rfl⟩ h
  · exact k.same (respond_same ..) h
  · exact k.same (s := s) ⟨rfl, rfl, rfl, fun _ => rfl, rfl⟩ h
  · unfold State.lineStop
    repeat' split
    all_goals first | exact k.same (respond_same ..) h | exact k.same (s := s) ⟨rfl, rfl, rfl, fun _ => rfl, rfl⟩ h
  · unfold State.lineTest
    split
    · exact k.same (s := s) ⟨rfl, rfl, rfl, fun _ => rfl, rfl⟩ h
    all_goals exact k.same (respond_same ..) h

theorem Keeps.stationPut (k : Keeps P) (f : RequestFrame) (h : P s) : P (s.stationPut f) := by
  unfold State.stationPut
  repeat' split
  all_goals first
    | exact k.same (respond_same ..) h
    | exact k.same (respond_same ..) (k.applyStation _ _ h)
    | exact k.same ((modStation_same ..).trans (respond_same ..)) h

theorem Keeps.lockStation (k : Keeps P) (f : RequestFrame) (h : P s) : P (s.lockStation f) := by
  unfold State.lockStation
  repeat' split
  all_goals first
    | exact k.same (respond_same ..) h
    | exact k.same ((addReason_same ..).trans (respond_same ..)) h
    | exact k.same (respond_same ..) (k.lockoutEntry _ _ h)

theorem Keeps.clearInlet (k : Keeps P) (f : RequestFrame) (h : P s) : P (s.clearInlet f) := by
  unfold State.clearInlet
  repeat' split
  all_goals first | exact k.same (respond_same ..) h | exact k.same (respond_same ..) (k.cleared _ h)

theorem Keeps.roundOpen (k : Keeps P) (f : RequestFrame) (h : P s) : P (s.roundOpen f) := by
  unfold State.roundOpen
  repeat' split
  all_goals first
    | exact k.same (respond_same ..) h
    | exact k.same ((build_only ..).same.trans (settle_same ..)) h

theorem Keeps.roundClose (k : Keeps P) (f : RequestFrame) (h : P s) : P (s.roundClose f) := by
  unfold State.roundClose
  repeat' split
  all_goals first
    | exact k.same (respond_same ..) h
    | exact k.same ((closeRound_only ..).same.trans (respond_same ..)) h

theorem Keeps.lineStart (k : Keeps P) (f : RequestFrame) (h : P s) : P (s.lineStart f) := by
  unfold State.lineStart
  split
  · refine k.same (respond_same ..) ?_
    have h1 := k.same (withLine_same s { s.line with state := .running, nextTurn := none }) h
    exact Keeps.ite (k.same (s := s) ⟨rfl, rfl, rfl, fun _ => rfl, rfl⟩ h) (k.wrap h1)
  · refine k.same (respond_same ..) ?_
    dsimp only
    split <;> exact k.same (s := s) ⟨rfl, rfl, rfl, fun _ => rfl, rfl⟩ h
  · exact k.same (respond_same ..) h
  · exact k.same (respond_same ..) h

theorem Keeps.timeSet (k : Keeps P) (f : RequestFrame) (h : P s) : P (s.timeSet f) := by
  unfold State.timeSet
  dsimp only
  exact k.same (respond_same ..) (k.same (afterTime_only _).same (k.same (withClock_same ..) h))

theorem Keeps.receiveFrame (k : Keeps P) (bytes : List Byte) (h : P s) : P (s.receiveFrame bytes) := by
  unfold State.receiveFrame
  dsimp only
  repeat' split
  all_goals first
    | exact h
    | exact k.same (withIntake_same ..) h
    | (unfold State.offer; split <;> exact k.same (s := s) ⟨rfl, rfl, rfl, fun _ => rfl, rfl⟩ h)

theorem Keeps.taken (k : Keeps P) {f : RequestFrame} (ht : s.take = some (f, t)) (h : P s) : P t := by
  unfold State.take at ht
  split at ht
  · cases ht
  · split at ht
    · cases ht; exact k.same (withIntake_same ..) h
    · cases ht

theorem Keeps.beginNextTurn (k : Keeps P) (h : P s) : P s.beginNextTurn := by
  unfold State.beginNextTurn
  split
  · exact k.same (s := s) ⟨rfl, rfl, rfl, fun _ => rfl, rfl⟩ h
  · exact h

/-- Every command answers a next state, and keeps a kept property of the records. -/
theorem Keeps.exec (k : Keeps P) (c : Instr) (h : P s) : ∃ t, exec c s = .next t ∧ P t := by
  cases c
  case powerOnReset => exact ⟨_, rfl, k.same (s := State.reset) ⟨rfl, rfl, rfl, fun _ => rfl, rfl⟩ k.reset⟩
  case uplinkFrameReceived bytes =>
    refine ⟨_, rfl, ?_⟩
    split
    · exact k.receiveFrame bytes h
    · exact h
  case interbyteTimeout => exact ⟨_, rfl, k.same (withIntake_same ..) h⟩
  case requestUnknownKind =>
    refine ⟨_, rfl, ?_⟩
    split
    · split
      · exact h
      · exact k.same (respond_same ..) (k.taken ‹_› h)
    · exact h
  case cardPut => exact ⟨_, rfl, k.takeRequest (fun f _ => k.cardPut f) h⟩
  case cardDrop => exact ⟨_, rfl, k.takeRequest (fun f _ => k.cardDrop f) h⟩
  case cardStatus => exact ⟨_, rfl, k.takeRequest (fun f _ => k.cardStatus f) h⟩
  case cardGet => exact ⟨_, rfl, k.takeRequest (fun f _ h => (k.judgements f h).1) h⟩
  case periodRoll => exact ⟨_, rfl, k.takeRequest (fun f _ => k.periodRoll f) h⟩
  case stationPut => exact ⟨_, rfl, k.takeRequest (fun f _ => k.stationPut f) h⟩
  case stationGet => exact ⟨_, rfl, k.takeRequest (fun f _ h => (k.judgements f h).2.1) h⟩
  case lock => exact ⟨_, rfl, k.takeRequest (fun f _ => k.lockStation f) h⟩
  case unlock => exact ⟨_, rfl, k.takeRequest (fun f _ h => (k.judgements f h).2.2.2.1) h⟩
  case stationMessage => exact ⟨_, rfl, k.takeRequest (fun f _ h => (k.judgements f h).2.2.2.2.1) h⟩
  case containerPut => exact ⟨_, rfl, k.takeRequest (fun f _ => k.containerPut f) h⟩
  case containerGet => exact ⟨_, rfl, k.takeRequest (fun f _ h => (k.judgements f h).2.2.1) h⟩
  case containerClear => exact ⟨_, rfl, k.takeRequest (fun f _ => k.containerClear f) h⟩
  case clearInlet => exact ⟨_, rfl, k.takeRequest (fun f _ => k.clearInlet f) h⟩
  case clearSensor => exact ⟨_, rfl, k.takeRequest (fun f _ => k.clearSensor f) h⟩
  case fractionPut => exact ⟨_, rfl, k.takeRequest (fun f _ h => (k.judgements f h).2.2.2.2.2.1) h⟩
  case requestCancel => exact ⟨_, rfl, k.takeRequest (fun f _ h => (k.judgements f h).2.2.2.2.2.2.1) h⟩
  case roundOpen => exact ⟨_, rfl, k.takeRequest (fun f _ => k.roundOpen f) h⟩
  case roundClose => exact ⟨_, rfl, k.takeRequest (fun f _ => k.roundClose f) h⟩
  case lineStart => exact ⟨_, rfl, k.takeRequest (fun f _ => k.lineStart f) h⟩
  case lineStop => exact ⟨_, rfl, k.takeRequest (fun f _ h => (k.judgements f h).2.2.2.2.2.2.2.2.2.2.1) h⟩
  case lineTest => exact ⟨_, rfl, k.takeRequest (fun f _ h => (k.judgements f h).2.2.2.2.2.2.2.2.2.2.2) h⟩
  case settingsPut => exact ⟨_, rfl, k.takeRequest (fun f _ h => (k.judgements f h).2.2.2.2.2.2.2.1) h⟩
  case settingsGet => exact ⟨_, rfl, k.takeRequest (fun f _ h => (k.judgements f h).2.2.2.2.2.2.2.2.1) h⟩
  case timeSet => exact ⟨_, rfl, k.takeRequest (fun f _ => k.timeSet f) h⟩
  case statusGet => exact ⟨_, rfl, k.takeRequest (fun f _ h => (k.judgements f h).2.2.2.2.2.2.2.2.2.1) h⟩
  case restart => exact ⟨_, rfl, k.takeRequest (fun f _ => k.restart f) h⟩
  case senderFrameStart cts => exact ⟨_, rfl, Keeps.ite (k.same (arbitrate_same s) h) h⟩
  case responseFrameSent =>
    exact ⟨_, rfl, frameSent_keeps _ _ (fun u => k.same (s := u) ⟨rfl, rfl, rfl, fun _ => rfl, rfl⟩) k h⟩
  case deferredResponseSent =>
    exact ⟨_, rfl, frameSent_keeps _ _ (fun u => k.same (s := u) ⟨rfl, rfl, rfl, fun _ => rfl, rfl⟩) k h⟩
  case roundListFrameSent =>
    exact ⟨_, rfl, frameSent_keeps _ _ (fun u => k.same (s := u) ⟨rfl, rfl, rfl, fun _ => rfl, rfl⟩) k h⟩
  case depositRecordSent => exact ⟨_, rfl, frameSent_keeps _ _ (fun _ => k.depositSent) k h⟩
  case relayedReportSent => exact ⟨_, rfl, frameSent_keeps _ _ (fun _ => k.reportSent) k h⟩
  case noticeFrameSent =>
    refine ⟨_, rfl, ?_⟩
    split
    · exact k.same (s := s) ⟨rfl, rfl, rfl, fun _ => rfl, rfl⟩ h
    · exact h
  case secondsAdvance => exact ⟨_, rfl, k.same (afterTime_only _).same (k.same (withClock_same ..) h)⟩
  case requestOverdueMarking => exact ⟨_, rfl, k.same (markAllOverdue_only s).same h⟩
  case roundDeadlineExpiry => exact ⟨_, rfl, k.same (expireRounds_only s).same h⟩
  case hatchDeadlineExpiry =>
    refine ⟨_, rfl, ?_⟩
    split
    · next x hx =>
      refine k.ending _ _ ?_ h
      have h1 := List.mem_of_mem_head? hx
      exact List.mem_of_mem_filter ((sortByKey_perm ..).subset h1)
    · exact h
  case liftDeadlineExpiry =>
    refine ⟨_, rfl, ?_⟩
    split
    · exact k.liftOverdue _ h
    · exact h
  case emptyListWrapInterval => exact ⟨_, rfl, Keeps.ite (Keeps.ite (k.same (withLine_same ..) h) (k.wrap h)) h⟩
  case pollTransmission =>
    refine ⟨_, rfl, ?_⟩
    split
    · exact h
    · exact k.beginNextTurn (Keeps.ite h (k.chooseTurn none h))
  case replyWindowExpiry =>
    refine ⟨_, rfl, ?_⟩
    repeat' split
    all_goals first | exact h | exact k.failTurn _ _ h
  case replyStart address =>
    refine ⟨_, rfl, ?_⟩
    repeat' split
    all_goals first | exact h | exact k.same (withLine_same ..) h
  case replyLengthLimit =>
    refine ⟨_, rfl, ?_⟩
    repeat' split
    all_goals first | exact h | exact k.same (withLine_same ..) h
  case replyOverrunTurnEnd =>
    refine ⟨_, rfl, ?_⟩
    repeat' split
    all_goals first | exact h | exact k.failTurn _ _ h
  case replyEnd chars =>
    refine ⟨_, rfl, ?_⟩
    repeat' split
    all_goals first | exact h | exact k.replyEnd _ _ _ h
  case closingTransmissionEnd =>
    refine ⟨_, rfl, ?_⟩
    repeat' split
    all_goals first | exact h | exact k.endTurn _ h
  case testTransmission =>
    refine ⟨_, rfl, ?_⟩
    repeat' split
    all_goals first | exact h | exact k.same (withLine_same ..) h
  case testTransmissionJudged heard =>
    refine ⟨_, rfl, ?_⟩
    split
    · exact Keeps.ite (k.same (s := s) ⟨rfl, rfl, rfl, fun _ => rfl, rfl⟩ h) (k.same (withLine_same ..) h)
    · exact h
  case pollTransmissionEnd =>
    refine ⟨_, rfl, ?_⟩
    repeat' split
    all_goals first | exact h | exact k.same (withLine_same ..) h
  case syncByteReceived => exact ⟨_, rfl, k.same (withIntake_same ..) h⟩
  case lengthFieldExceeded => exact ⟨_, rfl, k.same (withIntake_same ..) h⟩

end Sys2Proof.Machine
end

