-- ==== Sys2Proof/Laws/Containers.lean ====
section
/-! SUPPORT. What each container event makes of the container bodies, said once for each, and the arithmetic of the fill
estimator: the blend, the conversion and the bound of R104. -/

namespace Sys2Proof.Machine

/-! ### Bodies after each event -/

theorem raise_container (p : NoticeFlag) (s : State) (j : ContainerIx) : (s.raise p).container j = s.container j :=
  (raise_same p s).container j

theorem eReport_container (i j : ContainerIx) (s : State) :
    (s.eReport i).container j = if i = j then (s.container i).map Container.testFull else s.container j := by
  unfold State.eReport
  rw [(raiseTest_only ..).container, State.modContainer_container]

/-- A container after a fill event: the new fill fields, with full tested when E was written. -/
def Container.afterFill (r : FillResult) (c : Container) : Container :=
  if r.wroteE then { c with fill := r.fill }.testFull else { c with fill := r.fill }

theorem fillEvent_container (i j : ContainerIx) (e : Container → FillResult) (s : State) :
    (s.fillEvent i e).container j = if i = j then (s.container i).map fun c => c.afterFill (e c) else s.container j := by
  unfold State.fillEvent
  split
  · next h => split <;> simp_all
  · next c h =>
    dsimp only
    split_ifs <;> subst_vars <;>
      simp_all [eReport_container, raise_container, State.modContainer_container, Container.afterFill]

theorem applyParams_container (i j : ContainerIx) (p : Params) (s : State) :
    (s.applyParams i p).container j =
      if i = j then (s.container i).map fun c => { { c with params := p }.testFull with staged := none }
      else s.container j := by
  unfold State.applyParams
  rw [State.modContainer_container, (raiseTest_only ..).container, (raiseTest_only ..).container,
    State.modContainer_container, State.modContainer_container]
  split <;> simp_all [Function.comp_def]

/-- A container whose staged part, if there is one, has been applied (R90). -/
def Container.applied (c : Container) : Container :=
  match c.staged with
  | some p => { { c with params := p }.testFull with staged := none }
  | none => c

theorem applyStaged_container (i j : ContainerIx) (s : State) :
    (s.applyStaged i).container j = if i = j then (s.container i).map Container.applied else s.container j := by
  unfold State.applyStaged
  cases hc : s.container i with
  | none =>
    dsimp only [Option.bind_none, Option.map_none]
    split
    · subst_vars; exact hc
    · rfl
  | some c =>
    cases hp : c.staged with
    | none =>
      simp only [Option.bind_some, hp]
      split
      · subst_vars; simp [hc, Container.applied, hp]
      · rfl
    | some p =>
      simp only [Option.bind_some, hp, applyParams_container, hc, Option.map_some, Container.applied]

theorem faultToIdle_container (i j : ContainerIx) (s : State) :
    (s.faultToIdle i).container j =
      if i = j then (s.container i).map fun c =>
        (if c.state = .fault .lift then { c with state := .idle, liftStart := none, liftDeadline := none }
          else { c with state := .idle } : Container).applied
      else s.container j := by
  unfold State.faultToIdle
  rw [applyStaged_container, raise_container, raise_container, State.modContainer_container, State.modContainer_container]
  split <;> simp_all [Function.comp_def]

theorem liftExpiry_container (i j : ContainerIx) (s : State) :
    (s.liftExpiry i).container j =
      if i = j then (s.container i).map fun c => { c with state := .fault .lift } else s.container j := by
  unfold State.liftExpiry
  rw [raise_container, State.modContainer_container]

theorem seatContainer_container (i j : ContainerIx) (was : ContainerState) (s : State) :
    (s.seatContainer i was).container j =
      if i = j then (s.container i).map (Container.seat s.clock.district) else s.container j := by
  unfold State.seatContainer
  dsimp only
  split
  · rw [raise_container, State.modContainer_container]
  · rw [State.modContainer_container]

/-- A container after the completion of its lift (R97, R120). -/
def Container.afterLift (now : Word32) (c : Container) : Container :=
  ({ c.seat now with fill := c.fill.liftReset now }.testFull).applied

theorem completeLift_container (i j : ContainerIx) (s : State) :
    (s.completeLift i).container j =
      if i = j then (s.container i).map (Container.afterLift s.clock.district) else s.container j := by
  unfold State.completeLift
  split
  · next h => split <;> simp_all
  · next c h =>
    dsimp only
    rw [applyStaged_container, raise_container, raise_container, (closeOnLift_only ..).container,
      (closeOnLift_only ..).container]
    unfold State.resetFill
    rw [fillEvent_container, fillEvent_container, seatContainer_container, seatContainer_container,
      (seatContainer_only ..).clock]
    split
    · subst_vars; simp only [h, if_true, Option.map_some]; rfl
    · rfl

theorem configure_container (i j : ContainerIx) (b : Binding) (p : Params) (s : State) :
    (s.configure i b p).container j =
      if i = j then
        some ({ binding := b, params := p, state := .idle, full := false, liftStart := none, liftDeadline := none,
                lastLift := none, staged := none, fill := .start s.clock.district } : Container).testFull
      else s.container j := by
  unfold State.configure
  rw [eReport_container, State.modRec_container, State.modRec_container]
  split <;> simp_all

theorem leaveSession_container (i j : ContainerIx) (after : AfterSession) (s : State) :
    (s.leaveSession i after).container j =
      if i = j then (s.container i).map fun c =>
        match after with
        | .idle => { c with state := .idle }.applied
        | .faultHatch => { c with state := .fault .hatch }
        | .lifting => c.startLift s.clock.elapsed s.settings.liftTimeout
      else s.container j := by
  unfold State.leaveSession
  split
  · rw [applyStaged_container, State.modContainer_container, State.modContainer_container]
    split <;> simp_all [Function.comp_def]
  · rw [raise_container, State.modContainer_container]
  · rw [State.modContainer_container]

theorem ringLeave_container (a : StationIx) (s : State) (j : ContainerIx) : (s.ringLeave a).container j = s.container j := by
  unfold State.ringLeave
  split <;> rfl

theorem drainCheck_container (s : State) (j : ContainerIx) : s.drainCheck.container j = s.container j := by
  unfold State.drainCheck
  split
  · dsimp only; split <;> rfl
  · rfl

/-- A container after the ending of its session: the charged deposit (R115), then its new state (R73 steps 6 and 7). -/
def Container.sessionEnded (o : DepositOutcome) (after : AfterSession) (elapsed timeout : Nat) (c : Container) : Container :=
  let d := if o.charged then c.afterFill (c.fill.deposit c.params) else c
  match after with
  | .idle => { d with state := .idle }.applied
  | .faultHatch => { d with state := .fault .hatch }
  | .lifting => d.startLift elapsed timeout

theorem endSession_container (o : DepositOutcome) (after : AfterSession) (x : Session) (s : State) (j : ContainerIx) :
    (s.endSession o after x).container j =
      if x.container = j then
        (s.container x.container).map (Container.sessionEnded o after s.clock.elapsed s.settings.liftTimeout)
      else s.container j := by
  unfold State.endSession
  dsimp only
  rw [drainCheck_container, ringLeave_container, leaveSession_container]
  have base : ∀ k, State.container { (s.settleCard x o).writeDeposit (s.depositRecord x o) with
      sessions := ((s.settleCard x o).writeDeposit (s.depositRecord x o)).sessions.erase x } k = s.container k :=
    fun _ => rfl
  cases ho : o.charged with
  | true =>
    simp only [if_true, State.chargedDeposit, fillEvent_container, base]
    split
    · subst_vars
      cases s.container x.container with
      | none => rfl
      | some c =>
        simp only [Option.map_some, if_true, Container.sessionEnded, ho, (fillEvent_only ..).clock,
          (fillEvent_only ..).settings]
        rfl
    · rfl
  | false =>
    simp only [Bool.false_eq_true, if_false, base]
    split
    · subst_vars
      cases s.container x.container with
      | none => rfl
      | some c => simp only [Option.map_some, Container.sessionEnded, ho, Bool.false_eq_true, if_false]; rfl
    · rfl

theorem openSession_container (x : Session) (s : State) (j : ContainerIx) :
    (s.openSession x).container j =
      if x.container = j then (s.container x.container).map fun c => { c with state := .session } else s.container j := by
  have h : ∀ (a : StationIx) (u : State) (k : ContainerIx), (u.ringJoin a).container k = u.container k := by
    intro a u k; unfold State.ringJoin; split <;> rfl
  unfold State.openSession
  dsimp only
  rw [h]
  exact State.modContainer_container { s with
    sessions := s.sessions ++ [x]
    nextSession := freeNumber (s.sessions ++ [x]) (s.sessions.length + 1) (s.nextSession + 1) } x.container j _

/-! ### The blend and the conversion (R106, R109) -/

/-- The blend lies between E and M, both included (R109). -/
theorem blend_between {k e m : Nat} (hk : k ≤ 16) : min e m ≤ blend k e m ∧ blend k e m ≤ max e m := by
  unfold blend roundSixteenth
  have bound : ∀ d : Int, 0 ≤ d → (k : Int) * d ≤ 16 * d := fun d hd => by
    have : (k : Int) ≤ 16 := by exact_mod_cast hk
    exact mul_le_mul_of_nonneg_right this hd
  have pos : ∀ d : Int, 0 ≤ d → 0 ≤ (k : Int) * d := fun d hd => by positivity
  by_cases h : e ≤ m
  · have h1 := bound ((m : Int) - e) (by omega)
    have h2 := pos ((m : Int) - e) (by omega)
    rw [if_pos h2]
    generalize (k : Int) * ((m : Int) - e) = q at *
    omega
  · have h1 := bound ((e : Int) - m) (by omega)
    have h2 := pos ((e : Int) - m) (by omega)
    have h3 : (k : Int) * ((m : Int) - e) = -((k : Int) * ((e : Int) - m)) := by ring
    rw [h3]
    generalize (k : Int) * ((e : Int) - m) = q at *
    split <;> omega

/-- The measured fill never exceeds 1,000 (R106). -/
theorem measure_le (p : Params) (d : Nat) : (measure p d).1 ≤ 1000 := by
  unfold measure
  split
  · simp
  · dsimp only
    split
    · assumption
    · simp

/-- The bound of R104 on fill fields. -/
def Fill.Bounded (f : Fill) : Prop := 100 * f.cb ≤ f.e ∧ f.e ≤ 1000

theorem Params.inRange_gain {p : Params} (h : p.inRange = true) : p.k ≤ 16 := by
  simp only [Params.inRange, Bool.and_eq_true, decide_eq_true_eq] at h
  omega

/-- A level reading keeps the bound of R104, and leaves E when it does not write it. -/
theorem Fill.level_bounded {p : Params} {f : Fill} (now : Word32) (d : Nat) (hk : p.k ≤ 16) (h : f.Bounded) :
    (f.level p now d).fill.Bounded ∧ ((f.level p now d).wroteE = false → (f.level p now d).fill.e = f.e) := by
  obtain ⟨hb, he⟩ := h
  unfold Fill.level
  split
  · dsimp only
    split <;> exact ⟨⟨hb, he⟩, fun _ => rfl⟩
  · dsimp only
    split
    · have hm := measure_le p d
      unfold Fill.validReading
      dsimp only
      have hbl := blend_between (e := f.e) (m := (measure p d).1) hk
      generalize (measure p d).1 = m at hm hbl ⊢
      split
      · next hc =>
        refine ⟨⟨?_, ?_⟩, fun hw => by cases hw⟩
        · show 100 * f.cb ≤ blend p.k f.e m
          omega
        · show blend p.k f.e m ≤ 1000
          omega
      · split
        · refine ⟨⟨?_, ?_⟩, fun hw => by cases hw⟩
          · show 100 * (m / 100) ≤ max (blend p.k f.e m) (100 * (m / 100))
            omega
          · show max (blend p.k f.e m) (100 * (m / 100)) ≤ 1000
            omega
        · unfold Fill.suspect
          split
          · refine ⟨⟨?_, ?_⟩, fun hw => by cases hw⟩
            · show 100 * (m / 100) ≤ m
              omega
            · exact hm
          · exact ⟨⟨hb, he⟩, fun _ => rfl⟩
    · exact ⟨⟨hb, he⟩, fun _ => rfl⟩

/-- A charged deposit keeps the bound of R104. -/
theorem Fill.deposit_bounded {p : Params} {f : Fill} (h : f.Bounded) :
    (f.deposit p).fill.Bounded ∧ (f.deposit p).wroteE = true := by
  obtain ⟨hb, he⟩ := h
  unfold Fill.deposit
  dsimp only
  split <;> refine ⟨⟨?_, ?_⟩, rfl⟩ <;> dsimp only <;> omega

theorem Fill.clearSensor_bounded {f : Fill} (now : Word32) (h : f.Bounded) : (f.clearSensor now).Bounded := by
  obtain ⟨hb, he⟩ := h
  refine ⟨?_, he⟩
  show 100 * (f.e / 100) ≤ f.e
  omega

theorem Fill.liftReset_bounded (now : Word32) (f : Fill) : (f.liftReset now).Bounded :=
  ⟨Nat.le_refl 0, Nat.zero_le _⟩

theorem Fill.start_bounded (now : Word32) : (Fill.start now).Bounded := ⟨Nat.le_refl 0, Nat.zero_le _⟩

end Sys2Proof.Machine
end

