-- ==== Sys2Proof/Laws/Invariants.lean ====
section
/-! SUPPORT. What each event does to the invariants of Safety.lean: soundness of a container under each change of its body,
one lemma per property for an event that maps one body, and the card list under the card requests. -/

namespace Sys2Proof.Machine

/-! ### A sound container under each change -/

theorem Container.Sound.bounded {c : Container} (h : c.Sound) : c.fill.Bounded := ⟨h.bandBelow, h.fillBound⟩

/-- Testing full makes a container sound whose other parts are. -/
theorem Container.sound_testFull {c : Container} (ha : c.params.inRange = true)
    (hs : ∀ p, c.staged = some p → p.inRange = true) (hb : c.fill.Bounded) : c.testFull.Sound :=
  ⟨ha, hs, hb.1, hb.2, rfl⟩

/-- A sound container after a fill event that keeps the bound of R104 and leaves E unless it writes it. -/
theorem Container.Sound.afterFill {c : Container} (h : c.Sound) {r : FillResult} (hb : r.fill.Bounded)
    (he : r.wroteE = false → r.fill.e = c.fill.e) : (c.afterFill r).Sound := by
  unfold Container.afterFill
  cases hw : r.wroteE
  · refine ⟨h.applied, h.staged, hb.1, hb.2, ?_⟩
    show c.full = decide (c.params.tStop ≤ r.fill.e)
    rw [he hw]
    exact h.full
  · exact Container.sound_testFull h.applied h.staged hb

theorem Container.Sound.level {c : Container} (h : c.Sound) (now : Word32) (d : Nat) :
    (c.afterFill (c.fill.level c.params now d)).Sound :=
  have hl := Fill.level_bounded now d (Params.inRange_gain h.applied) h.bounded
  h.afterFill hl.1 hl.2

theorem Container.Sound.deposit {c : Container} (h : c.Sound) : (c.afterFill (c.fill.deposit c.params)).Sound :=
  have hd := Fill.deposit_bounded (p := c.params) h.bounded
  h.afterFill hd.1 fun hw => absurd hd.2 (by simp [hw])

/-- Applying the staged part keeps a container sound. -/
theorem Container.Sound.settled {c : Container} (h : c.Sound) : c.applied.Sound := by
  unfold Container.applied
  split
  · next p hp => exact ⟨h.staged p hp, fun _ hq => (by cases hq), h.bandBelow, h.fillBound, rfl⟩
  · exact h

/-- A change of the state, the lift times and the last lift end keeps a container sound. -/
theorem Container.Sound.moved {c : Container} (h : c.Sound) (x : ContainerState) (a b : Option Nat) (l : Option Word32) :
    ({ c with state := x, liftStart := a, liftDeadline := b, lastLift := l } : Container).Sound :=
  ⟨h.applied, h.staged, h.bandBelow, h.fillBound, h.full⟩

theorem Container.Sound.startLift {c : Container} (h : c.Sound) (e t : Nat) : (c.startLift e t).Sound :=
  h.moved .lifting (some e) (some (e + t)) c.lastLift

theorem Container.Sound.afterLift {c : Container} (h : c.Sound) (now : Word32) : (c.afterLift now).Sound :=
  Container.Sound.settled (c := ({ c.seat now with fill := c.fill.liftReset now } : Container).testFull)
    (Container.sound_testFull h.applied h.staged (Fill.liftReset_bounded now c.fill))

theorem Container.Sound.sessionEnded {c : Container} (h : c.Sound) (o : DepositOutcome) (after : AfterSession) (e t : Nat) :
    (Container.sessionEnded o after e t c).Sound := by
  unfold Container.sessionEnded
  have hd : (if o.charged then c.afterFill (c.fill.deposit c.params) else c).Sound := by
    split
    · exact h.deposit
    · exact h
  revert hd
  generalize (if o.charged then c.afterFill (c.fill.deposit c.params) else c : Container) = d
  intro hd
  cases after
  · exact (hd.moved .idle d.liftStart d.liftDeadline d.lastLift).settled
  · exact hd.moved (.fault .hatch) d.liftStart d.liftDeadline d.lastLift
  · exact hd.startLift e t

/-! ### Bindings under each change -/

theorem Container.applied_binding (c : Container) : c.applied.binding = c.binding := by
  unfold Container.applied
  split <;> rfl

theorem Container.afterFill_binding (r : FillResult) (c : Container) : (c.afterFill r).binding = c.binding := by
  unfold Container.afterFill
  split <;> rfl

theorem Container.afterLift_binding (now : Word32) (c : Container) : (c.afterLift now).binding = c.binding :=
  Container.applied_binding _

theorem Container.sessionEnded_binding (o : DepositOutcome) (after : AfterSession) (e t : Nat) (c : Container) :
    (Container.sessionEnded o after e t c).binding = c.binding := by
  unfold Container.sessionEnded
  have hd : (if o.charged then c.afterFill (c.fill.deposit c.params) else c).binding = c.binding := by
    split
    · exact Container.afterFill_binding ..
    · rfl
  cases after
  · exact (Container.applied_binding _).trans hd
  · exact hd
  · exact hd

/-! ### Events that map one body -/

/-- Container i's body is mapped by g, every other body stays. -/
structure MapsBody (i : ContainerIx) (g : Container → Container) (s t : State) : Prop where
  body : ∀ j, t.container j = if i = j then (s.container i).map g else s.container j

theorem MapsBody.sound {i : ContainerIx} {g : Container → Container} {s t : State} (m : MapsBody i g s t)
    (hg : ∀ c, c.Sound → (g c).Sound) (h : s.ContainersSound) : t.ContainersSound := by
  intro j c hc
  rw [m.body j] at hc
  split at hc
  · obtain ⟨d, hd, rfl⟩ := Option.map_eq_some_iff.mp hc
    exact hg d (h i d hd)
  · exact h j c hc

theorem MapsBody.distinct {i : ContainerIx} {g : Container → Container} {s t : State} (m : MapsBody i g s t)
    (hg : ∀ c, (g c).binding = c.binding) (h : s.BindingsDistinct) : t.BindingsDistinct := by
  have back : ∀ j c, t.container j = some c → ∃ d, s.container j = some d ∧ d.binding = c.binding := by
    intro j c hc
    rw [m.body j] at hc
    split at hc
    · subst_vars
      obtain ⟨d, hd, rfl⟩ := Option.map_eq_some_iff.mp hc
      exact ⟨d, hd, (hg d).symm⟩
    · exact ⟨c, hc, rfl⟩
  intro j k c d hc hd h1 h2
  obtain ⟨c', hc', e1⟩ := back j c hc
  obtain ⟨d', hd', e2⟩ := back k d hd
  exact h j k c' d' hc' hd' (by rw [e1, e2, h1]) (by rw [e1, e2, h2])

theorem endSession_maps (o : DepositOutcome) (after : AfterSession) (x : Session) (s : State) :
    MapsBody x.container (Container.sessionEnded o after s.clock.elapsed s.settings.liftTimeout) s (s.endSession o after x) :=
  ⟨endSession_container o after x s⟩

theorem openSession_maps (x : Session) (s : State) :
    MapsBody x.container (fun c => { c with state := .session }) s (s.openSession x) := ⟨openSession_container x s⟩

/-- What a level reading makes of a body (R93, R105). -/
def Container.afterReading (now : Word32) (d : Nat) (c : Container) : Container :=
  if c.state.takesReadings then c.afterFill (c.fill.level c.params now d) else c

theorem levelReading_maps (i : ContainerIx) (d : Nat) (s : State) :
    MapsBody i (Container.afterReading s.clock.district d) s (s.levelReading i d) := by
  constructor
  intro j
  unfold State.levelReading
  split
  · next h => split <;> simp_all
  · next c h =>
    split
    · next ht =>
      rw [fillEvent_container, h]
      split
      · simp [Container.afterReading, ht]
      · rfl
    · next ht =>
      split
      · next hij =>
        rw [← hij, h, Option.map_some]
        unfold Container.afterReading
        rw [if_neg ht]
      · rfl

theorem completeLift_maps (i : ContainerIx) (s : State) :
    MapsBody i (Container.afterLift s.clock.district) s (s.completeLift i) := ⟨fun j => completeLift_container i j s⟩

theorem liftExpiry_maps (i : ContainerIx) (s : State) :
    MapsBody i (fun c => { c with state := .fault .lift }) s (s.liftExpiry i) := ⟨fun j => liftExpiry_container i j s⟩

theorem modContainer_maps (i : ContainerIx) (f : Container → Container) (s : State) : MapsBody i f s (s.modContainer i f) :=
  ⟨fun j => State.modContainer_container s i j f⟩

theorem faultToIdle_maps (i : ContainerIx) (s : State) :
    MapsBody i (fun c =>
      (if c.state = .fault .lift then { c with state := .idle, liftStart := none, liftDeadline := none }
        else { c with state := .idle } : Container).applied) s (s.faultToIdle i) := ⟨fun j => faultToIdle_container i j s⟩

/-- A body that has left FAULT is sound and keeps its binding. -/
theorem Container.leftFault (c : Container) :
    let g := (if c.state = .fault .lift then { c with state := .idle, liftStart := none, liftDeadline := none }
        else { c with state := .idle } : Container).applied
    (c.Sound → g.Sound) ∧ g.binding = c.binding := by
  dsimp only
  refine ⟨fun h => ?_, ?_⟩
  · split
    · exact (h.moved .idle none none c.lastLift).settled
    · exact (h.moved .idle c.liftStart c.liftDeadline c.lastLift).settled
  · rw [Container.applied_binding]
    split <;> rfl

/-- CLEAR SENSOR, taken, maps one body (R118). -/
theorem Container.Sound.clearSensor {c : Container} (h : c.Sound) (now : Word32) :
    ({ c with fill := c.fill.clearSensor now } : Container).Sound :=
  have hb := Fill.clearSensor_bounded now h.bounded
  ⟨h.applied, h.staged, hb.1, hb.2, h.full⟩

/-! ### Configuring a container -/

theorem containerFields_inRange {f : RequestFrame} {i : ContainerIx} {b : Binding} {p : Params}
    (h : containerFields? f = some (i, b, p)) : p.inRange = true := by
  unfold containerFields? at h
  split at h
  · split at h
    · next hr =>
      simp only [Option.some.injEq, Prod.mk.injEq] at h
      obtain ⟨_, _, rfl⟩ := h
      exact hr
    · cases h
  · cases h

/-- Bodies after a write to a configured record (R89). -/
theorem writeContainer_maps (f : RequestFrame) (i : ContainerIx) (c : Container) (b : Binding) (p : Params) (s : State) :
    MapsBody i (fun x =>
      if c.state = .idle then { { x with binding := b, params := p }.testFull with staged := none }
      else { x with staged := some p }) s (s.writeContainer f i c b p) := by
  constructor
  intro j
  unfold State.writeContainer
  split
  · rw [(respond_same ..).container, applyParams_container, State.modContainer_container, State.modContainer_container]
    split
    · subst_vars; simp only [if_true, Option.map_map]; rfl
    · rfl
  · rw [(respond_same ..).container, State.modContainer_container]

/-- A write to a configured record changes container matters alone, and is answered (R89). -/
theorem writeContainer_answers (f : RequestFrame) (i : ContainerIx) (c : Container) (b : Binding) (p : Params) (s : State) :
    ∃ u code, OnlyContainers s u ∧ s.writeContainer f i c b p = u.respond f code [] := by
  unfold State.writeContainer
  split
  · exact ⟨_, .done, (modContainer_only ..).trans (applyParams_only ..), rfl⟩
  · exact ⟨_, .staged, modContainer_only .., rfl⟩

/-- CONTAINER PUT changes container matters alone, and is answered (R88, R89). -/
theorem containerPut_answers (f : RequestFrame) (s : State) :
    ∃ u code, OnlyContainers s u ∧ s.containerPut f = u.respond f code [] := by
  unfold State.containerPut
  split
  · exact ⟨s, .range, .refl s, rfl⟩
  · next i b p _ =>
    split
    · split
      · next code _ => exact ⟨s, code, .refl s, rfl⟩
      · exact ⟨_, .done, configure_only i b p s, rfl⟩
    · split
      · exact writeContainer_answers ..
      · split
        · exact ⟨s, .state, .refl s, rfl⟩
        · split
          · next code _ => exact ⟨s, code, .refl s, rfl⟩
          · exact writeContainer_answers ..

/-- The COLLIDE check finds no other record at the binding (R88). -/
theorem boundElsewhere_false {i : ContainerIx} {b : Binding} {s : State} (h : s.boundElsewhere i b = false)
    {j : ContainerIx} {c : Container} (hj : j ≠ i) (hc : s.container j = some c) :
    ¬(c.binding.station = b.station ∧ c.binding.inlet = b.inlet) := by
  unfold State.boundElsewhere at h
  rw [List.any_eq_false] at h
  have := h j (List.mem_finRange j)
  simp [hj, hc] at this
  intro ⟨h1, h2⟩
  exact this h1 h2

theorem bindingRefusal_none {i : ContainerIx} {b : Binding} {s : State} (h : s.bindingRefusal i b = none) :
    s.boundElsewhere i b = false := by
  unfold State.bindingRefusal at h
  split at h
  · cases h
  · split at h
    · cases h
    · split at h
      · cases h
      · next hb => simpa using hb

/-- A change that puts container i at a binding no other record holds keeps the bindings distinct. -/
theorem distinct_of_placed {i : ContainerIx} {b : Binding} {s t : State} (h : s.BindingsDistinct)
    (free : ∀ j c, j ≠ i → s.container j = some c → ¬(c.binding.station = b.station ∧ c.binding.inlet = b.inlet))
    (others : ∀ j, j ≠ i → t.container j = s.container j) (placed : ∀ c, t.container i = some c → c.binding = b) :
    t.BindingsDistinct := by
  intro j k c d hc hd h1 h2
  by_cases hj : j = i
  · by_cases hk : k = i
    · rw [hj, hk]
    · subst hj
      rw [placed c hc] at h1 h2
      rw [others k hk] at hd
      exact absurd ⟨h1.symm, h2.symm⟩ (free k d hk hd)
  · by_cases hk : k = i
    · subst hk
      rw [placed d hd] at h1 h2
      rw [others j hj] at hc
      exact absurd ⟨h1, h2⟩ (free j c hj hc)
    · rw [others j hj] at hc
      rw [others k hk] at hd
      exact h j k c d hc hd h1 h2

/-! ### The card list (R46) -/

theorem modCard_numbers (number : Word32) (f : Card → Card) (hf : ∀ c, (f c).number = c.number) (s : State) :
    (s.modCard number f).cards.map Card.number = s.cards.map Card.number := by
  simp only [State.modCard, List.map_map]
  refine List.map_congr_left fun c _ => ?_
  simp only [Function.comp]
  split
  · exact hf c
  · rfl

/-- Ascending order and count depend on the card numbers alone. -/
theorem cardsOrdered_iff (s : State) :
    s.CardsOrdered ↔ (s.cards.map Card.number).Pairwise (fun x y => x.toNat < y.toNat) ∧ (s.cards.map Card.number).length ≤ 4096 := by
  unfold State.CardsOrdered
  rw [List.pairwise_map, List.length_map]

theorem cardsOrdered_congr {s t : State} (h : t.cards.map Card.number = s.cards.map Card.number) (hs : s.CardsOrdered) :
    t.CardsOrdered := by
  rw [cardsOrdered_iff] at hs ⊢
  rwa [h]

theorem insertCard_perm (c : Card) (ds : List Card) : (insertCard c ds).Perm (c :: ds) := by
  induction ds with
  | nil => exact .refl _
  | cons d ds ih =>
    unfold insertCard
    split
    · exact .refl _
    · exact (ih.cons d).trans (.swap c d ds)

/-- A new record keeps the card numbers ascending when its number is not among them (R46). -/
theorem insertCard_sorted (c : Card) (ds : List Card) (hd : ds.Pairwise fun x y => x.number.toNat < y.number.toNat)
    (hc : ∀ d ∈ ds, d.number ≠ c.number) :
    (insertCard c ds).Pairwise fun x y => x.number.toNat < y.number.toNat := by
  induction ds with
  | nil => exact List.pairwise_singleton ..
  | cons d ds ih =>
    obtain ⟨h1, h2⟩ := List.pairwise_cons.mp hd
    unfold insertCard
    split
    · next hlt =>
      refine List.pairwise_cons.mpr ⟨fun e he => ?_, hd⟩
      rcases List.mem_cons.mp he with rfl | he
      · exact hlt
      · exact lt_trans hlt (h1 e he)
    · next hge =>
      refine List.pairwise_cons.mpr ⟨fun e he => ?_, ih h2 fun e he => hc e (List.mem_cons_of_mem _ he)⟩
      rcases List.mem_cons.mp ((insertCard_perm c ds).subset he) with rfl | he
      · have hne : d.number.toNat ≠ e.number.toNat := fun h => hc d List.mem_cons_self (BitVec.eq_of_toNat_eq h)
        omega
      · exact h1 e he

theorem card_none {number : Word32} {s : State} (h : s.card number = none) : ∀ c ∈ s.cards, c.number ≠ number := by
  intro c hc
  have := (List.find?_eq_none.mp h) c hc
  simpa using this

end Sys2Proof.Machine
end

