-- ==== Sys2Proof/Laws/Records.lean ====
section
/-! SUPPORT. The operations on one container record as one update of the state: the raise test, the E report, applying
configuration, becoming IDLE, a fill event. A later proof cites these and unfolds none of them. -/

namespace Sys2Proof.Machine

/-- Setting a table's entry to what it is changes nothing. -/
theorem Vector.set_own {α : Type} {n : Nat} (v : Vector α n) (i : Fin n) : v.set i v[i] = v := by
  ext j hj
  simp

/-- A record of the container table is its flags and its body. -/
theorem State.record_eta (s : State) (i : ContainerIx) :
    s.containers[i] = { flags := s.containers[i].flags, body := s.container i } := rfl

theorem markOverdue_eq (i : ContainerIx) (r : Request) (s : State) (h : s.requests[i] = some r)
    (ho : r.overdue = false) :
    s.markOverdue i =
      { s with
        containers := s.containers.set i { s.containers[i] with
          flags := { s.containers[i].flags with
            overdue := s.containers[i].flags.overdue || reached s.clock.district r.deadline } }
        requests := s.requests.set i (some { r with overdue := reached s.clock.district r.deadline }) } := by
  unfold State.markOverdue
  rw [h]
  dsimp only
  cases hr : reached s.clock.district r.deadline with
  | true =>
    rw [if_pos ⟨ho, rfl⟩, Bool.or_true]
    rfl
  | false =>
    rw [if_neg (by simp), Bool.or_false, Vector.set_own, ← ho]
    have : s.requests.set i (some r) = s.requests := by rw [← h, Vector.set_own]
    exact congrArg (fun q => { s with requests := q }) this.symm

/-- A held sum fits its 32 bits. -/
theorem held_toNat (n : Nat) : (BitVec.ofNat 32 (min n 4294967295)).toNat = min n 4294967295 :=
  Nat.mod_eq_of_lt (by omega)

theorem newRequest_eq (c : Container) (s : State) :
    { s.newRequest c .raised .waiting with
      overdue := reached s.clock.district (s.newRequest c .raised .waiting).deadline } = c.raisedRequest s := by
  simp only [State.newRequest, Container.raisedRequest, satAdd, reached, held_toNat]

/-- The raise test of a configured container (R126, R127). -/
theorem raiseTest_eq (i : ContainerIx) (c : Container) (s : State) (h : s.container i = some c) :
    s.raiseTest i = s.tested i s.containers[i].flags c := by
  have hb : { flags := s.containers[i].flags, body := some c } = s.containers[i] := by rw [s.record_eta, h]
  unfold State.raiseTest State.tested
  rw [h]
  cases hc : c.raises s i with
  | false =>
    simp only [Bool.or_false, Bool.false_and, Bool.false_eq_true, if_false]
    rw [hb, Vector.set_own]
    split
    · next c' hc' hr =>
      injection hc' with hc'
      subst hc'
      rw [if_neg]
      rintro ⟨h1, h2⟩
      unfold Container.raises at hc
      simp_all
    · rfl
  | true =>
    have hr : c.state ≠ .lifting ∧ s.requests[i] = none ∧ c.params.tCall ≤ c.fill.e := by
      unfold Container.raises at hc
      exact of_decide_eq_true hc
    rw [hr.2.1]
    dsimp only
    rw [if_pos ⟨hr.1, hr.2.2⟩, markOverdue_eq _ (s.newRequest c .raised .waiting), ← newRequest_eq]
    · simp only [State.setRequest, State.raise, State.setFlag, State.modRec, Fin.getElem_fin, Vector.getElem_set_self,
        Vector.set_set, Bool.or_true, Bool.true_and, if_true]
      rw [← Fin.getElem_fin, State.record_eta, h]
    · simp [State.setRequest, State.raise, State.setFlag, State.modRec]
    · rfl

/-- An update of a configured container's body. -/
theorem modContainer_eq (i : ContainerIx) (c : Container) (g : Container → Container) (s : State)
    (h : s.container i = some c) :
    s.modContainer i g = { s with containers := s.containers.set i { s.containers[i] with body := some (g c) } } := by
  have h' : s.containers[i].body = some c := h
  unfold State.modContainer State.modRec
  dsimp only
  rw [h', Option.map_some]

/-- A raise test follows an update of the body that leaves the flags. -/
theorem tested_set (i : ContainerIx) (r : ContainerRec) (flags : ContainerFlags) (c : Container) (s : State) :
    State.tested i flags c { s with containers := s.containers.set i r } = s.tested i flags c :=
  congrArg (fun v => { s.tested i flags c with containers := v }) (Vector.set_set ..)

/-- The record after a raise test. -/
theorem tested_record (i : ContainerIx) (flags : ContainerFlags) (c : Container) (s : State) :
    (s.tested i flags c).containers[i] =
      { flags := { flags with
          raised := flags.raised || c.raises s i
          overdue := flags.overdue || (c.raises s i && (c.raisedRequest s).overdue) }
        body := some c } := by
  simp [State.tested]

/-- A raise test that raises nothing. -/
theorem tested_quiet (i : ContainerIx) (flags : ContainerFlags) (c : Container) (s : State) (h : c.raises s i = false) :
    s.tested i flags c = { s with containers := s.containers.set i { flags, body := some c } } := by
  unfold State.tested
  simp only [h, Bool.or_false, Bool.false_and, Bool.false_eq_true, if_false]

theorem tested_container (i : ContainerIx) (flags : ContainerFlags) (c : Container) (s : State) :
    (s.tested i flags c).container i = some c := by
  unfold State.container
  rw [tested_record]

/-- The record after an update of it. -/
theorem set_record (i : ContainerIx) (r : ContainerRec) (s : State) :
    ({ s with containers := s.containers.set i r } : State).containers[i] = r := by
  simp

theorem set_container (i : ContainerIx) (r : ContainerRec) (s : State) :
    ({ s with containers := s.containers.set i r } : State).container i = r.body := by
  simp [State.container]

theorem raise_sensor_set (i : ContainerIx) (r : ContainerRec) (s : State) :
    ({ s with containers := s.containers.set i r } : State).raise (.sensor i) =
      { s with containers := s.containers.set i { r with flags := { r.flags with sensor := true } } } := by
  simp [State.raise, State.setFlag, State.modRec]

theorem raise_inletFault_set (i : ContainerIx) (r : ContainerRec) (s : State) :
    ({ s with containers := s.containers.set i r } : State).raise (.inletFault i) =
      { s with containers := s.containers.set i { r with flags := { r.flags with inletFault := true } } } := by
  simp [State.raise, State.setFlag, State.modRec]

theorem raise_lifted_set (i : ContainerIx) (r : ContainerRec) (s : State) :
    ({ s with containers := s.containers.set i r } : State).raise (.lifted i) =
      { s with containers := s.containers.set i { r with flags := { r.flags with lifted := true } } } := by
  simp [State.raise, State.setFlag, State.modRec]

theorem modContainer_raiseTest (i : ContainerIx) (c : Container) (g : Container → Container) (s : State)
    (h : s.container i = some c) :
    (s.modContainer i g).raiseTest i = s.tested i s.containers[i].flags (g c) := by
  rw [modContainer_eq i c g s h, raiseTest_eq i (g c) _ (set_container ..), tested_set, set_record]

/-- The E report of a configured container (R103). -/
theorem eReport_eq (i : ContainerIx) (c : Container) (s : State) (h : s.container i = some c) :
    s.eReport i = s.tested i s.containers[i].flags c.fullTested := modContainer_raiseTest i c Container.testFull s h

/-- Applying configuration fields to a configured container (R90). -/
theorem applyParams_eq (i : ContainerIx) (p : Params) (c : Container) (s : State) (h : s.container i = some c) :
    s.applyParams i p = s.tested i s.containers[i].flags (c.withParams p) := by
  unfold State.applyParams
  rw [modContainer_raiseTest i c _ s h, modContainer_eq i _ _ _ (tested_container ..), tested_record]
  exact congrArg (fun v => { s.tested i s.containers[i].flags (c.withParams p) with containers := v }) (Vector.set_set ..)

/-- A record that has become IDLE has its staged part applied (R89, R90). -/
theorem applyStaged_set (i : ContainerIx) (flags : ContainerFlags) (c : Container) (s : State) (hi : c.state = .idle) :
    State.applyStaged i { s with containers := s.containers.set i { flags, body := some c } } = s.becomesIdle i flags c := by
  have he : { c with state := .idle } = c := by rw [← hi]
  unfold State.applyStaged State.becomesIdle
  rw [set_container, Option.bind_some, he]
  cases hp : c.staged with
  | none => rfl
  | some p =>
    dsimp only
    rw [applyParams_eq i p _ _ (set_container ..), tested_set, set_record]

/-- A configured container becomes IDLE and its staged part is applied (R89, R90). -/
theorem idle_applyStaged (i : ContainerIx) (c : Container) (g : Container → Container) (s : State)
    (h : s.container i = some c) (hg : (g c).state = .idle) :
    (s.modContainer i g).applyStaged i = s.becomesIdle i s.containers[i].flags (g c) := by
  rw [modContainer_eq i c g s h]
  exact applyStaged_set i _ (g c) s hg

/-- A container leaves FAULT for IDLE (R78, R95). -/
theorem faultToIdle_eq (i : ContainerIx) (c : Container) (reason : FaultReason) (s : State) (h : s.container i = some c)
    (hr : c.state = .fault reason) :
    s.faultToIdle i = s.becomesIdle i { s.containers[i].flags with inletFault := true } { c with
      liftStart := if reason = .lift then none else c.liftStart
      liftDeadline := if reason = .lift then none else c.liftDeadline } := by
  unfold State.faultToIdle
  rw [modContainer_eq i c _ s h, raise_inletFault_set]
  cases reason with
  | hatch =>
    rw [if_neg (by rw [hr]; decide)]
    exact applyStaged_set i _ { c with state := .idle } s rfl
  | lift =>
    rw [if_pos hr]
    exact applyStaged_set i _ { c with state := .idle, liftStart := none, liftDeadline := none } s rfl

/-- What a fill event that writes E does at a configured container: the fill fields, SENSOR, the E report (R103, R119). -/
theorem fillEvent_eq (i : ContainerIx) (event : Container → FillResult) (c : Container) (s : State)
    (h : s.container i = some c) (hw : (event c).wroteE = true) :
    s.fillEvent i event =
      s.tested i { s.containers[i].flags with sensor := s.containers[i].flags.sensor || (event c).sensor }
        ({ c with fill := (event c).fill } : Container).fullTested := by
  unfold State.fillEvent
  rw [h]
  dsimp only
  rw [if_pos hw, modContainer_eq i c _ s h]
  cases hn : (event c).sensor with
  | false => rw [if_neg (by simp), eReport_eq i _ _ (set_container ..), tested_set, set_record, Bool.or_false]
  | true =>
    rw [if_pos rfl, Bool.or_true, raise_sensor_set, eReport_eq i _ _ (set_container ..), tested_set, set_record]

end Sys2Proof.Machine
end

