-- ==== Sys2Proof/Laws/Sorting.lean ====
section
/-! SUPPORT. Sorting by a key: a list sorted by sortByKey is in the order of the key (Laws/Steps.lean: it holds the same
elements). -/

namespace Sys2Proof.Machine

/-- Any two keys are comparable. -/
theorem keyLe_total : ∀ a b : List Nat, keyLe a b = true ∨ keyLe b a = true
  | [], _ => .inl (by unfold keyLe; rfl)
  | _ :: _, [] => .inr (by unfold keyLe; rfl)
  | x :: xs, y :: ys => by
    unfold keyLe
    simp only [Bool.or_eq_true, Bool.and_eq_true, decide_eq_true_eq]
    rcases Nat.lt_trichotomy x y with h | h | h
    · exact .inl (.inl h)
    · rcases keyLe_total xs ys with k | k
      · exact .inl (.inr ⟨h, k⟩)
      · exact .inr (.inr ⟨h.symm, k⟩)
    · exact .inr (.inl h)

theorem keyLe_trans : ∀ a b c : List Nat, keyLe a b = true → keyLe b c = true → keyLe a c = true
  | [], _, _, _, _ => by unfold keyLe; rfl
  | _ :: _, [], _, h, _ => by unfold keyLe at h; cases h
  | _ :: _, _ :: _, [], _, h => by unfold keyLe at h; cases h
  | x :: xs, y :: ys, z :: zs, h, k => by
    unfold keyLe at h k ⊢
    simp only [Bool.or_eq_true, Bool.and_eq_true, decide_eq_true_eq] at h k ⊢
    rcases h with h | ⟨h, h'⟩ <;> rcases k with k | ⟨k, k'⟩
    · exact .inl (h.trans k)
    · exact .inl (k ▸ h)
    · exact .inl (h ▸ k)
    · exact .inr ⟨h.trans k, keyLe_trans xs ys zs h' k'⟩

theorem insertBy_sorted {α : Type} (key : α → List Nat) (x : α) (ys : List α)
    (h : ys.Pairwise fun a b => keyLe (key a) (key b) = true) :
    (insertBy (fun a b => keyLe (key a) (key b)) x ys).Pairwise fun a b => keyLe (key a) (key b) = true := by
  induction ys with
  | nil => exact List.pairwise_singleton ..
  | cons y ys ih =>
    obtain ⟨h1, h2⟩ := List.pairwise_cons.mp h
    unfold insertBy
    split
    · next hx =>
      refine List.pairwise_cons.mpr ⟨fun z hz => ?_, h⟩
      rcases List.mem_cons.mp hz with rfl | hz
      · exact hx
      · exact keyLe_trans _ _ _ hx (h1 z hz)
    · next hx =>
      refine List.pairwise_cons.mpr ⟨fun z hz => ?_, ih h2⟩
      rcases List.mem_cons.mp ((insertBy_perm ..).subset hz) with rfl | hz
      · exact (keyLe_total _ _).resolve_left hx
      · exact h1 z hz

/-- A sorted list is in the order of its key. -/
theorem sortByKey_sorted {α : Type} (key : α → List Nat) (xs : List α) :
    (sortByKey key xs).Pairwise fun a b => keyLe (key a) (key b) = true := by
  unfold sortByKey
  induction xs with
  | nil => exact .nil
  | cons x xs ih => exact insertBy_sorted key x _ ih

/-- The head of a sorted list is the element that every other stands strictly behind. -/
theorem sortByKey_head? {α : Type} (key : α → List Nat) (l : List α) (x : α) (hx : x ∈ l)
   (h : ∀ y ∈ l, y = x ∨ keyLe (key y) (key x) = false) : (sortByKey key l).head? = some x := by
  have hp := sortByKey_perm key l
  have hs := sortByKey_sorted key l
  cases e : sortByKey key l with
  | nil => rw [e] at hp; have := hp.symm.subset hx; simp at this
  | cons y ys =>
    rw [e] at hp hs
    have hxm := hp.symm.subset hx
    rcases List.mem_cons.mp hxm with rfl | hxm
    · rfl
    · have h1 := (List.pairwise_cons.mp hs).1 x hxm
      rcases h y (hp.subset List.mem_cons_self) with rfl | h2
      · rfl
      · rw [h2] at h1; cases h1

/-- The search finds the only element that passes the test. -/
theorem find?_only {α : Type} (p : α → Bool) (l : List α) (x : α) (hx : x ∈ l) (hp : p x = true) (h : ∀ y ∈ l, p y = true → y = x) :
   l.find? p = some x := by
  cases e : l.find? p with
  | none => have := List.find?_eq_none.mp e x hx; simp [hp] at this
  | some y => rw [h y (List.mem_of_find?_eq_some e) (List.find?_some e)]

end Sys2Proof.Machine
end

