-- ==== Sys2Proof/Laws/Endings.lean ====
section
/-! SUPPORT. What a run of aborted endings does to the sessions, the deposit records, the cards and the CLOSE-NOW sets
(R76, R80), said once for a lockout entry, a disabling write and RESTART. -/

namespace Sys2Proof.Machine

/-- The cards with every session link removed. -/
def unlinked (cs : List Card) : List Card := cs.map fun c => { c with link := none }

theorem endSession_cards (o : DepositOutcome) (after : AfterSession) (x : Session) (s : State) :
    (s.endSession o after x).cards = (s.settleCard x o).cards := by
  unfold State.endSession
  dsimp only
  have drain : ∀ u : State, u.drainCheck.cards = u.cards := by
    intro u; unfold State.drainCheck; split
    · dsimp only; split <;> rfl
    · rfl
  have ring : ∀ u : State, (u.ringLeave x.station).cards = u.cards := by
    intro u; unfold State.ringLeave; split <;> rfl
  rw [drain, ring, (leaveSession_only ..).cards]
  split
  · exact (chargedDeposit_only ..).cards
  · rfl

theorem endSession_unlinked (after : AfterSession) (x : Session) (s : State) :
    unlinked (s.endSession .aborted after x).cards = unlinked s.cards := by
  rw [endSession_cards]
  unfold State.settleCard State.modCard unlinked
  rw [List.map_map]
  refine List.map_congr_left fun c _ => ?_
  simp only [Function.comp]
  split <;> rfl

theorem depositRecord_eq (x : Session) (o : DepositOutcome) (s : State) : s.depositRecord x o = x.record s o := by
  unfold State.depositRecord Session.record
  cases o <;> rfl

/-- What a run of aborted endings does, each with or without its CLOSE-NOW inlet. -/
structure Aborted (xs : List Session) (s t : State) : Prop where
  sessions : t.sessions = xs.foldl List.erase s.sessions
  deposits : t.deposits.map QueuedDeposit.record =
    s.deposits.map QueuedDeposit.record ++ xs.map (Session.record s .aborted)
  cards : unlinked t.cards = unlinked s.cards
  turn : OnlyTurn s t
  links : t.links = s.links
  relay : t.relay = s.relay

theorem aborted_foldl {f : State → Session → State}
    (step : ∀ s x, SameRecords (s.endSession .aborted .idle x) (f s x) ∧ OnlyTurn s (f s x) ∧ (f s x).links = s.links ∧
      (f s x).relay = s.relay ∧ (f s x).cards = (s.endSession .aborted .idle x).cards) :
    ∀ (xs : List Session) (s : State), Aborted xs s (xs.foldl f s)
  | [], s => ⟨rfl, by simp, rfl, .refl s, rfl, rfl⟩
  | x :: xs, s => by
    obtain ⟨h1, h2, h3, h4, h5⟩ := step s x
    have ih := aborted_foldl step xs (f s x)
    rw [List.foldl_cons]
    refine ⟨?_, ?_, ?_, h2.trans ih.turn, ih.links.trans h3, ih.relay.trans h4⟩
    · rw [ih.sessions, h1.sessions, endSession_sessions, List.foldl_cons]
    · rw [ih.deposits, h1.deposits, endSession_deposits]
      simp only [List.map_append, List.map_cons, List.map_nil, List.append_assoc, List.cons_append, List.nil_append]
      have : Session.record (f s x) .aborted = Session.record s .aborted := by
        funext y; unfold Session.record; rw [h2.clock, h2.period]
      rw [this, depositRecord_eq]
    · rw [ih.cards, h5, endSession_unlinked]


/-- Erasing one by one the elements that pass a test leaves those that do not. -/
theorem mem_foldl_erase {α : Type} [DecidableEq α] {p : α → Bool} (xs ys : List α) (z : α) (h : xs.Perm (ys.filter p)) :
    z ∈ xs.foldl List.erase ys ↔ z ∈ ys ∧ p z = false := by
  rw [← List.diff_eq_foldl, ← List.count_pos_iff, List.count_diff, h.count_eq, ← List.count_pos_iff]
  cases hp : p z with
  | true => rw [List.count_filter hp]; simp
  | false =>
    have : List.count z (ys.filter p) = 0 := List.count_eq_zero.mpr (by simp [hp])
    rw [this]; simp

theorem set_at {α : Type} {n : Nat} (v : Vector α n) (i : Fin n) (x : α) : (v.set i x)[i] = x := by simp

theorem set_ne {α : Type} {n : Nat} (v : Vector α n) {i j : Fin n} (h : i ≠ j) (x : α) : (v.set i x)[j] = v[j] := by
  simp [Fin.ext_iff.not.mp h]

/-- The stations after an abort at station a: its CLOSE-NOW set holds every inlet of the sessions ended. -/
theorem abort_stations (a : StationIx) : ∀ (xs : List Session) (s : State),
    let t := xs.foldl (fun t x => (t.endSession .aborted .idle x).addCloseNow a x.inlet) s
    (∀ b : StationIx, b ≠ a → t.stations[b] = s.stations[b]) ∧
    t.stations[a] = { s.stations[a] with closeNow := Vector.ofFn fun n : InletIx =>
      if ∃ x ∈ xs, x.inlet = n then .fresh else s.stations[a].closeNow[n] }
  | [], s => by
    refine ⟨fun _ _ => rfl, ?_⟩
    have : (Vector.ofFn fun n : InletIx =>
        if ∃ x ∈ ([] : List Session), x.inlet = n then CloseMark.fresh else s.stations[a].closeNow[n]) =
        s.stations[a].closeNow := by
      ext i hi
      simp
    rw [this]; rfl
  | x :: xs, s => by
    obtain ⟨h1, h2⟩ := abort_stations a xs ((s.endSession .aborted .idle x).addCloseNow a x.inlet)
    have hs := (endSession_only .aborted .idle x s).stations
    have e1 : ∀ b : StationIx, b ≠ a →
        ((s.endSession .aborted .idle x).addCloseNow a x.inlet).stations[b] = s.stations[b] := by
      intro b hb
      show ((s.endSession .aborted .idle x).stations.set a _)[b] = _
      rw [set_ne _ hb.symm, hs]
    have e2 : ((s.endSession .aborted .idle x).addCloseNow a x.inlet).stations[a] =
        { s.stations[a] with closeNow := s.stations[a].closeNow.set x.inlet .fresh } := by
      show ((s.endSession .aborted .idle x).stations.set a _)[a] = _
      rw [set_at, hs]
    refine ⟨fun b hb => (h1 b hb).trans (e1 b hb), h2.trans ?_⟩
    rw [e2]
    refine congrArg (fun v => { s.stations[a] with closeNow := v }) ?_
    ext i hi
    simp only [Vector.getElem_ofFn]
    by_cases h : ∃ y ∈ xs, y.inlet = ⟨i, hi⟩
    · rw [if_pos h, if_pos (h.imp fun y hy => ⟨List.mem_cons_of_mem _ hy.1, hy.2⟩)]
    · rw [if_neg h]
      by_cases hx : x.inlet = ⟨i, hi⟩
      · rw [if_pos ⟨x, List.mem_cons_self, hx⟩, ← hx, set_at]
      · rw [if_neg, set_ne _ hx]
        rintro ⟨y, hy, hyi⟩
        rcases List.mem_cons.mp hy with rfl | hy
        · exact hx hyi
        · exact h ⟨y, hy, hyi⟩

theorem abortStation_aborted (a : StationIx) (s : State) : Aborted (s.sessionsOf a) s (s.abortStation a) := by
  refine aborted_foldl
    (fun _ _ => ⟨addCloseNow_same .., ?_, (endSession_only ..).links, (endSession_only ..).relay, rfl⟩) _ s
  exact (endSession_only ..).toOnlyTurn.trans (modStation_only ..)

theorem abortAll_aborted (s : State) : Aborted s.sessionsInOrder s s.abortAll :=
  aborted_foldl (fun _ _ =>
    ⟨.refl _, (endSession_only ..).toOnlyTurn, (endSession_only ..).links, (endSession_only ..).relay, rfl⟩) _ s

theorem sessionsOf_perm (a : StationIx) (s : State) : (s.sessionsOf a).Perm (s.sessions.filter fun x => x.station = a) :=
  (sortByKey_perm ..).filter _

theorem sessionsOf_inlets (a : StationIx) (s : State) : (s.sessionsOf a).Pairwise fun x y => x.inlet ≤ y.inlet := by
  unfold State.sessionsOf State.sessionsInOrder
  refine (List.Pairwise.filter _ (sortByKey_sorted ..)).imp_of_mem fun {x y} hx hy h => ?_
  have h1 : x.station = a := by simpa using (List.mem_filter.mp hx).2
  have h2 : y.station = a := by simpa using (List.mem_filter.mp hy).2
  simp [Session.place, keyLe, h1, h2] at h
  rcases h with h | h
  · exact Fin.le_of_lt h
  · exact le_of_eq (Fin.ext h)

/-- The station leaves the ring unless it has another session (R10). -/
theorem ringLeave_eq (a : StationIx) (s : State) : s.ringLeave a = { s with line := { s.line with
    ring := if ∃ y ∈ s.sessions, y.station = a then s.line.ring else s.line.ring.filter fun b => b ≠ a } } := by
  unfold State.ringLeave
  by_cases h : ∃ y ∈ s.sessions, y.station = a
  · rw [if_pos h, if_pos (by simpa using h)]
  · rw [if_neg h, if_neg (by simpa using h)]

/-- A drain ends at the ending that leaves the hatch table empty (R4). -/
theorem drainCheck_eq (s : State) : s.drainCheck = { s with
    line := { s.line with
      state := if s.line.state = .draining ∧ s.sessions = [] then .stopped else s.line.state
      heldStop := if s.line.state = .draining ∧ s.sessions = [] then none else s.line.heldStop }
    deferred := s.deferred ++ (if s.line.state = .draining ∧ s.sessions = [] then
      (s.line.heldStop.map fun tag => { kind := 0x41, tag, code := .done, data := [] }).toList else []) } := by
  unfold State.drainCheck
  by_cases h : s.line.state = .draining ∧ s.sessions = []
  · simp only [h, if_true, and_self]
    cases e : s.line.heldStop <;> simp [State.release, kindLineStop, *]
  · simp only [h, if_false]; simp

/-- A charged deposit at a configured container (R115, R116). -/
theorem chargedDeposit_eq (i : ContainerIx) (c : Container) (s : State) (h : s.container i = some c) :
    s.chargedDeposit i = s.tested i { s.containers[i].flags with sensor := s.containers[i].flags.sensor || (c.fill.deposit c.params).sensor }
      ({ c with fill := (c.fill.deposit c.params).fill } : Container).fullTested := by
  unfold State.chargedDeposit
  apply fillEvent_eq _ _ _ _ h
  simp only [Fill.deposit]; split <;> rfl

/-- Becoming IDLE depends on the clock, the fraction table and the two tables it writes. -/
theorem becomesIdle_tables (i : ContainerIx) (flags : ContainerFlags) (d : Container) (s t : State)
   (h1 : t.containers = s.containers) (h2 : t.requests = s.requests) (h3 : t.clock = s.clock) (h4 : t.fractions = s.fractions):
   t.becomesIdle i flags d = { t with containers := (s.becomesIdle i flags d).containers, requests := (s.becomesIdle i flags d).requests } := by
  unfold State.becomesIdle
  cases d.staged <;> simp [State.tested, h1, h2, h3, h4, Container.raises, Container.raisedRequest]

/-- The container bound to a (station, inlet), where it is the only one (R85). -/
theorem bound_unique (s : State) (a : StationIx) (i : ContainerIx) (c : Container) (hc : s.container i = some c)
   (ha : c.binding.station = a)
   (h : ∀ j d, s.container j = some d → d.binding.station = a → d.binding.inlet = c.binding.inlet → j = i) :
   s.bound a c.binding.inlet = some i := by
  unfold State.bound
  apply find?_only _ _ _ (List.mem_finRange i)
  · simp [hc, ha]
  · intro j _ hj
    cases e : s.container j with
    | none => simp [e] at hj
    | some d => simp [e] at hj; exact h j d e hj.1 hj.2

theorem free_spec (ss : List Session) (base : Word16) : ∀ (fuel : Nat) (k : Nat), 1 ≤ k →
   (∀ m : Nat, 1 ≤ m → m < k → ∃ y ∈ ss, y.number = base + BitVec.ofNat 16 m) →
   ∃ n, k ≤ n ∧ n ≤ k + fuel ∧ freeNumber ss fuel (base + BitVec.ofNat 16 k) = base + BitVec.ofNat 16 n ∧
     (∀ m : Nat, 1 ≤ m → m < n → ∃ y ∈ ss, y.number = base + BitVec.ofNat 16 m) ∧
     (n < k + fuel → ∀ y ∈ ss, y.number ≠ base + BitVec.ofNat 16 n)
  | 0, k, hk, h => ⟨k, le_refl _, by omega, rfl, h, by omega⟩
  | fuel + 1, k, hk, h => by
    by_cases e : ∃ y ∈ ss, y.number = base + BitVec.ofNat 16 k
    · obtain ⟨n, h1, h2, h3, h4, h5⟩ := free_spec ss base fuel (k + 1) (by omega) (by
        intro m hm hmk
        by_cases e' : m = k
        · subst e'; exact e
        · exact h m hm (by omega))
      refine ⟨n, by omega, by omega, ?_, h4, fun hn => h5 (by omega)⟩
      unfold freeNumber
      rw [if_pos (by simpa using e)]
      have : base + BitVec.ofNat 16 k + 1 = base + BitVec.ofNat 16 (k + 1) := by
        rw [BitVec.add_assoc]; congr 1; rw [BitVec.ofNat_add]; rfl
      rw [this, h3]
    · refine ⟨k, le_refl _, by omega, ?_, h, ?_⟩
      · unfold freeNumber; rw [if_neg (by simpa using e)]
      · intro _ y hy hh; exact e ⟨y, hy, hh⟩

/-- The next session number is the least one after the present that no open session holds (R61). -/
theorem freeNumber_least (s : State) (x : Session) (hx : x.number = s.nextSession) (hl : s.sessions.length < 16) :
   ∃ n : Nat, 1 ≤ n ∧ (∀ y ∈ x :: s.sessions, y.number ≠ s.nextSession + BitVec.ofNat 16 n) ∧
     (∀ m : Nat, 1 ≤ m → m < n → ∃ y ∈ s.sessions, y.number = s.nextSession + BitVec.ofNat 16 m) ∧
     freeNumber (s.sessions ++ [x]) (s.sessions.length + 1) (s.nextSession + 1) = s.nextSession + BitVec.ofNat 16 n := by
  obtain ⟨n, h1, h2, h3, h4, h5⟩ := free_spec (s.sessions ++ [x]) s.nextSession (s.sessions.length + 1) 1 (le_refl _) (by omega)
  have inj : ∀ a b : Nat, a < 65536 → b < 65536 → s.nextSession + BitVec.ofNat 16 a = s.nextSession + BitVec.ofNat 16 b → a = b := by
    intro a b ha hb h
    have := (BitVec.add_right_inj _).mp h
    have := congrArg BitVec.toNat this
    simp at this; omega
  have h4' : ∀ m : Nat, 1 ≤ m → m < n → ∃ y ∈ s.sessions, y.number = s.nextSession + BitVec.ofNat 16 m := by
    intro m hm hmn
    obtain ⟨y, hy, he⟩ := h4 m hm hmn
    rcases List.mem_append.mp hy with hy | hy
    · exact ⟨y, hy, he⟩
    · simp at hy; subst hy; rw [hx] at he
      have := inj 0 m (by omega) (by omega) (by simpa using he)
      omega
  have hlt : n < 1 + (s.sessions.length + 1) := by
    by_contra hc
    -- pigeonhole
    have hsub : ((List.range (s.sessions.length + 1)).map fun k => s.nextSession + BitVec.ofNat 16 (k + 1)) ⊆ s.sessions.map Session.number := by
      intro z hz
      obtain ⟨k, hk, rfl⟩ := List.mem_map.mp hz
      obtain ⟨y, hy, he⟩ := h4' (k + 1) (by omega) (by simp at hk; omega)
      exact List.mem_map.mpr ⟨y, hy, he⟩
    have hnd : ((List.range (s.sessions.length + 1)).map fun k => s.nextSession + BitVec.ofNat 16 (k + 1)).Nodup := by
      refine List.Nodup.map_on ?_ List.nodup_range
      intro a ha b hb h
      simp at ha hb
      have := inj (a+1) (b+1) (by omega) (by omega) h
      omega
    have := (hnd.subperm hsub).length_le
    simp at this
  refine ⟨n, h1, ?_, h4', h3⟩
  intro y hy
  apply h5 hlt
  rcases List.mem_cons.mp hy with rfl | hy
  · simp
  · simp [hy]

end Sys2Proof.Machine
end

