-- ==== Sys2Proof/Laws/Aborts.lean ====
section
/-! SUPPORT. Every session of a station ended ABORTED in one event: the run of endings is one update of the state
(State.stationAborted), said once for a lockout entry and for a write that disables the station (R35, R31, R76). -/

namespace Sys2Proof.Machine

/-! ### A container that leaves SESSION for IDLE -/

theorem modContainer_absent (i : ContainerIx) (g : Container → Container) (s : State) (h : s.container i = none) :
    s.modContainer i g = s := by
  have e : (fun r : ContainerRec => { r with body := r.body.map g }) s.containers[i] = s.containers[i] := by
    have : s.containers[i].body = none := h
    dsimp only
    rw [this, Option.map_none, s.record_eta, h]
  unfold State.modContainer State.modRec
  rw [e, Vector.set_own]

theorem leaveSession_idle (i : ContainerIx) (s : State) : s.leaveSession i .idle = s.sessionOver i := by
  unfold State.leaveSession State.sessionOver
  dsimp only
  cases h : s.container i with
  | none =>
    rw [modContainer_absent i _ s h]
    unfold State.applyStaged
    rw [h]; rfl
  | some c =>
    rw [idle_applyStaged i c (fun c => { c with state := .idle }) s h rfl]
    rfl

theorem becomesIdle_plain (i : ContainerIx) (flags : ContainerFlags) {c : Container} (s : State) (h : c.staged = none) :
    s.becomesIdle i flags c = { s with containers := s.containers.set i { flags, body := some { c with state := .idle } } } := by
  unfold State.becomesIdle
  rw [h]

theorem becomesIdle_staged (i : ContainerIx) (flags : ContainerFlags) {c : Container} {p : Params} (s : State)
    (h : c.staged = some p) :
    s.becomesIdle i flags c = s.tested i flags (({ c with state := .idle } : Container).withParams p) := by
  unfold State.becomesIdle
  rw [h]

theorem requests_own (i : ContainerIx) (v : Vector ContainerRec 128) (s : State) :
    { s with containers := v } = { s with containers := v, requests := s.requests.set i s.requests[i] } :=
  congrArg (fun q => { s with containers := v, requests := q }) (Vector.set_own ..).symm

theorem tested_own (i : ContainerIx) (flags : ContainerFlags) (c : Container) (s : State) : ∃ r q,
    s.tested i flags c = { s with containers := s.containers.set i r, requests := s.requests.set i q } := by
  unfold State.tested
  split
  · exact ⟨_, _, rfl⟩
  · exact ⟨_, s.requests[i], requests_own ..⟩

theorem becomesIdle_own (i : ContainerIx) (flags : ContainerFlags) (c : Container) (s : State) : ∃ r q,
    s.becomesIdle i flags c = { s with containers := s.containers.set i r, requests := s.requests.set i q } := by
  cases h : c.staged with
  | none =>
    rw [becomesIdle_plain i flags s h]
    exact ⟨_, s.requests[i], requests_own ..⟩
  | some p => rw [becomesIdle_staged i flags s h]; exact tested_own ..

/-- Only the container's own entries of two tables change. -/
theorem sessionOver_tables (i : ContainerIx) (s : State) :
    s.sessionOver i = { s with
      containers := s.containers.set i (s.sessionOver i).containers[i]
      requests := s.requests.set i (s.sessionOver i).requests[i] } := by
  obtain ⟨r, q, h⟩ : ∃ r q,
      s.sessionOver i = { s with containers := s.containers.set i r, requests := s.requests.set i q } := by
    unfold State.sessionOver
    cases s.container i with
    | none => exact ⟨s.containers[i], s.requests[i], by rw [Vector.set_own, Vector.set_own]⟩
    | some c => exact becomesIdle_own ..
  rw [h, set_at, set_at]

/-- What the container's own entries become depends on them, the clock and the fraction table. -/
theorem sessionOver_local (i : ContainerIx) (s t : State) (h1 : t.clock = s.clock) (h2 : t.fractions = s.fractions)
    (h3 : t.containers[i] = s.containers[i]) (h4 : t.requests[i] = s.requests[i]) :
    (t.sessionOver i).containers[i] = (s.sessionOver i).containers[i] ∧
      (t.sessionOver i).requests[i] = (s.sessionOver i).requests[i] := by
  have h5 : t.container i = s.container i := congrArg ContainerRec.body h3
  unfold State.sessionOver
  rw [h5]
  cases s.container i with
  | none => exact ⟨h3, h4⟩
  | some c =>
    dsimp only
    cases hc : c.staged with
    | none =>
      rw [becomesIdle_plain i _ t hc, becomesIdle_plain i _ s hc, set_at, set_at, h3]
      exact ⟨rfl, h4⟩
    | some p =>
      rw [becomesIdle_staged i _ t hc, becomesIdle_staged i _ s hc, tested_record, tested_record]
      have e : ∀ d : Container, d.raises t i = d.raises s i ∧ d.raisedRequest t = d.raisedRequest s := by
        intro d
        unfold Container.raises Container.raisedRequest
        rw [h1, h2, h4]
        exact ⟨rfl, rfl⟩
      simp only [h3, (e _).1, (e _).2, true_and]
      unfold State.tested
      simp only [(e _).1, (e _).2]
      split
      · rw [set_at, set_at]
      · exact h4

/-- A container that is IDLE again stays as it is. -/
theorem sessionOver_again (i : ContainerIx) (s : State) :
    ((s.sessionOver i).sessionOver i).containers[i] = (s.sessionOver i).containers[i] ∧
      ((s.sessionOver i).sessionOver i).requests[i] = (s.sessionOver i).requests[i] := by
  cases h : s.container i with
  | none =>
    have e : s.sessionOver i = s := by unfold State.sessionOver; rw [h]
    simp only [e, and_self]
  | some c =>
    have e : s.sessionOver i = s.becomesIdle i s.containers[i].flags c := by unfold State.sessionOver; rw [h]
    obtain ⟨d, hd, hs, hi⟩ : ∃ d, (s.sessionOver i).container i = some d ∧ d.staged = none ∧ d.state = .idle := by
      rw [e]
      cases hc : c.staged with
      | none => rw [becomesIdle_plain i _ s hc]; exact ⟨_, set_container .., hc, rfl⟩
      | some p => rw [becomesIdle_staged i _ s hc]; exact ⟨_, tested_container .., rfl, rfl⟩
    generalize s.sessionOver i = u at hd
    have eu : u.sessionOver i = { u with containers := u.containers.set i u.containers[i] } := by
      unfold State.sessionOver
      rw [hd]
      dsimp only
      rw [becomesIdle_plain i _ u hs]
      have : ({ flags := u.containers[i].flags, body := some { d with state := .idle } } : ContainerRec) =
          u.containers[i] := by
        rw [u.record_eta, hd, ← hi]
      rw [this]
    rw [eu, set_at]
    exact ⟨rfl, rfl⟩

/-! ### One aborted ending -/

theorem endSession_aborted (x : Session) (s : State) :
    s.endSession .aborted .idle x =
      let left := s.sessions.erase x
      let drained : Bool := decide (s.line.state = .draining ∧ left = [])
      { s with
        cards := s.cards.map fun k => if k.number = x.card then { k with link := none } else k
        deposits := s.deposits ++ [{ arrival := s.arrivals, record := x.record s .aborted }]
        arrivals := s.arrivals + 1
        sessions := left
        containers := (s.sessionOver x.container).containers
        requests := (s.sessionOver x.container).requests
        line := { s.line with
          ring := if ∃ y ∈ left, y.station = x.station then s.line.ring else s.line.ring.filter fun b => b ≠ x.station
          state := if drained then .stopped else s.line.state
          heldStop := if drained then none else s.line.heldStop }
        deferred := s.deferred ++ (if drained then
          (s.line.heldStop.map fun tag => { kind := 0x41, tag, code := .done, data := [] }).toList else []) } := by
  unfold State.endSession
  dsimp only
  rw [drainCheck_eq, ringLeave_eq, leaveSession_idle]
  have h : (DepositOutcome.aborted.charged) = false := rfl
  rw [h, if_neg (by simp)]
  have e : ∀ (t : State), t.containers = s.containers → t.requests = s.requests → t.clock = s.clock →
      t.fractions = s.fractions → t.sessionOver x.container = { t with
        containers := (s.sessionOver x.container).containers, requests := (s.sessionOver x.container).requests } := by
    intro t h1 h2 h3 h4
    rw [sessionOver_tables x.container t]
    obtain ⟨l1, l2⟩ := sessionOver_local x.container s t h3 h4 (by rw [h1]) (by rw [h2])
    rw [l1, l2, h1, h2]
    have k := sessionOver_tables x.container s
    have k1 : (s.sessionOver x.container).containers = _ := congrArg State.containers k
    have k2 : (s.sessionOver x.container).requests = _ := congrArg State.requests k
    dsimp only at k1 k2
    rw [← k1, ← k2]
  rw [e]
  · simp only [State.settleCard, State.modCard, State.writeDeposit, h, depositRecord_eq, Bool.false_eq_true, if_false,
      decide_eq_true_eq]
  all_goals rfl

/-! ### The run of endings -/

/-- The state once a run of sessions at station a has ended ABORTED, each with its inlet fresh in the CLOSE-NOW set. -/
def State.abortRun (a : StationIx) (ended : List Session) (s : State) : State :=
  let left := ended.foldl List.erase s.sessions
  let drained : Bool := decide (ended ≠ [] ∧ left = [] ∧ s.line.state = .draining)
  { s with
    cards := s.cards.map fun k => if ∃ x ∈ ended, x.card = k.number then { k with link := none } else k
    deposits := s.deposits ++
      (ended.zipIdx s.arrivals).map fun p => { arrival := p.2, record := p.1.record s .aborted }
    arrivals := s.arrivals + ended.length
    sessions := left
    containers := Vector.ofFn fun i : ContainerIx =>
      (if ∃ x ∈ ended, x.container = i then s.sessionOver i else s).containers[i]
    requests := Vector.ofFn fun i : ContainerIx =>
      (if ∃ x ∈ ended, x.container = i then s.sessionOver i else s).requests[i]
    stations := s.stations.set a { s.stations[a] with
      closeNow := Vector.ofFn fun n : InletIx =>
        if ∃ x ∈ ended, x.inlet = n then .fresh else s.stations[a].closeNow[n] }
    line := { s.line with
      ring := if ended = [] ∨ ∃ y ∈ left, y.station = a then s.line.ring else s.line.ring.filter fun b => b ≠ a
      state := if drained then .stopped else s.line.state
      heldStop := if drained then none else s.line.heldStop }
    deferred := s.deferred ++ (if drained then
      (s.line.heldStop.map fun tag => { kind := 0x41, tag, code := .done, data := [] }).toList else []) }

theorem abortRun_containers (a : StationIx) (xs : List Session) (s : State) (i : ContainerIx) :
    (s.abortRun a xs).containers[i] =
      (if ∃ x ∈ xs, x.container = i then s.sessionOver i else s).containers[i] := by
  unfold State.abortRun
  simp only [Fin.getElem_fin, Vector.getElem_ofFn, Fin.eta]

theorem abortRun_requests (a : StationIx) (xs : List Session) (s : State) (i : ContainerIx) :
    (s.abortRun a xs).requests[i] =
      (if ∃ x ∈ xs, x.container = i then s.sessionOver i else s).requests[i] := by
  unfold State.abortRun
  simp only [Fin.getElem_fin, Vector.getElem_ofFn, Fin.eta]

/-- One more ending of a drain: the line state, the held response, the responses released. -/
theorem drained_next (state : LineState) (held : Option Byte) (xs : List Session) (left : List Session) (x : Session)
    (released : Option Byte → List Response) :
    let d1 : Bool := decide (xs ≠ [] ∧ left = [] ∧ state = .draining)
    let state1 := if d1 then .stopped else state
    let held1 := if d1 then none else held
    let d : Bool := decide (state1 = .draining ∧ left.erase x = [])
    let d2 : Bool := decide (xs ++ [x] ≠ [] ∧ left.erase x = [] ∧ state = .draining)
    (if d then .stopped else state1) = (if d2 then .stopped else state) ∧
      (if d then none else held1) = (if d2 then none else held) ∧
      ((if d1 then released held else []) ++ if d then released held1 else []) = if d2 then released held else [] := by
  intro d1 state1 held1 d d2
  by_cases h1 : xs ≠ [] ∧ left = [] ∧ state = .draining
  · have e1 : d1 = true := decide_eq_true h1
    have e2 : d2 = true := decide_eq_true ⟨by simp, by rw [h1.2.1]; rfl, h1.2.2⟩
    have e : d = false := by
      apply decide_eq_false
      simp only [state1, e1, if_true]
      exact fun h => by cases h.1
    simp [e1, e2, e, state1, held1]
  · have e1 : d1 = false := decide_eq_false h1
    have e : d = d2 := by
      simp only [d, d2, state1, e1, Bool.false_eq_true, if_false]
      refine decide_eq_decide.mpr ?_
      simp [and_comm]
    simp [e1, e, state1, held1]

/-- One more ending of the ring: the station leaves when no session of it is left. -/
theorem ring_next (a : StationIx) (ring : List StationIx) (xs left : List Session) (x : Session) :
    (if ∃ y ∈ left.erase x, y.station = a then (if xs = [] ∨ ∃ y ∈ left, y.station = a then ring else ring.filter fun b => b ≠ a)
      else (if xs = [] ∨ ∃ y ∈ left, y.station = a then ring else ring.filter fun b => b ≠ a).filter fun b => b ≠ a) =
    if xs ++ [x] = [] ∨ ∃ y ∈ left.erase x, y.station = a then ring else ring.filter fun b => b ≠ a := by
  by_cases h : ∃ y ∈ left.erase x, y.station = a
  · have h1 : ∃ y ∈ left, y.station = a := h.imp fun y hy => ⟨List.mem_of_mem_erase hy.1, hy.2⟩
    simp only [h, h1, or_true, if_true]
  · rw [if_neg h, if_neg (c := xs ++ [x] = [] ∨ _) (by rintro (h' | h'); exacts [by simp at h', h h'])]
    split
    · rfl
    · rw [List.filter_filter]; simp

theorem mem_next {p : Session → Prop} (xs : List Session) (x : Session) :
    (∃ y ∈ xs ++ [x], p y) ↔ (∃ y ∈ xs, p y) ∨ p x := by
  simp only [List.mem_append, List.mem_singleton, or_and_right, exists_or, exists_eq_left]

/-- The state whose entries for container i stand in the tables once some sessions have ended ABORTED. -/
def State.overAfter (xs : List Session) (i : ContainerIx) (s : State) : State :=
  if ∃ x ∈ xs, x.container = i then s.sessionOver i else s

/-- One more ending of a run. -/
theorem overAfter_next (xs : List Session) (x : Session) (i : ContainerIx) (s u : State) (c1 : u.clock = s.clock)
    (c2 : u.fractions = s.fractions) (r1 : u.containers[i] = (s.overAfter xs i).containers[i])
    (r2 : u.requests[i] = (s.overAfter xs i).requests[i]) :
    (u.sessionOver x.container).containers[i] = (s.overAfter (xs ++ [x]) i).containers[i] ∧
      (u.sessionOver x.container).requests[i] = (s.overAfter (xs ++ [x]) i).requests[i] := by
  unfold State.overAfter at *
  by_cases e : x.container = i
  · rw [if_pos ((mem_next ..).mpr (.inr e)), e]
    by_cases h : ∃ y ∈ xs, y.container = i
    · rw [if_pos h] at r1 r2
      obtain ⟨l1, l2⟩ := sessionOver_local i (s.sessionOver i) u
        (by rw [sessionOver_tables]; exact c1) (by rw [sessionOver_tables]; exact c2) r1 r2
      obtain ⟨m1, m2⟩ := sessionOver_again i s
      exact ⟨l1.trans m1, l2.trans m2⟩
    · rw [if_neg h] at r1 r2
      exact sessionOver_local i s u c1 c2 r1 r2
  · rw [sessionOver_tables]
    dsimp only
    rw [set_ne _ e, set_ne _ e, r1, r2]
    have : (∃ y ∈ xs ++ [x], y.container = i) ↔ ∃ y ∈ xs, y.container = i := by rw [mem_next]; simp [e]
    simp only [this, and_self]

/-- The container's own entries after one more ending of a run. -/
theorem abortRun_over (a : StationIx) (xs : List Session) (x : Session) (s : State) (i : ContainerIx) :
    ((s.abortRun a xs).sessionOver x.container).containers[i] = (s.abortRun a (xs ++ [x])).containers[i] ∧
      ((s.abortRun a xs).sessionOver x.container).requests[i] = (s.abortRun a (xs ++ [x])).requests[i] := by
  rw [abortRun_containers, abortRun_requests]
  exact overAfter_next xs x i s _ rfl rfl (abortRun_containers ..) (abortRun_requests ..)

theorem abortRun_cards (xs : List Session) (x : Session) (cards : List Card) :
    ((cards.map fun k => if ∃ y ∈ xs, y.card = k.number then { k with link := none } else k).map fun k =>
        if k.number = x.card then { k with link := none } else k) =
      cards.map fun k => if ∃ y ∈ xs ++ [x], y.card = k.number then { k with link := none } else k := by
  rw [List.map_map]
  refine List.map_congr_left fun k _ => ?_
  simp only [Function.comp, mem_next]
  by_cases h : ∃ y ∈ xs, y.card = k.number
  · simp only [h, if_true, true_or]
    split <;> rfl
  · simp only [h, if_false, false_or]
    exact if_congr eq_comm rfl rfl

theorem abortRun_closeNow (xs : List Session) (x : Session) (set : Vector CloseMark 4) :
    (Vector.ofFn fun n : InletIx => if ∃ y ∈ xs, y.inlet = n then CloseMark.fresh else set[n]).set x.inlet .fresh =
      Vector.ofFn fun n : InletIx => if ∃ y ∈ xs ++ [x], y.inlet = n then CloseMark.fresh else set[n] := by
  refine Vector.ext fun i hi => ?_
  show (Vector.set _ _ _)[(⟨i, hi⟩ : InletIx)] = _
  rw [Vector.getElem_ofFn]
  by_cases e : x.inlet = ⟨i, hi⟩
  · rw [if_pos ((mem_next ..).mpr (.inr e))]
    have here : ∀ (v : Vector CloseMark 4) (j : InletIx), x.inlet = j → (v.set x.inlet .fresh)[j] = .fresh := by
      rintro v _ rfl
      exact set_at ..
    exact here _ _ e
  · rw [set_ne _ e, Fin.getElem_fin, Vector.getElem_ofFn]
    exact if_congr (by rw [mem_next]; simp [e]) rfl rfl

/-- One more ending after a run. -/
theorem abortRun_next (a : StationIx) (xs : List Session) (x : Session) (s : State) (hx : x.station = a) :
    ((s.abortRun a xs).endSession .aborted .idle x).addCloseNow a x.inlet = s.abortRun a (xs ++ [x]) := by
  have hl : (xs ++ [x]).foldl List.erase s.sessions = (xs.foldl List.erase s.sessions).erase x := by
    rw [List.foldl_append]; rfl
  obtain ⟨k1, k2, k3⟩ := drained_next s.line.state s.line.heldStop xs (xs.foldl List.erase s.sessions) x
    fun held => (held.map fun tag => ({ kind := 0x41, tag, code := .done, data := [] } : Response)).toList
  have k4 := ring_next a s.line.ring xs (xs.foldl List.erase s.sessions) x
  have own := abortRun_over a xs x s
  have cards := abortRun_cards xs x s.cards
  have close := abortRun_closeNow xs x s.stations[a].closeNow
  have deposits : s.deposits ++ ((xs ++ [x]).zipIdx s.arrivals).map (fun p => ({ arrival := p.2, record := p.1.record s .aborted } : QueuedDeposit)) =
      s.deposits ++ (xs.zipIdx s.arrivals).map (fun p => ({ arrival := p.2, record := p.1.record s .aborted } : QueuedDeposit)) ++
        [{ arrival := s.arrivals + xs.length, record := x.record s .aborted }] := by
    rw [List.zipIdx_append, List.map_append, List.append_assoc]; rfl
  have containers : ((s.abortRun a xs).sessionOver x.container).containers = (s.abortRun a (xs ++ [x])).containers :=
    Vector.ext fun i hi => (own ⟨i, hi⟩).1
  have requests : ((s.abortRun a xs).sessionOver x.container).requests = (s.abortRun a (xs ++ [x])).requests :=
    Vector.ext fun i hi => (own ⟨i, hi⟩).2
  clear own
  rw [endSession_aborted]
  dsimp only
  rw [containers, requests]
  unfold State.addCloseNow State.modStation
  rw [hx]
  apply State.ext
  case line =>
    dsimp only [State.abortRun]
    rw [LineCtl.mk.injEq, hl]
    exact ⟨k1, rfl, rfl, rfl, k4, rfl, rfl, rfl, k2, rfl, rfl, rfl⟩
  case deferred =>
    dsimp only [State.abortRun]
    rw [hl, List.append_assoc]
    exact congrArg (s.deferred ++ ·) k3
  case stations =>
    dsimp only [State.abortRun]
    rw [Vector.set_set, set_at]
    exact congrArg (fun v => s.stations.set a { s.stations[a] with closeNow := v }) close
  case cards => exact cards
  case deposits => exact deposits.symm
  case sessions => exact hl.symm
  case arrivals =>
    dsimp only [State.abortRun]
    rw [List.length_append]; rfl
  all_goals rfl

theorem abortRun_none (a : StationIx) (s : State) : s.abortRun a [] = s := by
  simp [State.abortRun]
  exact congrArg (fun v => { s with stations := v }) (Vector.set_own s.stations a)

/-- A run of endings at one station is one update. -/
theorem foldl_abortRun (a : StationIx) (s : State) (xs : List Session) (h : ∀ x ∈ xs, x.station = a) :
    xs.foldl (fun t x => (t.endSession .aborted .idle x).addCloseNow a x.inlet) s = s.abortRun a xs := by
  induction xs using List.reverseRecOn with
  | nil => exact (abortRun_none a s).symm
  | append_singleton xs x ih =>
    rw [List.foldl_append, ih fun y hy => h y (by simp [hy])]
    exact abortRun_next a xs x s (h x (by simp))

/-! ### The order of the endings -/

/-- Sorting keeps the elements of one key in the order in which they stood. -/
theorem sortByKey_stable {α : Type} (key : α → List Nat) (k : List Nat) (xs : List α) :
    (sortByKey key xs).filter (fun x => key x = k) = xs.filter fun x => key x = k := by
  unfold sortByKey
  induction xs with
  | nil => rfl
  | cons x xs ih =>
    have insert : ∀ ys : List α, (insertBy (fun a b => keyLe (key a) (key b)) x ys).filter (fun y => key y = k) =
        (x :: ys).filter fun y => key y = k := by
      intro ys
      induction ys with
      | nil => rfl
      | cons y ys ih =>
        unfold insertBy
        split
        · rfl
        · next h =>
          rw [List.filter_cons, ih]
          by_cases hx : key x = k <;> by_cases hy : key y = k
          · exact absurd ((keyLe_total (key x) (key y)).elim id fun h' => by rw [hx, hy] at *; exact h') h
          all_goals simp [hx, hy]
    unfold sortBy
    rw [insert, List.filter_cons, List.filter_cons, ih]

/-- A list in ascending inlet falls into the lists of its inlets. -/
theorem inlets_split : ∀ xs : List Session, (xs.Pairwise fun x y => x.inlet ≤ y.inlet) →
    xs = (List.finRange 4).flatMap fun n : InletIx => xs.filter fun x => x.inlet = n
  | [], _ => by simp
  | x :: xs, h => by
    obtain ⟨h1, h2⟩ := List.pairwise_cons.mp h
    have ih := inlets_split xs h2
    have e : (List.finRange 4 : List InletIx) = [0, 1, 2, 3] := by decide
    have gone : ∀ n : InletIx, n < x.inlet → xs.filter (fun y => y.inlet = n) = [] := by
      intro n hn
      rw [List.filter_eq_nil_iff]
      intro y hy e
      exact absurd (h1 y hy) (by rw [of_decide_eq_true e]; exact not_le.mpr hn)
    rw [e] at ih ⊢
    simp only [List.flatMap_cons, List.flatMap_nil, List.append_nil] at ih ⊢
    have four : x.inlet = 0 ∨ x.inlet = 1 ∨ x.inlet = 2 ∨ x.inlet = 3 := by
      have : ∀ n : InletIx, n = 0 ∨ n = 1 ∨ n = 2 ∨ n = 3 := by decide
      exact this _
    rcases four with hx | hx | hx | hx <;> rw [hx] at gone <;> simp only [List.filter_cons, hx]
    · simpa using ih
    · rw [gone 0 (by decide)] at ih ⊢; simpa using ih
    · rw [gone 0 (by decide), gone 1 (by decide)] at ih ⊢; simpa using ih
    · rw [gone 0 (by decide), gone 1 (by decide), gone 2 (by decide)] at ih ⊢; simpa using ih

theorem sessionsOf_eq (a : StationIx) (s : State) : s.sessionsOf a = s.sessionsAt a := by
  rw [inlets_split _ (sessionsOf_inlets a s)]
  unfold State.sessionsAt State.sessionsOf State.sessionsInOrder
  refine congrArg (fun f => List.flatMap f (List.finRange 4)) (funext fun n => ?_)
  have key : ∀ xs : List Session, (xs.filter fun x => x.station = a ∧ x.inlet = n) =
      xs.filter fun x => x.place = [a.val, n.val] := by
    intro xs
    refine List.filter_congr fun x _ => decide_eq_decide.mpr ?_
    simp [Session.place, Fin.ext_iff]
  rw [key, ← sortByKey_stable Session.place, ← key, List.filter_filter]
  refine List.filter_congr fun x _ => ?_
  simp [Bool.and_comm]

/-- Erasing one by one the elements that pass a test, in whatever order, leaves the others in theirs. -/
theorem foldl_erase {α : Type} [DecidableEq α] (p : α → Bool) (xs ys : List α) (h : xs.Perm (ys.filter p)) :
    xs.foldl List.erase ys = ys.filter fun x => !p x := by
  rw [← List.diff_eq_foldl, h.diff_left]
  clear h
  induction ys with
  | nil => rfl
  | cons y ys ih =>
    cases hp : p y with
    | true => rw [List.filter_cons_of_pos hp, List.cons_diff, if_pos (by simp), List.erase_cons_head, ih]; simp [hp]
    | false =>
      have out : y ∉ ys.filter p := by simp [hp]
      rw [List.filter_cons_of_neg (by simp [hp]), List.filter_cons_of_pos (by simp [hp]), ← ih]
      clear ih
      generalize ys.filter p = zs at out
      induction zs generalizing ys with
      | nil => rfl
      | cons z zs ih =>
        rw [List.diff_cons, List.diff_cons, List.erase_cons_tail (by simp; exact fun e => out (by simp [e]))]
        exact ih _ fun h => out (by simp [h])

/-- Every session of a station ended ABORTED (R76). -/
theorem abortStation_eq (a : StationIx) (s : State) : s.abortStation a = s.stationAborted a := by
  have hp := sessionsOf_perm a s
  rw [sessionsOf_eq] at hp
  have left := foldl_erase (fun x : Session => decide (x.station = a)) _ _ hp
  have left' : (s.sessionsAt a).foldl List.erase s.sessions = s.sessions.filter fun x => x.station ≠ a := by
    rw [left]
    refine List.filter_congr fun x _ => by simp
  have gone : ¬ ∃ y ∈ s.sessions.filter (fun x => x.station ≠ a), y.station = a := by
    rintro ⟨y, hy, e⟩
    simp [e] at hy
  unfold State.abortStation
  rw [sessionsOf_eq, foldl_abortRun a s]
  · unfold State.abortRun State.stationAborted State.sessionsAborted Station.closing
    simp only [left', gone, or_false]
  · intro x hx
    have := hp.subset hx
    simp at this
    exact this.2

/-! ### What the endings do not read -/

theorem sessionOver_frame (i : ContainerIx) (s t : State) (h1 : t.clock = s.clock) (h2 : t.fractions = s.fractions)
    (h3 : t.containers = s.containers) (h4 : t.requests = s.requests) :
    (t.sessionOver i).containers = (s.sessionOver i).containers ∧
      (t.sessionOver i).requests = (s.sessionOver i).requests := by
  obtain ⟨l1, l2⟩ := sessionOver_local i s t h1 h2 (by rw [h3]) (by rw [h4])
  rw [sessionOver_tables i t, sessionOver_tables i s]
  dsimp only
  rw [l1, l2, h3, h4]
  exact ⟨rfl, rfl⟩

/-- The endings at a station read no station record and no link record. -/
theorem sessionsAborted_frame (a : StationIx) (s : State) (stations : Vector Station 48) (links : Vector Link 48) :
    State.sessionsAborted a { s with stations := stations, links := links } =
      { s.sessionsAborted a with stations := stations, links := links } := by
  have h (i : ContainerIx) := sessionOver_frame i s { s with stations := stations, links := links } rfl rfl rfl rfl
  unfold State.sessionsAborted
  apply State.ext
  case containers =>
    refine congrArg Vector.ofFn (funext fun i => ?_)
    by_cases c : ∃ x ∈ s.sessionsAt a, x.container = i
    · exact (congrArg (fun u : State => u.containers[i]) (if_pos c)).trans
        ((congrArg (fun v => v[i]) (h i).1).trans (congrArg (fun u : State => u.containers[i]) (if_pos c)).symm)
    · exact (congrArg (fun u : State => u.containers[i]) (if_neg c)).trans
        (show s.containers[i] = _ from (congrArg (fun u : State => u.containers[i]) (if_neg c)).symm)
  case requests =>
    refine congrArg Vector.ofFn (funext fun i => ?_)
    by_cases c : ∃ x ∈ s.sessionsAt a, x.container = i
    · exact (congrArg (fun u : State => u.requests[i]) (if_pos c)).trans
        ((congrArg (fun v => v[i]) (h i).2).trans (congrArg (fun u : State => u.requests[i]) (if_pos c)).symm)
    · exact (congrArg (fun u : State => u.requests[i]) (if_neg c)).trans
        (show s.requests[i] = _ from (congrArg (fun u : State => u.requests[i]) (if_neg c)).symm)
  all_goals rfl

end Sys2Proof.Machine
end

