-- ==== Sys2Proof/Laws/Overdue.lean ====
section
/-! SUPPORT. The overdue marking over the whole request table as one update of the state (R127, R128). -/

namespace Sys2Proof.Machine

/-- The overdue marking made for the containers of a set. -/
def State.overdueMarkedOn (p : ContainerIx → Bool) (s : State) : State :=
  { s with
    containers := Vector.ofFn fun i : ContainerIx =>
      { s.containers[i] with flags := { s.containers[i].flags with
          overdue := s.containers[i].flags.overdue || (p i && s.requests[i].any (Request.due s.clock.district)) } }
    requests := Vector.ofFn fun i : ContainerIx =>
      s.requests[i].map fun r => { r with overdue := r.overdue || (p i && r.due s.clock.district) } }

theorem overdueMarkedOn_none (s : State) : s.overdueMarkedOn (fun _ => false) = s := by
  unfold State.overdueMarkedOn
  have h1 : (Vector.ofFn fun i : ContainerIx =>
      { s.containers[i] with flags := { s.containers[i].flags with
          overdue := s.containers[i].flags.overdue || (false && s.requests[i].any (Request.due s.clock.district)) } }) =
      s.containers := by
    ext i hi
    simp
  have h2 : (Vector.ofFn fun i : ContainerIx =>
      s.requests[i].map fun r => { r with overdue := r.overdue || (false && r.due s.clock.district) }) = s.requests := by
    ext i hi
    simp
  rw [h1, h2]

/-- Two states that agree but for the container and the request table. -/
theorem State.eq_of_tables (s : State) (c d : Vector ContainerRec Config.containers)
    (q r : Vector (Option Request) Config.containers) (h : c = d) (k : q = r) :
    ({ s with containers := c, requests := q } : State) = { s with containers := d, requests := r } := by
  rw [h, k]

theorem overdueMarkedOn_all (s : State) : s.overdueMarkedOn (fun _ => true) = s.overdueMarked := by
  unfold State.overdueMarkedOn State.overdueMarked
  apply State.eq_of_tables
  · ext i hi
    simp
  · ext i hi
    simp

theorem markOverdue_due (i : ContainerIx) (s : State) :
    s.markOverdue i =
      { s with
        containers := s.containers.set i { s.containers[i] with flags := { s.containers[i].flags with
          overdue := s.containers[i].flags.overdue || s.requests[i].any (Request.due s.clock.district) } }
        requests := s.requests.set i
          (s.requests[i].map fun r => { r with overdue := r.overdue || r.due s.clock.district }) } := by
  cases h : s.requests[i] with
  | none =>
    unfold State.markOverdue
    rw [h]
    simp only [Option.any_none, Bool.or_false, Option.map_none]
    rw [Vector.set_own, ← h, Vector.set_own]
  | some r =>
    simp only [Option.any_some, Option.map_some, Request.due]
    cases ho : r.overdue with
    | false =>
      rw [markOverdue_eq i r s h ho]
      rfl
    | true =>
      unfold State.markOverdue
      rw [h]
      simp only [ho, Bool.true_eq_false, false_and, if_false, Bool.not_true, Bool.false_and, Bool.or_false]
      rw [Vector.set_own, ← ho, ← h, Vector.set_own]

theorem overdueMarkedOn_step (p : ContainerIx → Bool) (i : ContainerIx) (s : State) (hi : p i = false) :
    (s.overdueMarkedOn p).markOverdue i = s.overdueMarkedOn (fun j => p j || decide (j = i)) := by
  rw [markOverdue_due]
  unfold State.overdueMarkedOn
  apply State.eq_of_tables
  · ext j hj
    by_cases h : i.val = j
    · subst h
      simp [hi]
    · have : ¬ (⟨j, hj⟩ : ContainerIx) = i := fun e => h (congrArg Fin.val e).symm
      simp [h, this]
  · ext j hj
    by_cases h : i.val = j
    · subst h
      simp [hi]
    · have : ¬ (⟨j, hj⟩ : ContainerIx) = i := fun e => h (congrArg Fin.val e).symm
      simp [h, this]

theorem foldl_markOverdue (l : List ContainerIx) (s : State) (p : ContainerIx → Bool) (hn : l.Nodup)
    (hp : ∀ i ∈ l, p i = false) :
    l.foldl (fun t i => t.markOverdue i) (s.overdueMarkedOn p) = s.overdueMarkedOn (fun j => p j || decide (j ∈ l)) := by
  induction l generalizing p with
  | nil => simp
  | cons i l ih =>
    rw [List.nodup_cons] at hn
    rw [List.foldl_cons, overdueMarkedOn_step p i s (hp i (List.mem_cons_self ..)), ih _ hn.2]
    · refine congrArg (fun q => s.overdueMarkedOn q) (funext fun j => ?_)
      simp [Bool.or_assoc]
    · intro j hj
      have hne : j ≠ i := fun e => hn.1 (e ▸ hj)
      simp [hp j (List.mem_cons_of_mem _ hj), hne]

/-- The overdue marking of every request (R127, R128). -/
theorem markAllOverdue_eq (s : State) : s.markAllOverdue = s.overdueMarked := by
  have h := foldl_markOverdue (List.finRange Config.containers) s (fun _ => false) (List.nodup_finRange _) (fun _ _ => rfl)
  rw [overdueMarkedOn_none] at h
  unfold State.markAllOverdue
  rw [h, ← overdueMarkedOn_all]
  refine congrArg (fun q => s.overdueMarkedOn q) (funext fun j => ?_)
  simp

end Sys2Proof.Machine
end

