-- ==== Sys2Proof/Laws/Closing.lean ====
section
/-! SUPPORT. The close of a round as one update of the state (R133, R149), and of every due round in turn (R148). -/

namespace Sys2Proof.Machine

/-- The requests of a set of containers returned, with RAISED where a pre-empted one waits again (R133). -/
def State.returnedOn (p : ContainerIx → Bool) (s : State) : State :=
  { s with
    containers := Vector.ofFn fun i : ContainerIx =>
      { s.containers[i] with flags := { s.containers[i].flags with
          raised := s.containers[i].flags.raised ||
            (p i && s.requests[i].any fun q => q.origin = .preempt && (q.returned s i).isSome) } }
    requests := Vector.ofFn fun i : ContainerIx =>
      if p i then s.requests[i].bind (Request.returned s i) else s.requests[i] }

theorem returnedOn_none (s : State) : s.returnedOn (fun _ => false) = s := by
  have h := State.eq_of_tables s (s.returnedOn fun _ => false).containers s.containers
    (s.returnedOn fun _ => false).requests s.requests ?_ ?_
  · exact h
  · ext i hi
    simp [State.returnedOn]
  · ext i hi
    simp [State.returnedOn]

theorem returnRequest_eq (i : ContainerIx) (s : State) :
    s.returnRequest false i =
      { s with
        containers := s.containers.set i { s.containers[i] with flags := { s.containers[i].flags with
          raised := s.containers[i].flags.raised ||
            (s.requests[i].any fun q => q.origin = .preempt && (q.returned s i).isSome) } }
        requests := s.requests.set i (s.requests[i].bind (Request.returned s i)) } := by
  unfold State.returnRequest
  cases h : s.requests[i] with
  | none =>
    simp only [Option.any_none, Bool.or_false, Option.bind_none]
    rw [Vector.set_own, ← h, Vector.set_own]
  | some r =>
    dsimp only [Option.any_some, Option.bind_some]
    cases ho : r.origin with
    | raised =>
      have hr : r.returned s i = some { r with state := .waiting } := by
        unfold Request.returned
        rw [if_pos (.inl ho), ← ho]
      simp only [hr, ho, reduceCtorEq, decide_false, Bool.false_and, Bool.or_false]
      rw [Vector.set_own]
      rfl
    | preempt =>
      dsimp only
      have gone : (¬ ∃ c, s.container i = some c ∧ c.params.tCall ≤ c.fill.e) → r.returned s i = none := by
        intro hc
        unfold Request.returned
        rw [if_neg]
        rintro (h' | h')
        · rw [ho] at h'
          cases h'
        · exact hc h'
      split
      · next c hcon =>
        by_cases hle : c.params.tCall ≤ c.fill.e
        · have hr : r.returned s i = some { r with state := .waiting, origin := .raised } := by
            unfold Request.returned
            rw [if_pos (.inr ⟨c, hcon, hle⟩)]
          rw [if_pos (decide_eq_true hle)]
          simp only [hr, decide_true, Option.isSome_some, Bool.and_self, Bool.or_true, Bool.false_eq_true, if_false]
          rfl
        · rw [if_neg (by simpa using hle)]
          have hr := gone fun ⟨d, hd, hle'⟩ => hle (by rw [hcon] at hd; injection hd with hd; rw [hd]; exact hle')
          simp only [hr, Option.isSome_none, Bool.and_false, Bool.or_false]
          rw [Vector.set_own]
          rfl
      · next hcon =>
        rw [if_neg (by decide)]
        have hr := gone fun ⟨d, hd, _⟩ => by rw [hcon] at hd; cases hd
        simp only [hr, Option.isSome_none, Bool.and_false, Bool.or_false]
        rw [Vector.set_own]
        rfl

theorem returned_congr (s t : State) (i : ContainerIx) (q : Request) (h : t.container i = s.container i) :
    q.returned t i = q.returned s i := by
  unfold Request.returned
  rw [h]

theorem returnedOn_container (p : ContainerIx → Bool) (s : State) (i : ContainerIx) :
    (s.returnedOn p).container i = s.container i := by
  simp [State.returnedOn, State.container]

theorem returnedOn_record (p : ContainerIx → Bool) (s : State) (i : ContainerIx) :
    (s.returnedOn p).containers[i] = { s.containers[i] with flags := { s.containers[i].flags with
      raised := s.containers[i].flags.raised ||
        (p i && s.requests[i].any fun q => q.origin = .preempt && (q.returned s i).isSome) } } := by
  simp [State.returnedOn]

theorem returnedOn_request (p : ContainerIx → Bool) (s : State) (i : ContainerIx) :
    (s.returnedOn p).requests[i] = if p i then s.requests[i].bind (Request.returned s i) else s.requests[i] := by
  simp [State.returnedOn]

theorem returnedOn_step (p : ContainerIx → Bool) (i : ContainerIx) (s : State) (hi : p i = false) :
    (s.returnedOn p).returnRequest false i = s.returnedOn (fun j => p j || decide (j = i)) := by
  have hf : Request.returned (s.returnedOn p) i = Request.returned s i :=
    funext fun q => returned_congr _ _ _ _ (returnedOn_container ..)
  rw [returnRequest_eq, hf, returnedOn_record, returnedOn_request, hi]
  unfold State.returnedOn
  apply State.eq_of_tables
  · ext j hj
    by_cases h : i.val = j
    · subst h
      simp
    · have : ¬ (⟨j, hj⟩ : ContainerIx) = i := fun e => h (congrArg Fin.val e).symm
      simp [h, this]
  · ext j hj
    by_cases h : i.val = j
    · subst h
      simp
    · have : ¬ (⟨j, hj⟩ : ContainerIx) = i := fun e => h (congrArg Fin.val e).symm
      simp [h, this]

/-- The entry of a container is still PLANNED among some entries. -/
def plannedIn (entries : List Entry) (i : ContainerIx) : Bool := entries.any fun e => e.container = i && e.state = .planned

theorem returnEntries_on (l : List Entry) (s : State) (p : ContainerIx → Bool) (hn : (l.map Entry.container).Nodup)
    (hp : ∀ e ∈ l, p e.container = false) :
    (s.returnedOn p).returnEntries false l = s.returnedOn fun j => p j || plannedIn l j := by
  induction l generalizing p with
  | nil => simp [State.returnEntries, plannedIn]
  | cons e l ih =>
    rw [List.map_cons, List.nodup_cons] at hn
    have hrest : ∀ x ∈ l, x.container ≠ e.container := fun x hx he => hn.1 (he ▸ List.mem_map_of_mem hx)
    unfold State.returnEntries at ih ⊢
    rw [List.foldl_cons]
    cases he : e.isLifted with
    | true =>
      have hst : decide (e.state = .planned) = false := by
        unfold Entry.isLifted at he
        simpa using he
      simp only [if_true]
      rw [ih p hn.2 fun x hx => hp x (List.mem_cons_of_mem _ hx)]
      refine congrArg (fun q => s.returnedOn q) (funext fun j => ?_)
      simp [plannedIn, hst]
    | false =>
      have hst : decide (e.state = .planned) = true := by
        unfold Entry.isLifted at he
        simpa using he
      simp only [Bool.false_eq_true, if_false]
      rw [returnedOn_step p _ s (hp e (List.mem_cons_self ..)), ih _ hn.2]
      · refine congrArg (fun q => s.returnedOn q) (funext fun j => ?_)
        have hc : decide (j = e.container) = decide (e.container = j) := decide_eq_decide.mpr eq_comm
        simp only [plannedIn, List.any_cons, hst, Bool.and_true, Bool.or_assoc, hc]
      · intro x hx
        simp [hp x (List.mem_cons_of_mem _ hx), hrest x hx]

theorem returnEntries_eq (l : List Entry) (s : State) (hn : (l.map Entry.container).Nodup) :
    s.returnEntries false l = s.returnedOn (plannedIn l) := by
  have h := returnEntries_on l s (fun _ => false) hn fun _ _ => rfl
  rw [returnedOn_none] at h
  rw [h]
  refine congrArg (fun q => s.returnedOn q) (funext fun j => ?_)
  simp

/-- A round closes (R149). -/
theorem closeRound_eq (n : FractionIx) (r : Round) (reason : CloseReason) (s : State) (h : s.slots[n].round = some r)
    (hn : (r.entries.map Entry.container).Nodup) : s.closeRound n reason = s.roundClosed n r reason := by
  unfold State.closeRound
  rw [h]
  dsimp only
  rw [returnEntries_eq r.entries s hn]
  unfold State.raise State.setFlag State.modSlot
  dsimp only
  simp only [Fin.getElem_fin, Vector.getElem_set_self, Vector.set_set]
  unfold State.roundClosed State.returnedOn
  rfl

theorem roundClosed_clock (n : FractionIx) (r : Round) (reason : CloseReason) (s : State) :
    (s.roundClosed n r reason).clock = s.clock := by
  unfold State.roundClosed
  rfl

theorem roundClosed_slot {n m : FractionIx} (h : n ≠ m) (r : Round) (reason : CloseReason) (s : State) :
    (s.roundClosed n r reason).slots[m] = s.slots[m] := by
  unfold State.roundClosed
  exact set_ne s.slots h _

/-- The due rounds close in ascending slot (R148). -/
theorem expireRounds_eq (s : State) (h : ∀ p ∈ s.dueRounds, (p.2.entries.map Entry.container).Nodup) :
    s.expireRounds = s.dueRounds.foldl (fun t p => t.roundClosed p.1 p.2 .timeout) s := by
  have run : ∀ (l : List FractionIx) (t : State), l.Nodup → t.clock = s.clock → (∀ n ∈ l, t.slots[n] = s.slots[n]) →
      l.foldl (fun t n => t.expireRound n) t =
        (l.filterMap fun n =>
            (s.slots[n].round.filter fun r => r.deadline.toNat ≤ s.clock.district.toNat).map fun r => (n, r)).foldl
          (fun t p => t.roundClosed p.1 p.2 .timeout) t := by
    intro l
    induction l with
    | nil => intro t _ _ _; rfl
    | cons n l ih =>
      intro t hn hc hs
      rw [List.nodup_cons] at hn
      have here := hs n (List.mem_cons_self ..)
      have first : t.expireRound n =
          match s.slots[n].round.filter fun r => r.deadline.toNat ≤ s.clock.district.toNat with
          | none => t
          | some r => t.roundClosed n r .timeout := by
        unfold State.expireRound
        rw [here, hc]
        cases e : s.slots[n].round with
        | none => rfl
        | some r =>
          dsimp only
          by_cases hd : r.deadline.toNat ≤ s.clock.district.toNat
          · rw [if_pos (by simpa [reached] using hd), Option.filter_some, if_pos (by simpa using hd)]
            refine closeRound_eq n r .timeout t (by rw [here, e]) (h (n, r) ?_)
            unfold State.dueRounds
            refine List.mem_filterMap.mpr ⟨n, List.mem_finRange n, ?_⟩
            exact (congrArg (Option.map fun r => (n, r)) (congrArg (Option.filter _) e)).trans (by simp [hd])
          · rw [if_neg (by simpa [reached] using hd), Option.filter_some, if_neg (by simpa using hd)]
      rw [List.foldl_cons, first, List.filterMap_cons]
      cases e : s.slots[n].round.filter fun r => r.deadline.toNat ≤ s.clock.district.toNat with
      | none => exact ih t hn.2 hc fun m hm => hs m (List.mem_cons_of_mem _ hm)
      | some r =>
        rw [Option.map_some, List.foldl_cons]
        refine ih _ hn.2 ((roundClosed_clock ..).trans hc) fun m hm => ?_
        exact (roundClosed_slot (fun e : n = m => hn.1 (e ▸ hm)) ..).trans (hs m (List.mem_cons_of_mem _ hm))
  exact run _ s (List.nodup_finRange 4) rfl fun _ _ => rfl

end Sys2Proof.Machine
end

