-- ==== Sys2Proof/Laws/Building.lean ====
section
/-! SUPPORT. The two passes of a build as walks over lists of containers with their volumes (R140 to R143): what each pass takes
is the greedy choice of Safety.lean, and what it leaves of the state is one update. -/

namespace Sys2Proof.Machine

/-- The planned volume of a container, 0 for an UNCONFIGURED one. -/
def State.volumeOf (s : State) (i : ContainerIx) : Nat := ((s.container i).map Container.plannedVolume).getD 0

/-- Container i as a build takes it, with a volume and an origin. -/
def State.takenAs (s : State) (origin : Origin) (x : ContainerIx × Nat) : Option Taken :=
  (s.container x.1).map fun c =>
    { container := x.1, station := c.binding.station, rank := s.stations[c.binding.station].config.rank, volume := x.2,
      origin }

/-! ### Pass 1 -/

/-- The requests of some containers planned into a slot (R131). -/
def State.plannedOn (slot : FractionIx) (ids : List ContainerIx) (s : State) : State :=
  { s with requests := Vector.ofFn fun i : ContainerIx =>
      if i ∈ ids then s.requests[i].map fun r => { r with state := .planned slot (s.volumeOf i) } else s.requests[i] }

theorem plannedOn_nil (slot : FractionIx) (s : State) : s.plannedOn slot [] = s := by
  have h : (Vector.ofFn fun i : ContainerIx => if i ∈ ([] : List ContainerIx) then
      s.requests[i].map fun r => { r with state := .planned slot (s.volumeOf i) } else s.requests[i]) = s.requests := by
    ext j hj
    simp
  unfold State.plannedOn
  rw [h]

theorem plannedOn_step (slot : FractionIx) (ids : List ContainerIx) (i : ContainerIx) (s : State) (hi : i ∉ ids) :
    (s.plannedOn slot ids).planRequest i slot (s.volumeOf i) = s.plannedOn slot (ids ++ [i]) := by
  have hv : ∀ v : Vector (Option Request) Config.containers,
      v = (s.plannedOn slot (ids ++ [i])).requests → { s with requests := v } = s.plannedOn slot (ids ++ [i]) := by
    intro v h
    subst h
    unfold State.plannedOn
    rfl
  have hr : (s.plannedOn slot ids).requests[i] = s.requests[i] := by
    simp [State.plannedOn, hi]
  unfold State.planRequest
  rw [hr]
  cases h : s.requests[i] with
  | none =>
    have h' : s.requests[i.val] = none := h
    dsimp only
    unfold State.plannedOn
    apply hv
    ext j hj
    by_cases hji : i.val = j
    · subst hji
      simp [State.plannedOn, hi, h']
    · have : ¬ (⟨j, hj⟩ : ContainerIx) = i := fun e => hji (congrArg Fin.val e).symm
      simp [State.plannedOn, this]
  | some r =>
    have h' : s.requests[i.val] = some r := h
    dsimp only
    unfold State.setRequest State.plannedOn
    apply hv
    ext j hj
    by_cases hji : i.val = j
    · subst hji
      simp [State.plannedOn, hi, h']
    · have : ¬ (⟨j, hj⟩ : ContainerIx) = i := fun e => hji (congrArg Fin.val e).symm
      simp [State.plannedOn, this, hji]

theorem plannedOn_container (slot : FractionIx) (ids : List ContainerIx) (s : State) (i : ContainerIx) :
    (s.plannedOn slot ids).container i = s.container i := by
  simp [State.plannedOn, State.container]

theorem plannedOn_stations (slot : FractionIx) (ids : List ContainerIx) (s : State) :
    (s.plannedOn slot ids).stations = s.stations := by
  unfold State.plannedOn
  rfl

theorem plannedOn_skipped (slot : FractionIx) (ids : List ContainerIx) (s : State) (c : Container) :
    (s.plannedOn slot ids).skippedAtBuild c = s.skippedAtBuild c := by
  simp [State.plannedOn, State.skippedAtBuild]

/-- Pass 1 can take the request of a container: configured, its station not locked, IDLE or in SESSION (R142). -/
def State.reachable (s : State) (i : ContainerIx) : Bool := (s.container i).any fun c => !s.skippedAtBuild c

/-- The containers of some pairs as a build takes them. -/
def State.takenList (s : State) (origin : Origin) (xs : List (ContainerIx × Nat)) : List Taken :=
  xs.filterMap (s.takenAs origin)

theorem pass1_fold (slot : FractionIx) (limit : Nat) (s : State) (l : List ContainerIx) (b : Build)
    (ids : List ContainerIx) (hb : b.state = s.plannedOn slot ids) (hn : l.Nodup) (hd : ∀ i ∈ l, i ∉ ids) :
    let g := greedy (limit - b.taken.length) b.budget ((l.filter s.reachable).map fun i => (i, s.volumeOf i))
    l.foldl (Build.pass1 slot limit) b =
      { state := s.plannedOn slot (ids ++ g.map Prod.fst), budget := b.budget - (g.map Prod.snd).sum,
        taken := b.taken ++ s.takenList .raised g } := by
  induction l generalizing b ids with
  | nil =>
    have hg : ∀ n m, greedy n m [] = [] := fun n m => by cases n <;> rfl
    simp [hg, State.takenList, ← hb]
  | cons i l ih =>
    rw [List.nodup_cons] at hn
    have hd' : ∀ j ∈ l, j ∉ ids := fun j hj => hd j (List.mem_cons_of_mem _ hj)
    rw [List.foldl_cons]
    cases hc : s.container i with
    | none =>
      have hp : Build.pass1 slot limit b i = b := by
        unfold Build.pass1
        rw [hb, plannedOn_container, hc]
      have hr : s.reachable i = false := by simp [State.reachable, hc]
      rw [hp, ih b ids hb hn.2 hd']
      simp [hr]
    | some c =>
      have hv : s.volumeOf i = c.plannedVolume := by simp [State.volumeOf, hc]
      cases hs : s.skippedAtBuild c with
      | true =>
        have hp : Build.pass1 slot limit b i = b := by
          unfold Build.pass1
          rw [hb, plannedOn_container, hc]
          dsimp only
          have : (s.plannedOn slot ids).skippedAtBuild c = true := (plannedOn_skipped ..).trans hs
          rw [if_neg (by simp [this])]
        have hr : s.reachable i = false := by simp [State.reachable, hc, hs]
        rw [hp, ih b ids hb hn.2 hd']
        simp [hr]
      | false =>
        have hr : s.reachable i = true := by simp [State.reachable, hc, hs]
        have hs' : (s.plannedOn slot ids).skippedAtBuild c = false := (plannedOn_skipped ..).trans hs
        rw [List.filter_cons_of_pos hr, List.map_cons]
        by_cases hl : b.taken.length < limit
        · obtain ⟨n, hn'⟩ : ∃ n, limit - b.taken.length = n + 1 := ⟨limit - b.taken.length - 1, by omega⟩
          rw [hn']
          by_cases hf : c.plannedVolume ≤ b.budget
          · have hp : Build.pass1 slot limit b i =
                { state := s.plannedOn slot (ids ++ [i]), budget := b.budget - c.plannedVolume,
                  taken := b.taken ++ s.takenList .raised [(i, c.plannedVolume)] } := by
              unfold Build.pass1
              rw [hb, plannedOn_container, hc]
              dsimp only
              rw [if_pos ⟨hs', by simp [Build.fits, hl, hf]⟩, ← hv, plannedOn_step slot ids i s (hd i (List.mem_cons_self ..))]
              simp [Build.add, State.takenList, State.takenAs, hc, hv, plannedOn_stations]
            rw [hp, ih _ (ids ++ [i]) rfl hn.2]
            · have hlen : limit - (b.taken ++ s.takenList .raised [(i, c.plannedVolume)]).length = n := by
                simp [State.takenList, State.takenAs, hc]
                omega
              simp only [hlen, greedy, hv, hf, if_true]
              simp [State.takenList, State.takenAs, hc, Nat.sub_sub]
            · intro j hj
              have : j ≠ i := fun e => hn.1 (e ▸ hj)
              simp [hd' j hj, this]
          · have hp : Build.pass1 slot limit b i = b := by
              unfold Build.pass1
              rw [hb, plannedOn_container, hc]
              dsimp only
              rw [if_neg (by simp [Build.fits, hf])]
            rw [hp, ih b ids hb hn.2 hd', hn']
            simp only [greedy, hv, hf, if_false]
        · have h0 : limit - b.taken.length = 0 := by omega
          have hp : Build.pass1 slot limit b i = b := by
            unfold Build.pass1
            rw [hb, plannedOn_container, hc]
            dsimp only
            rw [if_neg (by simp [Build.fits, hl])]
          rw [hp, ih b ids hb hn.2 hd', h0]
          simp only [greedy]

/-! ### Pass 2 -/

/-- The pre-empted request of container i, PLANNED in a slot (R132). -/
def State.preemptedRequest (slot : FractionIx) (s : State) (i : ContainerIx) : Option Request :=
  (s.container i).map fun c => { c.raisedRequest s with origin := .preempt, state := .planned slot (s.volumeOf i) }

/-- The requests of some containers pre-empted into a slot (R132). -/
def State.preemptedOn (slot : FractionIx) (ids : List ContainerIx) (s : State) : State :=
  { s with
    containers := Vector.ofFn fun i : ContainerIx =>
      if i ∈ ids then
        { s.containers[i] with flags := { s.containers[i].flags with
            overdue := s.containers[i].flags.overdue || (s.preemptedRequest slot i).any Request.overdue } }
      else s.containers[i]
    requests := Vector.ofFn fun i : ContainerIx => if i ∈ ids then s.preemptedRequest slot i else s.requests[i] }

theorem preemptedOn_nil (slot : FractionIx) (s : State) : s.preemptedOn slot [] = s := by
  have h1 : (Vector.ofFn fun i : ContainerIx => if i ∈ ([] : List ContainerIx) then
      { s.containers[i] with flags := { s.containers[i].flags with
          overdue := s.containers[i].flags.overdue || (s.preemptedRequest slot i).any Request.overdue } }
      else s.containers[i]) = s.containers := by
    ext j hj
    simp
  have h2 : (Vector.ofFn fun i : ContainerIx => if i ∈ ([] : List ContainerIx) then s.preemptedRequest slot i
      else s.requests[i]) = s.requests := by
    ext j hj
    simp
  unfold State.preemptedOn
  rw [h1, h2]

theorem preempt_eq (i : ContainerIx) (c : Container) (slot : FractionIx) (s : State) (hc : s.container i = some c) :
    s.preempt i c slot (s.volumeOf i) =
      { s with
        containers := s.containers.set i { s.containers[i] with flags := { s.containers[i].flags with
          overdue := s.containers[i].flags.overdue || (s.preemptedRequest slot i).any Request.overdue } }
        requests := s.requests.set i (s.preemptedRequest slot i) } := by
  have hq : s.preemptedRequest slot i =
      some { s.newRequest c .preempt (.planned slot (s.volumeOf i)) with
        overdue := reached s.clock.district (s.newRequest c .preempt (.planned slot (s.volumeOf i))).deadline } := by
    unfold State.preemptedRequest
    rw [hc, Option.map_some]
    simp only [State.newRequest, Container.raisedRequest, satAdd, reached, held_toNat]
  unfold State.preempt
  rw [markOverdue_eq i (s.newRequest c .preempt (.planned slot (s.volumeOf i))), hq]
  · simp [State.setRequest]
  · simp [State.setRequest]
  · rfl

theorem preemptedOn_container (slot : FractionIx) (ids : List ContainerIx) (s : State) (i : ContainerIx) :
    (s.preemptedOn slot ids).container i = s.container i := by
  simp only [State.preemptedOn, State.container, Fin.getElem_fin, Vector.getElem_ofFn]
  split <;> rfl

theorem preemptedOn_step (slot : FractionIx) (ids : List ContainerIx) (i : ContainerIx) (c : Container) (s : State)
    (hc : s.container i = some c) (hi : i ∉ ids) :
    (s.preemptedOn slot ids).preempt i c slot (s.volumeOf i) = s.preemptedOn slot (ids ++ [i]) := by
  have hv : (s.preemptedOn slot ids).volumeOf i = s.volumeOf i := by
    unfold State.volumeOf
    rw [preemptedOn_container]
  have hq : (s.preemptedOn slot ids).preemptedRequest slot i = s.preemptedRequest slot i := by
    unfold State.preemptedRequest
    rw [preemptedOn_container, hv]
    simp [State.preemptedOn, Container.raisedRequest]
  have hr : (s.preemptedOn slot ids).containers[i] = s.containers[i] := by
    simp [State.preemptedOn, hi]
  rw [← hv, preempt_eq i c slot _ ((preemptedOn_container ..).trans hc), hq, hr]
  unfold State.preemptedOn
  apply State.eq_of_tables
  · ext j hj
    by_cases hji : i.val = j
    · subst hji
      simp
    · have : ¬ (⟨j, hj⟩ : ContainerIx) = i := fun e => hji (congrArg Fin.val e).symm
      simp [this, hji]
  · ext j hj
    by_cases hji : i.val = j
    · subst hji
      simp
    · have : ¬ (⟨j, hj⟩ : ContainerIx) = i := fun e => hji (congrArg Fin.val e).symm
      simp [this, hji]

theorem pass2_fold (slot : FractionIx) (limit : Nat) (s : State) (l : List ContainerIx) (b : Build)
    (ids : List ContainerIx) (hb : b.state = s.preemptedOn slot ids) (hn : l.Nodup) (hd : ∀ i ∈ l, i ∉ ids)
    (hs : ∀ i ∈ l, (s.container i).isSome) :
    let g := greedy (limit - b.taken.length) b.budget (l.map fun i => (i, s.volumeOf i))
    l.foldl (Build.pass2 slot limit) b =
      { state := s.preemptedOn slot (ids ++ g.map Prod.fst), budget := b.budget - (g.map Prod.snd).sum,
        taken := b.taken ++ s.takenList .preempt g } := by
  induction l generalizing b ids with
  | nil =>
    have hg : ∀ n m, greedy n m [] = [] := fun n m => by cases n <;> rfl
    simp [hg, State.takenList, ← hb]
  | cons i l ih =>
    rw [List.nodup_cons] at hn
    have hd' : ∀ j ∈ l, j ∉ ids := fun j hj => hd j (List.mem_cons_of_mem _ hj)
    have hs' : ∀ j ∈ l, (s.container j).isSome := fun j hj => hs j (List.mem_cons_of_mem _ hj)
    obtain ⟨c, hc⟩ := Option.isSome_iff_exists.mp (hs i (List.mem_cons_self ..))
    have hv : s.volumeOf i = c.plannedVolume := by simp [State.volumeOf, hc]
    rw [List.foldl_cons, List.map_cons]
    by_cases hl : b.taken.length < limit
    · obtain ⟨n, hn'⟩ : ∃ n, limit - b.taken.length = n + 1 := ⟨limit - b.taken.length - 1, by omega⟩
      rw [hn']
      by_cases hf : c.plannedVolume ≤ b.budget
      · have hp : Build.pass2 slot limit b i =
            { state := s.preemptedOn slot (ids ++ [i]), budget := b.budget - c.plannedVolume,
              taken := b.taken ++ s.takenList .preempt [(i, c.plannedVolume)] } := by
          unfold Build.pass2
          rw [hb, preemptedOn_container, hc]
          dsimp only
          rw [if_pos (by simp [Build.fits, hl, hf]), ← hv, preemptedOn_step slot ids i c s hc (hd i (List.mem_cons_self ..))]
          simp [Build.add, State.takenList, State.takenAs, hc, hv, State.preemptedOn]
        rw [hp, ih _ (ids ++ [i]) rfl hn.2 _ hs']
        · have hlen : limit - (b.taken ++ s.takenList .preempt [(i, c.plannedVolume)]).length = n := by
            simp [State.takenList, State.takenAs, hc]
            omega
          simp only [hlen, greedy, hv, hf, if_true]
          simp [State.takenList, State.takenAs, hc, Nat.sub_sub]
        · intro j hj
          have : j ≠ i := fun e => hn.1 (e ▸ hj)
          simp [hd' j hj, this]
      · have hp : Build.pass2 slot limit b i = b := by
          unfold Build.pass2
          rw [hb, preemptedOn_container, hc]
          dsimp only
          rw [if_neg (by simp [Build.fits, hf])]
        rw [hp, ih b ids hb hn.2 hd' hs', hn']
        simp only [greedy, hv, hf, if_false]
    · have h0 : limit - b.taken.length = 0 := by omega
      have hp : Build.pass2 slot limit b i = b := by
        unfold Build.pass2
        rw [hb, preemptedOn_container, hc]
        dsimp only
        rw [if_neg (by simp [Build.fits, hl])]
      rw [hp, ih b ids hb hn.2 hd' hs', h0]
      simp only [greedy]

end Sys2Proof.Machine
end

