-- ==== Sys2Proof/Laws/Fields.lean ====
section
/-! SUPPORT. The numbers that bytes spell (R175): what the parser of Operands.lean reads from the bytes of a request is what
the fields' words hold. -/

namespace Sys2Proof.Machine

theorem beNat_two (a b : Byte) : beNat [a, b] = (word16 a b).toNat := by
  simp only [beNat, List.foldl, word16, BitVec.toNat_append, Nat.shiftLeft_eq]
  rw [Nat.mul_comm _ (2 ^ 8), ← Nat.two_pow_add_eq_or_of_lt b.isLt]
  omega

theorem beNat_four (a b c d : Byte) : beNat [a, b, c, d] = (word32 a b c d).toNat := by
  simp only [beNat, List.foldl, word32, BitVec.toNat_append, Nat.shiftLeft_eq]
  rw [Nat.mul_comm _ (2 ^ 8), Nat.mul_comm _ (2 ^ 8), Nat.mul_comm _ (2 ^ 8), ← Nat.two_pow_add_eq_or_of_lt b.isLt,
    ← Nat.two_pow_add_eq_or_of_lt c.isLt, ← Nat.two_pow_add_eq_or_of_lt d.isLt]
  omega

theorem ofNat_two (a b : Byte) : BitVec.ofNat 16 (beNat [a, b]) = word16 a b := by
  rw [beNat_two]
  exact BitVec.ofNat_toNat _ _ ▸ BitVec.setWidth_eq _

theorem ofNat_four (a b c d : Byte) : BitVec.ofNat 32 (beNat [a, b, c, d]) = word32 a b c d := by
  rw [beNat_four]
  exact BitVec.ofNat_toNat _ _ ▸ BitVec.setWidth_eq _

end Sys2Proof.Machine
end

