-- ==== Sys2Proof/Laws/PerInstr.lean ====
section
/-! SUPPORT. A statement about every command as syntax, made per command: only UPLINK_FRAME_RECEIVED can be ill formed, and
no word spells a command, since no row of the opcode table gives bits. -/

namespace Sys2Proof.Laws.Operands

/-- A command is ill formed only if it is UPLINK_FRAME_RECEIVED with bytes that are no whole frame, and no word spells it. -/
def Statement (i : Instr) : Prop :=
  (i.wellFormed = false → ∃ bytes, i = .uplinkFrameReceived bytes ∧ wholeFrame bytes = false) ∧
    ∀ nbits w, decodeTableWord nbits w ≠ some i

/-- A command that is well formed at these operands. -/
theorem of_wellFormed {i : Instr} (h : i.wellFormed = true) : Statement i :=
  ⟨fun h' => absurd (h.symm.trans h') Bool.noConfusion, fun _ _ h' => nomatch h'⟩

theorem powerOnReset (rate1 rate0 : Bool) : Statement (.powerOnReset rate1 rate0) := of_wellFormed rfl
theorem uplinkFrameReceived (bytes : List Byte) : Statement (.uplinkFrameReceived bytes) :=
  ⟨fun h => ⟨bytes, rfl, h⟩, fun _ _ h => nomatch h⟩
theorem interbyteTimeout : Statement .interbyteTimeout := of_wellFormed rfl
theorem requestUnknownKind : Statement .requestUnknownKind := of_wellFormed rfl
theorem cardPut : Statement .cardPut := of_wellFormed rfl
theorem cardDrop : Statement .cardDrop := of_wellFormed rfl
theorem cardStatus : Statement .cardStatus := of_wellFormed rfl
theorem cardGet : Statement .cardGet := of_wellFormed rfl
theorem periodRoll : Statement .periodRoll := of_wellFormed rfl
theorem stationPut : Statement .stationPut := of_wellFormed rfl
theorem stationGet : Statement .stationGet := of_wellFormed rfl
theorem lock : Statement .lock := of_wellFormed rfl
theorem unlock : Statement .unlock := of_wellFormed rfl
theorem stationMessage : Statement .stationMessage := of_wellFormed rfl
theorem containerPut : Statement .containerPut := of_wellFormed rfl
theorem containerGet : Statement .containerGet := of_wellFormed rfl
theorem containerClear : Statement .containerClear := of_wellFormed rfl
theorem clearInlet : Statement .clearInlet := of_wellFormed rfl
theorem clearSensor : Statement .clearSensor := of_wellFormed rfl
theorem fractionPut : Statement .fractionPut := of_wellFormed rfl
theorem requestCancel : Statement .requestCancel := of_wellFormed rfl
theorem roundOpen : Statement .roundOpen := of_wellFormed rfl
theorem roundClose : Statement .roundClose := of_wellFormed rfl
theorem lineStart : Statement .lineStart := of_wellFormed rfl
theorem lineStop : Statement .lineStop := of_wellFormed rfl
theorem lineTest : Statement .lineTest := of_wellFormed rfl
theorem settingsPut : Statement .settingsPut := of_wellFormed rfl
theorem settingsGet : Statement .settingsGet := of_wellFormed rfl
theorem timeSet : Statement .timeSet := of_wellFormed rfl
theorem statusGet : Statement .statusGet := of_wellFormed rfl
theorem restart : Statement .restart := of_wellFormed rfl
theorem senderFrameStart (cts : Bool) : Statement (.senderFrameStart cts) := of_wellFormed rfl
theorem responseFrameSent : Statement .responseFrameSent := of_wellFormed rfl
theorem deferredResponseSent : Statement .deferredResponseSent := of_wellFormed rfl
theorem roundListFrameSent : Statement .roundListFrameSent := of_wellFormed rfl
theorem depositRecordSent : Statement .depositRecordSent := of_wellFormed rfl
theorem relayedReportSent : Statement .relayedReportSent := of_wellFormed rfl
theorem noticeFrameSent : Statement .noticeFrameSent := of_wellFormed rfl
theorem secondsAdvance : Statement .secondsAdvance := of_wellFormed rfl
theorem requestOverdueMarking : Statement .requestOverdueMarking := of_wellFormed rfl
theorem roundDeadlineExpiry : Statement .roundDeadlineExpiry := of_wellFormed rfl
theorem hatchDeadlineExpiry : Statement .hatchDeadlineExpiry := of_wellFormed rfl
theorem liftDeadlineExpiry : Statement .liftDeadlineExpiry := of_wellFormed rfl
theorem emptyListWrapInterval : Statement .emptyListWrapInterval := of_wellFormed rfl
theorem pollTransmission : Statement .pollTransmission := of_wellFormed rfl
theorem replyWindowExpiry : Statement .replyWindowExpiry := of_wellFormed rfl
theorem replyStart (address : Byte) : Statement (.replyStart address) := of_wellFormed rfl
theorem replyLengthLimit : Statement .replyLengthLimit := of_wellFormed rfl
theorem replyOverrunTurnEnd : Statement .replyOverrunTurnEnd := of_wellFormed rfl
theorem replyEnd (chars : List LineChar) : Statement (.replyEnd chars) := of_wellFormed rfl
theorem closingTransmissionEnd : Statement .closingTransmissionEnd := of_wellFormed rfl
theorem testTransmission : Statement .testTransmission := of_wellFormed rfl
theorem testTransmissionJudged (heard : List LineChar) : Statement (.testTransmissionJudged heard) := of_wellFormed rfl
theorem pollTransmissionEnd : Statement .pollTransmissionEnd := of_wellFormed rfl
theorem syncByteReceived : Statement .syncByteReceived := of_wellFormed rfl
theorem lengthFieldExceeded : Statement .lengthFieldExceeded := of_wellFormed rfl

end Sys2Proof.Laws.Operands
end

