-- ==== Sys2Proof/Laws/Positions.lean ====
section
/-! SUPPORT. Positions from the numbers that a request or a frame carries, and fields read back from their bytes. -/

namespace Sys2Proof.Machine

theorem stationIx?_none {n : Nat} (h : n = 0 ∨ 48 < n) : stationIx? n = none := by
  unfold stationIx?; rw [dif_neg]; show ¬ (1 ≤ n ∧ n ≤ 48); omega

theorem stationIx?_addr {n : Nat} {a : StationIx} (h : n = addr a) : stationIx? n = some a := by
  subst h; have := a.isLt; unfold stationIx? addr; rw [dif_pos]
  · simp
  · exact ⟨by omega, by change _ < 48 at this; show _ ≤ 48; omega⟩

theorem inletIx?_none {n : Nat} (h : n = 0 ∨ 4 < n) : inletIx? n = none := by
  unfold inletIx?; rw [dif_neg]; show ¬ (1 ≤ n ∧ n ≤ 4); omega

theorem inletIx?_inletNo {n : Nat} {a : InletIx} (h : n = inletNo a) : inletIx? n = some a := by
  subst h; have := a.isLt; unfold inletIx? inletNo; rw [dif_pos]
  · simp
  · exact ⟨by omega, by change _ < 4 at this; show _ ≤ 4; omega⟩

theorem containerIx?_none {n : Nat} (h : 128 ≤ n) : containerIx? n = none := by
  unfold containerIx?; rw [dif_neg]; show ¬ (n < 128); omega

theorem containerIx?_val {n : Nat} {a : ContainerIx} (h : n = a.val) : containerIx? n = some a := by
  subst h; unfold containerIx?; rw [dif_pos a.isLt]

theorem fractionIx?_none {n : Nat} (h : 4 ≤ n) : fractionIx? n = none := by
  unfold fractionIx?; rw [dif_neg]; show ¬ (n < 4); omega

theorem fractionIx?_val {n : Nat} {a : FractionIx} (h : n = a.val) : fractionIx? n = some a := by
  subst h; unfold fractionIx?; rw [dif_pos a.isLt]

theorem beNat_be2 {n : Nat} (h : n < 65536) : beNat (be2 n) = n := by
  simp [beNat, be2, byte]; omega
theorem beNat_be4 {n : Nat} (h : n < 4294967296) : beNat (be4 n) = n := by
  simp [beNat, be4, byte]; omega

theorem inletNo_of_inletIx? {n : Nat} {a : InletIx} (h : inletIx? n = some a) : inletNo a = n := by
  unfold inletIx? at h
  split at h
  · simp at h; subst h; simp [inletNo]; omega
  · cases h

end Sys2Proof.Machine
end

