-- ==== Sys2Proof/Laws/Queues.lean ====
section
/-! SUPPORT. What a judged request does to the management request FIFO, the response queue and the count of deferred
responses outstanding, said once; and the frame of the take. -/

namespace Sys2Proof.Machine

/-! ### States with the same queues -/

/-- Two states hold the same FIFO, response queue and outstanding count. -/
structure SameQueues (s t : State) : Prop where
  fifo : t.intake.fifo = s.intake.fifo
  responses : t.responses = s.responses
  outstanding : t.outstanding = s.outstanding

theorem SameQueues.refl (s : State) : SameQueues s s := ⟨rfl, rfl, rfl⟩

theorem SameQueues.trans {s t u : State} (h : SameQueues s t) (k : SameQueues t u) : SameQueues s u :=
  ⟨k.1.trans h.1, k.2.trans h.2, k.3.trans h.3⟩

theorem OnlyTurn.queues {s t : State} (h : OnlyTurn s t) : SameQueues s t :=
  ⟨by rw [h.intake], h.responses, h.outstanding⟩

theorem OnlyRounds.queues {s t : State} (h : OnlyRounds s t) : SameQueues s t := h.toOnlyTurn.queues
theorem OnlyContainers.queues {s t : State} (h : OnlyContainers s t) : SameQueues s t := h.toOnlyTurn.queues

/-- The codes that say a request has changed nothing (R157). -/
def ResultCode.refuses : ResultCode → Bool
  | .done => false
  | .staged => false
  | .failed => false
  | .range => true
  | .full => true
  | .absent => true
  | .collide => true
  | .state => true
  | .busy => true
  | .unknown => true

/-- An answer to the request f: the FIFO stays, at most one response joins the queue, at most one more is outstanding; and an
answer with a code that refuses is nothing but the response (R157). -/
structure Answers (f : RequestFrame) (s t : State) : Prop where
  fifo : t.intake.fifo = s.intake.fifo
  responses : t.responses.length ≤ s.responses.length + 1
  outstanding : t.outstanding ≤ s.outstanding + 1
  refused : ∀ code data, code.refuses = true →
    t.responses = s.responses ++ [{ kind := f.kind, tag := f.tag, code, data }] → t = s.respond f code data

/-- A state whose response queue is another's with one response behind it, of a code that does not refuse. -/
theorem SameQueues.answered {s u t : State} (h : SameQueues s u) (f : RequestFrame) {c : ResultCode} (d : List Byte)
    (hc : c.refuses = false) (ht : SameQueues (u.respond f c d) t) : Answers f s t := by
  have hr : t.responses = s.responses ++ [{ kind := f.kind, tag := f.tag, code := c, data := d }] := by
    rw [ht.responses, ← h.responses]
    rfl
  refine ⟨ht.fifo.trans h.fifo, ?_, ?_, fun code data hcode he => ?_⟩
  · rw [hr, List.length_append]
    exact Nat.le_refl _
  · rw [ht.outstanding, ← h.outstanding]
    exact Nat.le_succ _
  · rw [hr, List.append_cancel_left_eq] at he
    injection he with he
    injection he with _ _ he _
    rw [← he, hc] at hcode
    cases hcode

/-- What is done after a change that keeps the queues is an answer, unless its code refuses. -/
theorem SameQueues.respond {s u : State} (h : SameQueues s u) (f : RequestFrame) {c : ResultCode} (d : List Byte)
    (hc : c.refuses = false) : Answers f s (u.respond f c d) := h.answered f d hc (.refl _)

theorem respond_answers (s : State) (f : RequestFrame) (c : ResultCode) (d : List Byte) : Answers f s (s.respond f c d) := by
  refine ⟨rfl, ?_, Nat.le_succ _, fun code data _ he => ?_⟩
  · show (s.responses ++ [_]).length ≤ _
    rw [List.length_append]
    exact Nat.le_refl _
  · change s.responses ++ [_] = _ at he
    rw [List.append_cancel_left_eq] at he
    injection he with he
    injection he with _ _ h1 h2
    rw [← h1, ← h2]

theorem SameQueues.deferral {s u : State} (h : SameQueues s u) (f : RequestFrame) : Answers f s u.deferral := by
  refine ⟨h.fifo, ?_, ?_, fun code data _ he => ?_⟩
  · show u.responses.length ≤ _
    rw [h.responses]
    exact Nat.le_succ _
  · show u.outstanding + 1 ≤ _
    rw [h.outstanding]
  · change u.responses = _ at he
    rw [h.responses] at he
    simp at he

/-! ### Every judgement answers -/

theorem cardPut_queues (f : RequestFrame) (s : State) : Answers f s (s.cardPut f) := by
  unfold State.cardPut
  split
  · exact respond_answers ..
  · split
    · split
      · exact respond_answers ..
      · refine SameQueues.respond ?_ _ _ rfl; exact ⟨rfl, rfl, rfl⟩
    · split
      · exact respond_answers ..
      · refine SameQueues.respond ?_ _ _ rfl; exact ⟨rfl, rfl, rfl⟩

theorem cardDrop_queues (f : RequestFrame) (s : State) : Answers f s (s.cardDrop f) := by
  unfold State.cardDrop
  dsimp only
  split
  · exact respond_answers ..
  · split
    · exact respond_answers ..
    · split
      · exact respond_answers ..
      · refine SameQueues.respond ?_ _ _ rfl; exact ⟨rfl, rfl, rfl⟩

theorem cardStatus_queues (f : RequestFrame) (s : State) : Answers f s (s.cardStatus f) := by
  unfold State.cardStatus
  dsimp only
  split
  · exact respond_answers ..
  · split
    · exact respond_answers ..
    · split
      · exact respond_answers ..
      · refine SameQueues.respond ?_ _ _ rfl; exact ⟨rfl, rfl, rfl⟩

theorem cardGet_queues (f : RequestFrame) (s : State) : Answers f s (s.cardGet f) := by
  unfold State.cardGet
  dsimp only
  repeat' split
  all_goals exact respond_answers ..

theorem periodRoll_queues (f : RequestFrame) (s : State) : Answers f s (s.periodRoll f) :=
  SameQueues.respond (s := s) (u := { s with
    cards := s.cards.map fun c => { c with used := Vector.replicate _ 0 }, period := BitVec.ofNat 16 (f.u16 1) })
    ⟨rfl, rfl, rfl⟩ _ _ rfl

theorem stationPut_queues (f : RequestFrame) (s : State) : Answers f s (s.stationPut f) := by
  unfold State.stationPut
  repeat' split
  all_goals first
    | exact respond_answers ..
    | exact (applyStation_only ..).queues.respond _ _ rfl
    | exact (modStation_only ..).queues.respond _ _ rfl

theorem stationGet_queues (f : RequestFrame) (s : State) : Answers f s (s.stationGet f) := by
  unfold State.stationGet
  split <;> exact respond_answers ..

theorem lockStation_queues (f : RequestFrame) (s : State) : Answers f s (s.lockStation f) := by
  unfold State.lockStation
  split
  · exact respond_answers ..
  · split
    · exact respond_answers ..
    · split
      · exact (addReason_only ..).queues.respond _ _ rfl
      · exact (lockoutEntry_only ..).queues.respond _ _ rfl

theorem unlockStation_queues (f : RequestFrame) (s : State) : Answers f s (s.unlockStation f) := by
  unfold State.unlockStation
  repeat' split
  all_goals first | exact respond_answers .. | exact (leaveLock_only ..).queues.respond _ _ rfl

theorem stationMessage_queues (f : RequestFrame) (s : State) : Answers f s (s.stationMessage f) := by
  unfold State.stationMessage
  dsimp only
  repeat' split
  all_goals first | exact respond_answers .. | exact (modStation_only ..).queues.deferral f

theorem containerPut_queues (f : RequestFrame) (s : State) : Answers f s (s.containerPut f) := by
  have hw : ∀ i c b p, Answers f s (s.writeContainer f i c b p) := by
    intro i c b p
    unfold State.writeContainer
    split
    · exact ((modContainer_only ..).trans (applyParams_only ..)).queues.respond _ _ rfl
    · exact (modContainer_only ..).queues.respond _ _ rfl
  unfold State.containerPut
  split
  · exact respond_answers ..
  · split
    · split
      · exact respond_answers ..
      · exact (configure_only ..).queues.respond _ _ rfl
    · split
      · exact hw ..
      · split
        · exact respond_answers ..
        · split
          · exact respond_answers ..
          · exact hw ..

theorem containerGet_queues (f : RequestFrame) (s : State) : Answers f s (s.containerGet f) := by
  unfold State.containerGet
  split <;> exact respond_answers ..

theorem containerClear_queues (f : RequestFrame) (s : State) : Answers f s (s.containerClear f) := by
  unfold State.containerClear
  repeat' split
  all_goals first | exact respond_answers .. | exact (modRec_only ..).queues.respond _ _ rfl

theorem clearInlet_queues (f : RequestFrame) (s : State) : Answers f s (s.clearInlet f) := by
  unfold State.clearInlet
  repeat' split
  all_goals first | exact respond_answers .. | exact (faultToIdle_only ..).queues.respond _ _ rfl

theorem clearSensor_queues (f : RequestFrame) (s : State) : Answers f s (s.clearSensor f) := by
  unfold State.clearSensor
  repeat' split
  all_goals first
    | exact respond_answers ..
    | exact ((modContainer_only ..).trans (raise_sensor_only ..).toOnlyContainers).queues.respond _ _ rfl

theorem fractionPut_queues (f : RequestFrame) (s : State) : Answers f s (s.fractionPut f) := by
  unfold State.fractionPut
  split
  · exact respond_answers ..
  · refine SameQueues.respond ?_ _ _ rfl; exact ⟨rfl, rfl, rfl⟩

theorem requestCancel_queues (f : RequestFrame) (s : State) : Answers f s (s.requestCancel f) := by
  unfold State.requestCancel
  repeat' split
  all_goals first | exact respond_answers .. | exact (setRequest_only ..).queues.respond _ _ rfl

theorem settle_queues (f : RequestFrame) (r : RoundFields) (b : Build) {s : State} (h : SameQueues s b.state) :
    Answers f s (b.settle f r) := by
  unfold Build.settle
  split
  · exact h.respond _ _ rfl
  · dsimp only
    refine SameQueues.answered (h.trans (modSlot_only b.state r.fraction fun x =>
      { x with round := some (b.state.newRound f r b.taken) }).queues) f
      ([byte (b.state.newRound f r b.taken).entries.length] ++ be4 (b.state.newRound f r b.taken).total) (c := .done) rfl
      (.trans ?_ (expireRound_only ..).queues)
    exact ⟨rfl, rfl, rfl⟩

theorem roundOpen_queues (f : RequestFrame) (s : State) : Answers f s (s.roundOpen f) := by
  unfold State.roundOpen
  split
  · exact respond_answers ..
  · split
    · exact respond_answers ..
    · split
      · exact settle_queues _ _ _ (build_only ..).queues
      · exact respond_answers ..

theorem roundClose_queues (f : RequestFrame) (s : State) : Answers f s (s.roundClose f) := by
  unfold State.roundClose
  split
  · exact respond_answers ..
  · split
    · exact respond_answers ..
    · exact (closeRound_only ..).queues.respond _ _ rfl

theorem lineStart_queues (f : RequestFrame) (s : State) : Answers f s (s.lineStart f) := by
  unfold State.lineStart
  split
  · refine SameQueues.respond (c := .done) ?_ f [] rfl
    have first := withLine_only s { s.line with state := .running, nextTurn := none }
    exact (OnlyTurn.ite (by constructor <;> rfl) (first.trans (wrap_only _))).queues
  · dsimp only
    split <;> (refine SameQueues.respond ?_ _ _ rfl; exact ⟨rfl, rfl, rfl⟩)
  · exact respond_answers ..
  · exact respond_answers ..

theorem lineStop_queues (f : RequestFrame) (s : State) : Answers f s (s.lineStop f) := by
  unfold State.lineStop
  split
  · split
    · refine SameQueues.respond ?_ _ _ rfl; exact ⟨rfl, rfl, rfl⟩
    · refine SameQueues.deferral ?_ f; exact ⟨rfl, rfl, rfl⟩
  all_goals exact respond_answers ..

theorem lineTest_queues (f : RequestFrame) (s : State) : Answers f s (s.lineTest f) := by
  unfold State.lineTest
  split
  · refine SameQueues.deferral ?_ f; exact ⟨rfl, rfl, rfl⟩
  all_goals exact respond_answers ..

theorem settingsPut_queues (f : RequestFrame) (s : State) : Answers f s (s.settingsPut f) := by
  unfold State.settingsPut
  split
  · exact respond_answers ..
  · split
    · exact respond_answers ..
    · refine SameQueues.respond ?_ _ _ rfl; exact ⟨rfl, rfl, rfl⟩

theorem settingsGet_queues (f : RequestFrame) (s : State) : Answers f s (s.settingsGet f) := respond_answers ..

theorem afterTime_queues (s : State) : SameQueues s s.afterTime := (afterTime_only s).queues

theorem timeSet_queues (f : RequestFrame) (s : State) : Answers f s (s.timeSet f) := by
  unfold State.timeSet
  dsimp only
  refine SameQueues.respond (.trans ?_ (afterTime_queues _)) _ _ rfl
  exact ⟨rfl, rfl, rfl⟩

theorem statusGet_queues (f : RequestFrame) (s : State) : Answers f s (s.statusGet f) := by
  unfold State.statusGet
  refine SameQueues.respond ?_ _ _ rfl; exact ⟨rfl, rfl, rfl⟩

theorem cutFrame_queues (s : State) : SameQueues s s.cutFrame := by
  unfold State.cutFrame
  dsimp only
  split
  · next p _ => cases p <;> exact ⟨rfl, rfl, rfl⟩
  · exact ⟨rfl, rfl, rfl⟩

theorem restart_queues (f : RequestFrame) (s : State) : Answers f s (s.restart f) := by
  unfold State.restart
  dsimp only
  have h1 : SameQueues s s.restartTurn := by
    unfold State.restartTurn
    dsimp only
    split <;> exact ⟨rfl, rfl, rfl⟩
  have h2 : ∀ u : State, SameQueues u u.restartLine := by
    intro u
    unfold State.restartLine
    dsimp only
    split <;> exact ⟨rfl, rfl, rfl⟩
  have h := ((((h1.trans (abortAll_only _).queues).trans (h2 _)).trans (restartStations_only _).queues).trans
    (restartRounds_only _).queues).trans (cutFrame_queues _)
  have h3 : ∀ u : State, SameQueues u { u with device := { u.device with startFlag := true, startReason := .restart } } :=
    fun u => ⟨rfl, rfl, rfl⟩
  exact SameQueues.respond (h.trans (h3 _)) _ _ rfl

/-! ### The take (R156) -/

/-- A request stands at the head and both conditions hold: the take gives it and the state without it. -/
theorem State.Takes.take {s : State} {f : RequestFrame} {rest : List RequestFrame} (h : s.Takes f rest) :
    s.take = some (f, s.took rest) := by
  obtain ⟨hf, hr, ho⟩ := h
  unfold State.take
  rw [hf]
  exact if_pos ⟨hr, ho⟩

/-- A request of the kind, at a length of the kind, is judged on the state without it. -/
theorem State.Takes.judged {s : State} {f : RequestFrame} {rest : List RequestFrame} (h : s.Takes f rest) {kind : Byte}
    {ok : Nat → Bool} {judge : RequestFrame → State → State} (hk : f.kind = kind) (hl : ok f.payload.length = true) :
    s.takeRequest kind ok judge = judge f (s.took rest) := by
  unfold State.takeRequest
  rw [h.take]
  simp only [hk, hl, if_true]

/-- A request of the kind at a length that is not the kind's is answered RANGE. -/
theorem State.Takes.badLength {s : State} {f : RequestFrame} {rest : List RequestFrame} (h : s.Takes f rest) {kind : Byte}
    {ok : Nat → Bool} {judge : RequestFrame → State → State} (hk : f.kind = kind) (hl : ok f.payload.length = false) :
    s.takeRequest kind ok judge = (s.took rest).respond f .range [] := by
  unfold State.takeRequest
  rw [h.take]
  simp only [hk, hl, if_true, Bool.false_eq_true, if_false]

/-- A request of another kind at the head is not this command's occasion: nothing changes (log 1). -/
theorem State.Takes.otherKind {s : State} {f : RequestFrame} {rest : List RequestFrame} (h : s.Takes f rest) {kind : Byte}
    {ok : Nat → Bool} {judge : RequestFrame → State → State} (hk : f.kind ≠ kind) : s.takeRequest kind ok judge = s := by
  unfold State.takeRequest
  rw [h.take]
  simp only [hk, if_false]

/-- No request can be taken: nothing changes (log 1). -/
theorem takeRequest_none {s : State} (h : s.take = none) {kind : Byte} {ok : Nat → Bool}
    {judge : RequestFrame → State → State} : s.takeRequest kind ok judge = s := by
  unfold State.takeRequest
  rw [h]

/-- A take comes from a head request with both conditions met. -/
theorem takes_of_take {s t : State} {f : RequestFrame} (h : s.take = some (f, t)) :
    ∃ rest, s.Takes f rest ∧ t = s.took rest := by
  unfold State.take at h
  split at h
  · cases h
  · next g rest hf =>
    split at h
    · next hc => cases h; exact ⟨rest, ⟨hf, hc.1, hc.2⟩, rfl⟩
    · cases h

/-- The queues after the take of a request whose judgement answers: the FIFO is no longer, and both counts stay within the
bounds that the take's conditions leave. -/
theorem takeRequest_queues {s : State} (h : s.QueuesBounded) {kind : Byte} {ok : Nat → Bool}
    {judge : RequestFrame → State → State} (hj : ∀ f t, Answers f t (judge f t)) :
    (s.takeRequest kind ok judge).intake.fifo.length ≤ 4 ∧ (s.takeRequest kind ok judge).responses.length ≤ 8 ∧
      (s.takeRequest kind ok judge).outstanding ≤ 12 := by
  cases ht : s.take with
  | none => rw [takeRequest_none ht]; exact ⟨h.fifo, h.responses, h.outstanding⟩
  | some p =>
    obtain ⟨f, t⟩ := p
    obtain ⟨rest, htk, rfl⟩ := takes_of_take ht
    by_cases hk : f.kind = kind
    · have ha : Answers f (s.took rest) (s.takeRequest kind ok judge) := by
        cases hl : ok f.payload.length with
        | true => rw [htk.judged hk hl]; exact hj ..
        | false => rw [htk.badLength hk hl]; exact respond_answers ..
      obtain ⟨hf, hr, ho⟩ := htk
      have h4 := h.fifo
      rw [hf, List.length_cons] at h4
      refine ⟨?_, ?_, ?_⟩
      · rw [ha.fifo]; show rest.length ≤ 4; omega
      · have := ha.responses; change _ ≤ s.responses.length + 1 at this; omega
      · have := ha.outstanding; change _ ≤ s.outstanding + 1 at this; omega
    · rw [htk.otherKind hk]; exact ⟨h.fifo, h.responses, h.outstanding⟩

end Sys2Proof.Machine
end

