-- ==== Sys2Proof/Laws/Turns.lean ====
section
/-! SUPPORT. What lockouts, line faults, headers, station writes and wraps do, each as one update of the state: the operations
of the station table and of the line controller answer the states that Safety.lean names. A later proof cites these and
unfolds none of them. -/

namespace Sys2Proof.Machine

/-! ### Lockout entries -/

theorem modStation_twice (a : StationIx) (f g : Station → Station) (s : State) :
    (s.modStation a f).modStation a g = s.modStation a fun x => g (f x) := by
  unfold State.modStation
  rw [Vector.set_set, set_at]

theorem modStation_at (a : StationIx) (f : Station → Station) (s : State) : (s.modStation a f).stations[a] = f s.stations[a] :=
  set_at ..

theorem modStation_congr {a : StationIx} {f g : Station → Station} {s : State} (h : f s.stations[a] = g s.stations[a]) :
    s.modStation a f = s.modStation a g := by
  unfold State.modStation
  rw [h]

theorem modStation_own {a : StationIx} {f : Station → Station} {s : State} (h : f s.stations[a] = s.stations[a]) :
    s.modStation a f = s := by
  unfold State.modStation
  rw [h, Vector.set_own]

theorem stationAborted_eq (a : StationIx) (s : State) :
    s.stationAborted a = (s.sessionsAborted a).modStation a (Station.closing (s.sessionsAt a)) := rfl

theorem sessionsAborted_mod (a b : StationIx) (g : Station → Station) (s : State) :
    (s.modStation b g).sessionsAborted a = (s.sessionsAborted a).modStation b g := sessionsAborted_frame ..

theorem sessionsAborted_link (a b : StationIx) (g : Link → Link) (s : State) :
    (s.modLink b g).sessionsAborted a = (s.sessionsAborted a).modLink b g := sessionsAborted_frame ..

/-- The endings at a station leave the rest of its record alone. -/
theorem stationAborted_mod (a : StationIx) (g : Station → Station) (s : State)
    (hg : ∀ ended x, g (Station.closing ended x) = Station.closing ended (g x)) :
    (s.stationAborted a).modStation a g = (s.modStation a g).stationAborted a := by
  rw [stationAborted_eq, stationAborted_eq, sessionsAborted_mod, modStation_twice, modStation_twice]
  exact congrArg (fun f => State.modStation a f _) (funext fun x => hg _ x)

theorem stationAborted_link (a b : StationIx) (g : Link → Link) (s : State) :
    (s.modLink b g).stationAborted a = (s.stationAborted a).modLink b g := by
  rw [stationAborted_eq, stationAborted_eq, sessionsAborted_link]
  rfl

theorem lockoutEntry_eq (a : StationIx) (r : LockReasons) (s : State) :
    s.lockoutEntry a r =
      (s.modStation a fun x => { x with locked := true, reasons := r, lockFlag := true }).stationAborted a := by
  unfold State.lockoutEntry
  rw [abortStation_eq]
  show (State.stationAborted a _).modStation a (fun x => { x with lockFlag := true }) = _
  rw [stationAborted_mod, modStation_twice]
  intros; rfl

/-! ### Line faults -/

theorem answerMessage_eq (a : StationIx) (code : ResultCode) (s : State) :
    s.answerMessage a code = State.modStation a (fun x => { x with message := none })
      { s with deferred := s.messageAnswered a code } := by
  unfold State.answerMessage State.messageAnswered
  cases h : s.stations[a].message with
  | none => exact (modStation_own (f := fun x => { x with message := none }) (by dsimp only; rw [← h])).symm
  | some m => rfl

theorem addReason_eq (a : StationIx) (r : LockReasons) (s : State) :
    s.addReason a r = s.modStation a fun x => { x with
      reasons := x.reasons.union r
      lockFlag := x.lockFlag || (x.locked && decide (x.reasons.union r ≠ x.reasons)) } := by
  unfold State.addReason
  dsimp only
  split
  · next h =>
    show State.modStation a (fun x => { x with lockFlag := true }) _ = _
    rw [modStation_twice]
    have : (s.stations[a].locked && decide (s.stations[a].reasons.union r ≠ s.stations[a].reasons)) = true := by
      rw [Bool.and_eq_true, decide_eq_true_eq]; exact h
    exact modStation_congr (by rw [this, Bool.or_true])
  · next h =>
    have : (s.stations[a].locked && decide (s.stations[a].reasons.union r ≠ s.stations[a].reasons)) = false := by
      rw [← Bool.not_eq_true]; simpa using h
    exact modStation_congr (by rw [this, Bool.or_false])

theorem messageAnswered_mod (a : StationIx) (code : ResultCode) (f : Station → Station) (s : State)
    (hf : ∀ x, (f x).message = x.message) : (s.modStation a f).messageAnswered a code = s.messageAnswered a code := by
  unfold State.messageAnswered
  rw [modStation_at, hf]
  rfl

theorem messageAnswered_link (a b : StationIx) (code : ResultCode) (f : Link → Link) (s : State) :
    (s.modLink b f).messageAnswered a code = s.messageAnswered a code := rfl

theorem deferred_mod (a : StationIx) (f : Station → Station) (d : List Response) (s : State) :
    { s.modStation a f with deferred := d } = State.modStation a f { s with deferred := d } := rfl

theorem lineFaulted_fresh {x : Station} (hf : x.fault = false) (hl : x.locked = false) :
    ({ x with
      fault := true, hold := false, locked := true, reasons := .ofLine, message := none, lockFlag := true } : Station) =
      { x.lineFaulted with lineFlag := x.lineFlag } := by
  unfold Station.lineFaulted
  rw [if_neg (by simp [hf, hl])]
  rfl

theorem lineFaulted_again {x : Station} (h : x.locked = true ∨ x.fault = true) :
    ({ x with
      fault := true, hold := false, reasons := x.reasons.union .ofLine, message := none
      lockFlag := x.lockFlag || (x.locked && decide (x.reasons.union .ofLine ≠ x.reasons)) } : Station) =
      { x.lineFaulted with lineFlag := x.lineFlag } := by
  unfold Station.lineFaulted
  rw [if_pos h]
  rcases x.reasons with ⟨r1, r2, r3⟩
  simp [LockReasons.union, LockReasons.ofLine]

theorem lineFault_eq (a : StationIx) (s : State) :
    s.lineFault a =
      let t := State.modStation a (fun x => { x.lineFaulted with lineFlag := x.lineFlag })
        { s with deferred := s.messageAnswered a .failed }
      if s.stations[a].entersLockout then t.stationAborted a else t := by
  unfold State.lineFault Station.entersLockout
  dsimp only
  rw [addReason_eq, answerMessage_eq]
  simp only [deferred_mod, modStation_twice, lockoutEntry_eq]
  cases hf : s.stations[a].fault <;> cases hl : s.stations[a].locked <;>
    simp only [Bool.not_true, Bool.not_false, Bool.and_true, Bool.and_false, if_true, Bool.false_eq_true,
      Bool.true_eq_false, if_false, and_true, and_false, and_self]
  all_goals
    rw [messageAnswered_mod]
    swap
    · intro x; rfl
  case false.false => exact congrArg (State.stationAborted a) (modStation_congr (lineFaulted_fresh hf hl))
  case false.true => exact modStation_congr (lineFaulted_again (.inl hl))
  all_goals exact modStation_congr (lineFaulted_again (.inr hf))

theorem lineFaulted_raised (x : Station) :
    ({ ({ x with lineFlag := true } : Station).lineFaulted with lineFlag := true } : Station) = x.lineFaulted := by
  unfold Station.lineFaulted
  split <;> rfl

/-- A link that enters LOST or DISABLED (R22). -/
theorem lineFault_raised (a : StationIx) (l : Link) (s : State) :
    ((s.modLink a fun _ => l).raise (.line a)).lineFault a = s.lineFaulted a l := by
  have e : (s.modLink a fun _ => l).raise (.line a) = (s.modLink a fun _ => l).modStation a fun x => { x with lineFlag := true } :=
    rfl
  rw [e, lineFault_eq]
  dsimp only
  have e2 : ((s.modLink a fun _ => l).modStation a fun x => { x with lineFlag := true }).stations[a].entersLockout =
      s.stations[a].entersLockout := by
    rw [modStation_at]; rfl
  rw [e2, messageAnswered_mod, deferred_mod, modStation_twice]
  swap
  · intro x; rfl
  have h := funext lineFaulted_raised
  dsimp only at h ⊢
  rw [h]
  rfl

/-- A turn without a sound header: the runs, and a line fault where the status changes (R21, R22). -/
theorem linkOutcome_failed (a : StationIx) (o : TurnOutcome) (s : State) (ho : o ≠ .good) :
    s.linkOutcome a o =
      let l := s.links[a].failed (decide (o = .mismatch))
      if l.status = s.links[a].status then { s with links := s.links.set a l } else s.lineFaulted a l := by
  have h1 : s.links[a].after o = s.links[a].failed (decide (o = .mismatch)) := by
    cases o with
    | good => exact absurd rfl ho
    | mismatch =>
      simp only [Link.after, Link.failed, decide_true, if_true]
      refine congrArg (fun x => ({ s.links[a] with status := x, noReply := 0, mismatch := _ } : Link)) ?_
      refine if_congr ?_ rfl rfl
      omega
    | _ =>
      simp only [Link.after, Link.failed, reduceCtorEq, decide_false, Bool.false_eq_true, if_false]
      refine congrArg (fun x => ({ s.links[a] with status := x, noReply := _, mismatch := 0 } : Link)) ?_
      refine if_congr ?_ rfl rfl
      omega
  unfold State.linkOutcome
  dsimp only
  rw [h1]
  generalize hl : s.links[a].failed (decide (o = .mismatch)) = l
  split
  · rfl
  · next hne =>
    rw [if_pos, lineFault_raised]
    subst hl
    unfold Link.failed at hne ⊢
    split at hne
    · rw [if_pos ‹_›]
      dsimp only at hne ⊢
      split at hne
      · rw [if_pos ‹_›]; exact .inr rfl
      · exact absurd rfl hne
    · rw [if_neg ‹_›]
      dsimp only at hne ⊢
      split at hne
      · rw [if_pos ‹_›]; exact .inl rfl
      · exact absurd rfl hne

/-! ### Lock exits and headers -/

theorem raise_lock_eq (a : StationIx) (s : State) :
    s.raise (.lock a) = s.modStation a fun x => { x with lockFlag := true } := rfl

theorem raise_line_eq (a : StationIx) (s : State) :
    s.raise (.line a) = s.modStation a fun x => { x with lineFlag := true } := rfl

theorem leaveLock_eq (a : StationIx) (s : State) :
    s.leaveLock a = s.modStation a fun x => { x with locked := false, reasons := .none, lockFlag := true } := by
  unfold State.leaveLock
  rw [raise_lock_eq, modStation_twice]

theorem autoExit_eq (a : StationIx) (s : State) : s.autoExit a = s.modStation a Station.autoReleased := by
  unfold State.autoExit
  split
  · next h =>
    rw [leaveLock_eq]
    refine modStation_congr ?_
    unfold Station.autoReleased
    rw [if_pos]
    · rfl
    · simpa [Station.exitDue, and_assoc] using h
  · next h =>
    refine (modStation_own ?_).symm
    unfold Station.autoReleased
    rw [if_neg]
    simpa [Station.exitDue, and_assoc] using h

theorem cycleExit_eq (a : StationIx) (s : State) : s.cycleExit a = s.modStation a Station.cycleReleased := by
  unfold State.cycleExit
  split
  · next h =>
    rw [leaveLock_eq]
    refine modStation_congr ?_
    unfold Station.cycleReleased
    rw [if_pos]
    · rfl
    · simpa [Station.exitDue, and_assoc] using h
  · next h =>
    refine (modStation_own ?_).symm
    unfold Station.cycleReleased
    rw [if_neg]
    simpa [Station.exitDue, and_assoc] using h

theorem raise_lock_if (a : StationIx) (p : Prop) [Decidable p] (s : State) :
    (if p then s.raise (.lock a) else s) = s.modStation a fun x => { x with lockFlag := x.lockFlag || decide p } := by
  split
  · next h =>
    rw [raise_lock_eq]
    exact modStation_congr (by simp [h])
  · next h => exact (modStation_own (by simp [h])).symm

theorem raise_line_if (a : StationIx) (p : Prop) [Decidable p] (s : State) :
    (if p then s.raise (.line a) else s) = s.modStation a fun x => { x with lineFlag := x.lineFlag || decide p } := by
  split
  · next h =>
    rw [raise_line_eq]
    exact modStation_congr (by simp [h])
  · next h => exact (modStation_own (by simp [h])).symm

/-- A nonempty summary at a station that is locked or whose fault is present (R33, R41). -/
theorem summaryTaken_again {summary : BitVec 4} {x : Station} {present : Bool} (h0 : summary ≠ 0)
    (h : x.locked = true ∨ x.fault = true) (hp : present = true) :
    ({ x with
      summary := summary, hold := false, fault := present, reasons := x.reasons.union .ofFault
      lockFlag := (x.lockFlag || decide (summary ≠ x.summary)) ||
        (x.locked && decide (x.reasons.union .ofFault ≠ x.reasons)) } : Station) = x.summaryTaken summary := by
  unfold Station.summaryTaken
  rw [if_neg h0, if_pos h, hp]
  rcases x.reasons with ⟨r1, r2, r3⟩
  simp [LockReasons.union, LockReasons.ofFault]

/-- The fault summary of a header (R33). -/
theorem faultSummary_eq (a : StationIx) (summary : BitVec 4) (s : State) :
    s.faultSummary a summary =
      let t := s.modStation a (Station.summaryTaken summary)
      if summary ≠ 0 ∧ s.stations[a].entersLockout = true then t.stationAborted a else t := by
  unfold State.faultSummary Station.entersLockout
  dsimp only
  rw [raise_lock_if, modStation_twice]
  by_cases h0 : summary = 0
  · have hn : ¬ summary ≠ 0 := fun h => h h0
    rw [if_neg (c := summary ≠ 0 ∧ _) fun h => hn h.1, if_neg hn]
    subst h0
    by_cases hfh : (s.stations[a].fault || s.stations[a].hold) = true
    · rw [if_pos hfh, autoExit_eq]
      simp only [modStation_twice]
      refine modStation_congr ?_
      unfold Station.summaryTaken
      rw [if_pos rfl, if_pos (by rw [← Bool.or_eq_true]; exact hfh)]
    · rw [if_neg hfh]
      refine modStation_congr ?_
      rw [Bool.not_eq_true, Bool.or_eq_false_iff] at hfh
      unfold Station.summaryTaken
      rw [if_pos rfl, if_neg fun h => by rw [hfh.1, hfh.2] at h; simp at h]
      dsimp only
      rw [hfh.1]
  · rw [if_pos h0, addReason_eq, modStation_twice]
    dsimp only
    by_cases hf : s.stations[a].fault = true
    · rw [if_pos hf, if_neg fun h => by rw [hf] at h; simp at h]
      exact modStation_congr (summaryTaken_again h0 (.inr hf) hf)
    · rw [if_neg hf]
      simp only [modStation_twice]
      by_cases hl : s.stations[a].locked = true
      · rw [if_pos hl, if_neg fun h => by rw [hl] at h; simp at h]
        exact modStation_congr (summaryTaken_again h0 (.inl hl) rfl)
      · rw [if_neg hl, if_pos ⟨h0, by rw [Bool.not_eq_true] at hf hl; rw [hf, hl]; rfl⟩, lockoutEntry_eq, modStation_twice]
        refine congrArg (State.stationAborted a) (modStation_congr ?_)
        unfold Station.summaryTaken
        rw [if_neg h0, if_neg (not_or.mpr ⟨hl, hf⟩)]
        rfl

/-- A turn with a sound header: ONLINE with both runs 0, LINE raised where the status changes (R21, R22). -/
theorem linkOutcome_good (a : StationIx) (s : State) :
    s.linkOutcome a .good = (s.modLink a fun l => { l with status := .online, noReply := 0, mismatch := 0 }).modStation a
      fun x => { x with lineFlag := x.lineFlag || decide (s.links[a].status ≠ .online) } := by
  unfold State.linkOutcome
  dsimp only [Link.after]
  by_cases h : s.links[a].status = .online
  · have e : decide (s.links[a].status ≠ .online) = false := decide_eq_false (not_not.mpr h)
    rw [if_pos h.symm]
    exact (modStation_own (by simp only [e, Bool.or_false])).symm
  · have e : decide (s.links[a].status ≠ .online) = true := decide_eq_true h
    rw [if_neg (Ne.symm h), if_neg (by simp), raise_line_eq]
    exact modStation_congr (by simp only [e, Bool.or_true])

/-- Steps 1 to 3 of the hand-on of a GOOD reply (R18). -/
theorem goodHeader_eq (a : StationIx) (summary : BitVec 4) (s : State) : s.goodHeader a summary = s.headerTaken a summary := by
  unfold State.goodHeader
  rw [linkOutcome_good, modStation_twice, faultSummary_eq]
  dsimp only
  rw [modStation_at, modStation_twice]
  rfl

/-! ### Message tries -/

theorem messageTry_eq (a : StationIx) (s : State) : s.messageTry a = s.trySpent a := by
  unfold State.messageTry State.trySpent
  cases h : s.stations[a].message with
  | none => rfl
  | some m =>
    dsimp only
    split
    · rfl
    · by_cases ht : 1 < m.tries
      · rw [if_pos ht, if_neg (Nat.not_le.mpr ht)]
        rfl
      · rw [if_neg ht, if_pos (Nat.not_lt.mp ht), answerMessage_eq]
        simp only [State.messageAnswered, h]
        rfl

theorem reportTry_eq (t : Turn) (s : State) : s.reportTry t = if t.message then s.trySpent t.station else s := by
  unfold State.reportTry
  rw [messageTry_eq]

theorem trySpent_none {a : StationIx} {s : State} (h : s.stations[a].message = none) : s.trySpent a = s := by
  unfold State.trySpent
  rw [h]

/-- A line fault leaves no message at the station (R34). -/
theorem lineFaulted_message (a : StationIx) (l : Link) (s : State) : (s.lineFaulted a l).stations[a].message = none := by
  have hm : s.stations[a].lineFaulted.message = none := by
    unfold Station.lineFaulted
    split <;> rfl
  unfold State.lineFaulted
  dsimp only
  split
  · rw [stationAborted_eq, modStation_at]
    exact (congrArg Station.message (set_at s.stations a _)).trans hm
  · exact (congrArg Station.message (set_at s.stations a _)).trans hm

theorem lineFaulted_trySpent (a : StationIx) (l : Link) (s : State) : (s.lineFaulted a l).trySpent a = s.lineFaulted a l :=
  trySpent_none (lineFaulted_message a l s)

/-- A turn that ends with nothing handed on (R18). -/
theorem failTurn_eq (t : Turn) (o : TurnOutcome) (s : State) (ho : o ≠ .good) :
    s.failTurn t o =
      let l := s.links[t.station].failed (decide (o = .mismatch))
      let u := if l.status = s.links[t.station].status then { s with links := s.links.set t.station l }
        else s.lineFaulted t.station l
      State.endTurn t.kind (if t.message then u.trySpent t.station else u) := by
  unfold State.failTurn
  rw [linkOutcome_failed _ _ _ ho, reportTry_eq]

/-! ### Frames of a reply -/

/-- A frame of a reply as the framing finds it (R171). -/
def HeardFrame.raw (f : HeardFrame) : RawFrame := { kind := f.kind, payload := f.payload, sound := f.passes }

theorem boundAt_eq (a : StationIx) (inlet : Byte) (s : State) :
    s.boundAt a inlet = (List.finRange 128).find? fun i : ContainerIx => (s.container i).any fun c =>
      c.binding.station = a && inletNo c.binding.inlet = inlet.toNat := by
  unfold State.boundAt inletIx?
  split
  · next n h =>
    split at h
    · next hr =>
      obtain rfl := (Option.some.inj h).symm
      refine congrArg (fun p => List.find? p (List.finRange 128)) (funext fun i => ?_)
      cases s.container i with
      | none => rfl
      | some c =>
        refine congrArg (fun b => decide (c.binding.station = a) && b) (decide_eq_decide.mpr ?_)
        rw [Fin.ext_iff]
        show c.binding.inlet.val = inlet.toNat - 1 ↔ c.binding.inlet.val + 1 = inlet.toNat
        omega
    · exact absurd h (by simp)
  · next h =>
    split at h
    · exact absurd h (by simp)
    · next hr =>
      symm
      rw [List.find?_eq_none]
      intro i _
      cases s.container i with
      | none => simp
      | some c =>
        have := c.binding.inlet.isLt
        have : Config.inlets = 4 := rfl
        have : inletNo c.binding.inlet ≠ inlet.toNat := by unfold inletNo; omega
        simp [this]

theorem forBound_eq (a : StationIx) (inlet : Byte) (effect : ContainerIx → State → State) (s : State) :
    s.forBound a inlet effect = s.atBound a inlet effect := by
  unfold State.forBound State.atBound
  rw [boundAt_eq]
  generalize List.find? _ _ = o
  cases o <;> rfl

theorem messageAck_eq (a : StationIx) (s : State) : s.messageAck a = s.messageAcked a := by
  unfold State.messageAck State.messageAcked
  cases h : s.stations[a].message with
  | none => rfl
  | some m =>
    by_cases hm : m.carried = true ∨ m.tries < 3
    · rw [if_pos (by simpa using hm)]
      dsimp only
      rw [if_pos hm, answerMessage_eq]
      rfl
    · rw [if_neg (by simpa using hm)]
      dsimp only
      rw [if_neg hm]

theorem verdictPayload_eq (inlet c3 c2 c1 c0 : Byte) (v : Verdict) :
    verdictPayload inlet (word32 c3 c2 c1 c0) v = [inlet, c3, c2, c1, c0] ++ v.bytes := by
  have h : be4 (word32 c3 c2 c1 c0).toNat = [c3, c2, c1, c0] := by
    unfold be4 byte word32
    have := c3.isLt; have := c2.isLt; have := c1.isLt; have := c0.isLt
    refine List.cons_eq_cons.mpr ⟨?_, List.cons_eq_cons.mpr ⟨?_, List.cons_eq_cons.mpr ⟨?_, List.cons_eq_cons.mpr ⟨?_, rfl⟩⟩⟩⟩
    all_goals
      apply BitVec.eq_of_toNat_eq
      simp only [BitVec.toNat_ofNat, BitVec.toNat_append, Nat.shiftLeft_eq]
      rw [← Nat.shiftLeft_eq, ← Nat.shiftLeft_eq, ← Nat.shiftLeft_eq, ← Nat.shiftLeft_add_eq_or_of_lt (by omega),
        ← Nat.shiftLeft_add_eq_or_of_lt (by omega), ← Nat.shiftLeft_add_eq_or_of_lt (by omega)]
      simp only [Nat.shiftLeft_eq]
      omega
  unfold verdictPayload Verdict.bytes
  rw [h]
  cases v <;> rfl

/-! Each kind of frame that a station sends, and any other: what `frameTaken` makes of it. -/

theorem frameTaken_header (a : StationIx) (reply : Byte) (payload : List Byte) (sound : Bool) (s : State) :
    s.frameTaken a reply 0x41 payload =
      match stationFrame? { kind := 0x41, payload, sound } with
      | none => none
      | some f => if s.canTake a f then some (s.handFrame a reply f) else none := by
  rcases payload with _ | ⟨_, _ | ⟨_, _ | ⟨_, _ | ⟨_, _⟩⟩⟩⟩ <;> rfl

theorem frameTaken_card (a : StationIx) (reply : Byte) (payload : List Byte) (sound : Bool) (s : State) :
    s.frameTaken a reply 0x42 payload =
      match stationFrame? { kind := 0x42, payload, sound } with
      | none => none
      | some f => if s.canTake a f then some (s.handFrame a reply f) else none := by
  rcases payload with _ | ⟨inlet, _ | ⟨c3, _ | ⟨c2, _ | ⟨c1, _ | ⟨c0, _ | ⟨_, _⟩⟩⟩⟩⟩⟩ <;> try rfl
  show some (_, [_]) = some ((s.judgeCard a inlet (BitVec.ofNat 32 (beNat [c3, c2, c1, c0]))).2, [_])
  rw [ofNat_four, verdictPayload_eq]

theorem frameTaken_hatch (a : StationIx) (reply : Byte) (payload : List Byte) (sound : Bool) (s : State) :
    s.frameTaken a reply 0x43 payload =
      match stationFrame? { kind := 0x43, payload, sound } with
      | none => none
      | some f => if s.canTake a f then some (s.handFrame a reply f) else none := by
  rcases payload with _ | ⟨_, _ | ⟨_, _ | ⟨_, _⟩⟩⟩ <;> rfl

theorem frameTaken_level (a : StationIx) (reply : Byte) (payload : List Byte) (sound : Bool) (s : State) :
    s.frameTaken a reply 0x44 payload =
      match stationFrame? { kind := 0x44, payload, sound } with
      | none => none
      | some f => if s.canTake a f then some (s.handFrame a reply f) else none := by
  rcases payload with _ | ⟨inlet, _ | ⟨hi, _ | ⟨lo, _ | ⟨_, _⟩⟩⟩⟩ <;> try rfl
  refine Eq.trans ?_ (congrArg (fun t => some (t, [])) (forBound_eq a inlet
    (fun i t => t.levelReading i (beNat [hi, lo])) s).symm)
  rw [beNat_two]
  rfl

theorem frameTaken_liftStart (a : StationIx) (reply : Byte) (payload : List Byte) (sound : Bool) (s : State) :
    s.frameTaken a reply 0x45 payload =
      match stationFrame? { kind := 0x45, payload, sound } with
      | none => none
      | some f => if s.canTake a f then some (s.handFrame a reply f) else none := by
  rcases payload with _ | ⟨inlet, _ | ⟨_, _⟩⟩ <;> try rfl
  exact congrArg (fun t => some (t, [])) (forBound_eq ..).symm

theorem frameTaken_liftEnd (a : StationIx) (reply : Byte) (payload : List Byte) (sound : Bool) (s : State) :
    s.frameTaken a reply 0x46 payload =
      match stationFrame? { kind := 0x46, payload, sound } with
      | none => none
      | some f => if s.canTake a f then some (s.handFrame a reply f) else none := by
  rcases payload with _ | ⟨inlet, _ | ⟨_, _⟩⟩ <;> try rfl
  exact congrArg (fun t => some (t, [])) (forBound_eq ..).symm

theorem frameTaken_ack (a : StationIx) (reply : Byte) (payload : List Byte) (sound : Bool) (s : State) :
    s.frameTaken a reply 0x47 payload =
      match stationFrame? { kind := 0x47, payload, sound } with
      | none => none
      | some f => if s.canTake a f then some (s.handFrame a reply f) else none := by
  rcases payload with _ | ⟨_, _⟩ <;> try rfl
  exact congrArg (fun t => some (t, [])) (messageAck_eq ..).symm

theorem frameTaken_report (a : StationIx) (reply : Byte) (payload : List Byte) (sound : Bool) (s : State) :
    s.frameTaken a reply 0x48 payload =
      match stationFrame? { kind := 0x48, payload, sound } with
      | none => none
      | some f => if s.canTake a f then some (s.handFrame a reply f) else none := by
  rcases payload with _ | ⟨b, more⟩
  · rfl
  show (if b :: more = [] ∨ (s.stations[a].config.relay = true ∧ 4 ≤ s.relay.length) then none
      else some (s.reportTaken a reply (b :: more), [])) =
    if (!s.stations[a].config.relay || decide (s.relay.length < 4)) = true then
      some (s.reportTaken a reply (b :: more), []) else none
  by_cases hr : s.stations[a].config.relay = true ∧ 4 ≤ s.relay.length
  · rw [if_pos (.inr hr), if_neg]
    rw [hr.1, decide_eq_false (by omega)]
    decide
  · rw [if_neg (by simpa using hr), if_pos]
    rw [Bool.or_eq_true, decide_eq_true_eq, Bool.not_eq_true', ← Bool.not_eq_true]
    by_cases hc : s.stations[a].config.relay = true
    · exact .inr (Nat.not_le.mp fun h => hr ⟨hc, h⟩)
    · exact .inl hc

/-- A sound frame, as the hand-on takes it (R16, R19, R20). -/
theorem frameTaken_eq (a : StationIx) (reply kind : Byte) (payload : List Byte) (sound : Bool) (s : State) :
    s.frameTaken a reply kind payload =
      match stationFrame? { kind, payload, sound } with
      | none => none
      | some f => if s.canTake a f then some (s.handFrame a reply f) else none := by
  by_cases h1 : kind = 0x41
  · subst h1; exact frameTaken_header ..
  by_cases h2 : kind = 0x42
  · subst h2; exact frameTaken_card ..
  by_cases h3 : kind = 0x43
  · subst h3; exact frameTaken_hatch ..
  by_cases h4 : kind = 0x44
  · subst h4; exact frameTaken_level ..
  by_cases h5 : kind = 0x45
  · subst h5; exact frameTaken_liftStart ..
  by_cases h6 : kind = 0x46
  · subst h6; exact frameTaken_liftEnd ..
  by_cases h7 : kind = 0x47
  · subst h7; exact frameTaken_ack ..
  by_cases h8 : kind = 0x48
  · subst h8; exact frameTaken_report ..
  unfold stationFrame? State.frameTaken
  dsimp only
  rw [if_neg h1, if_neg h2, if_neg h3, if_neg h4, if_neg h5, if_neg h6, if_neg h7, if_neg h8]
  rw [if_neg h1, if_neg h2, if_neg h3, if_neg h4, if_neg h5, if_neg h6, if_neg h7, if_neg h8]
  rfl

/-- A frame at its position (R16, R18 step 4). -/
theorem HandOn.judge_eq (a : StationIx) (reply : Byte) (count position : Nat) (f : HeardFrame) (h : HandOn) :
    h.judge a reply count (f.raw, position) =
      match if position ≤ count ∧ f.passes = true then h.state.frameTaken a reply f.kind f.payload else none with
      | none => h
      | some (t, verdicts) =>
        { state := t, positions := h.positions ||| (1#4 <<< (position - 1)), verdicts := h.verdicts ++ verdicts } := by
  unfold HandOn.judge
  by_cases hp : position ≤ count ∧ f.passes = true
  · rw [if_pos hp, frameTaken_eq a reply f.kind f.payload f.passes]
    refine (if_pos hp).trans ?_
    show (match stationFrame? { kind := f.kind, payload := f.payload, sound := f.passes } with
      | none => h
      | some g => _) = _
    cases stationFrame? { kind := f.kind, payload := f.payload, sound := f.passes } with
    | none => rfl
    | some g =>
      dsimp only
      cases h.state.canTake a g <;> rfl
  · rw [if_neg hp]
    exact if_neg hp

theorem handFrames_eq (a : StationIx) (reply : Byte) (count : Nat) (frames : List HeardFrame) (s : State) :
    s.handFrames a reply count (frames.map HeardFrame.raw) =
      let h := s.framesTaken a reply count 1 frames
      { state := h.state, positions := h.positions, verdicts := h.verdicts } := by
  have key : ∀ (frames : List HeardFrame) (n : Nat) (k : HandOn),
      ((frames.map HeardFrame.raw).zipIdx n).foldl (HandOn.judge a reply count) k =
        let h := k.state.framesTaken a reply count n frames
        { state := h.state, positions := k.positions ||| h.positions, verdicts := k.verdicts ++ h.verdicts } := by
    intro frames
    induction frames with
    | nil => intro n k; simp [State.framesTaken]
    | cons f more ih =>
      intro n k
      rw [List.map_cons, List.zipIdx_cons, List.foldl_cons, ih, HandOn.judge_eq]
      conv_rhs => rw [State.framesTaken]
      generalize (if n ≤ count ∧ f.passes = true then k.state.frameTaken a reply f.kind f.payload else none) = o
      cases o with
      | none => rfl
      | some r => simp [BitVec.or_assoc]
  unfold State.handFrames
  rw [key]
  simp

theorem closingBegun_eq (t : Turn) (verdicts : List (List Byte)) (s : State) :
    s.beginClosing t verdicts = s.closingBegun t verdicts := by
  have h : addr t.station % 64 = addr t.station := Nat.mod_eq_of_lt (by
    have := t.station.isLt
    have : Config.stations = 48 := rfl
    unfold addr; omega)
  unfold State.beginClosing State.closingBegun closingChars addressChar
  rw [h]
  rfl

theorem masked_eq (a : StationIx) (reply : Byte) (h : HandOn) :
    h.masked a reply = h.state.maskReplaced a reply h.positions := rfl

/-- The hand-on of a GOOD reply (R18). -/
theorem goodReply_eq (t : Turn) (reply : Byte) (summary : BitVec 4) (count : Nat) (frames : List HeardFrame) (s : State) :
    s.goodReply t reply summary count (frames.map HeardFrame.raw) =
      let h := (s.headerTaken t.station summary).framesTaken t.station reply count 1 frames
      let w := h.state.maskReplaced t.station reply h.positions
      if h.verdicts = [] then State.endTurn t.kind (if t.message then w.trySpent t.station else w)
      else
        let v := w.closingBegun t h.verdicts
        if t.message then v.trySpent t.station else v := by
  unfold State.goodReply
  simp only [goodHeader_eq, handFrames_eq, reportTry_eq, closingBegun_eq, masked_eq]

/-! ### Station writes and wraps -/

/-- The link record with status UNKNOWN and both runs 0 (R23). -/
def Link.unknown (l : Link) : Link := { l with status := .unknown, noReply := 0, mismatch := 0 }

theorem linkUnknown_eq (a : StationIx) (s : State) :
    s.linkUnknown a = (s.modLink a Link.unknown).modStation a fun x =>
      { x with lineFlag := x.lineFlag || decide (s.links[a].status ≠ .unknown) } := by
  unfold State.linkUnknown
  exact raise_line_if ..

theorem linkDropped_eq (a : StationIx) (s : State) :
    s.linkDropped a = if s.links[a].status = .disabled then s else s.linkUnknown a := rfl

theorem modStation_links (a : StationIx) (f : Station → Station) (s : State) : (s.modStation a f).links = s.links := rfl

theorem modLink_mod (a b : StationIx) (f : Station → Station) (g : Link → Link) (s : State) :
    (s.modStation a f).modLink b g = (s.modLink b g).modStation a f := rfl

/-- Links and deferred responses replaced, and the record of one station: the form every write takes. -/
theorem modStation_form (a : StationIx) (f : Station → Station) (s : State) (links : Vector Link 48) (d : List Response)
    (x : Station) (h : f s.stations[a] = x) :
    State.modStation a f { s with links, deferred := d } = { s with links, stations := s.stations.set a x, deferred := d } := by
  subst h
  rfl

theorem autoReleased_flag (x : Station) (b : Bool) :
    Station.autoReleased { x with lineFlag := b } = { x.autoReleased with lineFlag := b } := by
  unfold Station.autoReleased
  split <;> rfl

theorem autoReleased_message (x : Station) (m : Option Message) :
    Station.autoReleased { x with message := m } = { x.autoReleased with message := m } := by
  unfold Station.autoReleased
  split <;> rfl

theorem autoReleased_lineFlag (x : Station) : x.autoReleased.lineFlag = x.lineFlag := by
  unfold Station.autoReleased
  split <;> rfl

theorem autoReleased_closing (ended : List Session) (x : Station) :
    (x.closing ended).autoReleased = x.autoReleased.closing ended := by
  unfold Station.autoReleased Station.closing
  split <;> rfl

theorem autoReleased_unlocked {x : Station} (h : x.locked = false) : x.autoReleased = x := by
  unfold Station.autoReleased
  rw [if_neg (by simp [h])]

/-- A write with configured no (R31, R28, R23). -/
theorem applyUnconfigured_eq (a : StationIx) (c : StationConfig) (s : State) (h : c.configured = false) :
    s.applyStation a c = s.writeApplied a c := by
  unfold State.applyStation State.applyFields State.applyUnconfigured State.writeApplied
  rw [h]
  simp only [Bool.false_eq_true, if_false, Bool.and_false, Bool.false_and, if_true, Bool.or_false, autoExit_eq, answerMessage_eq,
    raise_lock_if, linkDropped_eq, linkUnknown_eq, modLink_mod, modStation_twice, modStation_links]
  have hd : s.links[a].status = .disabled ∨ s.links[a].status ≠ .disabled := Decidable.em _
  rcases Bool.eq_false_or_eq_true s.stations[a].config.configured with hc | hc <;> rcases hd with hd | hd <;>
    simp only [hc, hd, Bool.false_eq_true, if_false, if_true, Bool.true_and, Bool.false_and, reduceCtorEq, ne_eq,
      not_true_eq_false, not_false_eq_true, decide_true, decide_false, Bool.or_false, Bool.and_true, Bool.and_false]
  all_goals
    try simp only [modStation_twice]
    refine modStation_form a _ s _ _ _ ?_
    rw [autoReleased_unlocked rfl]
    simp [Station.unconfigure]
  exact congrArg (s.stations[a].lineFlag || ·) (Bool.eq_iff_iff.mpr (by simp; exact decide_eq_true_iff))

/-- A write with configured yes under which no session ends (R31, R23, R37). -/
theorem applyConfigured_kept (a : StationIx) (c : StationConfig) (s : State) (h : c.configured = true)
    (hk : (s.stations[a].config.configured && s.stations[a].config.enabled && !c.enabled) = false) :
    s.applyStation a c = s.writeApplied a c := by
  unfold State.applyStation State.applyFields State.applyConfigured State.writeApplied
  simp only [h, hk, Bool.false_eq_true, Bool.true_eq_false, if_true, if_false, autoExit_eq, linkDropped_eq,
    linkUnknown_eq, modLink_mod, modStation_twice, modStation_links, Bool.and_true]
  have hd : s.links[a].status = .disabled ∨ s.links[a].status ≠ .disabled := Decidable.em _
  rcases Bool.eq_false_or_eq_true s.stations[a].config.enabled with he | he <;>
    rcases Bool.eq_false_or_eq_true c.enabled with hc | hc <;> rcases hd with hd | hd <;>
    simp only [he, hc, hd, Bool.false_eq_true, if_false, if_true, Bool.true_and, Bool.false_and, reduceCtorEq, ne_eq,
      not_true_eq_false, not_false_eq_true, decide_true, decide_false, Bool.or_false, Bool.and_true, Bool.and_false,
      Bool.not_true, Bool.not_false, modStation_twice]
  all_goals
    refine modStation_form a _ s _ _ _ ((autoReleased_flag { s.stations[a] with config := c, staged := none } _).trans
      (congrArg (fun b => ({ Station.autoReleased { s.stations[a] with config := c, staged := none } with
        lineFlag := b } : Station)) ?_))
    try simp
  exact congrArg (s.stations[a].lineFlag || ·) (Bool.eq_iff_iff.mpr (by simp; exact decide_eq_true_iff))

/-- The endings at a station whose configuration changes, with a change of its link and one of its record that the endings
leave alone. -/
theorem stationAborted_form (a : StationIx) (f g : Station → Station) (k : Link → Link) (s : State) (x : Station)
    (l : Vector Link 48) (hl : l = (s.modLink a k).links) (hx : x = g (f s.stations[a]))
    (hg : ∀ ended y, g (Station.closing ended y) = Station.closing ended (g y)) :
    State.stationAborted a { s with links := l, stations := s.stations.set a x } =
      (((s.modStation a f).stationAborted a).modLink a k).modStation a g := by
  subst hl hx
  rw [← stationAborted_link, stationAborted_mod _ _ _ hg, modLink_mod, modStation_twice]
  rfl

/-- A message fails, and the link of its station is dropped, with the lock exit that follows. -/
theorem droppedExit_eq (a : StationIx) (s : State) :
    ((s.answerMessage a .failed).linkDropped a).autoExit a =
      State.modStation a (fun x => { ({ x.autoReleased with
          lineFlag := x.lineFlag || (decide (s.links[a].status ≠ .disabled) && decide (s.links[a].status ≠ .unknown)) } : Station)
          with message := none })
        { (s.modLink a fun l => if l.status = .disabled then l else l.unknown) with
          deferred := s.messageAnswered a .failed } := by
  rw [answerMessage_eq, linkDropped_eq, autoExit_eq]
  by_cases hd : s.links[a].status = .disabled
  · have hs : (s.modLink a fun l => if l.status = .disabled then l else l.unknown) = s := by
      unfold State.modLink
      dsimp only
      rw [if_pos hd, Vector.set_own]
    refine (congrArg (State.modStation a Station.autoReleased) (if_pos hd)).trans ?_
    rw [modStation_twice, hs]
    refine modStation_congr ?_
    rw [autoReleased_message, decide_eq_false (not_not.mpr hd), Bool.false_and, Bool.or_false]
    exact congrArg (fun b => ({ ({ Station.autoReleased s.stations[a] with lineFlag := b } : Station) with
      message := none } : Station)) (autoReleased_lineFlag _)
  · have hs : (s.modLink a fun l => if l.status = .disabled then l else l.unknown) = s.modLink a Link.unknown := by
      unfold State.modLink
      dsimp only
      rw [if_neg hd]
    refine (congrArg (State.modStation a Station.autoReleased) (if_neg hd)).trans ?_
    rw [linkUnknown_eq, hs, modLink_mod, modStation_twice, modStation_twice]
    refine modStation_congr ?_
    rw [autoReleased_flag, autoReleased_message, decide_eq_true hd, Bool.true_and]
    rfl

/-- A message failed after a change of the link and of the record of its station that keeps the message. -/
theorem failedAfter (a : StationIx) (u v : State) (k : Link → Link) (g : Station → Station)
    (h : v = (u.modLink a k).modStation a g) (hg : ∀ x, (g x).message = x.message) :
    { v with stations := v.stations.set a { v.stations[a] with message := none }, deferred := v.messageAnswered a .failed } =
      State.modStation a (fun x => { g x with message := none })
        { u.modLink a k with deferred := u.messageAnswered a .failed } := by
  subst h
  rw [messageAnswered_mod _ _ _ _ hg, messageAnswered_link]
  exact modStation_twice a g (fun x => { x with message := none }) { u.modLink a k with deferred := u.messageAnswered a .failed }

/-- A write with configured yes under which the sessions at the station end (R31, R23, R37). -/
theorem applyConfigured_aborts (a : StationIx) (c : StationConfig) (s : State) (h : c.configured = true)
    (hk : (s.stations[a].config.configured && s.stations[a].config.enabled && !c.enabled) = true) :
    s.applyStation a c = s.writeApplied a c := by
  have hc : c.enabled = false := by
    rw [Bool.and_eq_true, Bool.not_eq_true'] at hk; exact hk.2
  have he : s.stations[a].config.enabled = true := by
    rw [Bool.and_eq_true, Bool.and_eq_true] at hk; exact hk.1.2
  have hw : s.stations[a].config.configured = true := by
    rw [Bool.and_eq_true, Bool.and_eq_true] at hk; exact hk.1.1
  have left : s.applyStation a c =
      State.autoExit a (State.linkDropped a (State.answerMessage a .failed
        (State.stationAborted a (s.modStation a fun x => { x with config := c, staged := none })))) := by
    unfold State.applyStation State.applyFields State.applyConfigured
    simp only [h, hc, he, hw, if_true, abortStation_eq, Bool.and_true, Bool.not_false]
  rw [left, droppedExit_eq]
  unfold State.writeApplied
  simp only [h, hc, he, hw, if_true, Bool.and_true, Bool.and_false, Bool.or_false, Bool.not_false, Bool.true_eq_false, if_false]
  exact (failedAfter a _ _ (fun l => if l.status = .disabled then l else l.unknown)
    (fun x => { x.autoReleased with
      lineFlag := x.lineFlag || (decide (s.links[a].status ≠ .disabled) && decide (s.links[a].status ≠ .unknown)) })
    (stationAborted_form a (fun x => { x with config := c, staged := none }) _ _ s _ _
      (by
        by_cases hd : s.links[a].status = .disabled
        · rw [if_neg (by simp; exact hd)]
          unfold State.modLink
          dsimp only
          rw [if_pos hd, Vector.set_own]
        · rw [if_pos (by simp; exact hd)]
          unfold State.modLink
          dsimp only
          rw [if_neg hd]
          rfl)
      rfl
      fun ended y => by
        rw [autoReleased_closing]
        rfl)
    fun x => by
      unfold Station.autoReleased
      split <;> rfl).symm

theorem applyStation_eq (a : StationIx) (c : StationConfig) (s : State) : s.applyStation a c = s.writeApplied a c := by
  rcases Bool.eq_false_or_eq_true c.configured with h | h
  · rcases Bool.eq_false_or_eq_true (s.stations[a].config.configured && s.stations[a].config.enabled && !c.enabled) with hk | hk
    · exact applyConfigured_aborts a c s h hk
    · exact applyConfigured_kept a c s h hk
  · exact applyUnconfigured_eq a c s h

/-- Step 1 of a wrap for one station (R30). -/
theorem stationWrap_eq (s : State) (a : StationIx) : s.stationWrap a = s.stationWrapped a := by
  unfold State.stationWrap State.stationWrapped
  cases s.stations[a].staged with
  | none => exact cycleExit_eq a s
  | some c =>
    dsimp only
    rw [applyStation_eq, cycleExit_eq]
    rfl

/-- A cycle wrap (R12). -/
theorem wrap_eq (s : State) :
    s.wrap =
      let u := (List.finRange 48).foldl State.stationWrapped s
      { u with line := { u.line with
          cycleCount := u.line.cycleCount + 1
          pollList := (List.finRange 48).filter fun a =>
            u.stations[a].config.configured && u.stations[a].config.enabled && decide (u.links[a].status ≠ .disabled)
          pointer := 0, wrapDue := false } } := by
  unfold State.wrap State.pollStations
  rw [show State.stationWrap = State.stationWrapped from funext fun s => funext fun a => stationWrap_eq s a]

end Sys2Proof.Machine
end

