-- ==== Sys2Proof/Laws/Restart.lean ====
section
/-! SUPPORT. RESTART block by block (R26, R44, R80, R137, R152, R167): what the aborts, the station table's share, the round
builder's share and the cut frame each do to the containers, the requests and the pending flags. -/

namespace Sys2Proof.Machine

/-! ### Every session aborted (R80) -/

/-- The tables once some sessions have ended ABORTED, one after another. -/
structure AbortedTables (xs : List Session) (s t : State) : Prop where
  containers : ∀ i, t.containers[i] = (s.overAfter xs i).containers[i]
  requests : ∀ i, t.requests[i] = (s.overAfter xs i).requests[i]
  cards : t.cards = s.cards.map fun k => if ∃ x ∈ xs, x.card = k.number then { k with link := none } else k
  deposits : t.deposits = s.deposits ++
    (xs.zipIdx s.arrivals).map fun p => { arrival := p.2, record := p.1.record s .aborted }
  arrivals : t.arrivals = s.arrivals + xs.length
  sessions : t.sessions = xs.foldl List.erase s.sessions
  slots : t.slots = s.slots
  nextSession : t.nextSession = s.nextSession

theorem aborted_tables (xs : List Session) (s : State) :
    AbortedTables xs s (xs.foldl (fun t x => t.endSession .aborted .idle x) s) := by
  induction xs using List.reverseRecOn with
  | nil => constructor <;> simp [State.overAfter]
  | append_singleton xs x ih =>
    have only : OnlySessions s (xs.foldl (fun t x => t.endSession .aborted .idle x) s) :=
      foldl_rel .refl .trans (fun s x => endSession_only _ _ x s) _ s
    rw [List.foldl_append, List.foldl_cons, List.foldl_nil]
    generalize xs.foldl (fun t x => t.endSession .aborted .idle x) s = u at *
    rw [endSession_aborted x u]
    have step i := overAfter_next xs x i s u only.clock only.fractions (ih.containers i) (ih.requests i)
    refine ⟨fun i => (step i).1, fun i => (step i).2, ?_, ?_, ?_, ?_, ih.slots, ih.nextSession⟩
    · dsimp only
      rw [ih.cards]
      exact abortRun_cards xs x s.cards
    · have : x.record u .aborted = x.record s .aborted := by unfold Session.record; rw [only.clock, only.period]
      dsimp only
      rw [ih.deposits, ih.arrivals, this, List.zipIdx_append]
      simp
    · dsimp only
      rw [ih.arrivals]
      simp [Nat.add_assoc]
    · dsimp only
      rw [ih.sessions, List.foldl_append]
      rfl

theorem sessionsInOrder_perm (s : State) : s.sessionsInOrder.Perm s.sessions := sortByKey_perm ..

/-- RESTART leaves no session open (R80). -/
theorem abortAll_sessions (s : State) : s.abortAll.sessions = [] := by
  refine (abortAll_aborted s).sessions.trans (List.eq_nil_iff_forall_not_mem.mpr fun z hz => ?_)
  have := (mem_foldl_erase (p := fun _ => true) s.sessionsInOrder s.sessions z
    (by simpa using sessionsInOrder_perm s)).mp hz
  cases this.2

/-- Every session ends ABORTED, in order (R80). -/
theorem abortAll_tables (s : State) : AbortedTables s.sessionsInOrder s s.abortAll := aborted_tables ..

/-! ### The station table's share (R44) -/

/-- What the station table's share of RESTART leaves, once no session is open. -/
structure OnlyStations (s t : State) : Prop extends OnlyTurn s t where
  containers : t.containers = s.containers
  requests : t.requests = s.requests
  slots : t.slots = s.slots
  cards : t.cards = s.cards
  sessions : t.sessions = s.sessions
  nextSession : t.nextSession = s.nextSession
  deposits : t.deposits = s.deposits
  arrivals : t.arrivals = s.arrivals
  relay : t.relay = s.relay
  line : t.line = s.line

theorem OnlyStations.refl (s : State) : OnlyStations s s := ⟨.refl s, rfl, rfl, rfl, rfl, rfl, rfl, rfl, rfl, rfl, rfl⟩

theorem OnlyStations.trans {s t u : State} (h : OnlyStations s t) (k : OnlyStations t u) : OnlyStations s u :=
  ⟨h.toOnlyTurn.trans k.toOnlyTurn, k.2.trans h.2, k.3.trans h.3, k.4.trans h.4, k.5.trans h.5, k.6.trans h.6, k.7.trans h.7,
    k.8.trans h.8, k.9.trans h.9, k.10.trans h.10, k.11.trans h.11⟩

theorem OnlyStations.ite {s t u : State} {p : Prop} [Decidable p] (h : OnlyStations s t) (k : OnlyStations s u) :
    OnlyStations s (if p then t else u) := by
  split
  · exact h
  · exact k

/-- An update of the station records, the link records and the deferred list. -/
theorem onlyStations_of (s : State) (v : Vector Station 48) (w : Vector Link 48) (d : List Response) :
    OnlyStations s { s with stations := v, links := w, deferred := d } := by
  refine ⟨?_, rfl, rfl, rfl, rfl, rfl, rfl, rfl, rfl, rfl, rfl⟩
  constructor <;> rfl

theorem answerMessage_stations (a : StationIx) (code : ResultCode) (s : State) :
    OnlyStations s (s.answerMessage a code) := by
  unfold State.answerMessage
  split
  · exact .refl s
  · exact onlyStations_of ..

theorem abortStation_idle (a : StationIx) (s : State) (h : s.sessions = []) : s.abortStation a = s := by
  have : s.sessionsOf a = [] := by
    refine List.eq_nil_iff_forall_not_mem.mpr fun x hx => ?_
    have := (List.mem_filter.mp ((sessionsOf_perm a s).mem_iff.mp hx)).1
    rw [h] at this
    cases this
  unfold State.abortStation
  rw [this]
  rfl

theorem linkUnknown_stations (a : StationIx) (s : State) : OnlyStations s (s.linkUnknown a) := by
  unfold State.linkUnknown
  exact .ite (onlyStations_of ..) (onlyStations_of ..)

theorem linkDropped_stations (a : StationIx) (s : State) : OnlyStations s (s.linkDropped a) :=
  .ite (.refl s) (linkUnknown_stations a s)

theorem applyFields_stations (a : StationIx) (c : StationConfig) (s : State) (h : s.sessions = []) :
    OnlyStations s (s.applyFields a c) := by
  unfold State.applyFields
  split
  · unfold State.applyConfigured
    dsimp only
    have h1 : OnlyStations s (s.modStation a fun x => { x with config := c, staged := none }) := onlyStations_of ..
    rw [abortStation_idle a (s.modStation a fun x => { x with config := c, staged := none }) h]
    have h2 : OnlyStations s (if s.stations[a].config.configured && s.stations[a].config.enabled && !c.enabled then
        (s.modStation a fun x => { x with config := c, staged := none }).answerMessage a .failed
        else s.modStation a fun x => { x with config := c, staged := none }) :=
      .ite (h1.trans (answerMessage_stations ..)) h1
    generalize (if s.stations[a].config.configured && s.stations[a].config.enabled && !c.enabled then
      (s.modStation a fun x => { x with config := c, staged := none }).answerMessage a .failed
      else s.modStation a fun x => { x with config := c, staged := none }) = u at *
    exact .ite (h2.trans (linkDropped_stations a u)) (.ite (h2.trans (linkUnknown_stations a u)) h2)
  · unfold State.applyUnconfigured
    dsimp only
    have h1 : OnlyStations s ((s.answerMessage a .failed).modStation a Station.unconfigure) :=
      (answerMessage_stations ..).trans (onlyStations_of ..)
    have h2 := OnlyStations.ite (p := (s.stations[a].config.configured && s.stations[a].locked) = true)
      (h1.trans (onlyStations_of _ _ _ _ : OnlyStations _ (State.raise (.lock a) _))) h1
    exact .ite (h2.trans (linkDropped_stations ..)) h2

theorem restartStaged_stations (s : State) (a : StationIx) (h : s.sessions = []) : OnlyStations s (s.restartStaged a) := by
  unfold State.restartStaged
  split
  · exact applyFields_stations _ _ _ h
  · exact .refl s

theorem restartStations_stations (s : State) (h : s.sessions = []) : OnlyStations s s.restartStations := by
  have first : ∀ (l : List StationIx) (t : State), t.sessions = [] → OnlyStations t (l.foldl State.restartStaged t) := by
    intro l
    induction l with
    | nil => exact fun t _ => .refl t
    | cons a l ih =>
      intro t ht
      have k := restartStaged_stations t a ht
      exact k.trans (ih _ (k.sessions.trans ht))
  have second : ∀ t : State, OnlyStations t ((List.finRange Config.stations).foldl (fun u a => u.answerMessage a .failed) t) :=
    fun t => foldl_rel .refl .trans (fun s a => answerMessage_stations a .failed s) _ t
  exact (((first _ s h).trans (onlyStations_of ..)).trans (second _)).trans (onlyStations_of ..)

theorem restartStations_flag (s : State) (a : StationIx) :
    s.restartStations.stations[a].lockFlag = s.stations[a].lockFlag ∧
      s.restartStations.stations[a].lineFlag = s.stations[a].lineFlag := by
  unfold State.restartStations State.keepStationFlags
  simp

/-! ### The round builder's share (R137, R152) -/

theorem returned_again {s : State} {i : ContainerIx} {q r : Request} (h : q.returned s i = some r) :
    r.returned s i = some r := by
  unfold Request.returned at h ⊢
  split at h
  · injection h with h
    subst h
    rw [if_pos (.inl rfl)]
  · cases h

theorem bind_returned (s : State) (i : ContainerIx) (o : Option Request) :
    (o.bind (Request.returned s i)).bind (Request.returned s i) = o.bind (Request.returned s i) := by
  cases o with
  | none => rfl
  | some q =>
    rw [Option.bind_some]
    cases h : q.returned s i with
    | none => rfl
    | some r => rw [Option.bind_some, returned_again h]

/-- A quiet return (R133, R137). -/
theorem returnRequest_quiet (i : ContainerIx) (s : State) :
    s.returnRequest true i = s.setRequest i (s.requests[i].bind (Request.returned s i)) := by
  unfold State.returnRequest
  cases h : s.requests[i] with
  | none =>
    dsimp only
    rw [Option.bind_none, ← h]
    unfold State.setRequest
    rw [Vector.set_own]
  | some r =>
    dsimp only
    rw [Option.bind_some]
    unfold Request.returned
    cases ho : r.origin with
    | raised => simp
    | preempt =>
      dsimp only
      cases hc : s.container i with
      | none => simp
      | some c => by_cases hle : c.params.tCall ≤ c.fill.e <;> simp [hle]

/-- The requests of a set of containers quietly returned, and nothing else (R137). -/
structure QuietlyReturned (p : ContainerIx → Bool) (s t : State) : Prop where
  containers : t.containers = s.containers
  requests : ∀ i, t.requests[i] = if p i then s.requests[i].bind (Request.returned s i) else s.requests[i]

theorem QuietlyReturned.trans {p q : ContainerIx → Bool} {s t u : State} (h : QuietlyReturned p s t)
    (k : QuietlyReturned q t u) : QuietlyReturned (fun i => p i || q i) s u := by
  refine ⟨k.containers.trans h.containers, fun i => ?_⟩
  have e : Request.returned t i = Request.returned s i :=
    funext fun r => returned_congr _ _ _ _ (congrArg (fun v : Vector ContainerRec 128 => v[i].body) h.containers)
  rw [k.requests, h.requests, e]
  cases p i <;> cases q i <;> simp [bind_returned]

theorem returnEntries_quiet (l : List Entry) (s : State) : QuietlyReturned (plannedIn l) s (s.returnEntries true l) := by
  induction l generalizing s with
  | nil => exact ⟨rfl, fun i => by simp [State.returnEntries, plannedIn]⟩
  | cons e l ih =>
    have first : QuietlyReturned (fun i => decide (e.container = i) && decide (e.state = .planned)) s
        (if e.isLifted then s else s.returnRequest true e.container) := by
      unfold Entry.isLifted
      by_cases h : e.state = .planned
      · rw [if_neg (by simp [h]), returnRequest_quiet]
        refine ⟨rfl, fun i => ?_⟩
        by_cases hi : e.container = i
        · subst hi
          simp [State.setRequest, h]
        · simp only [State.setRequest, h, hi, decide_false, Bool.false_and, Bool.false_eq_true, if_false]
          exact set_ne _ hi _
      · rw [if_pos (by simp [h])]
        exact ⟨rfl, fun i => by simp [h]⟩
    exact first.trans (ih _)

theorem restartSlot_quiet (s : State) (n : FractionIx) :
    QuietlyReturned (fun i => s.slots[n].round.any fun r => r.plans i) s (s.restartSlot n) ∧
      (∀ m, (s.restartSlot n).slots[m] = if m = n then { s.slots[m] with round := none } else s.slots[m]) := by
  unfold State.restartSlot
  cases h : s.slots[n].round with
  | none =>
    refine ⟨⟨rfl, fun i => by simp⟩, fun m => ?_⟩
    dsimp only
    by_cases e : m = n
    · subst e
      rw [if_pos rfl, ← h]
    · rw [if_neg e]
  | some r =>
    have k := returnEntries_quiet r.entries s
    refine ⟨⟨k.containers, k.requests⟩, fun m => ?_⟩
    have hs := (returnEntries_only true r.entries s).slots
    by_cases e : m = n
    · subst e
      rw [if_pos rfl]
      exact (set_at ..).trans (by rw [hs])
    · rw [if_neg e]
      exact (set_ne _ (Ne.symm e) _).trans (by rw [hs])

/-- Every round's PLANNED entries are returned quietly, every slot becomes FREE (R137, R152). -/
theorem restartRounds_quiet (s : State) :
    QuietlyReturned (fun i => decide (∃ n : FractionIx, s.slots[n].round.any fun r => r.plans i)) s s.restartRounds ∧
      ∀ n : FractionIx, s.restartRounds.slots[n] = { s.slots[n] with round := none } := by
  have run : ∀ (l : List FractionIx) (t : State), l.Nodup → (∀ n ∈ l, t.slots[n] = s.slots[n]) →
      QuietlyReturned (fun i => l.any fun n => s.slots[n].round.any fun r => r.plans i) t (l.foldl State.restartSlot t) ∧
        ∀ m : FractionIx, (l.foldl State.restartSlot t).slots[m] =
          if m ∈ l then { t.slots[m] with round := none } else t.slots[m] := by
    intro l
    induction l with
    | nil => exact fun t _ _ => ⟨⟨rfl, fun i => by simp⟩, fun m => by simp⟩
    | cons n l ih =>
      intro t hn hs
      rw [List.nodup_cons] at hn
      obtain ⟨k1, k2⟩ := restartSlot_quiet t n
      obtain ⟨i1, i2⟩ := ih (t.restartSlot n) hn.2 fun m hm => by
        rw [k2, if_neg (fun e : m = n => hn.1 (e ▸ hm))]
        exact hs m (List.mem_cons_of_mem _ hm)
      rw [hs n (List.mem_cons_self ..)] at k1
      refine ⟨k1.trans i1, fun m => ?_⟩
      rw [List.foldl_cons, i2, k2]
      by_cases e : m = n
      · subst e
        simp [hn.1]
      · simp [e]
  obtain ⟨h1, h2⟩ := run (List.finRange 4) s (List.nodup_finRange 4) fun _ _ => rfl
  refine ⟨⟨h1.containers, fun i => (h1.requests i).trans ?_⟩, fun n => (h2 n).trans (if_pos (List.mem_finRange n))⟩
  congr 1
  simp

/-! ### The whole -/

theorem restartTurn_eq (s : State) : ∃ l d, s.restartTurn = { s with line := l, deferred := d } := by
  unfold State.restartTurn
  dsimp only
  split <;> exact ⟨_, _, rfl⟩

theorem restartLine_eq (s : State) :
    ∃ l d, s.restartLine = { s with line := l, links := s.links.map Link.restarted, deferred := d } := by
  unfold State.restartLine
  dsimp only
  split <;> exact ⟨_, _, rfl⟩

/-! A pending flag that has been set or cleared, and every other one (R165). -/

theorem setFlag_self (p : NoticeFlag) (b : Bool) (s : State) : (s.setFlag p b).flag p = b := by
  cases p with
  | start => rfl
  | lock a => exact congrArg Station.lockFlag (set_at s.stations a _)
  | line a => exact congrArg Station.lineFlag (set_at s.stations a _)
  | closed n => exact congrArg Slot.closedFlag (set_at s.slots n _)
  | raised i => exact congrArg (fun r : ContainerRec => r.flags.raised) (set_at s.containers i _)
  | overdue i => exact congrArg (fun r : ContainerRec => r.flags.overdue) (set_at s.containers i _)
  | inletFault i => exact congrArg (fun r : ContainerRec => r.flags.inletFault) (set_at s.containers i _)
  | sensor i => exact congrArg (fun r : ContainerRec => r.flags.sensor) (set_at s.containers i _)
  | lifted i => exact congrArg (fun r : ContainerRec => r.flags.lifted) (set_at s.containers i _)

theorem setFlag_other {p q : NoticeFlag} (h : p ≠ q) (b : Bool) (s : State) : (s.setFlag p b).flag q = s.flag q := by
  have stations (a c : StationIx) (f : Station → Station) :
      (s.modStation a f).stations[c] = if a = c then f s.stations[a] else s.stations[c] := by
    split
    · next e => subst e; exact set_at ..
    · next e => exact set_ne _ e _
  have containers (a c : ContainerIx) (f : ContainerRec → ContainerRec) :
      (s.modRec a f).containers[c] = if a = c then f s.containers[a] else s.containers[c] := by
    split
    · next e => subst e; exact set_at ..
    · next e => exact set_ne _ e _
  have slots (a c : FractionIx) (f : Slot → Slot) :
      (s.modSlot a f).slots[c] = if a = c then f s.slots[a] else s.slots[c] := by
    split
    · next e => subst e; exact set_at ..
    · next e => exact set_ne _ e _
  cases p <;> cases q <;> (try rfl) <;> (try exact absurd rfl h) <;>
    simp only [State.setFlag, State.flag, stations, containers, slots] <;>
    split <;> first | rfl | (next e => subst e; first | rfl | exact absurd rfl h)

/-- The pending flags after the frame being sent has been cut off (R167). -/
theorem cutFrame_flag (s : State) (p : NoticeFlag) :
    s.cutFrame.flag p = (s.flag p || decide (s.sender.tx = some (.notice p))) := by
  have base : ∀ q : NoticeFlag, State.flag { s with sender := { s.sender with tx := none }, roundLists := [] } q = s.flag q := by
    intro q
    cases q <;> rfl
  unfold State.cutFrame
  dsimp only
  split
  · next q e =>
    by_cases h : q = p
    · subst h
      rw [e]
      exact (setFlag_self ..).trans (by simp)
    · have : ¬ s.sender.tx = some (.notice p) := by
        rw [e]
        simpa using h
      rw [decide_eq_false this, Bool.or_false]
      exact (setFlag_other h ..).trans (base p)
  · next h => rw [decide_eq_false (h p), Bool.or_false, base p]

theorem cutFrame_tables (s : State) :
    (∀ i, s.cutFrame.container i = s.container i) ∧ s.cutFrame.requests = s.requests ∧ s.cutFrame.deposits = s.deposits ∧
      s.cutFrame.arrivals = s.arrivals ∧ s.cutFrame.cards = s.cards ∧ s.cutFrame.sessions = s.sessions := by
  unfold State.cutFrame
  dsimp only
  split
  · next q _ =>
    have h := setFlag_same q true { s with sender := { s.sender with tx := none }, roundLists := [] }
    refine ⟨h.container, ?_, h.deposits, ?_, h.cards, h.sessions⟩ <;> cases q <;> rfl
  · exact ⟨fun _ => rfl, rfl, rfl, rfl, rfl, rfl⟩

/-- The state overAfter speaks of, over another state that agrees where the endings read. -/
theorem overAfter_congr (xs ys : List Session) (i : ContainerIx) (s t : State) (h : ∀ x, x ∈ ys ↔ x ∈ xs)
    (h1 : t.clock = s.clock) (h2 : t.fractions = s.fractions) (h3 : t.containers[i] = s.containers[i])
    (h4 : t.requests[i] = s.requests[i]) :
    (t.overAfter ys i).containers[i] = (s.overAfter xs i).containers[i] ∧
      (t.overAfter ys i).requests[i] = (s.overAfter xs i).requests[i] := by
  unfold State.overAfter
  simp only [h]
  split
  · exact sessionOver_local i s t h1 h2 h3 h4
  · exact ⟨h3, h4⟩

/-- RESTART up to the sender's share: the tables and what the sender reads (R26, R44, R80, R100, R137, R152; log 31). -/
theorem restart_settled (s : State) :
    let t := s.restartTurn.abortAll.restartLine.restartStations.restartRounds
    (∀ i, t.containers[i] = (s.overAfter s.sessions i).containers[i]) ∧
    (∀ i, t.requests[i] =
      if ∃ n : FractionIx, s.slots[n].round.any fun r => r.plans i then
        (s.overAfter s.sessions i).requests[i].bind (Request.returned (s.overAfter s.sessions i) i)
      else (s.overAfter s.sessions i).requests[i]) ∧
    (∀ n : FractionIx, t.slots[n] = { s.slots[n] with round := none }) ∧
    (∀ a : StationIx, t.stations[a].lockFlag = s.stations[a].lockFlag ∧ t.stations[a].lineFlag = s.stations[a].lineFlag) ∧
    t.cards = (s.cards.map fun k => if ∃ x ∈ s.sessions, x.card = k.number then { k with link := none } else k) ∧
    t.deposits = s.deposits ++
      (s.sessionsInOrder.zipIdx s.arrivals).map (fun p => { arrival := p.2, record := p.1.record s .aborted }) ∧
    t.arrivals = s.arrivals + s.sessions.length ∧ t.sessions = [] ∧ t.nextSession = s.nextSession ∧ OnlyTurn s t := by
  intro t
  obtain ⟨l, d, h1⟩ := restartTurn_eq s
  have o1 : OnlyTurn s s.restartTurn := by
    rw [h1]
    constructor <;> rfl
  have h2 := abortAll_tables s.restartTurn
  have o2 := (abortAll_only s.restartTurn)
  have n2 := abortAll_sessions s.restartTurn
  have order : s.restartTurn.sessionsInOrder = s.sessionsInOrder := by rw [h1]; rfl
  have mem (x : Session) : x ∈ s.sessionsInOrder ↔ x ∈ s.sessions := (sessionsInOrder_perm s).mem_iff
  rw [order] at h2
  have own (i : ContainerIx) := overAfter_congr s.sessions s.sessionsInOrder i s s.restartTurn mem (by rw [h1]) (by rw [h1])
    (by rw [h1]) (by rw [h1])
  obtain ⟨l', d', h3⟩ := restartLine_eq s.restartTurn.abortAll
  have o3 : OnlyTurn s.restartTurn.abortAll s.restartTurn.abortAll.restartLine := by
    rw [h3]
    constructor <;> rfl
  have h4 := restartStations_stations s.restartTurn.abortAll.restartLine (by rw [h3]; exact n2)
  have f4 := restartStations_flag s.restartTurn.abortAll.restartLine
  obtain ⟨h5, h5'⟩ := restartRounds_quiet s.restartTurn.abortAll.restartLine.restartStations
  have o5 := restartRounds_only s.restartTurn.abortAll.restartLine.restartStations
  have containers i : t.containers[i] = (s.overAfter s.sessions i).containers[i] := by
    refine Eq.trans ?_ ((h2.containers i).trans (own i).1)
    rw [h5.containers, h4.containers, h3]
  have slots : s.restartTurn.abortAll.restartLine.restartStations.slots = s.slots := by
    rw [h4.slots, h3]
    exact h2.slots.trans (by rw [h1])
  refine ⟨containers, fun i => ?_, fun n => ?_, fun a => ?_, ?_, ?_, ?_, ?_, ?_, ?_⟩
  · have e : Request.returned s.restartTurn.abortAll.restartLine.restartStations i =
        Request.returned (s.overAfter s.sessions i) i :=
      funext fun r => returned_congr _ _ _ _ ((o5.container i).symm.trans (congrArg ContainerRec.body (containers i)))
    have k : s.restartTurn.abortAll.restartLine.restartStations.requests[i] = (s.overAfter s.sessions i).requests[i] := by
      refine Eq.trans ?_ ((h2.requests i).trans (own i).2)
      rw [h4.requests, h3]
    refine (h5.requests i).trans ?_
    rw [e, k, slots]
    simp only [decide_eq_true_eq]
  · rw [h5', slots]
  · have k : s.restartTurn.abortAll.restartLine.stations = s.stations := by
      rw [h3]
      exact o2.stations.trans (by rw [h1])
    rw [o5.stations, (f4 a).1, (f4 a).2, k]
    exact ⟨rfl, rfl⟩
  · rw [o5.cards, h4.cards, h3]
    refine h2.cards.trans ?_
    simp only [mem]
    rw [h1]
  · rw [o5.deposits, h4.deposits, h3]
    refine h2.deposits.trans ?_
    rw [h1]
    rfl
  · rw [o5.arrivals, h4.arrivals, h3]
    refine h2.arrivals.trans ?_
    rw [h1, (sessionsInOrder_perm s).length_eq]
  · rw [o5.sessions, h4.sessions, h3]
    exact n2
  · rw [o5.nextSession, h4.nextSession, h3]
    exact h2.nextSession.trans (by rw [h1])
  · exact (((o1.trans o2.toOnlyTurn).trans o3).trans h4.toOnlyTurn).trans o5.toOnlyTurn

/-! The entries for a container whose session has ended ABORTED: RAISED and OVERDUE can be set by its staged part alone. -/

theorem overAfter_flags (s : State) (xs : List Session) (i : ContainerIx) :
    ∀ p ∈ [NoticeFlag.inletFault i, .sensor i, .lifted i], (s.overAfter xs i).flag p = s.flag p := by
  unfold State.overAfter
  split
  · unfold State.sessionOver
    cases h : s.container i with
    | none => simp
    | some c =>
      dsimp only
      cases hs : c.staged with
      | none => rw [becomesIdle_plain i _ s hs]; simp [State.flag]
      | some p => rw [becomesIdle_staged i _ s hs]; simp [State.flag, State.tested]
  · simp

theorem overAfter_quiet (s : State) (xs : List Session) (i : ContainerIx)
    (h : (¬ ∃ x ∈ xs, x.container = i) ∨ ∀ c, s.container i = some c → c.staged = none) :
    (s.overAfter xs i).requests[i] = s.requests[i] ∧
      ∀ p ∈ [NoticeFlag.raised i, .overdue i], (s.overAfter xs i).flag p = s.flag p := by
  unfold State.overAfter
  split
  · next e =>
    rcases h with h | h
    · exact absurd e h
    · unfold State.sessionOver
      cases hc : s.container i with
      | none => simp
      | some c =>
        dsimp only
        rw [becomesIdle_plain i _ s (h c hc)]
        simp [State.flag]
  · simp

/-- RESTART: the tables of containers, requests, cards and deposit records, and every pending flag (R80, R90, R100, R123, R126,
R137, R167; log 31). -/
theorem restart_tables (f : RequestFrame) (s : State) :
    let t := s.restart f
    let cut (p : NoticeFlag) : Bool := decide (s.sender.tx = some (.notice p))
    (∀ i, t.container i = (s.overAfter s.sessions i).container i) ∧
    (∀ i, t.requests[i] =
      if ∃ n : FractionIx, s.slots[n].round.any fun r => r.plans i then
        (s.overAfter s.sessions i).requests[i].bind (Request.returned (s.overAfter s.sessions i) i)
      else (s.overAfter s.sessions i).requests[i]) ∧
    (∀ i, ∀ p ∈ [NoticeFlag.raised i, .overdue i], t.flag p = ((s.overAfter s.sessions i).flag p || cut p)) ∧
    (∀ p, p ≠ .start → (∀ i, p ≠ .raised i ∧ p ≠ .overdue i) → t.flag p = (s.flag p || cut p)) ∧
    t.cards = (s.cards.map fun k => if ∃ x ∈ s.sessions, x.card = k.number then { k with link := none } else k) ∧
    t.deposits = s.deposits ++
      (s.sessionsInOrder.zipIdx s.arrivals).map (fun p => { arrival := p.2, record := p.1.record s .aborted }) ∧
    t.arrivals = s.arrivals + s.sessions.length ∧ t.sessions = [] := by
  intro t cut
  obtain ⟨h1, h2, h3, h4, h5, h6, h7, h8, _, h10⟩ := restart_settled s
  obtain ⟨v, hv⟩ : ∃ v, v = s.restartTurn.abortAll.restartLine.restartStations.restartRounds := ⟨_, rfl⟩
  rw [← hv] at h1 h2 h3 h4 h5 h6 h7 h8 h10
  obtain ⟨c1, c2, c3, c4, c5, c6⟩ := cutFrame_tables v
  have c7 := cutFrame_flag v
  obtain ⟨w, hw⟩ : ∃ w, w = v.cutFrame := ⟨_, rfl⟩
  rw [← hw] at c1 c2 c3 c4 c5 c6 c7
  have ht : t = State.respond f .done [] { w with device := { w.device with startFlag := true, startReason := .restart } } := by
    rw [hw, hv]
    rfl
  have flag (p : NoticeFlag) (hp : p ≠ .start) : t.flag p = (v.flag p || cut p) := by
    rw [ht]
    refine Eq.trans ?_ ((c7 p).trans (by rw [h10.sender]))
    cases p <;> first | exact absurd rfl hp | rfl
  have own (i : ContainerIx) (p : NoticeFlag) (hp : p ∈ [.raised i, .overdue i, .inletFault i, .sensor i, .lifted i]) :
      v.flag p = (s.overAfter s.sessions i).flag p := by
    simp only [List.mem_cons, List.not_mem_nil, or_false] at hp
    rcases hp with rfl | rfl | rfl | rfl | rfl <;> (unfold State.flag; dsimp only; rw [h1 i])
  refine ⟨fun i => ?_, fun i => ?_, fun i p hp => ?_, fun p hp hq => ?_, ?_, ?_, ?_, ?_⟩
  · rw [ht]
    exact (c1 i).trans (congrArg ContainerRec.body (h1 i))
  · rw [ht]
    exact (congrArg (fun q : Vector (Option Request) 128 => q[i]) c2).trans (h2 i)
  · simp only [List.mem_cons, List.not_mem_nil, or_false] at hp
    rw [flag p (by rcases hp with rfl | rfl <;> simp), own i p (by rcases hp with rfl | rfl <;> simp)]
  · rw [flag p hp]
    refine congrArg (· || cut p) ?_
    cases p with
    | start => exact absurd rfl hp
    | lock a => exact (h4 a).1
    | line a => exact (h4 a).2
    | raised i => exact absurd rfl (hq i).1
    | overdue i => exact absurd rfl (hq i).2
    | inletFault i => rw [own i _ (by simp), overAfter_flags s _ i _ (by simp)]
    | sensor i => rw [own i _ (by simp), overAfter_flags s _ i _ (by simp)]
    | lifted i => rw [own i _ (by simp), overAfter_flags s _ i _ (by simp)]
    | closed n =>
      show v.slots[n].closedFlag = _
      rw [h3 n]
      rfl
  · rw [ht]
    exact c5.trans h5
  · rw [ht]
    exact c3.trans h6
  · rw [ht]
    exact c4.trans h7
  · rw [ht]
    exact c6.trans h8

end Sys2Proof.Machine
end

