-- ==== Sys2Proof/Laws/Scanner.lean ====
section
/-! SUPPORT. The notice scanner's cycle and its search order (R165). -/

namespace Sys2Proof.Machine

theorem noticeCycle_places : noticeCycle.map NoticeFlag.place = List.range 741 := by decide +kernel

theorem mem_noticeCycle (p : NoticeFlag) : p ∈ noticeCycle := by
  cases p <;> simp [noticeCycle, stationFlags, containerFlags]

/-- A list whose places count up from 0, seen from the element p: what stands before it, and what stands after it. -/
theorem cut_places {α : Type} [DecidableEq α] (place : α → Nat) (p : α) :
    ∀ (l : List α) (n start : Nat), l.map place = List.range' start n → p ∈ l →
      l = l.takeWhile (fun q => q ≠ p) ++ p :: (l.dropWhile fun q => q ≠ p).drop 1 ∧
      (l.takeWhile fun q => q ≠ p).map place = List.range' start (place p - start) ∧
      ((l.dropWhile fun q => q ≠ p).drop 1).map place = List.range' (place p + 1) (start + n - (place p + 1)) ∧
      start ≤ place p ∧ place p < start + n
  | [], _, _, _, hp => by simp at hp
  | a :: l, 0, _, h, _ => by simp at h
  | a :: l, n + 1, start, h, hp => by
    rw [List.range'_succ, List.map_cons, List.cons.injEq] at h
    obtain ⟨ha, hl⟩ := h
    by_cases e : a = p
    · subst e
      simp only [List.takeWhile_cons, List.dropWhile_cons, ne_eq, not_true_eq_false, decide_false, Bool.false_eq_true,
        if_false, List.nil_append, List.drop_succ_cons, List.drop_zero, List.map_nil, ha, Nat.sub_self, true_and]
      refine ⟨by simp, ?_, le_refl _, by omega⟩
      rw [hl]; congr 1; omega
    · have hp' : p ∈ l := by simpa [Ne.symm e] using hp
      obtain ⟨h1, h2, h3, h4, h5⟩ := cut_places place p l n (start + 1) hl hp'
      have : decide (a ≠ p) = true := by simpa using e
      simp only [List.takeWhile_cons, List.dropWhile_cons, this, if_true, List.cons_append, List.map_cons, ha]
      refine ⟨by rw [← h1], ?_, ?_, by omega, by omega⟩
      · rw [h2]
        have : place p - start = (place p - (start + 1)) + 1 := by omega
        rw [this, List.range'_succ]
      · rw [h3]; congr 1; omega

/-- The places after k and then those before it, counted from k on. -/
theorem rotated (k : Nat) (hk : k < 0 + 741) :
    (List.range' (k + 1) (0 + 741 - (k + 1))).map (fun x => (x + 741 - k - 1) % 741) ++
      (List.range' 0 (k - 0)).map (fun x => (x + 741 - k - 1) % 741) = List.range 740 := by
  refine List.ext_getElem (by simp; omega) fun i h h' => ?_
  rw [List.length_range] at h'
  rw [List.getElem_append]
  split
  · rename_i hi
    rw [List.length_map, List.length_range'] at hi
    rw [List.getElem_map, List.getElem_range', List.getElem_range]
    have : k + 1 + 1 * i + 741 - k - 1 = i + 741 := by omega
    rw [this, Nat.add_mod_right, Nat.mod_eq_of_lt (by omega)]
  · rename_i hi
    rw [List.length_map, List.length_range'] at hi
    rw [List.getElem_map, List.getElem_range', List.getElem_range, List.length_map, List.length_range',
      Nat.mod_eq_of_lt (by omega)]
    omega

/-- The scanner searches the flags in the order of how far ahead of its position they stand (R165). -/
theorem scanOrder_ahead (scan : Option NoticeFlag) :
    (scanOrder scan).map (fun p => p.ahead scan) = List.range 741 := by
  cases scan with
  | none => exact noticeCycle_places
  | some q =>
    have h0 : noticeCycle.map NoticeFlag.place = List.range' 0 741 := by rw [noticeCycle_places, List.range_eq_range']
    obtain ⟨-, h2, h3, -, h5⟩ := cut_places NoticeFlag.place q noticeCycle 741 0 h0 (mem_noticeCycle q)
    have hf : (fun p : NoticeFlag => p.ahead (some q)) = (fun x => (x + 741 - q.place - 1) % 741) ∘ NoticeFlag.place := rfl
    unfold scanOrder
    rw [hf, List.map_append, List.map_append, ← List.map_map, ← List.map_map, h3, h2, rotated q.place h5]
    show _ ++ [(q.place + 741 - q.place - 1) % 741] = _
    have : q.place + 741 - q.place - 1 = 740 := by omega
    rw [this, List.range_succ (n := 740)]

/-- The first flag of the scan order that is set is the one the scanner finds, and none ahead of it is set (R165). -/
theorem nextNotice_of_nearest (s : State) (p : NoticeFlag) (hp : s.flag p = true)
    (h : ∀ q, s.flag q = true → p.ahead s.sender.scan ≤ q.ahead s.sender.scan) : s.nextNotice = some p := by
  have hs := scanOrder_ahead s.sender.scan
  have hm : ∀ q, q ∈ scanOrder s.sender.scan := by
    intro q
    cases e : s.sender.scan with
    | none => exact mem_noticeCycle q
    | some r =>
      have h0 : noticeCycle.map NoticeFlag.place = List.range' 0 741 := by rw [noticeCycle_places, List.range_eq_range']
      have h1 := (cut_places NoticeFlag.place r noticeCycle 741 0 h0 (mem_noticeCycle r)).1
      have := mem_noticeCycle q
      rw [h1] at this
      unfold scanOrder
      rcases List.mem_append.mp this with h | h
      · exact List.mem_append_left _ (List.mem_append_right _ h)
      · rcases List.mem_cons.mp h with rfl | h
        · exact List.mem_append_right _ List.mem_cons_self
        · exact List.mem_append_left _ (List.mem_append_left _ h)
  have key : ∀ (l : List NoticeFlag) (a : Nat), l.map (fun p => p.ahead s.sender.scan) = List.range' a l.length → p ∈ l →
      l.find? s.flag = some p := by
    intro l
    induction l with
    | nil => intro a _ hpl; simp at hpl
    | cons x l ih =>
      intro a hl hpl
      rw [List.length_cons, List.range'_succ, List.map_cons, List.cons.injEq] at hl
      cases hx : s.flag x with
      | false =>
        rw [List.find?_cons_of_neg (by simp [hx])]
        refine ih (a + 1) hl.2 ?_
        rcases List.mem_cons.mp hpl with rfl | hpl
        · rw [hp] at hx; cases hx
        · exact hpl
      | true =>
        rw [List.find?_cons_of_pos hx]
        rcases List.mem_cons.mp hpl with rfl | hpl
        · rfl
        · have h1 := h x hx
          have : p.ahead s.sender.scan ∈ l.map (fun p => p.ahead s.sender.scan) := List.mem_map_of_mem hpl
          rw [hl.2, List.mem_range'_1] at this
          omega
  have hlen : (scanOrder s.sender.scan).length = 741 := by
    rw [← List.length_map (f := fun p : NoticeFlag => p.ahead s.sender.scan), hs, List.length_range]
  refine key _ 0 ?_ (hm p)
  rw [hs, hlen, List.range_eq_range']

end Sys2Proof.Machine
end

