-- ==== Sys2Proof/Tests/Slice0.lean ====
section
/-! SUPPORT. The model's own tests: ill-formed commands are refused by the well-formedness check; for every statement with
hypotheses a concrete state that meets them, with what the command then does; and values of the spec's worked sequences. -/

open Sys2Proof Sys2Proof.Machine

namespace Sys2Proof.Tests

set_option Elab.async false

/-! ### A small district -/

/-- The state after a command. -/
def after (c : Instr) (s : State) : State :=
  match exec c s with
  | .next t => t
  | .fault _ => s
  | .refused _ => s

/-- The state after a step. -/
def stepped (s : State) : State :=
  match step s with
  | .next t => t
  | .fault _ => s
  | .refused _ => s

/-- One request with tag 7 waits in the FIFO. -/
def asked (payload : List Byte) (s : State) : State :=
  { s with intake := { s.intake with fifo := [{ tag := 7, payload }] } }

/-- The state after a request command that takes the payload. -/
def asking (c : Instr) (payload : List Byte) (s : State) : State := after c (asked payload s)

/-- The last response: result code and data. -/
def answer (s : State) : Option (ResultCode × List Byte) := s.responses.getLast?.map fun r => (r.code, r.data)

/-- A test over every configured container. -/
def everyContainer (s : State) (p : ContainerIx → Container → Bool) : Bool :=
  (List.finRange 128).all fun i => (s.container i).all (p i)

/-- The test over the table is the hypothesis as the statements write it. -/
theorem everyContainer_iff (s : State) (p : ContainerIx → Container → Bool) :
    everyContainer s p = true ↔ ∀ i c, s.container i = some c → p i c = true := by
  unfold everyContainer
  rw [List.all_eq_true]
  constructor
  · intro h i c hc
    have := h i (List.mem_finRange i)
    rw [hc] at this
    exact this
  · intro h i _
    cases hc : s.container i with
    | none => rfl
    | some c => exact h i c hc

/-- Station 5, inlet 2, container 17, fraction 1. -/
def st5 : StationIx := 4
def in2 : InletIx := 1
def bin : ContainerIx := 17
def paper : FractionIx := 1

def geometry : Params := { h := 1600, d := 1200, capacity := 3000, v := 20, k := 4, tCall := 750, tStop := 900 }

def level (e : Nat) : Fill :=
  { e, cb := e / 100, suspectRun := 0, suspectBand := none, lastStep := 400000, interval := some 3600, since := 1, noEcho := 0
    mode := .normal, reading := none, event := none }

def hopper (e : Nat) (state : ContainerState) : Container :=
  { binding := { station := st5, inlet := in2, fraction := paper }, params := geometry, state, full := decide (900 ≤ e)
    liftStart := none, liftDeadline := none, lastLift := none, staged := none, fill := level e }

def resident (number : Word32) : Card :=
  { number, household := 4711, status := .active, entitled := 0b1011, allowance := #v[255, 3, 0, 255], used := #v[254, 2, 0, 9]
    lastUse := none, link := none }

def node : StationConfig :=
  { configured := true, enabled := true, relay := true, inletCount := 3, exitMode := .auto, rank := 2 }

/-- A line that is RUNNING with station 5 on it, container 17 IDLE at E 700 and two cards. -/
def site : State :=
  { State.reset with
    clock := { elapsed := 90000, district := 500000, valid := true }
    line := { LineCtl.reset with state := .running, pollList := [st5] }
    links := State.reset.links.set st5 { status := .online, noReply := 0, mismatch := 0, mask := none }
    stations := State.reset.stations.set st5 { Station.reset with config := node }
    cards := [resident 20001, resident 91330]
    period := 7
    nextSession := 65535
    containers := State.reset.containers.set bin { flags := .clear, body := some (hopper 700 .idle) }
    fractions := State.reset.fractions.set paper { enabled := true, maxWait := 86400 } }

/-- The site with the line STOPPED. -/
def halted : State := { site with line := .reset }

/-- The site with another body of container 17. -/
def withBin (c : Container) (s : State) : State :=
  { s with containers := s.containers.set bin { s.containers[bin] with body := some c } }

/-- The site with another record of station 5. -/
def withStation (t : Station) (s : State) : State := { s with stations := s.stations.set st5 t }

/-- The open session of card 91330 at container 17. -/
def visit : Session :=
  { number := 3, card := 91330, household := 4711, container := bin, station := st5, inlet := in2, fraction := paper
    grantTime := 499990, deadline := 90050 }

/-- The site with that session open. -/
def visited : State :=
  withBin (hopper 700 .session)
    { site with
      sessions := [visit]
      line := { site.line with ring := [st5] }
      cards := [resident 20001, { resident 91330 with link := some 3 }] }

/-- A DRAINING line with two sessions at station 5, the second one at inlet 1 and container 3, where a part is staged; a message
waits, and the LINE STOP of tag 40 is held. -/
def crowded : State :=
  { visited with
    line := { visited.line with state := .draining, heldStop := some 40 }
    stations := visited.stations.set st5 { Station.reset with
      config := node, message := some { payload := [1], tag := 44, tries := 3, carried := false } }
    sessions := [visit, { visit with number := 9, card := 20001, container := 3, inlet := 0 }]
    cards := [{ resident 20001 with link := some 9 }, { resident 91330 with link := some 3 }]
    containers := visited.containers.set 3 { flags := .clear, body := some { hopper 700 .session with
      binding := { station := st5, inlet := 0, fraction := paper }, staged := some { geometry with tCall := 700 } } } }

/-- In a state that came from the crowded one every session at station 5 has ended ABORTED: two records in ascending inlet, the
links of the cards gone, the containers IDLE with the staged part applied, nothing in the ring, the line STOPPED with the held
response released, and both inlets in the CLOSE-NOW set. -/
def deserted (s : State) : Bool :=
  decide (s.sessions = [] ∧
    s.deposits.map (fun d => (d.record.container, d.record.outcome, d.record.charged)) =
      [(3, .aborted, false), (bin, .aborted, false)] ∧
    s.cards.map Card.link = [none, none] ∧ s.container bin = some (hopper 700 .idle) ∧
    s.container 3 = some { hopper 700 .idle with
      binding := { station := st5, inlet := 0, fraction := paper }, params := { geometry with tCall := 700 } } ∧
    s.containers[3].flags.raised = true ∧ s.line.ring = [] ∧ s.line.state = .stopped ∧
    (s.deferred.filter fun r => r.kind = 0x41) = [{ kind := 0x41, tag := 40, code := .done, data := [] }] ∧
    s.stations[st5].closeNow = #v[.fresh, .fresh, .out, .out])

/-- A WAITING request of container 17, and one PLANNED in slot 1. -/
def waiting : Request :=
  { fraction := paper, origin := .raised, raiseTime := 490000, fillAtRaise := 760, deadline := 576400, state := .waiting
    overdue := false }
def planned : Request := { waiting with state := .planned paper 2280 }

def withRequest (q : Request) (s : State) : State := { s with requests := s.requests.set bin (some q) }

/-- A round in slot 1 with container 17 as its only entry, its deadline at 501000. -/
def round : Round :=
  { tag := 9, vehicle := 12, dispatch := 499000, deadline := 501000, total := 2280
    entries := [{ container := bin, station := st5, volume := 2280, origin := .raised, state := .planned }] }

def withRound (s : State) : State :=
  withRequest planned { s with slots := s.slots.set paper { Slot.reset with round := some round } }

/-- A poll turn to station 5 in some phase. -/
def turn (phase : TurnPhase) : Turn :=
  { station := st5, kind := .regular, closeNow := [], message := false, rate := .r38400, phase }

def inTurn (phase : TurnPhase) (s : State) : State := { s with line := { s.line with turn := some (turn phase) } }

/-- The characters of frames heard, and of a reply: HEADER with reply number 6, a fault summary and a frame count, then the
frames. -/
def heard (frames : List (Byte × List Byte)) : List LineChar :=
  (frames.flatMap fun p => fieldFrame p.1 p.2).map fun b => { mark := false, data := b }

def reply (summary : Byte) (frames : List (Byte × List Byte)) : List LineChar :=
  heard ((0x41, [6, summary, byte frames.length]) :: frames)

/-- The site after a reply of station 5. -/
def replied (summary : Byte) (frames : List (Byte × List Byte)) (s : State) : State :=
  after (.replyEnd (reply summary frames)) (inTurn (.receiving 0x85) s)

/-- What the tests compare two states by. -/
structure Digest where
  clock : Clock
  settings : Settings
  line : LineCtl
  link : Link
  station : Station
  cards : List Card
  sessions : List Session
  deposits : List DepositRecord
  record : ContainerRec
  request : Option Request
  fraction : Fraction
  slot : Slot
  deferred : List Response
  outstanding : Nat
  relay : List Report
  deriving DecidableEq

def digest (s : State) : Digest :=
  { clock := s.clock, settings := s.settings, line := s.line, link := s.links[st5], station := s.stations[st5]
    cards := s.cards, sessions := s.sessions, deposits := s.deposits.map QueuedDeposit.record, record := s.containers[bin]
    request := s.requests[bin], fraction := s.fractions[paper], slot := s.slots[paper], deferred := s.deferred
    outstanding := s.outstanding, relay := s.relay }

/-- The request changes nothing that the tests compare. -/
def keeps (c : Instr) (payload : List Byte) (s : State) : Bool := decide (digest (asking c payload s) = digest s)

/-! ### Well-formedness (R154) -/

theorem test_wellFormed_whole_frame : (Instr.uplinkFrameReceived [1, 7, 0, 1, 0x53, 0, 0]).wellFormed = true := by decide

theorem test_wellFormed_refuses_short : (Instr.uplinkFrameReceived [1, 7, 0, 1, 0x53, 0]).wellFormed = false := by decide

theorem test_wellFormed_refuses_long : (Instr.uplinkFrameReceived [1, 7, 0, 1, 0x53, 0, 0, 0]).wellFormed = false := by decide

theorem test_wellFormed_refuses_headless : (Instr.uplinkFrameReceived [1, 7, 0]).wellFormed = false := by decide

theorem test_wellFormed_refuses_length_27 :
    (Instr.uplinkFrameReceived ([1, 7, 0, 27] ++ List.replicate 29 0)).wellFormed = false := by decide

theorem test_no_word_spells_a_command : decodeTableWord 8 0 = none ∧ (site.withFetchWord 8 0).pending = [] := by
  decide +kernel

/-! ### Steps and reset -/

theorem test_idle : State.reset.pending = [] ∧ digest (stepped State.reset) = digest State.reset := by decide +kernel

theorem test_step_takes_the_front :
    (stepped { site with pending := [.secondsAdvance, .lineStart] }).pending = [.lineStart] ∧
      (stepped { site with pending := [.secondsAdvance, .lineStart] }).clock.elapsed = 90001 := by decide +kernel

theorem test_power_on_reset_reads_the_straps :
    (after (.powerOnReset true false) visited).device.uplinkRate = .r230400 ∧
      digest (after (.powerOnReset true false) visited) = digest State.reset := by decide +kernel

/-! ### Receiving -/

/-- A request frame on the uplink, from its class to its check bytes. -/
def onUplink (cls : Byte) (payload : List Byte) : List Byte :=
  let covered := [cls, 7, 0, byte payload.length] ++ payload
  covered ++ crcBytes covered

def receiving (n : Nat) : State :=
  { site with intake :=
      { receiver := .receiving, fifo := List.replicate n { tag := 1, payload := [0x53] }, overrun := false } }

theorem test_frame_joins_the_fifo :
    (receiving 3).intake.receiver = .receiving ∧ (receiving 3).intake.fifo.length < 4 ∧
      (after (.uplinkFrameReceived (onUplink 1 [0x40])) (receiving 3)).intake.fifo.getLast? =
        some { tag := 7, payload := [0x40] } ∧
      (after (.uplinkFrameReceived (onUplink 1 [0x40])) (receiving 3)).ulRdy = false := by decide +kernel

theorem test_frame_overruns_a_full_fifo :
    4 ≤ (receiving 4).intake.fifo.length ∧
      (after (.uplinkFrameReceived (onUplink 1 (List.replicate 26 0))) (receiving 4)).intake.overrun = true := by
  decide +kernel

theorem test_defective_frames_are_discarded :
    word16 0 0 ≠ crc16 [1, 7, 0, 1, 0x40] ∧
      (after (.uplinkFrameReceived [1, 7, 0, 1, 0x40, 0, 0]) (receiving 0)).intake = site.intake ∧
      (after (.uplinkFrameReceived (onUplink 2 [0x40])) (receiving 0)).intake = site.intake ∧
      site.intake.receiver = .hunting ∧ (after (.uplinkFrameReceived (onUplink 1 [0x40])) site).intake = site.intake ∧
      (after .syncByteReceived site).intake = (receiving 0).intake ∧
      (after .interbyteTimeout (receiving 0)).intake = site.intake ∧
      (after .lengthFieldExceeded (receiving 0)).intake = site.intake := by decide +kernel

theorem test_crc_check_value : crc16 [0x31, 0x32, 0x33, 0x34, 0x35, 0x36, 0x37, 0x38, 0x39] = 0x29B1 := by decide +kernel

/-! ### Taking a request -/

theorem test_no_occasion :
    site.intake.fifo = [] ∧ (after .statusGet site).responses = [] ∧
      (after .statusGet { asked [0x53] site with outstanding := 12 }).responses = [] ∧
      keeps .statusGet [0x40] site = true ∧ answer (asking .statusGet [0x40] site) = none := by decide +kernel

theorem test_takes_at_its_bounds (r : Response) :
    ({ asked [0x53] site with responses := List.replicate 7 r, outstanding := 11 } : State).Takes
      { tag := 7, payload := [0x53] } [] := ⟨rfl, by simp, show 11 < 12 by decide⟩

theorem test_unknown_kind :
    (0x55 : Byte) ∉ requestRows.map RequestRow.kind ∧
      answer (asking .requestUnknownKind [0x55, 1] site) = some (.unknown, []) ∧
      answer (asking .requestUnknownKind [] site) = some (.unknown, []) ∧
      keeps .requestUnknownKind [] site = true := by decide +kernel

theorem test_wrong_lengths :
    requestRows.all (fun r =>
      decide (answer (asking r.command (r.kind :: List.replicate r.greatest 0) site) = some (.range, [])) &&
        keeps r.command (r.kind :: List.replicate r.greatest 0) site) = true ∧
      answer (asking .stationMessage [0x14, 5] site) = some (.range, []) := by decide +kernel

theorem test_refusals_change_nothing :
    answer (asking .lineTest [0x42] site) = some (.state, []) ∧ keeps .lineTest [0x42] site = true := by decide +kernel

/-! ### Cards -/

def cardPayload (kind : Byte) (number : Nat) (fields : List Byte) : List Byte := kind :: be4 number ++ fields

def putCard (number : Nat) (status entitled : Byte) : List Byte :=
  cardPayload 0x01 number [0x12, 0x34, status, entitled, 255, 1, 0, 9]

theorem test_card_put_inserts_in_order :
    (site.cards.all fun c => c.number ≠ 50000) = true ∧ site.cards.length < 4096 ∧
      answer (asking .cardPut (putCard 50000 2 15) site) = some (.done, [0, 0, 3]) ∧
      (asking .cardPut (putCard 50000 2 15) site).cards.map Card.number = [20001, 50000, 91330] := by decide +kernel

theorem test_card_put_replaces_and_clamps :
    answer (asking .cardPut (putCard 91330 0 15) site) = some (.done, [1, 0, 2]) ∧
      ((asking .cardPut (putCard 91330 0 15) site).cards.map fun c => (c.number, c.used)) =
        [(20001, #v[254, 2, 0, 9]), (91330, #v[254, 1, 0, 9])] := by decide +kernel

theorem test_card_put_refusals :
    [putCard 0 0 0, putCard 4294967295 0 0, putCard 1 3 0, putCard 1 0 16].all (fun p =>
      decide (answer (asking .cardPut p site) = some (.range, [])) && keeps .cardPut p site) = true ∧
      answer (asking .cardPut (putCard 91330 0 0) visited) = some (.collide, []) ∧
      keeps .cardPut (putCard 91330 0 0) visited = true := by decide +kernel

theorem test_card_put_full :
    let s : State := { site with cards := List.replicate 4096 (resident 1) }
    4096 ≤ s.cards.length ∧ (∀ c ∈ s.cards, c.number ≠ 2) ∧ answer (asking .cardPut (putCard 2 0 0) s) = some (.full, []) := by
  refine ⟨le_of_eq List.length_replicate.symm, ?_, by decide +kernel⟩
  intro c hc
  rw [List.eq_of_mem_replicate hc]
  decide

theorem test_card_drop :
    answer (asking .cardDrop (cardPayload 0x02 0 []) site) = some (.range, []) ∧
      answer (asking .cardDrop (cardPayload 0x02 1 []) site) = some (.absent, []) ∧
      answer (asking .cardDrop (cardPayload 0x02 91330 []) visited) = some (.collide, []) ∧
      answer (asking .cardDrop (cardPayload 0x02 91330 []) site) = some (.done, [0, 1]) ∧
      (asking .cardDrop (cardPayload 0x02 91330 []) site).cards = [resident 20001] := by decide +kernel

theorem test_card_status_and_period_roll :
    answer (asking .cardStatus (cardPayload 0x03 91330 [3]) site) = some (.range, []) ∧
      answer (asking .cardStatus (cardPayload 0x03 4294967294 [2]) site) = some (.absent, []) ∧
      (asking .cardStatus (cardPayload 0x03 91330 [2]) visited).cards.map Card.status = [.active, .revoked] ∧
      (asking .periodRoll [0x05, 0x12, 0x34] site).period = 0x1234 ∧
      (asking .periodRoll [0x05, 0x12, 0x34] site).cards.map Card.used = [#v[0, 0, 0, 0], #v[0, 0, 0, 0]] := by
  decide +kernel

def gotCard (form : Byte) (number : Nat) : Option (ResultCode × List Byte) :=
  answer (asking .cardGet ([0x04, form] ++ be4 number) site)

theorem test_card_get :
    site.CardsOrdered ∧ gotCard 2 1 = some (.range, []) ∧ gotCard 0 0 = some (.range, []) ∧
      gotCard 1 4294967295 = some (.range, []) ∧ gotCard 0 20002 = some (.absent, []) ∧ gotCard 1 91330 = some (.absent, []) ∧
      gotCard 1 0 = some (.done, (resident 20001).bytes ++ [0, 7, 0, 2]) ∧
      gotCard 0 91330 = some (.done, (resident 91330).bytes ++ [0, 7, 0, 2]) ∧
      gotCard 1 20001 = gotCard 0 91330 := by
  unfold State.CardsOrdered
  decide +kernel

/-! ### Stations -/

theorem test_station_put_refused_or_staged :
    [[0x10, 0, 7, 3, 0, 2], [0x10, 49, 7, 3, 0, 2], [0x10, 5, 7, 0, 0, 2], [0x10, 5, 7, 5, 0, 2], [0x10, 5, 7, 3, 3, 2]].all
        (fun p => decide (answer (asking .stationPut p site) = some (.range, []))) = true ∧
      [[0x10, 5, 7, 1, 0, 2], [0x10, 5, 6, 4, 0, 2]].all
        (fun p => decide (answer (asking .stationPut p site) = some (.collide, []))) = true ∧
      everyContainer site (fun _ c => decide (c.binding.station ≠ st5 ∨ inletNo c.binding.inlet ≤ 2)) = true ∧
      answer (asking .stationPut [0x10, 5, 3, 2, 1, 9] site) = some (.staged, []) ∧
      (asking .stationPut [0x10, 5, 3, 2, 1, 9] site).stations[st5].staged =
        some { node with relay := false, inletCount := 2, exitMode := .cycle, rank := 9 } := by decide +kernel

def locked : Station :=
  { Station.reset with
    config := node, locked := true, reasons := { fault := true, line := false, command := false }
    message := some { payload := [1], tag := 44, tries := 3, carried := false } }

theorem test_station_put_applied_at_once :
    halted.line.state = .stopped ∧ halted.line.turn = none ∧ halted.sessions = [] ∧
      everyContainer halted (fun _ c => decide (inletNo c.binding.inlet ≤ 2)) = true ∧
      (asking .stationPut [0x10, 5, 7, 2, 0, 9] (withStation locked halted)).stations[st5].locked = false ∧
      (asking .stationPut [0x10, 5, 5, 2, 0, 9] (withStation locked halted)).stations[st5].message = none ∧
      (asking .stationPut [0x10, 5, 5, 2, 0, 9] (withStation locked halted)).links[st5].status = .unknown ∧
      (asking .stationPut [0x10, 5, 5, 2, 0, 9] (withStation locked halted)).deferred =
        [{ kind := 0x14, tag := 44, code := .failed, data := [] }] := by decide +kernel

theorem test_station_put_unconfigures :
    let s : State := { withStation locked halted with containers := State.reset.containers }
    everyContainer s (fun _ _ => false) = true ∧
      (asking .stationPut [0x10, 5, 0, 1, 0, 0] s).stations[st5] = { Station.reset with lockFlag := true, lineFlag := true } := by
  decide +kernel

theorem test_lock :
    answer (asking .lock [0x12, 0] visited) = some (.range, []) ∧ answer (asking .lock [0x12, 48] visited) = some (.state, []) ∧
      (asking .lock [0x12, 5] visited).sessions = [] ∧
      (asking .lock [0x12, 5] visited).deposits.map QueuedDeposit.record = [visit.record visited .aborted] ∧
      (asking .lock [0x12, 5] visited).stations[st5].closeNow = #v[.out, .fresh, .out, .out] ∧
      (asking .lock [0x12, 5] visited).containers[bin].body = some (hopper 700 .idle) ∧
      (asking .lock [0x12, 5] (withStation locked site)).stations[st5].reasons =
        { fault := true, line := false, command := true } := by decide +kernel

theorem test_lock_ends_every_session :
    deserted crowded = false ∧ deserted (asking .lock [0x12, 5] crowded) = true ∧
      (asking .lock [0x12, 5] crowded).stations[st5].message = crowded.stations[st5].message := by decide +kernel

theorem test_unlock :
    answer (asking .unlock [0x13, 49] site) = some (.range, []) ∧ answer (asking .unlock [0x13, 1] site) = some (.state, []) ∧
      answer (asking .unlock [0x13, 5] site) = some (.done, []) ∧ keeps .unlock [0x13, 5] site = true ∧
      answer (asking .unlock [0x13, 5] (withStation { locked with hold := true } site)) = some (.state, []) ∧
      (asking .unlock [0x13, 5] (withStation locked site)).stations[st5].locked = false := by decide +kernel

theorem test_station_message :
    site.stations[st5].message = none ∧ site.poolCount < 8 ∧
      answer (asking .stationMessage [0x14, 0, 1] site) = some (.range, []) ∧
      answer (asking .stationMessage [0x14, 1, 1] site) = some (.state, []) ∧
      answer (asking .stationMessage [0x14, 5, 1] (withStation locked site)) = some (.busy, []) ∧
      (asking .stationMessage (0x14 :: 5 :: List.replicate 24 9) site).stations[st5].message =
        some { payload := List.replicate 24 9, tag := 7, tries := 3, carried := false } ∧
      (asking .stationMessage [0x14, 5, 1] site).outstanding = 1 := by decide +kernel

/-! ### Reads -/

theorem test_reads :
    answer (asking .stationGet [0x11, 49] site) = some (.range, []) ∧
      answer (asking .stationGet [0x11, 5] (withStation locked site)) =
        some (.done, [5, 7, 3, 0, 2, 0, 0, 0, 0, 0, 0b1100, 1, 3, 44, 0, 1, 0, 0]) ∧
      answer (asking .containerGet [0x21, 128] site) = some (.range, []) ∧
      answer (asking .containerGet [0x21, 0] site) = some (.done, List.replicate 85 0) ∧
      (answer (asking .containerGet [0x21, 17] site)).map (fun x => (x.1, x.2.take 8)) =
        some (.done, [17, 1, 0, 0b00110000, 0, 5, 2, 1]) := by decide +kernel

theorem test_status_get :
    answer (asking .statusGet [0x53] { visited with intake := { visited.intake with overrun := true } }) = some (.done,
      [1] ++ be4 0 ++ be4 500000 ++ [1] ++ be5 90000 ++ [0, 7, 0, 2, 1, 1, 0, 0, 0, 0, 1]) ∧
      (asking .statusGet [0x53] { visited with intake := { visited.intake with overrun := true } }).intake.overrun = false := by
  decide +kernel

/-! ### Containers -/

def putBin (i st il fr : Byte) (p : Params) : List Byte := [0x20, i, st, il, fr] ++ p.bytes

theorem test_container_put_refusals :
    [putBin 128 5 2 1 geometry, putBin 17 0 2 1 geometry, putBin 17 49 2 1 geometry, putBin 17 5 0 1 geometry,
        putBin 17 5 5 1 geometry, putBin 17 5 2 4 geometry, putBin 17 5 2 1 { geometry with d := 1501 },
        putBin 17 5 2 1 { geometry with tStop := 749 }, putBin 17 5 2 1 { geometry with k := 0 }].all
        (fun p => decide (answer (asking .containerPut p site) = some (.range, []))) = true ∧
      answer (asking .containerPut (putBin 17 5 3 1 geometry) visited) = some (.state, []) ∧
      answer (asking .containerPut (putBin 18 6 1 1 geometry) site) = some (.state, []) ∧
      answer (asking .containerPut (putBin 18 5 4 1 geometry) site) = some (.range, []) ∧
      answer (asking .containerPut (putBin 18 5 2 1 geometry) site) = some (.collide, []) := by decide +kernel

theorem test_container_put_configures :
    geometry.inRange = true ∧ site.container 18 = none ∧ site.stations[st5].staged = none ∧ inletNo 2 ≤ node.inletCount ∧
      everyContainer site (fun _ d => decide (d.binding.inlet ≠ 2)) = true ∧
      (asking .containerPut (putBin 18 5 3 2 geometry) site).container 18 = some { hopper 0 .idle with
        binding := { station := st5, inlet := 2, fraction := 2 }
        fill := { level 0 with lastStep := 500000, interval := none, since := 0 } } := by decide +kernel

theorem test_container_put_writes :
    (asking .containerPut (putBin 17 5 2 1 { geometry with tCall := 700, tStop := 700 }) site).container bin = some {
        hopper 700 .idle with params := { geometry with tCall := 700, tStop := 700 }, full := true } ∧
      (asking .containerPut (putBin 17 5 2 1 { geometry with tCall := 700 }) site).containers[bin].flags.raised = true ∧
      (asking .containerPut (putBin 17 5 3 2 geometry) site).container bin =
        some { hopper 700 .idle with binding := { station := st5, inlet := 2, fraction := 2 } } ∧
      answer (asking .containerPut (putBin 17 5 2 1 geometry) visited) = some (.staged, []) ∧
      (asking .containerPut (putBin 17 5 2 1 geometry) visited).container bin =
        some { hopper 700 .session with staged := some geometry } := by decide +kernel

/-- Station 5 with a staged write that lowers its inlet count to 2. -/
def narrowing : State := withStation { Station.reset with config := node, staged := some { node with inletCount := 2 } } site

theorem test_container_put_under_a_staged_write :
    answer (asking .containerPut (putBin 18 5 3 2 geometry) narrowing) = some (.range, []) ∧
      answer (asking .containerPut (putBin 18 5 1 2 geometry) narrowing) = some (.done, []) ∧
      answer (asking .containerPut (putBin 17 5 1 2 geometry) narrowing) = some (.done, []) ∧
      ((asking .containerPut (putBin 17 5 1 2 geometry) narrowing).container bin).map Container.binding =
        some { station := st5, inlet := 0, fraction := 2 } := by decide +kernel

theorem test_container_clear :
    answer (asking .containerClear [0x22, 128] site) = some (.range, []) ∧
      answer (asking .containerClear [0x22, 127] site) = some (.absent, []) ∧
      answer (asking .containerClear [0x22, 17] visited) = some (.state, []) ∧
      answer (asking .containerClear [0x22, 17] (withRequest waiting site)) = some (.state, []) ∧
      (asking .containerClear [0x22, 17] site).containers[bin] = ContainerRec.reset := by decide +kernel

def jammed : Container := { hopper 700 (.fault .lift) with liftStart := some 80000, liftDeadline := some 81800 }

theorem test_clear_inlet :
    answer (asking .clearInlet [0x23, 128] site) = some (.range, []) ∧
      answer (asking .clearInlet [0x23, 17] site) = some (.state, []) ∧
      (asking .clearInlet [0x23, 17] (withBin jammed site)).containers[bin] =
        { flags := { ContainerFlags.clear with inletFault := true }, body := some (hopper 700 .idle) } ∧
      (asking .clearInlet [0x23, 17]
        (withBin { hopper 700 (.fault .hatch) with staged := some { geometry with tCall := 700 } } site)).containers[bin] =
        { flags := { ContainerFlags.clear with inletFault := true, raised := true }
          body := some { hopper 700 .idle with params := { geometry with tCall := 700 } } } := by decide +kernel

def stalled : Container := { hopper 700 .idle with fill := { level 700 with cb := 4, mode := .degraded .stall, since := 10 } }

theorem test_clear_sensor :
    answer (asking .clearSensor [0x24, 128] site) = some (.range, []) ∧
      answer (asking .clearSensor [0x24, 17] site) = some (.state, []) ∧
      (asking .clearSensor [0x24, 17] (withBin stalled site)).containers[bin] =
        { flags := { ContainerFlags.clear with sensor := true }
          body := some { hopper 700 .idle with fill := { level 700 with
            lastStep := 500000, since := 0, event := some .cleared } } } := by decide +kernel

/-! ### Fill -/

theorem test_blend_and_volume :
    blend 4 610 640 = 618 ∧ blend 4 640 610 = 632 ∧ (hopper 0 .idle).plannedVolume = 1 ∧ (hopper 782 .idle).plannedVolume = 2346 ∧
      (hopper 1 .idle).plannedVolume = 3 := by decide +kernel

theorem test_time_to_call :
    (hopper 700 .idle).timeToCall = some 1800 ∧ (hopper 749 .idle).timeToCall = some 36 ∧
      (hopper 750 .idle).timeToCall = some 0 ∧ stalled.timeToCall = none := by decide +kernel

def readAt (d : Nat) (c : Container) : Option Fill :=
  ((withBin c site).levelReading bin d).container bin |>.map Container.fill

theorem test_level_readings :
    readAt 700 (hopper 700 .idle) = some { level 713 with reading := some { d := 700, m := 750, overFlag := false } } ∧
      (readAt 640 (hopper 700 .idle)).map (fun f => (f.e, f.cb, f.interval)) = some (800, 8, some 27700) ∧
      (readAt 1600 (hopper 700 .idle)).map (fun f => (f.e, f.suspectRun, f.suspectBand)) = some (700, 1, some 0) ∧
      (readAt 1600 { hopper 700 .idle with fill := { level 700 with suspectRun := 2, suspectBand := some 0 } }).map
        (fun f => (f.e, f.cb, f.event)) = some (0, 0, some .jump) ∧
      (readAt 4000 stalled).map Fill.noEcho = some 0 ∧ (readAt 0 (hopper 700 .idle)).map Fill.noEcho = some 1 ∧
      (readAt 4001 { hopper 700 .idle with fill := { level 700 with noEcho := 7 } }).map Fill.mode =
        some (.degraded .noEcho) ∧
      readAt 700 jammed = some (level 700) := by decide +kernel

theorem test_charged_deposit :
    ((withBin (hopper 990 .session) site).chargedDeposit bin).container bin =
        some { hopper 1000 .session with fill := { level 1000 with cb := 9, since := 2 } } ∧
      ((withBin { hopper 700 .session with fill := { level 700 with since := 8 } } site).chargedDeposit bin).containers[bin].flags.sensor =
        false ∧
      (((withBin { hopper 700 .session with fill := { level 700 with since := 9 } } site).chargedDeposit bin).container bin).map
        (fun c => c.fill.mode) = some (.degraded .stall) := by decide +kernel

/-! ### Requests, rounds and time -/

theorem test_fraction_put :
    answer (asking .fractionPut ([0x30, 4, 1] ++ be4 600) site) = some (.range, []) ∧
      answer (asking .fractionPut ([0x30, 3, 1] ++ be4 599) site) = some (.range, []) ∧
      answer (asking .fractionPut ([0x30, 3, 1] ++ be4 1209601) site) = some (.range, []) ∧
      answer (asking .fractionPut ([0x30, 1, 0] ++ be4 1209600) (withRound site)) = some (.done, [0] ++ be4 1209600 ++ [0, 1]) ∧
      (asking .fractionPut ([0x30, 1, 0] ++ be4 600) (withRequest waiting site)).fractions[paper] =
        { enabled := false, maxWait := 600 } := by decide +kernel

theorem test_request_cancel :
    answer (asking .requestCancel [0x31, 128] site) = some (.range, []) ∧
      answer (asking .requestCancel [0x31, 17] site) = some (.absent, []) ∧
      answer (asking .requestCancel [0x31, 17] (withRound site)) = some (.state, []) ∧
      answer (asking .requestCancel [0x31, 17] (withRequest waiting site)) =
        some (.done, [0] ++ be4 490000 ++ be4 576400 ++ [0]) ∧
      (asking .requestCancel [0x31, 17] (withRequest waiting site)).requests[bin] = none := by decide +kernel

def due : State := withRequest { waiting with deadline := 500001 } (withRound site)

theorem test_time_goes_on :
    due.clock.elapsed < 1099511627775 ∧
      (after .requestOverdueMarking (withRequest waiting site)).requests[bin] = some waiting ∧
      (after .secondsAdvance (withRequest { waiting with deadline := 500001 } site)).requests[bin] =
        some { waiting with deadline := 500001, overdue := true } ∧
      (after .secondsAdvance { site with clock := { site.clock with district := 0xFFFFFFFF } }).clock.district = 0 ∧
      answer (asking .timeSet ([0x52] ++ be4 501000) (withRound site)) =
        some (.done, be4 501000 ++ be4 500000 ++ [1]) ∧
      (asking .timeSet ([0x52] ++ be4 501000) (withRound site)).slots[paper].round = none := by decide +kernel

theorem test_round_closes :
    (round.entries.map Entry.container).Nodup ∧ answer (asking .roundClose [0x33, 4] site) = some (.range, []) ∧
      answer (asking .roundClose [0x33, 1] site) = some (.state, []) ∧
      answer (asking .roundClose [0x33, 1] (withRound site)) = some (.done, [1, 0]) ∧
      (asking .roundClose [0x33, 1] (withRound site)).requests[bin] = some waiting ∧
      (asking .roundClose [0x33, 1] (withRound site)).slots[paper] =
        { round := none, closedFlag := true
          lastClose := some { reason := .command, vehicle := 12, time := 500000, entries := 1, lifted := 0 } } ∧
      (after .roundDeadlineExpiry (withRound site)).slots[paper].round = some round ∧
      (after .roundDeadlineExpiry
        (withRound { site with clock := { site.clock with district := 501000 } })).slots[paper].round = none := by
  decide +kernel

/-- Two rounds due at 501000, in slots 1 and 3, and one in slot 0 that is due a second later. The entry of slot 3 is a pre-empted
request whose container 3 has reached T_call. -/
def overrun : State :=
  let s := withRound { site with clock := { site.clock with district := 501000 } }
  { s with
    containers := s.containers.set 3 { flags := .clear, body := some { hopper 760 .idle with
      binding := { station := st5, inlet := 0, fraction := 3 } } }
    requests := s.requests.set 3 (some { waiting with fraction := 3, origin := .preempt, state := .planned 3 2280 })
    slots := (s.slots.set 3 { Slot.reset with round := some { round with
        deadline := 500999
        entries := [{ container := 3, station := st5, volume := 2280, origin := .preempt, state := .planned }] } }).set 0
      { Slot.reset with round := some { round with deadline := 501001, entries := [] } } }

theorem test_two_rounds_close_at_once :
    overrun.dueRounds.map Prod.fst = [1, 3] ∧
      (overrun.dueRounds.all fun p => decide (p.2.entries.map Entry.container).Nodup) = true ∧
      (after .roundDeadlineExpiry overrun).slots.toList.map (fun x => (x.round.isSome, x.closedFlag)) =
        [(true, false), (false, true), (false, false), (false, true)] ∧
      (after .roundDeadlineExpiry overrun).requests[bin] = some waiting ∧
      (after .roundDeadlineExpiry overrun).containers[bin] = overrun.containers[bin] ∧
      (after .roundDeadlineExpiry overrun).requests[(3 : ContainerIx)] = some { waiting with fraction := 3 } ∧
      (after .roundDeadlineExpiry overrun).containers[(3 : ContainerIx)].flags = { ContainerFlags.clear with raised := true } := by
  decide +kernel

def openRound (n limit : Byte) (budget duration horizon : Nat) : List Byte :=
  [0x32, n, 0, 12, limit] ++ be4 budget ++ be2 duration ++ be4 horizon

theorem test_round_open_refusals :
    [openRound 4 1 100 600 0, openRound 1 0 100 600 0, openRound 1 25 100 600 0, openRound 1 24 99 600 0,
        openRound 1 24 200001 600 0, openRound 1 24 100 599 0, openRound 1 24 100 43201 0, openRound 1 24 100 600 86401].all
        (fun p => decide (answer (asking .roundOpen p site) = some (.range, []))) = true ∧
      answer (asking .roundOpen (openRound 1 24 200000 43200 86400) (withRound site)) = some (.busy, []) ∧
      answer (asking .roundOpen (openRound 1 1 100 600 0) { site with roundLists := [{ slot := paper, payload := [] }] }) =
        some (.busy, []) ∧
      answer (asking .roundOpen (openRound 0 1 100 600 0) site) = some (.state, []) := by decide +kernel

theorem test_round_open_builds :
    site.slots[paper].round = none ∧ site.roundLists = [] ∧
      site.fractions[paper].enabled = true ∧
      answer (asking .roundOpen (openRound 1 1 2280 600 0) (withRequest waiting (withBin (hopper 760 .idle) site))) =
        some (.done, [1] ++ be4 2280) ∧
      (asking .roundOpen (openRound 1 1 2280 600 0) (withRequest waiting (withBin (hopper 760 .idle) site))).requests[bin] =
        some planned ∧
      answer (asking .roundOpen (openRound 1 24 2279 600 0) (withRequest waiting (withBin (hopper 760 .idle) site))) =
        some (.done, [0, 0, 0, 0, 0]) ∧
      answer (asking .roundOpen (openRound 1 24 3000 43200 1800) site) = some (.done, [1] ++ be4 2100) ∧
      answer (asking .roundOpen (openRound 1 24 3000 43200 1799) site) = some (.done, [0, 0, 0, 0, 0]) ∧
      (asking .roundOpen (openRound 1 24 3000 43200 1800) site).roundLists.map RoundListFrame.payload =
        [[1, 7, 0, 12] ++ be4 500000 ++ be4 543200 ++ [1] ++ be4 2100 ++ [1, 1] ++ [1, 17, 5, 2] ++ be2 2100 ++ [1]] := by
  decide +kernel

/-- The site in the last second of the district time. -/
def late : State := { withRequest waiting (withBin (hopper 760 .idle) site) with
  clock := { elapsed := 90000, district := 0xFFFFFFFF, valid := true } }

theorem test_round_closes_at_its_dispatch :
    answer (asking .roundOpen (openRound 1 1 2280 600 0) late) = some (.done, [1] ++ be4 2280) ∧
      (asking .roundOpen (openRound 1 1 2280 600 0) late).slots[paper] =
        { round := none, closedFlag := true
          lastClose := some { reason := .timeout, vehicle := 12, time := 0xFFFFFFFF, entries := 1, lifted := 0 } } ∧
      (asking .roundOpen (openRound 1 1 2280 600 0) late).requests[bin] = some waiting ∧
      (asking .roundOpen (openRound 1 1 2280 600 0) late).roundLists.length = 1 := by decide +kernel

/-! ### Settings and the line -/

theorem test_settings :
    [[0x50, 0, 9, 20, 7, 8, 2], [0x50, 1, 45, 20, 7, 8, 2], [0x50, 0, 60, 4, 7, 8, 2], [0x50, 0, 60, 101, 7, 8, 2],
        [0x50, 0, 60, 20, 2, 87, 2], [0x50, 0, 60, 20, 28, 33, 2], [0x50, 0, 60, 20, 7, 8, 4]].all
        (fun p => decide (answer (asking .settingsPut p site) = some (.range, []))) = true ∧
      answer (asking .settingsPut [0x50, 0, 10, 5, 2, 88, 3] site) = some (.state, []) ∧
      (asking .settingsPut [0x50, 1, 44, 100, 28, 32, 3] halted).settings =
        { hatchOpen := 300, window := 100, liftTimeout := 7200, rate := .r115200 } ∧
      (asking .settingsPut [0x50, 0, 10, 5, 2, 88, 1] site).settings =
        { hatchOpen := 10, window := 5, liftTimeout := 600, rate := .r38400 } ∧
      answer (asking .settingsGet [0x51] site) = some (.done, [0, 60, 20, 7, 8, 1, 0]) := by decide +kernel

def draining : State := { visited with line := { visited.line with state := .draining, heldStop := some 40 } }

theorem test_line_start_and_stop :
    (asking .lineStart [0x40] halted).line.pollList = [st5] ∧ (asking .lineStart [0x40] halted).line.cycleCount = 1 ∧
      (asking .lineStart [0x40] (inTurn .closing halted)).line.wrapDue = true ∧
      (asking .lineStart [0x40] draining).deferred = [{ kind := 0x41, tag := 40, code := .failed, data := [] }] ∧
      keeps .lineStart [0x40] site = true ∧ (asking .lineStop [0x41] site).line.state = .stopped ∧
      (asking .lineStop [0x41] visited).line.heldStop = some 7 ∧
      answer (asking .lineStop [0x41] draining) = some (.busy, []) ∧
      answer (asking .lineStop [0x41] halted) = some (.done, []) := by decide +kernel

def testing (sent : Nat) : State :=
  { halted with line := { halted.line with state := .test, test := some { tag := 8, sent, matched := sent } } }

theorem test_line_test :
    (asking .lineTest [0x42] halted).line.test = some { tag := 7, sent := 0, matched := 0 } ∧
      (after .testTransmission (testing 15)).line.flTxd = testChars 16 ∧
      (after .testTransmission (testing 16)).line.flTxd = [] ∧
      (after (.testTransmissionJudged (testChars 16)) (after .testTransmission (testing 15))).deferred =
        [{ kind := 0x42, tag := 8, code := .done, data := [16] }] ∧
      (after (.testTransmissionJudged []) (after .testTransmission (testing 15))).deferred =
        [{ kind := 0x42, tag := 8, code := .done, data := [15] }] ∧
      (after (.testTransmissionJudged (testChars 1)) (after .testTransmission (testing 0))).line.test =
        some { tag := 8, sent := 1, matched := 1 } := by decide +kernel

theorem test_cycle_wrap :
    (withStation { locked with staged := some { node with exitMode := .cycle } } site).wrap.stations[st5] =
        { locked with config := { node with exitMode := .cycle }, locked := false, reasons := .none, lockFlag := true } ∧
      (after .emptyListWrapInterval { site with line := { site.line with pollList := [] } }).line.pollList = [st5] ∧
      (after .emptyListWrapInterval
        (inTurn .closing { site with line := { site.line with pollList := [] } })).line.wrapDue = true ∧
      (after .emptyListWrapInterval site).line.cycleCount = 0 := by decide +kernel

theorem test_wrap_ends_sessions :
    let t := (withStation { crowded.stations[st5] with staged := some { node with enabled := false } } crowded).wrap
    deserted t = true ∧ t.stations[st5].message = none ∧ t.stations[st5].lineFlag = true ∧ t.links[st5].status = .unknown ∧
      t.deferred.map Response.tag = [40, 44] ∧ t.line.pollList = [] := by decide +kernel

/-- A line whose only station has become DISABLED. -/
def deaf : State := { site with links := site.links.set st5 { Link.reset with status := .disabled } }

theorem test_turn_after_a_wrap :
    (State.endTurn .regular (inTurn .closing { site with line := { site.line with wrapDue := true } })).line.cycleCount = 1 ∧
      (State.endTurn .regular (inTurn .closing site)).line.wrapDue = false ∧
      (deaf.chooseTurn none).line.pollList = [] ∧ (deaf.chooseTurn none).line.nextTurn = none ∧
      (({ deaf with line := { deaf.line with ring := [st5] } } : State).chooseTurn none).line.nextTurn =
        some (st5, .session) ∧
      ((withStation { crowded.stations[st5] with staged := some { node with enabled := false } }
        { crowded with line := { crowded.line with pointer := 1 } }).chooseTurn none).line.nextTurn = none := by
  decide +kernel

theorem test_next_turn :
    (site.chooseTurn none).line.nextTurn = some (st5, .regular) ∧
      (visited.chooseTurn (some .regular)).line.nextTurn = some (st5, .session) ∧
      (visited.chooseTurn (some .session)).line.nextTurn = some (st5, .regular) ∧
      (({ site with line := { site.line with pointer := 1 } } : State).chooseTurn none).line.cycleCount = 1 ∧
      (halted.chooseTurn none).line.nextTurn = none := by decide +kernel

theorem test_poll_turn :
    (after .pollTransmission site).line.turn = some (turn .sendingPoll) ∧
      (after .pollTransmission site).flDe = true ∧
      (after .pollTransmission site).line.flTxd =
        { mark := true, data := 5 } :: (fieldFrame 0x01 [0, 0]).map (fun b => { mark := false, data := b }) ∧
      (after .pollTransmissionEnd (inTurn .sendingPoll site)).line.turn = some (turn (.window 20)) ∧
      (after (.replyStart 0x85) (inTurn (.window 20) site)).line.turn = some (turn (.receiving 0x85)) ∧
      (after .replyLengthLimit (inTurn (.receiving 0x85) site)).line.turn = some (turn .overlong) := by decide +kernel

/-- Station 5 with its no-reply run at 2. -/
def silent : State := { site with links := site.links.set st5 { status := .online, noReply := 2, mismatch := 0, mask := none } }

theorem test_turns_that_fail :
    (after .replyWindowExpiry (inTurn (.window 20) site)).links[st5].noReply = 1 ∧
      (after .replyOverrunTurnEnd (inTurn .overlong silent)).links[st5].status = .lost ∧
      (after .replyWindowExpiry (inTurn (.window 20) silent)).stations[st5].reasons =
        { fault := false, line := true, command := false } ∧
      (after (.replyEnd []) (inTurn (.receiving 0x86) site)).links[st5].mismatch = 1 ∧
      (after (.replyEnd []) (inTurn (.receiving 0x05) site)).links[st5].mismatch = 1 ∧
      classify st5 0x85 (heard [(0x41, [6, 0, 5])]) = .badHeader ∧
      (after (.replyEnd (heard [(0x41, [6, 0, 5])])) (inTurn (.receiving 0x85) site)).links[st5].noReply = 1 := by
  decide +kernel

theorem test_line_fault_ends_sessions :
    let s : State := { crowded with links := silent.links }
    deserted (after .replyWindowExpiry (inTurn (.window 20) s)) = true ∧
      (after .replyWindowExpiry (inTurn (.window 20) s)).stations[st5].message = none ∧
      deserted (after .replyWindowExpiry (inTurn (.window 20) (withStation { s.stations[st5] with fault := true } s))) = false := by
  decide +kernel

/-- A HEADER frame, and the same with a damaged check. -/
def header : HeardFrame := { kind := 0x41, payload := [6, 0xF3, 4], check := crc16 [0x41, 3, 6, 0xF3, 4] }
def damaged : HeardFrame := { header with check := header.check ^^^ 1 }

/-- Data characters heard. -/
def quiet (bytes : List Byte) : List LineChar := bytes.map fun b => { mark := false, data := b }

theorem test_defective_replies :
    header.passes = true ∧ damaged.passes = false ∧ classify st5 0x85 (quiet damaged.bytes) = .badHeader ∧
      classify st5 0x85 (quiet (header.bytes ++ damaged.bytes ++ [0x48, 25] ++ List.replicate 30 0)) =
        .good 6 3 4 [{ kind := 0x41, payload := [6, 0xF3, 4], sound := false }] ∧
      classify st5 0x85 (quiet (header.bytes ++ [0x47, 0, 1])) = .good 6 3 4 [] ∧
      classify st5 0x85 (quiet [0x41, 3, 6] ++ { mark := true, data := 0xF3 } :: quiet [4, 0, 0]) = .badHeader := by
  decide +kernel

theorem test_reply_frames :
    classify st5 0xC5 (heard [(0x41, [6, 0xF3, 4]), (0x47, [])] ++ [{ mark := true, data := 0x44 }]) =
        .good 6 3 4 [{ kind := 0x47, payload := [], sound := true }] ∧
      classify st5 0x85 (heard []) = .badHeader ∧ classify st5 0x85 (heard [(0x47, [])]) = .badHeader := by decide +kernel

theorem test_good_reply :
    (replied 0 [] site).links[st5].mask = some { reply := 6, positions := 0 } ∧ (replied 0 [] site).line.turn = none ∧
      (replied 2 [] site).stations[st5].reasons = { fault := true, line := false, command := false } ∧
      (replied 0 [] (withStation { locked with fault := true } site)).stations[st5].locked = false ∧
      (after .closingTransmissionEnd (inTurn .closing site)).line.turn = none := by decide +kernel

theorem test_fault_summary_ends_sessions :
    deserted (replied 2 [] crowded) = true ∧ deserted (replied 0 [] crowded) = false ∧
      (replied 2 [(0x42, 2 :: be4 91330)] crowded).line.flTxd =
        { mark := true, data := 5 } :: heard [(0x04, 2 :: be4 91330 ++ [1, 0, 0])] := by decide +kernel

/-! ### Admission -/

/-- The verdict on card 91330 at inlet 2 of station 5. -/
def verdict (s : State) : Verdict := (s.judgeCard st5 2 91330).1

def withCard (f : Card → Card) (s : State) : State := { s with cards := [f (resident 91330)] }

theorem test_checks_in_order :
    [draining, withStation locked site, { site with containers := State.reset.containers }, withBin jammed site,
        withBin (hopper 900 .idle) site, { site with cards := [] }, withCard (fun c => { c with status := .suspended }) site,
        withCard (fun c => { c with status := .revoked }) site, withCard (fun c => { c with entitled := 1 }) site,
        withCard (fun c => { c with used := #v[0, 3, 0, 0] }) site, { visited with sessions := [{ visit with card := 20001 }] },
        withCard (fun c => { c with link := some 9 }) site,
        { site with deposits := List.replicate 32 { arrival := 0, record := visit.record site .empty } }].map verdict =
      [.deny .line, .deny .lockout, .deny .noInlet, .deny .inletOut, .deny .full, .deny .unknownCard, .deny .suspended,
        .deny .revoked, .deny .fraction, .deny .quota, .deny .inletBusy, .deny .cardBusy, .deny .capacity] := by
  decide +kernel

theorem test_no_inlet :
    [0, 1, 4, 255].map (fun inlet => (site.judgeCard st5 inlet 91330).1) =
      [.deny .noInlet, .deny .noInlet, .deny .noInlet, .deny .noInlet] := by decide +kernel

theorem test_grant_and_repeat :
    everyContainer site (fun i _ => decide (i = bin)) = true ∧ site.sessions.length < 16 ∧
      verdict site = .grant 60 ∧ verdict visited = .grant 50 ∧ digest (visited.judgeCard st5 2 91330).2 = digest visited ∧
      (site.judgeCard st5 2 91330).2.sessions =
        [{ visit with number := 65535, grantTime := 500000, deadline := 90060 }] ∧
      (site.judgeCard st5 2 91330).2.nextSession = 0 ∧
      (site.judgeCard st5 2 91330).2.container bin = some (hopper 700 .session) ∧
      (site.judgeCard st5 2 91330).2.line.ring = [st5] ∧
      (site.judgeCard st5 2 91330).2.cards.map Card.link = [none, some 65535] := by decide +kernel

theorem test_card_frame_is_answered :
    (0 : Byte).truncate 4 = 0#4 ∧
      (replied 0 [(0x42, 2 :: be4 91330)] site).line.turn = some (turn .closing) ∧
      (replied 0 [(0x42, 2 :: be4 91330)] site).line.flTxd =
        { mark := true, data := 5 } :: heard [(0x04, 2 :: be4 91330 ++ [0, 0, 60])] ∧
      (replied 0 [(0x42, 9 :: be4 7)] site).line.flTxd =
        { mark := true, data := 5 } :: heard [(0x04, 9 :: be4 7 ++ [3, 0, 0])] ∧
      (replied 0 [(0x42, 2 :: be4 91330)] site).links[st5].mask = some { reply := 6, positions := 1 } := by decide +kernel

/-! ### Frames handed on -/

theorem test_frames_are_handed_on :
    digest (replied 0 [(0x43, [2, 1])] visited) =
        digest (State.endTurn .regular (State.maskReplaced st5 6 1
          ((inTurn (.receiving 0x85) visited).hatchClosed st5 2 true))) ∧
      ((replied 0 [(0x44, [2, 2, 188])] site).container bin).map (fun c => c.fill.e) = some 713 ∧
      ((replied 0 [(0x45, [2])] site).container bin).map Container.state = some .lifting ∧
      ((replied 0 [(0x46, [2])] site).container bin).map Container.lastLift = some (some 500000) ∧
      (replied 0 [(0x46, [3])] site).container bin = site.container bin ∧
      (replied 0 [(0x47, [])] (withStation { locked with message := some ⟨[1], 44, 2, false⟩ } site)).deferred =
        [{ kind := 0x14, tag := 44, code := .done, data := [] }] ∧
      (replied 0 [(0x47, [])] (withStation { locked with message := some ⟨[1], 44, 3, false⟩ } site)).deferred = [] := by
  decide +kernel

/-- The site after a reply that announces four frames and holds five: two cards, a stray closure with a bad length, a level
reading and a lift beyond the count. -/
def chattered : State :=
  after (.replyEnd (heard [(0x41, [6, 0, 4]), (0x42, 2 :: be4 91330), (0x42, 3 :: be4 20001), (0x43, [2]), (0x44, [2, 2, 188]),
    (0x45, [2])])) (inTurn (.receiving 0x85) site)

theorem test_several_frames :
    chattered.links[st5].mask = some { reply := 6, positions := 0b1011 } ∧
      chattered.line.flTxd = { mark := true, data := 5 } ::
        heard [(0x04, 2 :: be4 91330 ++ [0, 0, 60]), (0x04, 3 :: be4 20001 ++ [3, 0, 0])] ∧
      (chattered.container bin).map (fun c => (c.state, c.fill.e)) = some (.session, 713) ∧
      chattered.sessions.length = 1 := by decide +kernel

/-- The accepted positions after a reply with one frame. -/
def accepted (kind : Byte) (payload : List Byte) (s : State) : Option (BitVec 4) :=
  (replied 0 [(kind, payload)] s).links[st5].mask.map AcceptMask.positions

def fullRelay : State := { site with relay := List.replicate 4 { arrival := 0, station := 0, reply := 0, payload := [1] } }

theorem test_acceptance :
    accepted 0x48 [9] site = some 1 ∧ (replied 0 [(0x48, [9])] site).relay.map Report.payload = [[9]] ∧
      accepted 0x48 (List.replicate 24 9) fullRelay = some 0 ∧
      accepted 0x48 [9] (withStation { Station.reset with config := { node with relay := false } } fullRelay) = some 1 ∧
      accepted 0x48 [] site = some 0 ∧ accepted 0x49 [] site = some 1 ∧ accepted 0x40 [1] site = some 1 ∧
      accepted 0x41 [1, 2, 3] site = some 1 ∧ accepted 0x41 [1] site = some 0 ∧ accepted 0x47 [1] site = some 0 ∧
      (after (.replyEnd (heard [(0x41, [6, 0, 1])] ++ [0x47, 0, 0, 0].map fun b => { mark := false, data := b }))
        (inTurn (.receiving 0x85) site)).links[st5].mask = some { reply := 6, positions := 0 } := by decide +kernel

/-! ### Endings -/

theorem test_endings :
    visit ∈ visited.sessions ∧ visited.container visit.container = some (hopper 700 .session) ∧
      (visited.endSession .deposit .idle visit).cards.map (fun c => (c.used, c.link)) =
        [(#v[254, 2, 0, 9], none), (#v[254, 3, 0, 9], none)] ∧
      (visited.endSession .deposit .idle visit).container bin =
        some { hopper 700 .idle with fill := { level 720 with cb := 7, since := 2 } } ∧
      (visited.endSession .deposit .idle visit).deposits.map QueuedDeposit.record = [visit.record visited .deposit] ∧
      (visited.endSession .deposit .idle visit).line.ring = [] ∧
      (visited.endSession .empty .idle visit).container bin = some (hopper 700 .idle) ∧
      (draining.endSession .aborted .lifting visit).line.state = .stopped ∧
      (draining.endSession .aborted .lifting visit).deferred = [{ kind := 0x41, tag := 40, code := .done, data := [] }] ∧
      ((draining.endSession .aborted .lifting visit).container bin).map Container.liftDeadline = some (some 91800) := by
  decide +kernel

/-- The last visit with its deadline reached. -/
def overstayed : State := { visited with clock := { visited.clock with elapsed := 90050 } }

theorem test_hatch_deadline :
    digest (after .hatchDeadlineExpiry visited) = digest visited ∧
      (after .hatchDeadlineExpiry overstayed).containers[bin] =
        { flags := { ContainerFlags.clear with inletFault := true }
          body := some { hopper 700 (.fault .hatch) with fill := { level 720 with cb := 7, since := 2 } } } ∧
      ((after .hatchDeadlineExpiry overstayed).deposits.map QueuedDeposit.record).map DepositRecord.outcome = [.timeout] := by
  decide +kernel

theorem test_closures :
    (visited.hatchClosed st5 2 false).deposits.map (fun d => d.record.outcome) = [.empty] ∧
      digest (visited.hatchClosed st5 0 true) = digest visited ∧ digest (site.hatchClosed st5 2 true) = digest site ∧
      ((withBin (hopper 700 (.fault .hatch)) site).hatchClosed st5 2 true).containers[bin] =
        { flags := { ContainerFlags.clear with inletFault := true }, body := some (hopper 700 .idle) } := by decide +kernel

/-! ### Lifts -/

def emptied : Container :=
  { hopper 0 .idle with lastLift := some 500000, fill := { level 0 with lastStep := 500000, since := 0 } }

theorem test_lift_start :
    (site.startLift bin).container bin =
        some { hopper 700 .lifting with liftStart := some 90000, liftDeadline := some 91800 } ∧
      (visited.startLift bin).sessions = [] ∧ ((visited.startLift bin).container bin).map Container.state = some .lifting ∧
      ((withBin jammed site).startLift bin).containers[bin].flags.inletFault = true ∧
      digest ((withBin (hopper 700 .lifting) site).startLift bin) = digest (withBin (hopper 700 .lifting) site) := by
  decide +kernel

theorem test_lift_end :
    geometry.inRange = true ∧
      ((withBin jammed site).endLift bin).containers[bin] =
        { flags := { ContainerFlags.clear with inletFault := true, lifted := true }, body := some emptied } ∧
      ((withRound (withBin (hopper 782 .lifting) site)).endLift bin).containers[bin] =
        { flags := { ContainerFlags.clear with lifted := true }, body := some emptied } ∧
      ((withRound (withBin (hopper 782 .lifting) site)).endLift bin).requests[bin] = none ∧
      ((withRound (withBin (hopper 782 .lifting) site)).endLift bin).slots[paper] =
        { round := none, closedFlag := true
          lastClose := some { reason := .done, vehicle := 12, time := 500000, entries := 1, lifted := 1 } } ∧
      ((withRequest waiting (withBin (hopper 782 .lifting) site)).endLift bin).requests[bin] = none ∧
      (site.endLift bin).container bin = some emptied := by decide +kernel

theorem test_lift_deadline :
    digest (after .liftDeadlineExpiry (withBin { jammed with state := .lifting, liftDeadline := some 90001 } site)) =
        digest (withBin { jammed with state := .lifting, liftDeadline := some 90001 } site) ∧
      (after .liftDeadlineExpiry (withBin { jammed with state := .lifting } site)).containers[bin] =
        { flags := { ContainerFlags.clear with inletFault := true }, body := some jammed } := by decide +kernel

/-! ### The sender -/

def noted : Response := { kind := 0x53, tag := 3, code := .done, data := [1, 2] }

/-- Every source of the sender has a frame ready. -/
def busy : State :=
  { site with
    responses := [noted], deferred := [{ noted with tag := 4 }], outstanding := 1
    roundLists := [{ slot := paper, payload := [5] }]
    deposits := [{ arrival := 2, record := visit.record site .empty }]
    relay := [{ arrival := 1, station := st5, reply := 6, payload := [9] }] }

/-- The source and the bytes of the frame that a free sender begins. -/
def begun (s : State) : Option TxSource × List Byte :=
  ((after (.senderFrameStart true) s).sender.tx, (after (.senderFrameStart true) s).sender.ulTxd)

theorem test_sources_in_order :
    begun busy = (some .response, uplinkFrame 0x81 3 [0x53, 0, 1, 2]) ∧
      begun { busy with responses := [] } = (some .deferred, uplinkFrame 0x81 4 [0x53, 0, 1, 2]) ∧
      begun { busy with responses := [], deferred := [] } = (some .roundList, uplinkFrame 0x83 0 [5]) ∧
      begun { busy with responses := [], deferred := [], roundLists := [] } = (some .report, uplinkFrame 0x84 0 [5, 6, 9]) ∧
      (begun { busy with responses := [], deferred := [], roundLists := [], relay := [] }).1 = some .deposit ∧
      begun site = (some (.notice .start), uplinkFrame 0x85 0 ([1, 0] ++ site.statusBlock)) ∧
      begun { site with device := { site.device with startFlag := false } } = (none, []) ∧
      (after (.senderFrameStart false) busy).sender.tx = none := by decide +kernel

theorem test_scanner_goes_round :
    NoticeFlag.ahead .start (some (.closed 3)) = 0 ∧ NoticeFlag.ahead (.lock 0) (some .start) = 0 ∧
      NoticeFlag.ahead .start (some .start) = 740 ∧
      (after (.senderFrameStart true) { withStation { locked with lockFlag := true, lineFlag := true } site with
        sender := { tx := none, ulTxd := [], scan := some (.lock st5) } }).sender.scan = some (.line st5) ∧
      (after (.senderFrameStart true) { withStation { locked with lockFlag := true } site with
        sender := { tx := none, ulTxd := [], scan := some (.lock st5) } }).sender.scan = some .start := by decide +kernel

def sending (source : TxSource) : State := { busy with sender := { tx := some source, ulTxd := [1], scan := none } }

theorem test_frames_sent :
    (after .responseFrameSent (sending .response)).responses = [] ∧
      (after .deferredResponseSent (sending .deferred)).outstanding = 0 ∧
      (after .roundListFrameSent (sending .roundList)).roundLists = [] ∧
      (after .depositRecordSent (sending .deposit)).deposits = [] ∧ (after .relayedReportSent (sending .report)).relay = [] ∧
      (after .noticeFrameSent (sending (.notice .start))).sender.tx = none ∧
      (after .noticeFrameSent (sending .response)).sender.tx = some .response := by decide +kernel

/-! ### RESTART -/

/-- A district in the middle of everything. -/
def rushed : State :=
  withRound
    { draining with
      stations := draining.stations.set st5 { locked with staged := some { node with enabled := false }, lockFlag := true }
      sender := { tx := some (.notice (.raised bin)), ulTxd := [1], scan := some (.raised bin) }
      roundLists := [{ slot := paper, payload := [5] }] }

theorem test_restart :
    (asking .restart [0x54] rushed).line = LineCtl.reset ∧ (asking .restart [0x54] rushed).sessions = [] ∧
      (asking .restart [0x54] rushed).deposits.map (fun d => d.record.outcome) = [.aborted] ∧
      (asking .restart [0x54] rushed).cards.map Card.link = [none, none] ∧
      (asking .restart [0x54] rushed).links[st5] = Link.reset ∧
      (asking .restart [0x54] rushed).stations[st5] =
        { locked with config := { node with enabled := false }, hold := true, message := none, lockFlag := true } ∧
      (asking .restart [0x54] rushed).requests[bin] = some waiting ∧
      (asking .restart [0x54] rushed).slots[paper] = Slot.reset ∧
      (asking .restart [0x54] rushed).containers[bin] =
        { flags := { ContainerFlags.clear with raised := true }, body := some (hopper 700 .idle) } ∧
      (asking .restart [0x54] rushed).deferred = [{ kind := 0x41, tag := 40, code := .done, data := [] },
        { kind := 0x14, tag := 44, code := .failed, data := [] }] ∧
      (asking .restart [0x54] rushed).roundLists = [] ∧
      (asking .restart [0x54] rushed).device = { startFlag := true, startReason := .restart, uplinkRate := .r57600 } ∧
      answer (asking .restart [0x54] rushed) = some (.done, []) := by decide +kernel

/-- The crowded district with a pre-empted request of container 17 below T_call in slot 1, its flags of other notices and CLOSED
of slot 2 set, at some district time. -/
def evicted (district : Word32) : State :=
  let s := withRound { crowded with clock := { crowded.clock with district } }
  { s with
    requests := s.requests.set bin (some { planned with origin := .preempt })
    containers := s.containers.set bin { s.containers[bin] with
      flags := { ContainerFlags.clear with overdue := true, inletFault := true, sensor := true, lifted := true } }
    slots := s.slots.set 2 { Slot.reset with closedFlag := true } }

theorem test_restart_with_sessions :
    (asking .restart [0x54] (evicted 500000)).requests[(3 : ContainerIx)] =
        some { waiting with raiseTime := 500000, fillAtRaise := 700, deadline := 586400 } ∧
      (asking .restart [0x54] (evicted 500000)).containers[(3 : ContainerIx)].flags =
        { ContainerFlags.clear with raised := true } ∧
      (asking .restart [0x54] (evicted 0xFFFFFFFF)).containers[(3 : ContainerIx)].flags =
        { ContainerFlags.clear with raised := true, overdue := true } ∧
      (asking .restart [0x54] (evicted 500000)).requests[bin] = none ∧
      (asking .restart [0x54] (evicted 500000)).containers[bin] =
        { (evicted 500000).containers[bin] with body := some (hopper 700 .idle) } ∧
      (asking .restart [0x54] (evicted 500000)).slots = (evicted 500000).slots.map (fun x => { x with round := none }) ∧
      (asking .restart [0x54] (evicted 500000)).deposits.map (fun d => (d.arrival, d.record.container)) = [(0, 3), (1, bin)] ∧
      (asking .restart [0x54] (evicted 500000)).arrivals = 2 := by decide +kernel

/-! ### Invariants -/

theorem test_capacities_can_hold : visited.RoomKept ∧ visited.CardsOrdered ∧ visited.QueuesBounded := by
  refine ⟨?_, ?_, by decide +kernel, by decide +kernel, by decide +kernel, by decide +kernel⟩
  · unfold State.RoomKept
    decide +kernel
  · unfold State.CardsOrdered
    decide +kernel

theorem test_containers_can_be_sound : visited.ContainersSound ∧ visited.BindingsDistinct := by
  have only : ∀ i c, visited.container i = some c → i = bin ∧ c = hopper 700 .session := by
    intro i c h
    have key : everyContainer visited (fun i c => decide (i = bin ∧ c = hopper 700 .session)) = true := by decide +kernel
    simpa using (everyContainer_iff ..).mp key i c h
  constructor
  · intro i c h
    rw [(only i c h).2]
    exact ⟨by decide +kernel, fun p hp => (by cases hp), by decide +kernel, by decide +kernel, by decide +kernel⟩
  · intro i j c d hc hd _ _
    rw [(only i c hc).1, (only j d hd).1]

end Sys2Proof.Tests
end

section
/-! PROOFS. Power-on reset leaves the tables of chapters 3, 4, 7 and 8 empty (O4). -/

namespace Sys2Proof.Machine

/-! ### Every entry of the tables right after reset -/

theorem State.reset_containers_getElem (i : ContainerIx) : State.reset.containers[i] = ContainerRec.reset :=
  Vector.getElem_replicate ..

theorem State.reset_requests_getElem (i : ContainerIx) : State.reset.requests[i] = none :=
  Vector.getElem_replicate ..

theorem State.reset_fractions_getElem (n : FractionIx) : State.reset.fractions[n] = Fraction.reset :=
  Vector.getElem_replicate ..

theorem State.reset_slots_getElem (n : FractionIx) : State.reset.slots[n] = Slot.reset :=
  Vector.getElem_replicate ..

/-! ### The waiting order of an empty request table -/

theorem waitsIn_eq_false_of_no_request {s : State} {i : ContainerIx} (h : s.requests[i] = none) (f : FractionIx) :
    s.waitsIn f i = false := by
  simp only [State.waitsIn, h]

/-- Where no container holds a request, nothing waits in any fraction (R129). -/
theorem waitingOrder_eq_nil_of_no_requests {s : State} (h : ∀ i : ContainerIx, s.requests[i] = none) (f : FractionIx) :
    s.waitingOrder f = [] := by
  have nothingWaits : (List.finRange Config.containers).filter (s.waitsIn f) = [] :=
    List.filter_eq_nil_iff.mpr fun i _ => by simp [waitsIn_eq_false_of_no_request (h i)]
  rw [State.waitingOrder, nothingWaits]
  exact (sortByKey_perm s.waitKey []).eq_nil

/-! ### Power-on reset -/

/-- The state after POWER_ON_RESET is the reset state but for the uplink rate of the straps and the queue of commands, which
stays (R153, R168). -/
theorem exec_powerOnReset (rate1 rate0 : Bool) (s : State) :
    exec (.powerOnReset rate1 rate0) s = .next { State.reset with
      device := { State.reset.device with uplinkRate := strapRate rate1 rate0 }, pending := s.pending } := rfl

/-- Settles O4: every table named by R49, R63, R125, R136 and R139 is a table of the reset state, read entry by entry. -/
theorem powerOnResetEmptiesTheTables : Obligations.PowerOnResetEmptiesTheTables := by
  intro rate1 rate0 s
  refine ⟨_, exec_powerOnReset rate1 rate0 s, ?cards, ?hatch, ⟨?requests, ?waiting, ?fractions, ?containers⟩, ?slots⟩
  case cards => exact ⟨rfl, rfl⟩
  case hatch => exact ⟨rfl, rfl, rfl, rfl⟩
  case requests => exact State.reset_requests_getElem
  case waiting => exact waitingOrder_eq_nil_of_no_requests State.reset_requests_getElem
  case fractions => exact State.reset_fractions_getElem
  case containers =>
    intro i
    simp only [State.container, State.reset_containers_getElem, ContainerRec.reset, ContainerFlags.clear, and_self]
  case slots =>
    intro n
    simp only [State.reset_slots_getElem, Slot.reset, and_self]

end Sys2Proof.Machine

end

section
/-! PROOFS. The fill estimator's arithmetic: the rounding of the blend's increment (O32) and the time-to-call (O33). -/

namespace Sys2Proof.Machine

/-! ### The rounded sixteenth (R109) -/

theorem roundSixteenth_of_nonneg {p : Int} (h : 0 ≤ p) : roundSixteenth p = (p + 8) / 16 := if_pos h

theorem roundSixteenth_of_neg {p : Int} (h : p < 0) : roundSixteenth p = -((-p + 8) / 16) := if_neg h.not_ge

/-- Rounding is the same on both sides of zero: the size of the result depends on the size of the product alone. -/
theorem abs_roundSixteenth (p : Int) : |roundSixteenth p| = (|p| + 8) / 16 := by
  rcases lt_or_ge p 0 with neg | nonneg
  · rw [roundSixteenth_of_neg neg, abs_neg, abs_of_neg neg, abs_of_nonneg (by omega)]
  · rw [roundSixteenth_of_nonneg nonneg, abs_of_nonneg nonneg, abs_of_nonneg (by omega)]

/-- The result is a nearest integer: it lies within a half, 8 sixteenths, of the exact quotient. -/
theorem abs_roundSixteenth_error_le (p : Int) : |16 * roundSixteenth p - p| ≤ 8 := by
  rw [abs_le]
  rcases lt_or_ge p 0 with neg | nonneg
  · rw [roundSixteenth_of_neg neg]; omega
  · rw [roundSixteenth_of_nonneg nonneg]; omega

/-- An exact half goes away from zero. -/
theorem roundSixteenth_half_away {p : Int} (half : |16 * roundSixteenth p - p| = 8) : |p| < |16 * roundSixteenth p| := by
  have size : |16 * roundSixteenth p| = 16 * ((|p| + 8) / 16) := by rw [abs_mul, abs_roundSixteenth]; rfl
  have residue : p % 16 = 8 := by
    rcases (abs_eq (by decide)).mp half with above | below <;> omega
  have absResidue : |p| % 16 = 8 := by
    rcases abs_choice p with same | opposite <;> omega
  omega

theorem abs_roundSixteenth_le {p d : Int} (h : |p| ≤ 16 * d) : |roundSixteenth p| ≤ d := by
  rw [abs_roundSixteenth]; omega

theorem roundSixteenth_nonneg {p : Int} (h : 0 ≤ p) : 0 ≤ roundSixteenth p := by
  rw [roundSixteenth_of_nonneg h]; omega

/-! ### The blend's increment (R109) -/

/-- What the blend adds to E: k/16 of the difference of M and E, rounded. -/
def blendIncrement (k e m : Nat) : Int := roundSixteenth ((k : Int) * ((m : Int) - e))

/-- A gain of at most 16 moves E by at most its distance from M. -/
theorem abs_blendIncrement_le {k : Nat} (e m : Nat) (hk : k ≤ 16) : |blendIncrement k e m| ≤ |(m : Int) - e| := by
  have gain : (k : Int) ≤ 16 := by exact_mod_cast hk
  refine abs_roundSixteenth_le ?_
  rw [abs_mul, Nat.abs_cast]
  exact mul_le_mul_of_nonneg_right gain (abs_nonneg _)

/-- The blend never goes below 0, so the conversion to a natural number cuts nothing off. -/
theorem blend_eq_add_increment {k : Nat} (e m : Nat) (hk : k ≤ 16) : (blend k e m : Int) = e + blendIncrement k e m := by
  have nonneg : 0 ≤ (e : Int) + blendIncrement k e m := by
    rcases le_total e m with rises | falls
    · have up : 0 ≤ blendIncrement k e m := roundSixteenth_nonneg (mul_nonneg (by omega) (by omega))
      omega
    · have moved := abs_blendIncrement_le e m hk
      rw [abs_of_nonpos (by omega : (m : Int) - e ≤ 0)] at moved
      have down := (abs_le.mp moved).1
      omega
  exact Int.toNat_of_nonneg nonneg

/-- Settles O32: the increment is the rounded sixteenth of the product, and E stays between its old value and M by
`blend_between`. -/
theorem blendRoundsHalvesAway : Obligations.BlendRoundsHalvesAway := by
  intro k e m _ hk
  exact ⟨blendIncrement k e m, blend_eq_add_increment e m hk, abs_roundSixteenth_error_le _, roundSixteenth_half_away,
    abs_blendIncrement_le e m hk, blend_between hk⟩

/-! ### Time-to-call (R114) -/

theorem Container.timeToCall_of_not_normal {c : Container} (h : c.fill.mode ≠ .normal) : c.timeToCall = none := by
  unfold Container.timeToCall
  split
  · contradiction
  · rfl

theorem Container.timeToCall_of_no_interval {c : Container} (h : c.fill.interval = none) : c.timeToCall = none := by
  unfold Container.timeToCall
  split
  next captured => cases h.symm.trans captured
  next => rfl

/-- The value in NORMAL mode with a step interval. -/
theorem Container.timeToCall_of_normal {c : Container} {interval : Nat} (mode : c.fill.mode = .normal)
    (captured : c.fill.interval = some interval) :
    c.timeToCall = if c.params.tCall ≤ c.fill.e then some 0
      else some (min 4294967295 (((c.params.tCall - c.fill.e) * interval + 99) / 100)) := by
  simp only [Container.timeToCall, mode, captured]

/-- Settles O33: the value before the cap is the quotient by 100 rounded up. -/
theorem timeToCall : Obligations.TimeToCall := by
  intro c
  refine ⟨fun absent => absent.elim Container.timeToCall_of_not_normal Container.timeToCall_of_no_interval, ?_⟩
  intro interval mode captured
  rw [Container.timeToCall_of_normal mode captured]
  refine ⟨fun called => if_pos called, fun below => ?_⟩
  rw [if_neg below.not_ge, min_comm]
  generalize (c.params.tCall - c.fill.e) * interval = product
  exact ⟨(product + 99) / 100, rfl, by omega, by omega⟩

end Sys2Proof.Machine

end

section
/-! PROOFS. What every step keeps: the capacities and the card order (O58), the containers (O59), and both right after reset
(O60). With the request table of R172 as one lemma: each row's command takes a request of the row's kind and lengths, and its
judgement answers. -/

namespace Sys2Proof.Machine

/-! ### The rows of the request table (R172) -/

/-- A row's command takes the request at the FIFO head when it is of the row's kind, with the lengths of the row, and judges
it with an operation that answers. -/
structure RequestRow.Served (r : RequestRow) (ok : Nat → Bool) (judge : RequestFrame → State → State) : Prop where
  runs : ∀ s, exec r.command s = .next (s.takeRequest r.kind ok judge)
  lengths : ∀ n, ok n = decide (r.least ≤ n ∧ n ≤ r.greatest)
  answers : ∀ f t, Answers f t (judge f t)

/-- The rows of one exact length. -/
theorem RequestRow.Served.exact {command : Instr} {kind : Byte} {n : Nat} {judge : RequestFrame → State → State}
    (runs : ∀ s, exec command s = .next (s.takeRequest kind (· = n) judge)) (answers : ∀ f t, Answers f t (judge f t)) :
    RequestRow.Served ⟨command, kind, n, n⟩ (· = n) judge :=
  ⟨runs, fun m => by simp only [decide_eq_decide]; omega, answers⟩

theorem cardRows_served : ∀ r ∈ cardRows, ∃ ok judge, r.Served ok judge := by
  simp only [cardRows, List.forall_mem_cons]
  exact ⟨⟨_, _, .exact (fun _ => rfl) cardPut_queues⟩, ⟨_, _, .exact (fun _ => rfl) cardDrop_queues⟩,
    ⟨_, _, .exact (fun _ => rfl) cardStatus_queues⟩, ⟨_, _, .exact (fun _ => rfl) cardGet_queues⟩,
    ⟨_, _, .exact (fun _ => rfl) periodRoll_queues⟩, nofun⟩

theorem stationRows_served : ∀ r ∈ stationRows, ∃ ok judge, r.Served ok judge := by
  simp only [stationRows, List.forall_mem_cons]
  exact ⟨⟨_, _, .exact (fun _ => rfl) stationPut_queues⟩, ⟨_, _, .exact (fun _ => rfl) stationGet_queues⟩,
    ⟨_, _, .exact (fun _ => rfl) lockStation_queues⟩, ⟨_, _, .exact (fun _ => rfl) unlockStation_queues⟩,
    ⟨_, _, fun _ => rfl, fun _ => rfl, stationMessage_queues⟩, nofun⟩

theorem containerRows_served : ∀ r ∈ containerRows, ∃ ok judge, r.Served ok judge := by
  simp only [containerRows, List.forall_mem_cons]
  exact ⟨⟨_, _, .exact (fun _ => rfl) containerPut_queues⟩, ⟨_, _, .exact (fun _ => rfl) containerGet_queues⟩,
    ⟨_, _, .exact (fun _ => rfl) containerClear_queues⟩, ⟨_, _, .exact (fun _ => rfl) clearInlet_queues⟩,
    ⟨_, _, .exact (fun _ => rfl) clearSensor_queues⟩, nofun⟩

theorem roundRows_served : ∀ r ∈ roundRows, ∃ ok judge, r.Served ok judge := by
  simp only [roundRows, List.forall_mem_cons]
  exact ⟨⟨_, _, .exact (fun _ => rfl) fractionPut_queues⟩, ⟨_, _, .exact (fun _ => rfl) requestCancel_queues⟩,
    ⟨_, _, .exact (fun _ => rfl) roundOpen_queues⟩, ⟨_, _, .exact (fun _ => rfl) roundClose_queues⟩, nofun⟩

theorem lineRows_served : ∀ r ∈ lineRows, ∃ ok judge, r.Served ok judge := by
  simp only [lineRows, List.forall_mem_cons]
  exact ⟨⟨_, _, .exact (fun _ => rfl) lineStart_queues⟩, ⟨_, _, .exact (fun _ => rfl) lineStop_queues⟩,
    ⟨_, _, .exact (fun _ => rfl) lineTest_queues⟩, nofun⟩

theorem uplinkRows_served : ∀ r ∈ uplinkRows, ∃ ok judge, r.Served ok judge := by
  simp only [uplinkRows, List.forall_mem_cons]
  exact ⟨⟨_, _, .exact (fun _ => rfl) settingsPut_queues⟩, ⟨_, _, .exact (fun _ => rfl) settingsGet_queues⟩,
    ⟨_, _, .exact (fun _ => rfl) timeSet_queues⟩, ⟨_, _, .exact (fun _ => rfl) statusGet_queues⟩,
    ⟨_, _, .exact (fun _ => rfl) restart_queues⟩, nofun⟩

/-- Every row of R172's table is served. -/
theorem requestRows_served : ∀ r ∈ requestRows, ∃ ok judge, r.Served ok judge := by
  simp only [requestRows, List.forall_mem_append]
  exact ⟨⟨⟨⟨⟨cardRows_served, stationRows_served⟩, containerRows_served⟩, roundRows_served⟩, lineRows_served⟩,
    uplinkRows_served⟩

/-! ### The queues (R155, R156, R158) -/

/-- The bounds of the FIFO, the response queue and the outstanding count. -/
structure State.QueuesWithin (s : State) : Prop where
  fifo : s.intake.fifo.length ≤ 4
  responses : s.responses.length ≤ 8
  outstanding : s.outstanding ≤ 12

theorem State.QueuesBounded.within {s : State} (h : s.QueuesBounded) : s.QueuesWithin := ⟨h.fifo, h.responses, h.outstanding⟩

theorem SameQueues.within {s t : State} (h : SameQueues s t) (hs : s.QueuesWithin) : t.QueuesWithin :=
  ⟨h.fifo ▸ hs.fifo, h.responses ▸ hs.responses, h.outstanding ▸ hs.outstanding⟩

theorem State.QueuesWithin.ite {s t : State} {p : Prop} [Decidable p] (hs : s.QueuesWithin) (ht : t.QueuesWithin) :
    (if p then s else t).QueuesWithin := by
  split
  · exact hs
  · exact ht

theorem withIntake_within {s : State} {x : Intake} (h : s.QueuesWithin) (hx : x.fifo.length ≤ 4) :
    State.QueuesWithin { s with intake := x } := ⟨hx, h.responses, h.outstanding⟩

theorem hunt_within {s : State} (h : s.QueuesWithin) : s.hunt.QueuesWithin := withIntake_within h h.fifo

/-- A frame is offered to the FIFO only while it has a free place (R155). -/
theorem offer_within (f : RequestFrame) {s : State} (h : s.QueuesWithin) : (s.offer f).QueuesWithin := by
  unfold State.offer
  split
  · next room =>
    refine withIntake_within h ?_
    change s.intake.fifo.length < 4 at room
    simp only [List.length_append, List.length_cons, List.length_nil]
    omega
  · exact withIntake_within h h.fifo

theorem receiveFrame_within (bytes : List Byte) {s : State} (h : s.QueuesWithin) : (s.receiveFrame bytes).QueuesWithin := by
  unfold State.receiveFrame
  split
  · exact .ite (hunt_within h) (.ite h (.ite (offer_within _ (hunt_within h)) (hunt_within h)))
  · exact h

theorem frameSent_within (source : TxSource) {served : State → State} {s : State}
    (hg : ∀ t : State, t.QueuesWithin → (served t).QueuesWithin) (h : s.QueuesWithin) :
    (s.frameSent source served).QueuesWithin := .ite (hg _ (SameQueues.within (s := s) ⟨rfl, rfl, rfl⟩ h)) h

/-- Nothing the arbiter begins touches the FIFO, the response queue or the outstanding count (R164). -/
theorem beginNotice_queues (p : NoticeFlag) (s : State) : SameQueues s (s.beginNotice p) := by
  cases p <;> exact ⟨rfl, rfl, rfl⟩

theorem arbitrate_queues (s : State) : SameQueues s s.arbitrate := by
  unfold State.arbitrate State.beginFourth State.beginFifth
  repeat' split
  all_goals first | exact beginNotice_queues .. | exact ⟨rfl, rfl, rfl⟩

/-- An unknown request is taken under the same two conditions as any other (R156). -/
theorem requestUnknownKind_within {s : State} (h : s.QueuesBounded) :
    ∃ t, exec .requestUnknownKind s = .next t ∧ t.QueuesWithin := by
  refine ⟨_, rfl, ?_⟩
  split
  · next f t taken =>
    obtain ⟨rest, ⟨head, room, _⟩, rfl⟩ := takes_of_take taken
    refine .ite h.within ⟨?_, ?_, h.outstanding⟩
    · have bound := h.fifo
      rw [head] at bound
      exact (Nat.le_succ _).trans bound
    · change (s.responses ++ _).length ≤ 8
      rw [List.length_append, List.length_singleton]
      exact room
  · exact h.within

/-- A command that is no request keeps the bounds. -/
theorem exec_within_of_event {s : State} (h : s.QueuesBounded) (c : Instr) (hc : c ∉ requestRows.map RequestRow.command) :
    ∃ t, exec c s = .next t ∧ t.QueuesWithin := by
  have w := h.within
  cases c
  case cardPut | cardDrop | cardStatus | cardGet | periodRoll | stationPut | stationGet | lock | unlock | stationMessage
      | containerPut | containerGet | containerClear | clearInlet | clearSensor | fractionPut | requestCancel | roundOpen
      | roundClose | lineStart | lineStop | lineTest | settingsPut | settingsGet | timeSet | statusGet | restart =>
    exact absurd (by decide) hc
  case powerOnReset => exact ⟨_, rfl, Nat.zero_le _, Nat.zero_le _, Nat.zero_le _⟩
  case uplinkFrameReceived bytes =>
    refine ⟨_, rfl, ?_⟩
    split
    · exact receiveFrame_within bytes w
    · exact w
  case requestUnknownKind => exact requestUnknownKind_within h
  case syncByteReceived => exact ⟨_, rfl, withIntake_within w w.fifo⟩
  case interbyteTimeout | lengthFieldExceeded => exact ⟨_, rfl, hunt_within w⟩
  case senderFrameStart cts => exact ⟨_, rfl, .ite ((arbitrate_queues s).within w) w⟩
  case responseFrameSent =>
    exact ⟨_, rfl, frameSent_within _ (fun t ht => ⟨ht.fifo, by simpa using ht.responses.trans (Nat.le_succ 8),
      ht.outstanding⟩) w⟩
  case deferredResponseSent =>
    exact ⟨_, rfl, frameSent_within _ (fun t ht => ⟨ht.fifo, ht.responses, (Nat.sub_le _ _).trans ht.outstanding⟩) w⟩
  case roundListFrameSent | depositRecordSent | relayedReportSent =>
    exact ⟨_, rfl, frameSent_within _ (fun t ht => ⟨ht.fifo, ht.responses, ht.outstanding⟩) w⟩
  case noticeFrameSent =>
    refine ⟨_, rfl, ?_⟩
    split
    · exact SameQueues.within (s := s) ⟨rfl, rfl, rfl⟩ w
    · exact w
  case secondsAdvance =>
    exact ⟨_, rfl, (afterTime_queues _).within (SameQueues.within (s := s) ⟨rfl, rfl, rfl⟩ w)⟩
  case requestOverdueMarking => exact ⟨_, rfl, (markAllOverdue_only s).queues.within w⟩
  case roundDeadlineExpiry => exact ⟨_, rfl, (expireRounds_only s).queues.within w⟩
  case hatchDeadlineExpiry =>
    refine ⟨_, rfl, ?_⟩
    split
    · exact (endSession_only ..).queues.within w
    · exact w
  case liftDeadlineExpiry =>
    refine ⟨_, rfl, ?_⟩
    split
    · exact (liftExpiry_only ..).queues.within w
    · exact w
  case emptyListWrapInterval => exact ⟨_, rfl, .ite (.ite ((withLine_only ..).queues.within w) ((wrap_only s).queues.within w)) w⟩
  case pollTransmission =>
    refine ⟨_, rfl, .ite w ?_⟩
    have chosen : s.withNextTurn.QueuesWithin := .ite w ((chooseTurn_only ..).queues.within w)
    unfold State.beginNextTurn
    split
    · exact (beginTurn_only ..).queues.within chosen
    · exact chosen
  case replyWindowExpiry | replyOverrunTurnEnd =>
    refine ⟨_, rfl, SameQueues.within ?_ w⟩
    repeat' split
    all_goals first | exact .refl s | exact (failTurn_only ..).queues
  case replyStart | replyLengthLimit | pollTransmissionEnd | testTransmission =>
    refine ⟨_, rfl, SameQueues.within ?_ w⟩
    repeat' split
    all_goals first | exact .refl s | exact (withLine_only ..).queues
  case replyEnd =>
    refine ⟨_, rfl, SameQueues.within ?_ w⟩
    repeat' split
    all_goals first | exact .refl s | exact (replyEnd_only ..).queues
  case closingTransmissionEnd =>
    refine ⟨_, rfl, SameQueues.within ?_ w⟩
    repeat' split
    all_goals first | exact .refl s | exact (endTurn_only ..).queues
  case testTransmissionJudged =>
    refine ⟨_, rfl, ?_⟩
    split
    · exact .ite (SameQueues.within (s := s) ⟨rfl, rfl, rfl⟩ w) ((withLine_only ..).queues.within w)
    · exact w

/-- Every command keeps the bounds of the FIFO, the response queue and the outstanding count. -/
theorem exec_within {s : State} (h : s.QueuesBounded) (c : Instr) : ∃ t, exec c s = .next t ∧ t.QueuesWithin := by
  by_cases request : c ∈ requestRows.map RequestRow.command
  · obtain ⟨r, hr, rfl⟩ := List.mem_map.mp request
    obtain ⟨ok, judge, served⟩ := requestRows_served r hr
    obtain ⟨hf, hn, ho⟩ := takeRequest_queues h served.answers
    exact ⟨_, served.runs s, hf, hn, ho⟩
  · exact exec_within_of_event h c request

/-! ### The lists: sessions, deposits, cards, reports -/

/-- A property of the four lists that their own events keep is kept by every command: the container events and the station
and line events leave the lists alone. -/
theorem Keeps.ofLists {P : State → Prop}
    (frame : ∀ {s t : State}, t.sessions = s.sessions → t.deposits = s.deposits → t.cards = s.cards → t.relay = s.relay →
      P s → P t)
    (ending : ∀ {s} o after {x}, x ∈ s.sessions → P s → P (s.endSession o after x))
    (opening : ∀ {s} x, s.hasCapacity = true → P s → P (s.openSession x))
    (report : ∀ {s} a r p, s.relay.length < Config.relayCapacity → P s → P (s.relayReport a r p))
    (depositSent : ∀ {s}, P s → P { s with deposits := s.deposits.tail })
    (reportSent : ∀ {s}, P s → P { s with relay := s.relay.tail })
    (cardPut : ∀ {s} f, P s → P (s.cardPut f)) (cardDrop : ∀ {s} f, P s → P (s.cardDrop f))
    (cardStatus : ∀ {s} f, P s → P (s.cardStatus f)) (periodRoll : ∀ {s} f, P s → P (s.periodRoll f))
    (reset : P State.reset) : Keeps P := by
  have only {s t : State} (h : OnlyContainers s t) : P s → P t := frame h.sessions h.deposits h.cards h.relay
  have same {s t : State} (h : SameRecords s t) : P s → P t := frame h.sessions h.deposits h.cards h.relay
  exact {
    same, ending, opening, report, depositSent, reportSent, cardPut, cardDrop, cardStatus, periodRoll, reset
    level := fun i d => only (levelReading_only i d _)
    lifting := fun i e t => only (modContainer_only _ i _)
    lifted := fun i => only (completeLift_only i _)
    liftOverdue := fun i => only (liftExpiry_only i _)
    cleared := fun i => only (faultToIdle_only i _)
    containerPut := fun {s} f h => by
      obtain ⟨u, code, hu, hs⟩ := containerPut_answers f s
      exact hs ▸ same (respond_same ..) (only hu h)
    containerClear := fun {s} f h => by
      unfold State.containerClear
      repeat' split
      · exact same (respond_same ..) h
      · exact same (respond_same ..) h
      · exact same (respond_same ..) h
      · exact same (respond_same ..) (only (modRec_only ..) h)
    clearSensor := fun {s} f h => by
      unfold State.clearSensor
      repeat' split
      · exact same (respond_same ..) h
      · exact same ((raise_same ..).trans (respond_same ..)) (only (modContainer_only ..) h)
      · exact same (respond_same ..) h }

theorem openSession_sessions (x : Session) (s : State) : (s.openSession x).sessions = s.sessions ++ [x] := by
  unfold State.openSession State.ringJoin
  dsimp only
  split <;> rfl

theorem openSession_deposits (x : Session) (s : State) : (s.openSession x).deposits = s.deposits := by
  unfold State.openSession State.ringJoin
  dsimp only
  split <;> rfl

theorem openSession_cards (x : Session) (s : State) :
    (s.openSession x).cards = (s.modCard x.card fun c => { c with link := some x.number }).cards := by
  unfold State.openSession State.ringJoin
  dsimp only
  split <;> rfl

theorem hasCapacity_iff (s : State) :
    s.hasCapacity = true ↔ s.sessions.length < 16 ∧ s.deposits.length + s.sessions.length < 32 := by
  simp only [State.hasCapacity, Config.sessionCapacity, Config.depositCapacity, Bool.and_eq_true, decide_eq_true_eq]

/-- A card request leaves the sessions, the deposit records and the relay queue. -/
structure OnlyCards (s t : State) : Prop where
  sessions : t.sessions = s.sessions
  deposits : t.deposits = s.deposits
  relay : t.relay = s.relay
  container : ∀ i, t.container i = s.container i

theorem cardPut_cards (f : RequestFrame) (s : State) : OnlyCards s (s.cardPut f) := by
  unfold State.cardPut
  repeat' split
  all_goals exact ⟨rfl, rfl, rfl, fun _ => rfl⟩

theorem cardDrop_cards (f : RequestFrame) (s : State) : OnlyCards s (s.cardDrop f) := by
  unfold State.cardDrop
  dsimp only
  repeat' split
  all_goals exact ⟨rfl, rfl, rfl, fun _ => rfl⟩

theorem cardStatus_cards (f : RequestFrame) (s : State) : OnlyCards s (s.cardStatus f) := by
  unfold State.cardStatus
  dsimp only
  repeat' split
  all_goals exact ⟨rfl, rfl, rfl, fun _ => rfl⟩

theorem periodRoll_cards (f : RequestFrame) (s : State) : OnlyCards s (s.periodRoll f) :=
  ⟨rfl, rfl, rfl, fun _ => rfl⟩

/-! ### Room for sessions and deposit records (R61, R62) -/

theorem roomKept_congr {s t : State} (h1 : t.sessions = s.sessions) (h2 : t.deposits = s.deposits) (h : s.RoomKept) :
    t.RoomKept := by
  unfold State.RoomKept
  rwa [h1, h2]

/-- Each ending frees the place that its deposit record takes (R62). -/
theorem endSession_room (o : DepositOutcome) (after : AfterSession) {x : Session} {s : State} (hx : x ∈ s.sessions)
    (h : s.RoomKept) : (s.endSession o after x).RoomKept := by
  obtain ⟨h16, h32⟩ := h
  have pos := List.length_pos_of_mem hx
  unfold State.RoomKept
  rw [endSession_sessions, endSession_deposits, List.length_erase_of_mem hx, List.length_append, List.length_singleton]
  omega

theorem openSession_room (x : Session) {s : State} (room : s.hasCapacity = true) : (s.openSession x).RoomKept := by
  obtain ⟨h16, h32⟩ := (hasCapacity_iff s).mp room
  unfold State.RoomKept
  rw [openSession_sessions, openSession_deposits, List.length_append, List.length_singleton]
  omega

theorem depositSent_room {s : State} (h : s.RoomKept) : State.RoomKept { s with deposits := s.deposits.tail } := by
  obtain ⟨h16, h32⟩ := h
  refine ⟨h16, ?_⟩
  change s.deposits.tail.length + s.sessions.length ≤ 32
  rw [List.length_tail]
  omega

theorem keeps_roomKept : Keeps State.RoomKept :=
  .ofLists (fun h1 h2 _ _ => roomKept_congr h1 h2) (fun o after _ => endSession_room o after)
    (fun x room _ => openSession_room x room) (fun _ _ _ _ => roomKept_congr rfl rfl) depositSent_room
    (roomKept_congr rfl rfl) (fun f => roomKept_congr (cardPut_cards f _).sessions (cardPut_cards f _).deposits)
    (fun f => roomKept_congr (cardDrop_cards f _).sessions (cardDrop_cards f _).deposits)
    (fun f => roomKept_congr (cardStatus_cards f _).sessions (cardStatus_cards f _).deposits)
    (fun f => roomKept_congr (periodRoll_cards f _).sessions (periodRoll_cards f _).deposits)
    ⟨Nat.zero_le _, Nat.zero_le _⟩

/-! ### The relay queue (R163) -/

theorem keeps_relayBound : Keeps fun s => s.relay.length ≤ 4 :=
  .ofLists (fun _ _ _ h => (congrArg List.length h).trans_le)
    (fun o after _ _ => (congrArg List.length (endSession_only o after _ _).relay).trans_le)
    (fun x _ => (congrArg List.length (openSession_only x _).relay).trans_le)
    (fun a r p room _ => by
      change (_ ++ [_]).length ≤ 4
      rw [List.length_append, List.length_singleton]
      exact room)
    id (fun {s} (h : s.relay.length ≤ 4) => (s.relay.length_tail.trans_le (Nat.sub_le _ 1)).trans h)
    (fun f => (congrArg List.length (cardPut_cards f _).relay).trans_le)
    (fun f => (congrArg List.length (cardDrop_cards f _).relay).trans_le)
    (fun f => (congrArg List.length (cardStatus_cards f _).relay).trans_le)
    (fun f => (congrArg List.length (periodRoll_cards f _).relay).trans_le) (Nat.zero_le _)

/-! ### The card order (R46) -/

theorem settleCard_numbers (x : Session) (o : DepositOutcome) (s : State) :
    (s.settleCard x o).cards.map Card.number = s.cards.map Card.number :=
  modCard_numbers _ _ (fun c => by dsimp only; split <;> rfl) s

theorem openSession_numbers (x : Session) (s : State) :
    (s.openSession x).cards.map Card.number = s.cards.map Card.number := by
  rw [openSession_cards]
  exact modCard_numbers x.card (fun c => { c with link := some x.number }) (fun _ => rfl) s

/-- An insert happens below the capacity only, and keeps the order (R46, R51). -/
theorem cardPut_ordered (f : RequestFrame) {s : State} (h : s.CardsOrdered) : (s.cardPut f).CardsOrdered := by
  unfold State.cardPut
  split
  · exact h
  · next x _ =>
    split
    · next absent =>
      split
      · exact h
      · next room =>
        refine ⟨insertCard_sorted x.newCard s.cards h.1 (card_none absent), ?_⟩
        change (insertCard x.newCard s.cards).length ≤ 4096
        rw [(insertCard_perm x.newCard s.cards).length_eq, List.length_cons]
        exact Nat.lt_of_not_le room
    · split
      · exact h
      · exact cardsOrdered_congr (modCard_numbers x.number x.replace (fun _ => rfl) s) h

theorem cardDrop_ordered (f : RequestFrame) {s : State} (h : s.CardsOrdered) : (s.cardDrop f).CardsOrdered := by
  unfold State.cardDrop
  dsimp only
  split
  · exact h
  · split
    · exact h
    · split
      · exact h
      · exact ⟨h.1.filter _, (List.length_filter_le _ _).trans h.2⟩

theorem cardStatus_ordered (f : RequestFrame) {s : State} (h : s.CardsOrdered) : (s.cardStatus f).CardsOrdered := by
  unfold State.cardStatus
  dsimp only
  split
  · exact h
  · next status _ =>
    split
    · exact h
    · split
      · exact h
      · exact cardsOrdered_congr (modCard_numbers (f.card 1) (fun c => { c with status := status }) (fun _ => rfl) s) h

theorem periodRoll_ordered (f : RequestFrame) {s : State} (h : s.CardsOrdered) : (s.periodRoll f).CardsOrdered := by
  refine cardsOrdered_congr ?_ h
  change (s.cards.map _).map Card.number = _
  rw [List.map_map]
  rfl

theorem keeps_cardsOrdered : Keeps State.CardsOrdered :=
  .ofLists (fun _ _ h3 _ => cardsOrdered_congr (congrArg _ h3))
    (fun o after x _ => cardsOrdered_congr (by rw [endSession_cards, settleCard_numbers]))
    (fun x _ => cardsOrdered_congr (openSession_numbers x _)) (fun _ _ _ _ => id) id id (fun f => cardPut_ordered f)
    (fun f => cardDrop_ordered f) (fun f => cardStatus_ordered f) (fun f => periodRoll_ordered f)
    ⟨.nil, Nat.zero_le _⟩

/-! ### One step -/

/-- What every command keeps, every step keeps: the queue of commands is no part of it. -/
theorem step_of_exec {P Q : State → Prop} (pending : ∀ {s : State} rest, P s → P { s with pending := rest })
    (idle : ∀ {s}, P s → Q s) (run : ∀ c {s}, P s → ∃ t, exec c s = .next t ∧ Q t) {s t : State} (h : step s = .next t)
    (hs : P s) : Q t := by
  unfold step at h
  split at h
  · cases h
    exact idle hs
  · next c rest _ =>
    obtain ⟨u, hu, qu⟩ := run c (pending rest hs)
    cases hu.symm.trans h
    exact qu

theorem Keeps.step {P : State → Prop} (k : Keeps P) {s t : State} (h : step s = .next t) (hs : P s) : P t :=
  step_of_exec (P := P) (fun _ => k.same ⟨rfl, rfl, rfl, fun _ => rfl, rfl⟩) id (fun c _ => k.exec c) h hs

theorem step_queuesBounded {s t : State} (h : step s = .next t) (hs : s.QueuesBounded) : t.QueuesBounded := by
  have within : t.QueuesWithin := step_of_exec (P := State.QueuesBounded) (fun _ k => ⟨k.fifo, k.responses, k.outstanding, k.relay⟩)
    State.QueuesBounded.within (fun c _ k => exec_within k c) h hs
  exact ⟨within.fifo, within.responses, within.outstanding, keeps_relayBound.step h hs.relay⟩

/-- Settles O58: each capacity and the card order is kept by the events that change its list, hence by every command. -/
theorem everyStepKeepsTheCapacities : Obligations.EveryStepKeepsTheCapacities :=
  fun _ _ h => ⟨keeps_roomKept.step h, keeps_cardsOrdered.step h, step_queuesBounded h⟩

/-! ### Sound containers at distinct bindings (R85, R87, R104) -/

/-- What O59 speaks of: every configured container is sound, and no two share a (station, inlet). -/
def State.WellKept (s : State) : Prop := s.ContainersSound ∧ s.BindingsDistinct

theorem wellKept_congr {s t : State} (h : ∀ i, t.container i = s.container i) (hs : s.WellKept) : t.WellKept := by
  unfold State.WellKept State.ContainersSound State.BindingsDistinct
  simp only [h]
  exact hs

theorem respond_wellKept {s : State} (f : RequestFrame) (code : ResultCode) (data : List Byte) (h : s.WellKept) :
    (s.respond f code data).WellKept := h

/-- A change of one body that keeps it sound and at its binding. -/
theorem MapsBody.wellKept {i : ContainerIx} {g : Container → Container} {s t : State} (m : MapsBody i g s t)
    (hg : ∀ c, (c.Sound → (g c).Sound) ∧ (g c).binding = c.binding) (h : s.WellKept) : t.WellKept :=
  ⟨m.sound (fun c => (hg c).1) h.1, m.distinct (fun c => (hg c).2) h.2⟩

theorem endSession_wellKept (o : DepositOutcome) (after : AfterSession) (x : Session) {s : State} (h : s.WellKept) :
    (s.endSession o after x).WellKept :=
  (endSession_maps o after x s).wellKept
    (fun c => ⟨fun hc => hc.sessionEnded o after _ _, Container.sessionEnded_binding o after _ _ c⟩) h

theorem completeLift_wellKept (i : ContainerIx) {s : State} (h : s.WellKept) : (s.completeLift i).WellKept :=
  (completeLift_maps i s).wellKept (fun c => ⟨fun hc => hc.afterLift _, Container.afterLift_binding _ c⟩) h

theorem faultToIdle_wellKept (i : ContainerIx) {s : State} (h : s.WellKept) : (s.faultToIdle i).WellKept :=
  (faultToIdle_maps i s).wellKept Container.leftFault h

theorem liftExpiry_wellKept (i : ContainerIx) {s : State} (h : s.WellKept) : (s.liftExpiry i).WellKept :=
  (liftExpiry_maps i s).wellKept (fun c => ⟨fun hc => hc.moved _ c.liftStart c.liftDeadline c.lastLift, rfl⟩) h

theorem openSession_wellKept (x : Session) {s : State} (h : s.WellKept) : (s.openSession x).WellKept :=
  (openSession_maps x s).wellKept (fun c => ⟨fun hc => hc.moved _ c.liftStart c.liftDeadline c.lastLift, rfl⟩) h

theorem startedLift_wellKept (i : ContainerIx) (e t : Nat) {s : State} (h : s.WellKept) :
    (s.modContainer i (Container.startLift e t)).WellKept :=
  (modContainer_maps i _ s).wellKept (fun _ => ⟨fun hc => hc.startLift e t, rfl⟩) h

theorem levelReading_wellKept (i : ContainerIx) (d : Nat) {s : State} (h : s.WellKept) : (s.levelReading i d).WellKept := by
  refine (levelReading_maps i d s).wellKept (fun c => ?_) h
  unfold Container.afterReading
  split
  · exact ⟨fun hc => hc.level .., Container.afterFill_binding ..⟩
  · exact ⟨id, rfl⟩

theorem containerClear_wellKept (f : RequestFrame) {s : State} (h : s.WellKept) : (s.containerClear f).WellKept := by
  unfold State.containerClear
  split
  · exact h
  · next i _ =>
    split
    · exact h
    · split
      · exact h
      · -- a cleared record has no body, so every body that is left was there before
        have before {j c} (hc : (s.modRec i fun _ => .reset).container j = some c) : s.container j = some c := by
          rw [State.modRec_container] at hc
          split at hc
          · cases hc
          · exact hc
        exact respond_wellKept f .done []
          ⟨fun j c hc => h.1 j c (before hc), fun j k c d hc hd => h.2 j k c d (before hc) (before hd)⟩

theorem clearSensor_wellKept (f : RequestFrame) {s : State} (h : s.WellKept) : (s.clearSensor f).WellKept := by
  unfold State.clearSensor
  split
  · exact h
  · next i _ =>
    split
    · exact respond_wellKept f .done [] (wellKept_congr (raise_same ..).container
        ((modContainer_maps ..).wellKept (fun c => ⟨fun hc => hc.clearSensor _, rfl⟩) h))
    · exact h

/-- The record that R88 and R102 configure is sound. -/
theorem configure_wellKept {i : ContainerIx} {b : Binding} {p : Params} {s : State} (hp : p.inRange = true)
    (free : s.boundElsewhere i b = false) (h : s.WellKept) : (s.configure i b p).WellKept := by
  refine ⟨fun j c hc => ?_, distinct_of_placed (b := b) h.2 (fun j c => boundElsewhere_false free) (fun j hj => ?_)
    fun c hc => ?_⟩
  · rw [configure_container] at hc
    split at hc
    · cases hc
      exact Container.sound_testFull hp nofun (Fill.start_bounded _)
    · exact h.1 j c hc
  · rw [configure_container, if_neg (Ne.symm hj)]
  · rw [configure_container, if_pos rfl] at hc
    cases hc
    rfl

/-- A write to a configured record that keeps its binding, or moves an IDLE container to a binding that is free elsewhere
(R88, R89). -/
theorem writeContainer_wellKept (f : RequestFrame) {i : ContainerIx} {c : Container} {b : Binding} {p : Params} {s : State}
    (hc : s.container i = some c) (hp : p.inRange = true) (hb : c.binding = b ∨ c.state = .idle)
    (free : ∀ j d, j ≠ i → s.container j = some d → ¬(d.binding.station = b.station ∧ d.binding.inlet = b.inlet))
    (h : s.WellKept) : (s.writeContainer f i c b p).WellKept := by
  have m := writeContainer_maps f i c b p s
  refine ⟨m.sound (fun x hx => ?_) h.1, distinct_of_placed h.2 free (fun j hj => ?_) fun x hx => ?_⟩
  · split
    · exact ⟨hp, nofun, hx.bandBelow, hx.fillBound, rfl⟩
    · exact ⟨hx.applied, fun _ hq => by cases hq; exact hp, hx.bandBelow, hx.fillBound, hx.full⟩
  · rw [m.body j, if_neg (Ne.symm hj)]
  · rw [m.body i, if_pos rfl, hc] at hx
    cases hx
    split
    · rfl
    · next staged => exact hb.resolve_right staged

theorem containerPut_wellKept (f : RequestFrame) {s : State} (h : s.WellKept) : (s.containerPut f).WellKept := by
  unfold State.containerPut
  split
  · exact h
  · next i b p fields =>
    have hp := containerFields_inRange fields
    split
    · split
      · exact h
      · next passes => exact respond_wellKept f .done [] (configure_wellKept hp (bindingRefusal_none passes) h)
    · next c hc =>
      split
      · next same =>
        refine writeContainer_wellKept f hc hp (.inl same) (fun j d hj hd shared => hj ?_) h
        exact h.2 j i d c hd hc (same ▸ shared.1) (same ▸ shared.2)
      · split
        · exact h
        · next stays =>
          split
          · exact h
          · next passes =>
            exact writeContainer_wellKept f hc hp (.inr (by simpa using (not_or.mp stays).1))
              (fun j d => boundElsewhere_false (bindingRefusal_none passes)) h

theorem State.reset_container (i : ContainerIx) : State.reset.container i = none := by
  rw [State.container, State.reset_containers_getElem]
  rfl

theorem reset_wellKept : State.reset.WellKept := by
  have absent {i c} : State.reset.container i ≠ some c := by simp [State.reset_container]
  exact ⟨fun _ _ h => absurd h absent, fun _ _ _ _ h => absurd h absent⟩

theorem keeps_wellKept : Keeps State.WellKept where
  same h := wellKept_congr h.container
  ending o after x _ := endSession_wellKept o after x
  opening x _ := openSession_wellKept x
  level i d := levelReading_wellKept i d
  lifting i e t := startedLift_wellKept i e t
  lifted i := completeLift_wellKept i
  liftOverdue i := liftExpiry_wellKept i
  cleared i := faultToIdle_wellKept i
  report _ _ _ _ := wellKept_congr fun _ => rfl
  depositSent := wellKept_congr fun _ => rfl
  reportSent := wellKept_congr fun _ => rfl
  cardPut f := wellKept_congr (cardPut_cards f _).container
  cardDrop f := wellKept_congr (cardDrop_cards f _).container
  cardStatus f := wellKept_congr (cardStatus_cards f _).container
  periodRoll f := wellKept_congr (periodRoll_cards f _).container
  containerPut f := containerPut_wellKept f
  containerClear f := containerClear_wellKept f
  clearSensor f := clearSensor_wellKept f
  reset := reset_wellKept

/-- Settles O59: every event maps one body soundly and keeps its binding, but for CONTAINER PUT, whose checks keep another
binding apart, and CONTAINER CLEAR, which takes a body away. -/
theorem everyStepKeepsTheContainersSound : Obligations.EveryStepKeepsTheContainersSound :=
  fun _ _ h sound distinct => keeps_wellKept.step h ⟨sound, distinct⟩

/-- Settles O60. -/
theorem invariantsHoldAtReset : Obligations.InvariantsHoldAtReset :=
  ⟨keeps_roomKept.reset, keeps_cardsOrdered.reset, ⟨Nat.zero_le _, Nat.zero_le _, Nat.zero_le _, Nat.zero_le _⟩,
    reset_wellKept.1, reset_wellKept.2⟩

end Sys2Proof.Machine

end

section
/-! PROOFS. Steps, power-on reset, receiving and the take: O1, O3, O5 to O13. -/

namespace Sys2Proof.Machine

/-! ### Steps and power-on reset -/

/-- Settles O1. -/
theorem stepRunsTheFrontCommand : Obligations.StepRunsTheFrontCommand := fun _ _ _ => rfl

theorem State.reset_stations_getElem (a : StationIx) : State.reset.stations[a] = Station.reset :=
  Vector.getElem_replicate ..

theorem State.reset_links_getElem (a : StationIx) : State.reset.links[a] = Link.reset := Vector.getElem_replicate ..

/-- No message waits where every slot is absent (R28). -/
theorem poolCount_eq_zero {s : State} (h : ∀ a : StationIx, s.stations[a].message = none) : s.poolCount = 0 :=
  List.countP_eq_zero.mpr fun a _ => by rw [h a]; decide

/-- Settles O3: the line, link and station records of the reset state, read entry by entry. -/
theorem powerOnResetStopsTheLine : Obligations.PowerOnResetStopsTheLine := by
  intro rate1 rate0 s
  refine ⟨_, exec_powerOnReset rate1 rate0 s, ⟨rfl, rfl, rfl, rfl, rfl, rfl, rfl, rfl⟩, State.reset_links_getElem, ?stations,
    ?pool, ?containers⟩
  case stations =>
    intro a
    simp only [State.reset_stations_getElem]
    exact ⟨rfl, rfl, rfl, rfl, rfl, rfl, rfl, rfl, fun n => Vector.getElem_replicate .., rfl, rfl⟩
  case pool => exact poolCount_eq_zero fun a => congrArg Station.message (State.reset_stations_getElem a)
  case containers => exact fun i => ⟨State.reset_container i, congrArg ContainerRec.flags (State.reset_containers_getElem i)⟩

/-- Settles O5: START stands first in the scanner's cycle, and its flag is set. -/
theorem powerOnResetUplink : Obligations.PowerOnResetUplink := by
  intro rate1 rate0 s
  refine ⟨_, exec_powerOnReset rate1 rate0 s, ?_, rfl, rfl, rfl, rfl, rfl, rfl, rfl, rfl, rfl, rfl, rfl, rfl, rfl⟩
  cases rate1 <;> cases rate0 <;> rfl

/-! ### Receiving (R154, R155, R172) -/

/-- Settles O6. -/
theorem receiverEvents : Obligations.ReceiverEvents := fun _ => ⟨rfl, rfl, rfl⟩

theorem word16_toNat (a b : Byte) : (word16 a b).toNat = a.toNat * 256 + b.toNat := by
  rw [← beNat_two]
  simp [beNat]

theorem byte_toNat (n : Nat) : (byte n).toNat = n % 256 := rfl

/-- The two bytes of a 16-bit field spell it (R175). -/
theorem be2_word16 (a b : Byte) : be2 (word16 a b).toNat = [a, b] := by
  have ha := a.isLt
  have hb := b.isLt
  rw [word16_toNat, be2]
  congr 1
  · exact BitVec.eq_of_toNat_eq (by rw [byte_toNat]; omega)
  · exact congrArg (· :: []) (BitVec.eq_of_toNat_eq (by rw [byte_toNat]; omega))

theorem word16_be2 (w : Word16) : word16 (byte (w.toNat / 256)) (byte w.toNat) = w :=
  BitVec.eq_of_toNat_eq (by rw [word16_toNat, byte_toNat, byte_toNat]; omega)

/-- Two received bytes are the check bytes of some bytes exactly when they spell their CRC-16 (R169). -/
theorem crcBytes_eq_iff (a b : Byte) (bytes : List Byte) : [a, b] = crcBytes bytes ↔ word16 a b = crc16 bytes := by
  constructor
  · intro h
    unfold crcBytes be2 at h
    simp only [List.cons.injEq, and_true] at h
    rw [h.1, h.2, word16_be2]
  · intro h
    rw [crcBytes, ← h, be2_word16]

/-- A length byte of at most 26 below a zero byte is the length (R172). -/
theorem beNat_length {n : Nat} (h : n ≤ 26) : beNat [0, BitVec.ofNat 8 n] = n := by
  simp only [beNat, List.foldl_cons, List.foldl_nil, BitVec.toNat_ofNat, BitVec.ofNat_eq_ofNat]
  omega

/-- A whole frame is offered when its check agrees and its class is that of a request, and is discarded otherwise; either way
the receiver hunts (R154). -/
theorem receiveFrame_whole (s : State) (cls tag c1 c0 : Byte) {payload : List Byte} (h : payload.length ≤ 26) :
    s.receiveFrame ([cls, tag, 0, BitVec.ofNat 8 payload.length] ++ payload ++ [c1, c0]) =
      if word16 c1 c0 = crc16 ([cls, tag, 0, BitVec.ofNat 8 payload.length] ++ payload) ∧ cls = 0x01 then
        s.hunt.offer { tag, payload }
      else s.hunt := by
  have within : ¬ greatestPayload < payload.length := by unfold greatestPayload; omega
  have complete : ¬ (payload ++ [c1, c0]).length < payload.length + 2 := by simp
  simp only [State.receiveFrame, List.cons_append, List.nil_append, beNat_length h, if_neg within, if_neg complete,
    List.take_left, List.drop_left, decide_eq_true_eq, List.take_succ_cons, List.take_zero, crcBytes_eq_iff]

/-- Settles O7: the check bytes sent are those of the frame. -/
theorem requestFrameIsOffered : Obligations.RequestFrameIsOffered := by
  intro s tag payload receiving short
  have run (bytes : List Byte) : exec (.uplinkFrameReceived bytes) s = .next (s.receiveFrame bytes) := by
    simp only [exec, execUplinkFrameReceived, receiving]
  dsimp only
  generalize crc : crc16 _ = w
  have check : word16 (BitVec.ofNat 8 (w.toNat / 256)) (BitVec.ofNat 8 (w.toNat % 256)) = w := by
    refine Eq.trans (congrArg (word16 _) (BitVec.eq_of_toNat_eq ?_)) (word16_be2 w)
    rw [BitVec.toNat_ofNat, byte_toNat]
    omega
  rw [run, receiveFrame_whole s _ _ _ _ short, if_pos ⟨check.trans crc.symm, rfl⟩]
  constructor
  · intro room
    have joined : s.hunt.offer { tag, payload } = _ := if_pos room
    rw [joined]
    refine ⟨_, rfl, rfl, ?_⟩
    change decide ((s.intake.fifo ++ [_]).length < 4) = _
    rw [List.length_append, List.length_singleton, decide_eq_decide]
    omega
  · intro full
    have discarded : s.hunt.offer { tag, payload } = _ := if_neg (Nat.not_lt.mpr full)
    rw [discarded]
    exact ⟨_, rfl, rfl, decide_eq_false (Nat.not_lt.mpr full)⟩

/-- Settles O8. -/
theorem defectiveFrameIsDiscarded : Obligations.DefectiveFrameIsDiscarded := by
  intro s cls tag c1 c0 payload short
  refine ⟨fun receiving defect => ?_, fun hunting => ?_⟩
  · simp only [exec, execUplinkFrameReceived, receiving]
    rw [receiveFrame_whole s _ _ _ _ short, if_neg (by tauto)]
    rfl
  · simp only [exec, execUplinkFrameReceived, hunting]

/-! ### The check sequence (R169) -/

/-- One bit through the register of R169: it is added to the bit that leaves at the top. -/
def crcShift (r : BitVec 16) (bit : Bool) : BitVec 16 :=
  if r.msb ≠ bit then (r <<< 1) ^^^ 0x1021#16 else r <<< 1

/-- A pattern added to the register beforehand shows its top bit to the shift and moves on with the register. -/
theorem crcBit_xor (r y : BitVec 16) : crcBit (r ^^^ y) = crcShift r y.msb ^^^ (y <<< 1) := by
  unfold crcBit crcShift
  rw [BitVec.msb_xor, BitVec.shiftLeft_xor_distrib]
  cases r.msb <;> cases y.msb
  · rfl
  · simp only [Bool.false_xor, ne_eq, Bool.false_eq_true, not_false_eq_true, if_true]
    rw [BitVec.xor_assoc, BitVec.xor_assoc, BitVec.xor_comm (y <<< 1)]
  · simp only [Bool.xor_false, ne_eq, Bool.true_eq_false, not_false_eq_true, if_true]
    rw [BitVec.xor_assoc, BitVec.xor_assoc, BitVec.xor_comm (y <<< 1)]
  · rfl

theorem crcBit_run (k : Nat) (r y : BitVec 16) :
    (List.range k).foldl (fun x _ => crcBit x) (r ^^^ y) =
      ((List.range k).map fun j => (y <<< j).msb).foldl crcShift r ^^^ (y <<< k) := by
  induction k with
  | zero => simp
  | succ k ih =>
    rw [List.range_succ, List.foldl_append, ih, List.map_append, List.foldl_append]
    simp only [List.foldl_cons, List.foldl_nil, List.map_cons, List.map_nil]
    rw [crcBit_xor, ← BitVec.shiftLeft_add]

/-- A byte through the register is its eight bits through it, most significant first. -/
theorem crcByte_eq (r : BitVec 16) (b : Byte) :
    crcByte r b = ((List.range 8).map fun k => b.getMsbD k).foldl crcShift r := by
  have bits : ((List.range 8).map fun j => ((b.zeroExtend 16 <<< 8) <<< j).msb) = (List.range 8).map fun k => b.getMsbD k := by
    refine List.map_congr_left fun k hk => ?_
    have hk := List.mem_range.mp hk
    rw [← BitVec.shiftLeft_add, BitVec.msb_eq_getLsbD_last, BitVec.getLsbD_shiftLeft, BitVec.getLsbD_setWidth,
      BitVec.getMsbD]
    simp only [show 15 - (8 + k) = 7 - k by omega, show (15 : Nat) < 16 by omega, show ¬ 15 < 8 + k by omega, hk,
      show 7 - k < 16 by omega, decide_true, decide_false, Bool.not_false, Bool.true_and]
  have gone : (b.zeroExtend 16 <<< 8) <<< 8 = 0#16 := by
    rw [← BitVec.shiftLeft_add]
    exact BitVec.shiftLeft_eq_zero (Nat.le_refl 16)
  rw [crcByte, crcBit_run, bits, gone, BitVec.xor_zero]

/-- Settles O9. -/
theorem crcIsTheOneOfR169 : Obligations.CrcIsTheOneOfR169 := by
  refine ⟨fun bytes => ?_, by decide +kernel⟩
  change List.foldl crcByte _ bytes = List.foldl crcShift _ _
  rw [List.foldl_flatMap]
  exact congrArg (fun step => List.foldl step 0xFFFF#16 bytes) (funext₂ crcByte_eq)

/-! ### Taking a request (R156, R157, R172) -/

/-- A request that is answered has left the FIFO, and its response has joined the queue (R156). -/
@[simp] theorem State.took_respond (s : State) (rest : List RequestFrame) (f : RequestFrame) (code : ResultCode)
    (data : List Byte) : (s.took rest).respond f code data = s.answered rest f code data := rfl

theorem take_eq_none {s : State} (h : s.intake.fifo = [] ∨ 8 ≤ s.responses.length ∨ 12 ≤ s.outstanding) : s.take = none := by
  unfold State.take
  rcases h with empty | blocked
  · rw [empty]
  · split
    · rfl
    · exact if_neg fun ⟨room, below⟩ => by
        change s.responses.length < 8 at room
        change s.outstanding < 12 at below
        omega

/-- A command whose kind is not the head request's changes nothing, whether or not the request can be taken (log 1). -/
theorem takeRequest_otherKind {s : State} {f : RequestFrame} {rest : List RequestFrame} (head : s.intake.fifo = f :: rest)
    {kind : Byte} {ok : Nat → Bool} {judge : RequestFrame → State → State} (hk : f.kind ≠ kind) :
    s.takeRequest kind ok judge = s := by
  cases taken : s.take with
  | none => exact takeRequest_none taken
  | some p =>
    obtain ⟨g, t⟩ := p
    obtain ⟨more, takes, rfl⟩ := takes_of_take taken
    cases head.symm.trans takes.1
    exact takes.otherKind hk

/-- Settles O10. -/
theorem requestWithoutItsOccasionChangesNothing : Obligations.RequestWithoutItsOccasionChangesNothing := by
  intro r hr s absent
  obtain ⟨ok, judge, served⟩ := requestRows_served r hr
  rw [served.runs]
  rcases absent with h | h | h | ⟨f, rest, head, other⟩
  · rw [takeRequest_none (take_eq_none (.inl h))]
  · rw [takeRequest_none (take_eq_none (.inr (.inl h)))]
  · rw [takeRequest_none (take_eq_none (.inr (.inr h)))]
  · rw [takeRequest_otherKind head other]

theorem requestRows_kinds : requestRows.map RequestRow.kind = knownKinds := rfl

theorem exec_requestUnknownKind {s : State} {f : RequestFrame} {rest : List RequestFrame} (h : s.Takes f rest)
    (unlisted : f.kind ∉ knownKinds) : exec .requestUnknownKind s = .next (s.answered rest f .unknown []) := by
  simp only [exec, execRequestUnknownKind, h.take, if_neg unlisted, State.took_respond]

/-- Settles O11. -/
theorem unknownKindIsAnsweredUnknown : Obligations.UnknownKindIsAnsweredUnknown := by
  intro s rest tag
  exact ⟨fun h => exec_requestUnknownKind h (show (0 : Byte) ∉ knownKinds by decide),
    fun kind fields unlisted h => exec_requestUnknownKind h (requestRows_kinds ▸ unlisted)⟩

/-- Settles O12. -/
theorem wrongLengthIsAnsweredRange : Obligations.WrongLengthIsAnsweredRange := by
  intro r hr s rest tag fields wrong h
  obtain ⟨ok, judge, served⟩ := requestRows_served r hr
  rw [served.runs, h.badLength (kind := r.kind) rfl, State.took_respond]
  rw [served.lengths, List.length_cons, decide_eq_false_iff_not]
  omega

/-- Settles O13: the judgement that gave a refusal has changed nothing before it answered. -/
theorem refusedRequestChangesNothing : Obligations.RefusedRequestChangesNothing := by
  intro r hr s t rest f code data h kind run response refusal
  obtain ⟨ok, judge, served⟩ := requestRows_served r hr
  have answer : Answers f (s.took rest) (s.takeRequest r.kind ok judge) := by
    cases length : ok f.payload.length with
    | true => exact h.judged kind length ▸ served.answers f _
    | false => exact h.badLength kind length ▸ respond_answers ..
  cases (served.runs s).symm.trans run
  refine answer.refused code data ?_ response
  simp only [List.mem_cons, List.not_mem_nil, or_false] at refusal
  rcases refusal with rfl | rfl | rfl | rfl | rfl | rfl | rfl <;> rfl

end Sys2Proof.Machine

end

section
/-! PROOFS. Every command answers a next state and leaves the queue of commands (O2). -/

namespace Sys2Proof.Machine

/-! ### What the judgement of a request leaves of the queue of commands -/

/-- A judgement of requests leaves the queue of commands. -/
def KeepsQueue (judge : RequestFrame → State → State) : Prop := ∀ f s, (judge f s).pending = s.pending

theorem ite_pending {s t u : State} {p : Prop} [Decidable p] (ht : t.pending = s.pending) (hu : u.pending = s.pending) :
    (if p then t else u).pending = s.pending := by
  split
  · exact ht
  · exact hu

theorem takeRequest_pending {kind : Byte} {ok : Nat → Bool} {judge : RequestFrame → State → State} (k : KeepsQueue judge)
    (s : State) : (s.takeRequest kind ok judge).pending = s.pending := by
  cases taken : s.take with
  | none => rw [takeRequest_none taken]
  | some p =>
    obtain ⟨f, t⟩ := p
    obtain ⟨rest, takes, rfl⟩ := takes_of_take taken
    by_cases hk : f.kind = kind
    · cases length : ok f.payload.length with
      | true => rw [takes.judged hk length, k]; rfl
      | false => rw [takes.badLength hk length]; rfl
    · rw [takes.otherKind hk]

theorem cardPut_pending : KeepsQueue State.cardPut := by
  intro f s
  unfold State.cardPut
  repeat' split
  all_goals rfl

theorem cardDrop_pending : KeepsQueue State.cardDrop := by
  intro f s
  unfold State.cardDrop
  dsimp only
  repeat' split
  all_goals rfl

theorem cardStatus_pending : KeepsQueue State.cardStatus := by
  intro f s
  unfold State.cardStatus
  dsimp only
  repeat' split
  all_goals rfl

theorem cardGet_pending : KeepsQueue State.cardGet := by
  intro f s
  unfold State.cardGet
  dsimp only
  repeat' split
  all_goals rfl

theorem stationPut_pending : KeepsQueue State.stationPut := by
  intro f s
  unfold State.stationPut
  split
  · rfl
  · exact ite_pending rfl (ite_pending (applyStation_only ..).pending rfl)

theorem stationGet_pending : KeepsQueue State.stationGet := by
  intro f s
  unfold State.stationGet
  split <;> rfl

theorem lockStation_pending : KeepsQueue State.lockStation := by
  intro f s
  unfold State.lockStation
  split
  · rfl
  · split
    · rfl
    · split
      · exact (addReason_only ..).pending
      · exact (lockoutEntry_only ..).pending

theorem unlockStation_pending : KeepsQueue State.unlockStation := by
  intro f s
  unfold State.unlockStation
  split
  · rfl
  · repeat' split
    all_goals rfl

theorem stationMessage_pending : KeepsQueue State.stationMessage := by
  intro f s
  unfold State.stationMessage
  split
  · rfl
  · dsimp only
    repeat' split
    all_goals rfl

theorem containerPut_pending : KeepsQueue State.containerPut := by
  intro f s
  obtain ⟨u, code, hu, hs⟩ := containerPut_answers f s
  rw [hs, State.respond_pending, hu.pending]

theorem containerGet_pending : KeepsQueue State.containerGet := by
  intro f s
  unfold State.containerGet
  split <;> rfl

theorem containerClear_pending : KeepsQueue State.containerClear := by
  intro f s
  unfold State.containerClear
  repeat' split
  all_goals rfl

theorem clearInlet_pending : KeepsQueue State.clearInlet := by
  intro f s
  unfold State.clearInlet
  split
  · rfl
  · split
    · exact (faultToIdle_only ..).pending
    · rfl

theorem clearSensor_pending : KeepsQueue State.clearSensor := by
  intro f s
  unfold State.clearSensor
  repeat' split
  all_goals rfl

theorem fractionPut_pending : KeepsQueue State.fractionPut := by
  intro f s
  unfold State.fractionPut
  split <;> rfl

theorem requestCancel_pending : KeepsQueue State.requestCancel := by
  intro f s
  unfold State.requestCancel
  repeat' split
  all_goals rfl

theorem settle_pending (f : RequestFrame) (r : RoundFields) (b : Build) : (b.settle f r).pending = b.state.pending := by
  unfold Build.settle
  split
  · rfl
  · exact (expireRound_only ..).pending

theorem roundOpen_pending : KeepsQueue State.roundOpen := by
  intro f s
  unfold State.roundOpen
  split
  · rfl
  · split
    · rfl
    · split
      · rw [settle_pending, (build_only ..).pending]
      · rfl

theorem roundClose_pending : KeepsQueue State.roundClose := by
  intro f s
  unfold State.roundClose
  split
  · rfl
  · split
    · rfl
    · exact (closeRound_only ..).pending

theorem lineStart_pending : KeepsQueue State.lineStart := by
  intro f s
  unfold State.lineStart
  split
  · dsimp only
    rw [State.respond_pending]
    exact ite_pending rfl (wrap_only _).pending
  · dsimp only
    split <;> rfl
  · rfl
  · rfl

theorem lineStop_pending : KeepsQueue State.lineStop := by
  intro f s
  unfold State.lineStop
  repeat' split
  all_goals rfl

theorem lineTest_pending : KeepsQueue State.lineTest := by
  intro f s
  unfold State.lineTest
  split <;> rfl

theorem settingsPut_pending : KeepsQueue State.settingsPut := by
  intro f s
  unfold State.settingsPut
  repeat' split
  all_goals rfl

theorem timeSet_pending : KeepsQueue State.timeSet := by
  intro f s
  unfold State.timeSet
  dsimp only
  rw [State.respond_pending, (afterTime_only _).pending]

theorem cutFrame_pending (s : State) : s.cutFrame.pending = s.pending := by
  unfold State.cutFrame
  split
  · next p _ => cases p <;> rfl
  · rfl

theorem restart_pending : KeepsQueue State.restart := by
  intro f s
  obtain ⟨_, _, _, _, _, _, _, _, _, settled⟩ := restart_settled s
  unfold State.restart
  dsimp only
  rw [State.respond_pending, cutFrame_pending, settled.pending]

/-! ### Every command -/

/-- A command that answers a next state and leaves the queue of commands. -/
def AnswersAndKeeps (c : Instr) : Prop := ∀ s, ∃ t, exec c s = .next t ∧ t.pending = s.pending

theorem request_answersAndKeeps {c : Instr} {kind : Byte} {ok : Nat → Bool} {judge : RequestFrame → State → State}
    (run : ∀ s, exec c s = .next (s.takeRequest kind ok judge)) (k : KeepsQueue judge) : AnswersAndKeeps c :=
  fun s => ⟨_, run s, takeRequest_pending k s⟩

theorem receiveFrame_pending (bytes : List Byte) (s : State) : (s.receiveFrame bytes).pending = s.pending := by
  unfold State.receiveFrame
  split
  · exact ite_pending rfl (ite_pending rfl (ite_pending (ite_pending rfl rfl) rfl))
  · rfl

theorem beginNotice_pending (p : NoticeFlag) (s : State) : (s.beginNotice p).pending = s.pending := by
  cases p <;> rfl

theorem arbitrate_pending (s : State) : s.arbitrate.pending = s.pending := by
  unfold State.arbitrate State.beginFourth State.beginFifth
  repeat' split
  all_goals first | rfl | exact beginNotice_pending ..

theorem beginNextTurn_pending (s : State) : s.beginNextTurn.pending = s.pending := by
  unfold State.beginNextTurn
  split <;> rfl

theorem exec_answersAndKeeps (c : Instr) : AnswersAndKeeps c := by
  cases c
  case cardPut => exact request_answersAndKeeps (fun _ => rfl) cardPut_pending
  case cardDrop => exact request_answersAndKeeps (fun _ => rfl) cardDrop_pending
  case cardStatus => exact request_answersAndKeeps (fun _ => rfl) cardStatus_pending
  case cardGet => exact request_answersAndKeeps (fun _ => rfl) cardGet_pending
  case periodRoll => exact request_answersAndKeeps (fun _ => rfl) fun _ _ => rfl
  case stationPut => exact request_answersAndKeeps (fun _ => rfl) stationPut_pending
  case stationGet => exact request_answersAndKeeps (fun _ => rfl) stationGet_pending
  case lock => exact request_answersAndKeeps (fun _ => rfl) lockStation_pending
  case unlock => exact request_answersAndKeeps (fun _ => rfl) unlockStation_pending
  case stationMessage => exact request_answersAndKeeps (fun _ => rfl) stationMessage_pending
  case containerPut => exact request_answersAndKeeps (fun _ => rfl) containerPut_pending
  case containerGet => exact request_answersAndKeeps (fun _ => rfl) containerGet_pending
  case containerClear => exact request_answersAndKeeps (fun _ => rfl) containerClear_pending
  case clearInlet => exact request_answersAndKeeps (fun _ => rfl) clearInlet_pending
  case clearSensor => exact request_answersAndKeeps (fun _ => rfl) clearSensor_pending
  case fractionPut => exact request_answersAndKeeps (fun _ => rfl) fractionPut_pending
  case requestCancel => exact request_answersAndKeeps (fun _ => rfl) requestCancel_pending
  case roundOpen => exact request_answersAndKeeps (fun _ => rfl) roundOpen_pending
  case roundClose => exact request_answersAndKeeps (fun _ => rfl) roundClose_pending
  case lineStart => exact request_answersAndKeeps (fun _ => rfl) lineStart_pending
  case lineStop => exact request_answersAndKeeps (fun _ => rfl) lineStop_pending
  case lineTest => exact request_answersAndKeeps (fun _ => rfl) lineTest_pending
  case settingsPut => exact request_answersAndKeeps (fun _ => rfl) settingsPut_pending
  case settingsGet => exact request_answersAndKeeps (fun _ => rfl) fun _ _ => rfl
  case timeSet => exact request_answersAndKeeps (fun _ => rfl) timeSet_pending
  case statusGet => exact request_answersAndKeeps (fun _ => rfl) fun _ _ => rfl
  case restart => exact request_answersAndKeeps (fun _ => rfl) restart_pending
  all_goals intro s; refine ⟨_, rfl, ?_⟩
  case powerOnReset | syncByteReceived | interbyteTimeout | lengthFieldExceeded => rfl
  case uplinkFrameReceived bytes =>
    split
    · exact receiveFrame_pending bytes s
    · rfl
  case requestUnknownKind =>
    split
    · next f t taken =>
      obtain ⟨rest, _, rfl⟩ := takes_of_take taken
      exact ite_pending rfl rfl
    · rfl
  case senderFrameStart cts => exact ite_pending (arbitrate_pending s) rfl
  case responseFrameSent | deferredResponseSent | roundListFrameSent | depositRecordSent | relayedReportSent =>
    exact ite_pending rfl rfl
  case noticeFrameSent => split <;> rfl
  case secondsAdvance => exact (afterTime_only _).pending
  case requestOverdueMarking => exact (markAllOverdue_only s).pending
  case roundDeadlineExpiry => exact (expireRounds_only s).pending
  case hatchDeadlineExpiry =>
    split
    · exact (endSession_only ..).pending
    · rfl
  case liftDeadlineExpiry => split <;> rfl
  case emptyListWrapInterval => exact ite_pending (ite_pending rfl (wrap_only s).pending) rfl
  case pollTransmission =>
    exact ite_pending rfl ((beginNextTurn_pending _).trans (ite_pending rfl (chooseTurn_only ..).pending))
  case replyWindowExpiry | replyOverrunTurnEnd =>
    repeat' split
    all_goals first | rfl | exact (failTurn_only ..).pending
  case replyStart | replyLengthLimit | pollTransmissionEnd | testTransmission =>
    repeat' split
    all_goals rfl
  case replyEnd =>
    repeat' split
    all_goals first | rfl | exact (replyEnd_only ..).pending
  case closingTransmissionEnd =>
    repeat' split
    all_goals first | rfl | exact (endTurn_only ..).pending
  case testTransmissionJudged =>
    split
    · exact ite_pending rfl rfl
    · rfl

/-- Settles O2. -/
theorem everyCommandAnswersAndKeepsTheQueue : Obligations.EveryCommandAnswersAndKeepsTheQueue :=
  ⟨exec_answersAndKeeps, fun s idle => by rw [step, idle]⟩

end Sys2Proof.Machine

end

section
/-! PROOFS. The card table's requests: O14 to O18. -/

namespace Sys2Proof.Machine

/-! ### Running the command of a request that can be taken -/

/-- The command of a request that stands at the FIFO head and can be taken is its judgement on the state without it. -/
theorem State.Takes.run {s : State} {f : RequestFrame} {rest : List RequestFrame} (h : s.Takes f rest) {c : Instr} {kind : Byte}
    {ok : Nat → Bool} {judge : RequestFrame → State → State} (runs : exec c s = .next (s.takeRequest kind ok judge))
    (hk : f.kind = kind) (hl : ok f.payload.length = true) {t : State} (judged : judge f (s.took rest) = t) :
    exec c s = .next t := by
  rw [runs, h.judged hk hl, judged]

/-! ### The fields of the card requests (R172) -/

theorem cardStatus?_none {n : Nat} (h : 2 < n) : cardStatus? n = none := by
  match n, h with
  | _ + 3, _ => rfl

theorem cardStatus?_code {code : Byte} {status : CardStatus} (h : (code, status) ∈ statusCodes) :
    cardStatus? code.toNat = some status := by
  simp only [statusCodes, List.mem_cons, Prod.mk.injEq, List.not_mem_nil, or_false] at h
  rcases h with ⟨rfl, rfl⟩ | ⟨rfl, rfl⟩ | ⟨rfl, rfl⟩ <;> rfl

theorem cardStatus?_some {n : Nat} (h : n ≤ 2) : ∃ status, cardStatus? n = some status := by
  match n, h with
  | 0, _ => exact ⟨_, rfl⟩
  | 1, _ => exact ⟨_, rfl⟩
  | 2, _ => exact ⟨_, rfl⟩

theorem validCard_iff (number : Word32) : validCard number = true ↔ number ≠ 0 ∧ number ≠ 0xFFFFFFFF := by
  simp only [validCard, Bool.and_eq_true, decide_eq_true_eq]

theorem validCard_false {number : Word32} (h : number = 0 ∨ number = 0xFFFFFFFF) : validCard number = false := by
  rcases h with rfl | rfl <;> rfl

/-- The fields of a CARD PUT, byte by byte (R172). -/
theorem cardFields?_eq (tag n3 n2 n1 n0 h1 h0 code ent a0 a1 a2 a3 : Byte) :
    cardFields? { tag, payload := [0x01, n3, n2, n1, n0, h1, h0, code, ent, a0, a1, a2, a3] } =
      (cardStatus? code.toNat).bind fun status =>
        if validCard (word32 n3 n2 n1 n0) ∧ ent.toNat < 16 then
          some { number := word32 n3 n2 n1 n0, household := word16 h1 h0, status, entitled := ent.truncate 4,
                 allowance := #v[a0.toNat, a1.toNat, a2.toNat, a3.toNat] }
        else none := by
  have number : BitVec.ofNat 32 (beNat [n3, n2, n1, n0]) = word32 n3 n2 n1 n0 := ofNat_four ..
  have household : BitVec.ofNat 16 (beNat [h1, h0]) = word16 h1 h0 := ofNat_two ..
  have entitled : BitVec.ofNat 4 ent.toNat = ent.truncate 4 := BitVec.ofNat_toNat ..
  rw [← number, ← household, ← entitled]
  unfold cardFields?
  change (match cardStatus? code.toNat with
    | none => none
    | some status => _) = _
  cases cardStatus? code.toNat <;> rfl

/-! ### Looking a card up (R46) -/

theorem card_eq_none {s : State} {number : Word32} (h : ∀ c ∈ s.cards, c.number ≠ number) : s.card number = none :=
  List.find?_eq_none.mpr fun c hc => by simpa using h c hc

/-- In strictly ascending order a number is held once. -/
theorem State.CardsOrdered.unique {s : State} (h : s.CardsOrdered) {c d : Card} (hc : c ∈ s.cards) (hd : d ∈ s.cards)
    (same : c.number = d.number) : c = d := by
  have apart : (s.cards.map Card.number).Nodup := List.pairwise_map.mpr (h.1.imp fun below e => by rw [e] at below; omega)
  exact List.inj_on_of_nodup_map apart hc hd same

theorem State.CardsOrdered.card {s : State} (h : s.CardsOrdered) {c : Card} (hc : c ∈ s.cards) : s.card c.number = some c :=
  find?_only _ _ c hc (by simp) fun d hd same => h.unique hd hc (by simpa using same)

/-- Some record is found for a number that the table holds. -/
theorem card_isSome {s : State} {number : Word32} (h : ∃ c ∈ s.cards, c.number = number) : ∃ c, s.card number = some c := by
  obtain ⟨c, hc, rfl⟩ := h
  exact Option.isSome_iff_exists.mp (List.find?_isSome.mpr ⟨c, hc, by simp⟩)

/-- The record with the smallest greater number is the first greater one (R55). -/
theorem cardAfter_eq {s : State} (h : s.CardsOrdered) {c : Card} {number : Word32} (hc : c ∈ s.cards)
    (greater : number.toNat < c.number.toNat)
    (least : ∀ d ∈ s.cards, number.toNat < d.number.toNat → c.number.toNat ≤ d.number.toNat) :
    s.cardAfter number = some c := by
  obtain ⟨before, after, split⟩ := List.append_of_mem hc
  refine List.find?_eq_some_iff_append.mpr ⟨by simpa using greater, before, after, split, fun d hd => ?_⟩
  have below : d.number.toNat < c.number.toNat := by
    have pairs := h.1
    rw [split] at pairs
    exact (List.pairwise_append.mp pairs).2.2 d hd c (List.mem_cons_self ..)
  have notGreater : ¬ number.toNat < d.number.toNat := fun k => by
    have := least d (split ▸ List.mem_append_left _ hd) k
    omega
  simpa using notGreater

/-! ### CARD PUT (R51, R52) -/

/-- A replace, field by field (R52). -/
theorem replace_eq (x : CardFields) (d : Card) :
    x.replace d = { d with
      household := x.household, status := x.status, entitled := x.entitled, allowance := x.allowance
      used := Vector.ofFn fun n : FractionIx => if x.allowance[n] = 255 then d.used[n] else min d.used[n] x.allowance[n] } := by
  have used : Vector.zipWith clampUsed d.used x.allowance = Vector.ofFn fun n : FractionIx =>
      if x.allowance[n] = 255 then d.used[n] else min d.used[n] x.allowance[n] := by
    ext i hi
    simp only [Vector.getElem_zipWith, Vector.getElem_ofFn, clampUsed, Fin.getElem_fin]
  rw [CardFields.replace, used]

/-- Settles O14. -/
theorem cardPutIsTaken : Obligations.CardPutIsTaken := by
  intro s rest tag n3 n2 n1 n0 h1 h0 code ent a0 a1 a2 a3 status number f allowance h valid1 valid2 coded fraction
  have fields : cardFields? f = some {
      number, household := word16 h1 h0, status, entitled := ent.truncate 4, allowance } := by
    rw [cardFields?_eq, cardStatus?_code coded]
    exact if_pos ⟨(validCard_iff _).mpr ⟨valid1, valid2⟩, fraction⟩
  constructor
  · intro absent room
    refine ⟨insertCard _ s.cards, h.run rfl rfl rfl ?_, insertCard_perm _ _, fun ordered => insertCard_sorted _ _ ordered.1 absent⟩
    have missing : (s.took rest).card number = none := card_eq_none absent
    rw [State.cardPut, fields]
    dsimp only
    rw [missing]
    dsimp only
    refine (if_neg (Nat.not_le.mpr room)).trans ?_
    rw [(insertCard_perm _ _).length_eq]
    rfl
  · intro c hc ordered held unlinked
    refine h.run rfl rfl rfl ?_
    have found : (s.took rest).card number = some c := held ▸ ordered.card hc
    rw [State.cardPut, fields]
    dsimp only
    rw [found]
    simp only [unlinked, Option.isSome_none, Bool.false_eq_true, if_false, State.modCard, replace_eq]
    rfl

/-- Settles O15. -/
theorem cardPutIsRefused : Obligations.CardPutIsRefused := by
  intro s rest tag n3 n2 n1 n0 h1 h0 code ent a0 a1 a2 a3 number f h
  constructor
  · intro outside
    have fields : cardFields? f = none := by
      rw [cardFields?_eq]
      cases status : cardStatus? code.toNat with
      | none => rfl
      | some x =>
        refine if_neg fun ⟨valid, fraction⟩ => ?_
        rcases outside with zero | ones | beyond | above
        · exact ((validCard_iff _).mp valid).1 zero
        · exact ((validCard_iff _).mp valid).2 ones
        · exact absurd (status.symm.trans (cardStatus?_none beyond)) nofun
        · omega
    refine h.run rfl rfl rfl ?_
    rw [State.cardPut, fields]
    rfl
  · intro valid1 valid2 coded fraction
    obtain ⟨status, hs⟩ := cardStatus?_some coded
    have fields : cardFields? f = some {
        number, household := word16 h1 h0, status, entitled := ent.truncate 4
        allowance := #v[a0.toNat, a1.toNat, a2.toNat, a3.toNat] } := by
      rw [cardFields?_eq, hs]
      exact if_pos ⟨(validCard_iff _).mpr ⟨valid1, valid2⟩, by omega⟩
    constructor
    · intro absent full
      have missing : (s.took rest).card number = none := card_eq_none absent
      refine h.run rfl rfl rfl ?_
      rw [State.cardPut, fields]
      dsimp only
      rw [missing]
      exact if_pos full
    · intro c hc ordered held linked
      have found : (s.took rest).card number = some c := held ▸ ordered.card hc
      refine h.run rfl rfl rfl ?_
      rw [State.cardPut, fields]
      dsimp only
      rw [found]
      exact if_pos (Option.isSome_iff_ne_none.mpr linked)

/-! ### CARD DROP, CARD STATUS, PERIOD ROLL (R53, R54, R59) -/

theorem card_word (tag kind n3 n2 n1 n0 : Byte) (more : List Byte) :
    ({ tag, payload := kind :: n3 :: n2 :: n1 :: n0 :: more } : RequestFrame).card 1 = word32 n3 n2 n1 n0 := ofNat_four ..

/-- In strictly ascending order dropping a held number takes exactly one record away. -/
theorem length_dropped {s : State} (ordered : s.CardsOrdered) {c : Card} (hc : c ∈ s.cards) :
    (s.cards.filter fun d => d.number ≠ c.number).length = s.cards.length - 1 := by
  have apart : s.cards.Nodup := ordered.1.imp fun below e => by rw [e] at below; omega
  have only : s.cards.filter (fun d => d.number ≠ c.number) = s.cards.erase c := by
    rw [apart.erase_eq_filter]
    refine List.filter_congr fun d hd => ?_
    by_cases e : d = c
    · simp [e]
    · have other : d.number ≠ c.number := fun same => e (ordered.unique hd hc same)
      simp [e, other]
  rw [only, List.length_erase_of_mem hc]

/-- Settles O16. -/
theorem cardDrop : Obligations.CardDrop := by
  intro s rest tag n3 n2 n1 n0 number f h
  have named : f.card 1 = number := card_word ..
  constructor
  · intro invalid
    refine h.run rfl rfl rfl ?_
    rw [State.cardDrop, named]
    exact if_pos (validCard_false invalid)
  · intro valid1 valid2
    have valid : ¬ validCard number = false := by simp [(validCard_iff number).mpr ⟨valid1, valid2⟩]
    constructor
    · intro absent
      have missing : (s.took rest).card number = none := card_eq_none absent
      refine h.run rfl rfl rfl ?_
      rw [State.cardDrop, named]
      dsimp only
      rw [if_neg valid, missing]
      rfl
    · intro c hc ordered held
      have found : (s.took rest).card number = some c := held ▸ ordered.card hc
      constructor
      · intro linked
        refine h.run rfl rfl rfl ?_
        rw [State.cardDrop, named]
        dsimp only
        rw [if_neg valid, found]
        exact if_pos (Option.isSome_iff_ne_none.mpr linked)
      · intro unlinked
        refine h.run rfl rfl rfl ?_
        rw [State.cardDrop, named]
        dsimp only
        rw [if_neg valid, found, ← length_dropped ordered hc, held]
        simp only [unlinked, Option.isSome_none, Bool.false_eq_true, if_false]
        rfl

/-- Settles O17. -/
theorem cardStatusAndPeriodRoll : Obligations.CardStatusAndPeriodRoll := by
  constructor
  · intro s rest tag n3 n2 n1 n0 code number f h
    have named : f.card 1 = number := card_word ..
    constructor
    · intro outside
      refine h.run rfl rfl rfl ?_
      rw [State.cardStatus, named]
      change (match cardStatus? code.toNat with
        | none => _
        | some status => _) = _
      cases status : cardStatus? code.toNat with
      | none => rfl
      | some x =>
        refine if_pos ?_
        rcases outside with zero | ones | beyond
        · exact validCard_false (.inl zero)
        · exact validCard_false (.inr ones)
        · exact absurd (status.symm.trans (cardStatus?_none beyond)) nofun
    · intro status valid1 valid2 coded
      have valid : ¬ validCard number = false := by simp [(validCard_iff number).mpr ⟨valid1, valid2⟩]
      have code : cardStatus? (f.u8 5) = some status := cardStatus?_code coded
      constructor
      · intro absent
        have missing : (s.took rest).card number = none := card_eq_none absent
        refine h.run rfl rfl rfl ?_
        rw [State.cardStatus, named, code]
        dsimp only
        rw [if_neg valid, missing]
        rfl
      · intro held
        obtain ⟨c, found⟩ : ∃ c, (s.took rest).card number = some c := card_isSome held
        refine h.run rfl rfl rfl ?_
        rw [State.cardStatus, named, code]
        dsimp only
        rw [if_neg valid, found]
        rfl
  · intro s rest tag p1 p0 f h
    have period : BitVec.ofNat 16 (f.u16 1) = word16 p1 p0 := ofNat_two ..
    refine h.run rfl rfl rfl ?_
    rw [State.periodRoll, period]
    rfl

/-! ### CARD GET (R55) -/

/-- What CARD GET answers for a record that it has found, or for none. -/
def State.cardAnswer (f : RequestFrame) (s : State) : Option Card → State
  | some c => s.respond f .done (s.cardReport c)
  | none => s.respond f .absent []

theorem cardGet_exact {f : RequestFrame} (s : State) (form : f.u8 1 = 0) (valid : validCard (f.card 2) = true) :
    s.cardGet f = s.cardAnswer f (s.card (f.card 2)) := by
  unfold State.cardGet
  dsimp only
  rw [if_pos form, if_neg (by simp [valid])]
  cases s.card (f.card 2) <;> rfl

theorem cardGet_next {f : RequestFrame} (s : State) (form : f.u8 1 = 1) (below : f.card 2 ≠ 0xFFFFFFFF) :
    s.cardGet f = s.cardAnswer f (s.cardAfter (f.card 2)) := by
  unfold State.cardGet
  dsimp only
  rw [if_neg (by simp [form]), if_pos form, if_neg below]
  cases s.cardAfter (f.card 2) <;> rfl

theorem cardGet_refused {f : RequestFrame} (s : State)
    (h : 1 < f.u8 1 ∨ (f.u8 1 = 0 ∧ f.card 2 = 0) ∨ f.card 2 = 0xFFFFFFFF) : s.cardGet f = s.respond f .range [] := by
  unfold State.cardGet
  dsimp only
  split
  · next exactForm =>
    refine if_pos (validCard_false ?_)
    rcases h with h | h | h
    · omega
    · exact .inl h.2
    · exact .inr h
  · next notExact =>
    split
    · next nextForm =>
      refine if_pos ?_
      rcases h with h | h | h
      · omega
      · exact absurd h.1 notExact
      · exact h
    · rfl

/-- Settles O18. -/
theorem cardGet : Obligations.CardGet := by
  intro s rest tag form n3 n2 n1 n0 number f h ordered
  have named : f.card 2 = number := ofNat_four ..
  have formed : f.u8 1 = form.toNat := rfl
  refine ⟨fun outside => h.run rfl rfl rfl (cardGet_refused _ ?_), ?_, ?_⟩
  · rw [named, formed]
    rcases outside with beyond | ⟨rfl, zero⟩ | ones
    · exact .inl beyond
    · exact .inr (.inl ⟨rfl, zero⟩)
    · exact .inr (.inr ones)
  · rintro rfl valid1 valid2
    have valid : validCard (f.card 2) = true := named ▸ (validCard_iff number).mpr ⟨valid1, valid2⟩
    refine ⟨fun absent => ?_, fun c hc held => ?_⟩
    · have missing : (s.took rest).card number = none := card_eq_none absent
      exact h.run rfl rfl rfl (by rw [cardGet_exact _ rfl valid, named, missing]; rfl)
    · have found : (s.took rest).card number = some c := held ▸ ordered.card hc
      exact h.run rfl rfl rfl (by rw [cardGet_exact _ rfl valid, named, found]; rfl)
  · rintro rfl below
    rw [← named] at below
    refine ⟨fun last => ?_, fun c hc greater least => ?_⟩
    · have missing : (s.took rest).cardAfter number = none :=
        List.find?_eq_none.mpr fun c hc => by simpa using last c hc
      exact h.run rfl rfl rfl (by rw [cardGet_next _ rfl below, named, missing]; rfl)
    · have found : (s.took rest).cardAfter number = some c := cardAfter_eq (s := s) ordered hc greater least
      exact h.run rfl rfl rfl (by rw [cardGet_next _ rfl below, named, found]; rfl)

end Sys2Proof.Machine

end

section
/-! PROOFS. The station table's requests: O19 to O23. -/

namespace Sys2Proof.Machine

/-! ### The fields of STATION PUT (R29, R172) -/

theorem exitMode?_none {n : Nat} (h : 2 < n) : exitMode? n = none := by
  match n, h with
  | _ + 3, _ => rfl

theorem exitMode?_code {code : Byte} {mode : ExitMode} (h : (code, mode) ∈ exitModeCodes) :
    exitMode? code.toNat = some mode := by
  simp only [exitModeCodes, List.mem_cons, Prod.mk.injEq, List.not_mem_nil, or_false] at h
  rcases h with ⟨rfl, rfl⟩ | ⟨rfl, rfl⟩ | ⟨rfl, rfl⟩ <;> rfl

/-- The fields of a STATION PUT, byte by byte (R172). -/
theorem stationFields?_eq (tag b flags count code rank : Byte) :
    stationFields? { tag, payload := [0x10, b, flags, count, code, rank] } =
      (stationIx? b.toNat).bind fun a => (exitMode? code.toNat).bind fun exitMode =>
        if 1 ≤ count.toNat ∧ count.toNat ≤ 4 then
          some (a, { configured := flags.getLsbD 0, enabled := flags.getLsbD 1, relay := flags.getLsbD 2
                     inletCount := count.toNat, exitMode, rank := rank.toNat })
        else none := by
  unfold stationFields?
  change (match stationIx? b.toNat, exitMode? code.toNat with
    | some a, some exitMode => _
    | _, _ => none) = _
  cases stationIx? b.toNat <;> cases exitMode? code.toNat <;> rfl

theorem stationFields?_none {tag b flags count code rank : Byte}
    (h : b.toNat = 0 ∨ 48 < b.toNat ∨ count.toNat = 0 ∨ 4 < count.toNat ∨ 2 < code.toNat) :
    stationFields? { tag, payload := [0x10, b, flags, count, code, rank] } = none := by
  rw [stationFields?_eq, Option.bind_eq_none_iff]
  intro a ha
  rw [Option.bind_eq_none_iff]
  intro mode hm
  refine if_neg fun inside => ?_
  rcases h with h | h | h | h | h
  · exact absurd (ha.symm.trans (stationIx?_none (.inl h))) nofun
  · exact absurd (ha.symm.trans (stationIx?_none (.inr h))) nofun
  · omega
  · omega
  · exact absurd (hm.symm.trans (exitMode?_none h)) nofun

theorem stationFields?_some {tag b flags count code rank : Byte} {a : StationIx} {mode : ExitMode} (hb : b.toNat = addr a)
    (least : 1 ≤ count.toNat) (most : count.toNat ≤ 4) (coded : (code, mode) ∈ exitModeCodes) :
    stationFields? { tag, payload := [0x10, b, flags, count, code, rank] } =
      some (a, { configured := flags.getLsbD 0, enabled := flags.getLsbD 1, relay := flags.getLsbD 2
                 inletCount := count.toNat, exitMode := mode, rank := rank.toNat }) := by
  rw [stationFields?_eq, stationIx?_addr hb, exitMode?_code coded]
  exact if_pos ⟨least, most⟩

/-! ### STATION PUT (R29, R31) -/

theorem boundAbove_iff (a : StationIx) (n : Nat) (s : State) :
    s.boundAbove a n = true ↔ ∃ i c, s.container i = some c ∧ c.binding.station = a ∧ n < inletNo c.binding.inlet := by
  unfold State.boundAbove
  rw [List.any_eq_true]
  constructor
  · rintro ⟨i, _, hi⟩
    split at hi
    · next c hc => exact ⟨i, c, hc, by simpa using hi⟩
    · cases hi
  · rintro ⟨i, c, hc, hi⟩
    refine ⟨i, List.mem_finRange i, ?_⟩
    rw [hc]
    simpa using hi

/-- The lowest inlet whose binding a write leaves without a place is the one above the write's inlet count, or inlet 1 when
the write makes the station not configured (R29). -/
theorem boundAbove_write {a : StationIx} {s : State} {configured : Bool} {count : Nat} :
    s.boundAbove a (if configured then count else 0) = true ↔
      ∃ i c, s.container i = some c ∧ c.binding.station = a ∧ (configured = false ∨ count < inletNo c.binding.inlet) := by
  rw [boundAbove_iff]
  refine exists₂_congr fun i c => and_congr_right fun _ => and_congr_right fun _ => ?_
  cases configured <;> simp [inletNo]

theorem writesAtOnce_iff (s : State) : s.writesAtOnce = true ↔ s.line.state = .stopped ∧ s.line.turn = none := by
  simp only [State.writesAtOnce, Bool.and_eq_true, decide_eq_true_eq, Option.isNone_iff_eq_none]

/-- A STATION PUT that is not refused is applied at once or staged (R29). -/
theorem stationPut_taken {f : RequestFrame} {a : StationIx} {c : StationConfig} {s : State}
    (fields : stationFields? f = some (a, c))
    (free : ∀ i d, s.container i = some d → d.binding.station = a →
      c.configured = true ∧ inletNo d.binding.inlet ≤ c.inletCount) :
    s.stationPut f =
      if s.writesAtOnce then (s.applyStation a c).respond f .done []
      else (s.modStation a fun x => { x with staged := some c }).respond f .staged [] := by
  have passes : ¬ s.boundAbove a (if c.configured then c.inletCount else 0) = true := by
    rw [boundAbove_write]
    rintro ⟨i, d, hd, station, taken⟩
    obtain ⟨configured, within⟩ := free i d hd station
    rcases taken with h | h
    · exact Bool.false_ne_true (h.symm.trans configured)
    · omega
  rw [State.stationPut, fields]
  exact if_neg passes

/-- Settles O19. -/
theorem stationPutIsRefusedOrStaged : Obligations.StationPutIsRefusedOrStaged := by
  intro s rest tag b flags count code rank f h
  refine ⟨fun outside => h.run rfl rfl rfl ?_, fun a mode hb least most coded => ?_⟩
  · rw [State.stationPut, stationFields?_none outside]
    rfl
  · have fields := stationFields?_some (tag := tag) (flags := flags) (rank := rank) hb least most coded
    refine ⟨fun bound => h.run rfl rfl rfl ?_, fun free busy => h.run rfl rfl rfl ?_⟩
    · rw [State.stationPut, fields]
      exact if_pos (boundAbove_write.mpr bound)
    · rw [stationPut_taken (s := s.took rest) fields free]
      refine if_neg fun atOnce => ?_
      obtain ⟨stopped, free⟩ := (writesAtOnce_iff _).mp atOnce
      exact busy.elim (· stopped) (· free)

/-- Without a session at the station an abort changes nothing (R35). -/
theorem stationAborted_idle (a : StationIx) {s : State} (h : s.sessions = []) : s.stationAborted a = s := by
  rw [← abortStation_eq, abortStation_idle a s h]

/-- A write that makes the station not configured (R28, R31). -/
theorem writeApplied_unconfigured (a : StationIx) {c : StationConfig} (s : State) (h : c.configured = false) :
    s.writeApplied a c =
      let old := s.stations[a]
      let drops := old.config.configured && decide (s.links[a].status ≠ .disabled)
      { s with
        stations := s.stations.set a { Station.reset with
          lockFlag := old.lockFlag || (old.config.configured && old.locked)
          lineFlag := old.lineFlag || (drops && decide (s.links[a].status ≠ .unknown)) }
        links := if drops then s.links.set a { status := .unknown, noReply := 0, mismatch := 0, mask := s.links[a].mask }
          else s.links
        deferred := s.messageAnswered a .failed } := by
  simp only [State.writeApplied, h, if_true, Bool.false_eq_true, if_false, Bool.and_false, Bool.false_and, Bool.or_false,
    Bool.and_comm (decide (s.links[a].status ≠ .disabled))]

/-- A write that leaves or makes the station enabled (R23, R31). -/
theorem writeApplied_enabled (a : StationIx) {c : StationConfig} (s : State) (h : c.configured = true)
    (he : c.enabled = true) :
    s.writeApplied a c = { s with
      stations := s.stations.set a { ({ s.stations[a] with config := c, staged := none } : Station).autoReleased with
        lineFlag := s.stations[a].lineFlag || decide (s.links[a].status = .disabled) }
      links := if s.links[a].status = .disabled then
          s.links.set a { status := .unknown, noReply := 0, mismatch := 0, mask := s.links[a].mask }
        else s.links } := by
  simp only [State.writeApplied, h, he, if_true, Bool.not_true, Bool.and_false, Bool.false_and, Bool.or_false, Bool.false_or,
    Bool.and_true, Bool.false_eq_true, Bool.true_eq_false, if_false, decide_eq_true_eq]

theorem autoReleased_keepsMessage (x : Station) : x.autoReleased.message = x.message := by
  unfold Station.autoReleased
  split <;> rfl

/-- The message that a write fails goes with the record the write has just made (R31). -/
theorem messageFailed_set (a : StationIx) {y : Station} (links : Vector Link 48) {s : State}
    (h : y.message = s.stations[a].message) :
    let t : State := { s with links, stations := s.stations.set a y }
    { t with
      stations := t.stations.set a { t.stations[a] with message := none }, deferred := t.messageAnswered a .failed } =
    { s with
      links, stations := s.stations.set a { y with message := none }, deferred := s.messageAnswered a .failed } := by
  have own : (s.stations.set a y)[a] = y := Vector.getElem_set_self _
  dsimp only [State.messageAnswered]
  rw [own, Vector.set_set, h]

/-- A write that makes the station disabled while no session is open (R23, R31). -/
theorem writeApplied_disabled (a : StationIx) {c : StationConfig} {s : State} (h : c.configured = true)
    (he : c.enabled = false) (hold : s.stations[a].config.enabled = true → s.stations[a].config.configured = true)
    (hs : s.sessions = []) :
    s.writeApplied a c =
      let old := s.stations[a]
      let drops := old.config.enabled && decide (s.links[a].status ≠ .disabled)
      { s with
        stations := s.stations.set a { ({ old with config := c, staged := none } : Station).autoReleased with
          message := if old.config.enabled then none else old.message
          lineFlag := old.lineFlag || (drops && decide (s.links[a].status ≠ .unknown)) }
        links := if drops then s.links.set a { status := .unknown, noReply := 0, mismatch := 0, mask := s.links[a].mask }
          else s.links
        deferred := if old.config.enabled then s.messageAnswered a .failed else s.deferred } := by
  cases enabled : s.stations[a].config.enabled with
  | false =>
    simp only [State.writeApplied, h, he, enabled, if_true, Bool.not_false, Bool.and_false, Bool.false_and, Bool.or_false,
      Bool.false_eq_true, Bool.true_eq_false, if_false, autoReleased_keepsMessage]
  | true =>
    simp only [State.writeApplied, h, he, enabled, hold enabled, if_true, Bool.not_false, Bool.and_true, Bool.true_and,
      Bool.and_false, Bool.or_false, Bool.true_eq_false, if_false]
    simp (disch := exact hs) only [stationAborted_idle]
    exact messageFailed_set a _ (by exact autoReleased_keepsMessage _)

/-- Settles O20. -/
theorem stationPutIsAppliedAtOnce : Obligations.StationPutIsAppliedAtOnce := by
  intro s rest tag b flags count code rank a mode f c old link unknown h hb least most coded free stopped idle none
  have fields := stationFields?_some (tag := tag) (flags := flags) (rank := rank) hb least most coded
  have runs {u : State} (applied : (s.took rest).writeApplied a c = u) : exec .stationPut s = .next (u.respond f .done []) := by
    refine h.run rfl rfl rfl ?_
    refine (stationPut_taken (s := s.took rest) fields free).trans ((if_pos ?_).trans ?_)
    · exact (writesAtOnce_iff _).mpr ⟨stopped, idle⟩
    · rw [applyStation_eq, applied]
  exact ⟨fun hc => runs (writeApplied_unconfigured a _ hc), fun hc he => runs (writeApplied_enabled a _ hc he),
    fun hc he hold => runs (writeApplied_disabled a hc he hold none)⟩

/-! ### LOCK (R35, R39) -/

/-- COMMAND joins the reasons of a lock that stands; LOCK is raised where it was not among them (R39). -/
theorem joinsCommand {x : Station} (h : x.locked = true) :
    ({ x with
      reasons := x.reasons.union .ofCommand
      lockFlag := x.lockFlag || (x.locked && decide (x.reasons.union .ofCommand ≠ x.reasons)) } : Station) =
    { x with reasons := { x.reasons with command := true }, lockFlag := x.lockFlag || !x.reasons.command } := by
  cases hr : x.reasons with
  | mk fault line command => cases command <;> simp [h, LockReasons.union, LockReasons.ofCommand]

/-- The endings at a station read no request that waits. -/
theorem stationAborted_took (a : StationIx) (rest : List RequestFrame) (s : State) :
    (s.took rest).stationAborted a = (s.stationAborted a).took rest := by
  have ended (i : ContainerIx) := sessionOver_frame i s (s.took rest) rfl rfl rfl rfl
  have after (i : ContainerIx) {p : Prop} [Decidable p] :
      (if p then (s.took rest).sessionOver i else s.took rest).containers = (if p then s.sessionOver i else s).containers ∧
      (if p then (s.took rest).sessionOver i else s.took rest).requests = (if p then s.sessionOver i else s).requests := by
    split
    · exact ended i
    · exact ⟨rfl, rfl⟩
  unfold State.stationAborted State.sessionsAborted
  apply State.ext
  case containers => exact congrArg Vector.ofFn (funext fun i => congrArg (fun v => v[i]) (after i).1)
  case requests => exact congrArg Vector.ofFn (funext fun i => congrArg (fun v => v[i]) (after i).2)
  all_goals rfl

theorem mem_sessionsAt {a : StationIx} {s : State} {x : Session} : x ∈ s.sessionsAt a ↔ x ∈ s.sessions ∧ x.station = a := by
  rw [← sessionsOf_eq, (sessionsOf_perm a s).mem_iff, List.mem_filter, decide_eq_true_eq]

/-- The deposit records of the sessions ended at a station (R76). -/
theorem stationAborted_deposits (a : StationIx) (s : State) :
    (s.stationAborted a).deposits.map QueuedDeposit.record =
      s.deposits.map QueuedDeposit.record ++ (s.sessionsAt a).map (Session.record s .aborted) := by
  change (s.deposits ++ ((s.sessionsAt a).zipIdx s.arrivals).map _).map _ = _
  rw [List.map_append, List.map_map]
  refine congrArg (s.deposits.map QueuedDeposit.record ++ ·) ?_
  exact (List.map_map (f := Prod.fst) (g := Session.record s .aborted)).symm.trans (by rw [List.zipIdx_map_fst])

theorem stationAborted_cards (a : StationIx) (s : State) :
    (s.stationAborted a).cards.map (fun c => { c with link := none }) = s.cards.map fun c => { c with link := none } := by
  change (s.cards.map _).map _ = _
  rw [List.map_map]
  refine List.map_congr_left fun c _ => ?_
  dsimp only [Function.comp]
  split <;> rfl

/-- The sessions that stay are those of the other stations (R76). -/
theorem mem_stationAborted_sessions {a : StationIx} {s : State} {x : Session} :
    x ∈ (s.stationAborted a).sessions ↔ x ∈ s.sessions ∧ x.station ≠ a := by
  change x ∈ s.sessions.filter _ ↔ _
  rw [List.mem_filter, decide_eq_true_eq]

/-- The inlets whose sessions ended are fresh in the CLOSE-NOW set (R36). -/
theorem closing_sessionsAt (a : StationIx) (s : State) (x : Station) :
    x.closing (s.sessionsAt a) = { x with closeNow := Vector.ofFn fun n : InletIx =>
      if ∃ y ∈ s.sessions, y.station = a ∧ y.inlet = n then .fresh else x.closeNow[n] } := by
  unfold Station.closing
  simp only [mem_sessionsAt, and_assoc]

/-- Settles O21: a lockout entry is the record's entry followed by the endings at the station. -/
theorem lockMakesALockoutEntry : Obligations.LockMakesALockoutEntry := by
  intro s rest tag b f h
  refine ⟨fun outside => h.run rfl rfl rfl ?_, fun a hb => ⟨fun bare => h.run rfl rfl rfl ?_, fun configured locked =>
    h.run rfl rfl rfl ?_, fun configured free => ?_⟩⟩
  · rw [State.lockStation, show f.u8 1 = b.toNat from rfl, stationIx?_none outside]
    rfl
  · rw [State.lockStation, show f.u8 1 = b.toNat from rfl, stationIx?_addr hb]
    exact if_pos bare
  · rw [State.lockStation, show f.u8 1 = b.toNat from rfl, stationIx?_addr hb]
    refine (if_neg (by simpa using configured)).trans ((if_pos locked).trans ?_)
    rw [addReason_eq]
    exact congrArg (State.respond f .done []) (modStation_congr (s := s.took rest) (g := fun x => { x with
      reasons := { x.reasons with command := true }, lockFlag := x.lockFlag || !x.reasons.command }) (joinsCommand locked))
  · let u : State := s.modStation a fun x => { x with locked := true, reasons := .ofCommand, lockFlag := true }
    have own : u.stations[a] = _ := modStation_at ..
    refine ⟨_, s.sessionsAt a, h.run rfl rfl rfl ?_, rfl, rfl, rfl, ?_, fun c hc => ?_, rfl, ?_, ?_,
      fun x => mem_stationAborted_sessions, stationAborted_deposits a u, stationAborted_cards a u⟩
    · rw [State.lockStation, show f.u8 1 = b.toNat from rfl, stationIx?_addr hb]
      refine (if_neg (by simpa using configured)).trans ((if_neg (by simpa using free)).trans ?_)
      rw [lockoutEntry_eq]
      exact congrArg (State.respond f .done []) (stationAborted_took a rest u)
    · exact (set_at u.stations a _).trans ((congrArg (Station.closing (u.sessionsAt a)) own).trans (closing_sessionsAt a u _))
    · exact (set_ne u.stations hc.symm _).trans (set_ne s.stations hc.symm _)
    · rw [← sessionsOf_eq]
      exact sessionsOf_perm a s
    · rw [← sessionsOf_eq]
      exact sessionsOf_inlets a s
    
/-- Settles O22. -/
theorem unlock : Obligations.Unlock := by
  intro s rest tag b f h
  refine ⟨fun outside => h.run rfl rfl rfl ?_, fun a hb => ⟨fun bare => h.run rfl rfl rfl ?_, fun configured =>
    ⟨fun free => h.run rfl rfl rfl ?_, fun locked stays => h.run rfl rfl rfl ?_, fun locked sound released =>
      h.run rfl rfl rfl ?_⟩⟩⟩
  all_goals rw [State.unlockStation, show f.u8 1 = b.toNat from rfl]
  · rw [stationIx?_none outside]
    rfl
  all_goals rw [stationIx?_addr hb]
  · exact if_pos bare
  all_goals refine (if_neg (by simpa using configured)).trans ?_
  · exact if_pos free
  all_goals refine (if_neg (by simpa using locked)).trans ?_
  · exact if_pos (by simpa using stays)
  · refine (if_neg (by simpa using ⟨sound, released⟩)).trans ?_
    exact congrArg (State.respond f .done []) (modStation_twice ..)

/-- Settles O23. -/
theorem stationMessage : Obligations.StationMessage := by
  intro s rest tag b message f h least most
  have sized : (fun n => decide (3 ≤ n ∧ n ≤ 26)) f.payload.length = true := by
    simp [f]; omega
  refine ⟨fun outside => h.run rfl rfl sized ?_, fun a hb => ⟨fun unfit => h.run rfl rfl sized ?_, fun configured enabled link =>
    ⟨fun busy => h.run rfl rfl sized ?_, fun free room => h.run rfl rfl sized ?_⟩⟩⟩
  all_goals rw [State.stationMessage, show f.u8 1 = b.toNat from rfl]
  · rw [stationIx?_none outside]
    rfl
  all_goals rw [stationIx?_addr hb]
  · exact if_pos unfit
  all_goals refine (if_neg (by simpa using ⟨configured, enabled, link⟩)).trans ?_
  · exact if_pos (busy.imp_left Option.isSome_iff_ne_none.mpr)
  · exact if_neg (by simpa using ⟨free, room⟩)

end Sys2Proof.Machine

end

section
/-! PROOFS. The container table's requests: O27 to O31. -/

namespace Sys2Proof.Machine

/-! ### The fields of CONTAINER PUT (R88, R172) -/

/-- The ranges of R85 in one place. -/
theorem Params.inRange_iff (p : Params) : p.inRange = true ↔
    (300 ≤ p.h ∧ p.h ≤ 4000) ∧ (200 ≤ p.d ∧ p.d + 100 ≤ p.h) ∧ (100 ≤ p.capacity ∧ p.capacity ≤ 20000) ∧ p.v ≤ 100 ∧
    (1 ≤ p.k ∧ p.k ≤ 16) ∧ (100 ≤ p.tCall ∧ p.tCall ≤ 1000) ∧ (p.tCall ≤ p.tStop ∧ p.tStop ≤ 1000) := by
  simp only [Params.inRange, Bool.and_eq_true, decide_eq_true_eq, and_assoc]

theorem byte_toNat_of_lt {n : Nat} (h : n < 256) : (byte n).toNat = n := by
  rw [byte_toNat, Nat.mod_eq_of_lt h]

/-- A block of parameters in range is read back from its bytes (R172). -/
theorem blockParams_bytes (tag x y z u v : Byte) {p : Params} (h : p.inRange = true) :
    blockParams { tag, payload := x :: y :: z :: u :: v :: p.bytes } = p := by
  obtain ⟨hh, hd, hc, hv, hk, ht, hs⟩ := (Params.inRange_iff p).mp h
  have e1 : beNat (be2 p.h) = p.h := beNat_be2 (by omega)
  have e2 : beNat (be2 p.d) = p.d := beNat_be2 (by omega)
  have e3 : beNat (be2 p.capacity) = p.capacity := beNat_be2 (by omega)
  have e4 : (byte p.v).toNat = p.v := byte_toNat_of_lt (by omega)
  have e5 : (byte p.k).toNat = p.k := byte_toNat_of_lt (by omega)
  have e6 : beNat (be2 p.tCall) = p.tCall := beNat_be2 (by omega)
  have e7 : beNat (be2 p.tStop) = p.tStop := beNat_be2 (by omega)
  exact (congr (congr (congr (congr (congr (congr (congrArg Params.mk e1) e2) e3) e4) e5) e6) e7 : _ = p)

theorem containerFields?_put (tag : Byte) (i : ContainerIx) (b : Binding) {p : Params} (h : p.inRange = true) :
    containerFields? { tag, payload := 0x20 :: byte i.val :: (b.bytes ++ p.bytes) } = some (i, b, p) := by
  have params := blockParams_bytes tag 0x20 (byte i.val) (byte (addr b.station)) (byte (inletNo b.inlet)) (byte b.fraction.val) h
  have hi : (byte i.val).toNat = i.val := byte_toNat_of_lt (by have : i.val < 128 := i.isLt; omega)
  have ha : (byte (addr b.station)).toNat = addr b.station :=
    byte_toNat_of_lt (by have : b.station.val < 48 := b.station.isLt; unfold addr; omega)
  have hn : (byte (inletNo b.inlet)).toNat = inletNo b.inlet :=
    byte_toNat_of_lt (by have : b.inlet.val < 4 := b.inlet.isLt; unfold inletNo; omega)
  have hf : (byte b.fraction.val).toNat = b.fraction.val :=
    byte_toNat_of_lt (by have : b.fraction.val < 4 := b.fraction.isLt; omega)
  rw [show b.bytes ++ p.bytes = byte (addr b.station) :: byte (inletNo b.inlet) :: byte b.fraction.val :: p.bytes from rfl]
  unfold containerFields?
  rw [show RequestFrame.u8 _ 1 = (byte i.val).toNat from rfl, show RequestFrame.u8 _ 2 = (byte (addr b.station)).toNat from rfl,
    show RequestFrame.u8 _ 3 = (byte (inletNo b.inlet)).toNat from rfl,
    show RequestFrame.u8 _ 4 = (byte b.fraction.val).toNat from rfl,
    containerIx?_val hi, stationIx?_addr ha, inletIx?_inletNo hn, fractionIx?_val hf]
  exact (if_pos ((congrArg Params.inRange params).trans h)).trans (congrArg (fun q => some (i, b, q)) params)

theorem containerFields?_none {f : RequestFrame}
    (h : 127 < f.u8 1 ∨ f.u8 2 = 0 ∨ 48 < f.u8 2 ∨ f.u8 3 = 0 ∨ 4 < f.u8 3 ∨ 3 < f.u8 4 ∨ (blockParams f).inRange = false) :
    containerFields? f = none := by
  unfold containerFields?
  split
  · next i a n m hi ha hn hm =>
    refine if_neg fun inside => ?_
    rcases h with h | h | h | h | h | h | h
    · exact absurd (hi.symm.trans (containerIx?_none h)) nofun
    · exact absurd (ha.symm.trans (stationIx?_none (.inl h))) nofun
    · exact absurd (ha.symm.trans (stationIx?_none (.inr h))) nofun
    · exact absurd (hn.symm.trans (inletIx?_none (.inl h))) nofun
    · exact absurd (hn.symm.trans (inletIx?_none (.inr h))) nofun
    · exact absurd (hm.symm.trans (fractionIx?_none h)) nofun
    · exact Bool.false_ne_true (h.symm.trans inside)
  · rfl

/-! ### The binding checks (R88) -/

theorem boundElsewhere_iff {i : ContainerIx} {b : Binding} {s : State} : s.boundElsewhere i b = true ↔
    ∃ j d, j ≠ i ∧ s.container j = some d ∧ d.binding.station = b.station ∧ d.binding.inlet = b.inlet := by
  constructor
  · intro h
    obtain ⟨j, _, hj⟩ := List.any_eq_true.mp h
    rw [Bool.and_eq_true, decide_eq_true_eq] at hj
    cases hd : s.container j with
    | none => exact absurd (hd ▸ hj.2) nofun
    | some d => exact ⟨j, d, hj.1, hd, by simpa [hd] using hj.2⟩
  · rintro ⟨j, d, hj, hd, station, inlet⟩
    exact List.any_eq_true.mpr ⟨j, List.mem_finRange j, by simp [hj, hd, station, inlet]⟩

/-- The binding checks pass: the station is configured, the inlet is within its limit, and no other record is bound there. -/
theorem bindingRefusal_passes {i : ContainerIx} {b : Binding} {s : State} (configured : s.stations[b.station].config.configured = true)
    (within : inletNo b.inlet ≤ s.stations[b.station].inletLimit)
    (free : ∀ j d, s.container j = some d → j = i ∨ d.binding.station ≠ b.station ∨ d.binding.inlet ≠ b.inlet) :
    s.bindingRefusal i b = none := by
  have alone : ¬ s.boundElsewhere i b = true := fun h => by
    obtain ⟨j, d, hj, hd, station, inlet⟩ := boundElsewhere_iff.mp h
    rcases free j d hd with h | h | h
    · exact hj h
    · exact h station
    · exact h inlet
  unfold State.bindingRefusal
  rw [if_neg (fun bare => Bool.false_ne_true (bare.symm.trans configured)), if_neg (Nat.not_lt.mpr within), if_neg alone]

/-! ### CONTAINER PUT (R88 to R90) -/

/-- The judgement of a CONTAINER PUT whose fields are in range. -/
theorem containerPut_eq {f : RequestFrame} {i : ContainerIx} {b : Binding} {p : Params}
    (fields : containerFields? f = some (i, b, p)) (s : State) : s.containerPut f =
      match s.container i with
      | none =>
        match s.bindingRefusal i b with
        | some code => s.respond f code []
        | none => (s.configure i b p).respond f .done []
      | some c =>
        if c.binding = b then s.writeContainer f i c b p
        else if c.state ≠ .idle ∨ s.requests[i].isSome then s.respond f .state []
        else
          match s.bindingRefusal i b with
          | some code => s.respond f code []
          | none => s.writeContainer f i c b p := by
  rw [State.containerPut, fields] <;> rfl

/-- A new or another binding that a check refuses (R88). -/
theorem containerPut_refused {f : RequestFrame} {i : ContainerIx} {b : Binding} {p : Params} {s : State} {code : ResultCode}
    (fields : containerFields? f = some (i, b, p))
    (free : ∀ c, s.container i = some c → c.binding ≠ b ∧ c.state = .idle ∧ s.requests[i] = none)
    (refusal : s.bindingRefusal i b = some code) : s.containerPut f = s.respond f code [] := by
  rw [containerPut_eq fields]
  cases hc : s.container i with
  | none => simp only [refusal]
  | some c =>
    obtain ⟨other, idle, none⟩ := free c hc
    simp only [if_neg other, idle, none, refusal, ne_eq, not_true_eq_false, Option.isSome_none, Bool.false_eq_true, or_self,
      if_false]

/-- A CONTAINER PUT on an IDLE container applies the carried values at once (R89, R90). -/
theorem writeContainer_idle {f : RequestFrame} {i : ContainerIx} {c : Container} {b : Binding} {p : Params} {s : State}
    (hc : s.container i = some c) (idle : c.state = .idle) :
    s.writeContainer f i c b p =
      (s.tested i s.containers[i].flags (({ c with binding := b } : Container).withParams p)).respond f .done [] := by
  rw [State.writeContainer, if_pos idle, modContainer_eq i c _ s hc, applyParams_eq i p _ _ (set_container ..), tested_set,
    set_record]

/-- A record configured with parameters in range is not full and raises no request, since its E is 0 (R88, R102). -/
theorem configure_eq (i : ContainerIx) (b : Binding) {p : Params} (s : State) (h : p.inRange = true) :
    s.configure i b p = { s with
      containers := s.containers.set i { s.containers[i] with body := some {
        binding := b, params := p, state := .idle, full := false, liftStart := none, liftDeadline := none,
        lastLift := none, staged := none, fill := .start s.clock.district } } } := by
  obtain ⟨_, _, _, _, _, ⟨called, _⟩, ⟨below, _⟩⟩ := (Params.inRange_iff p).mp h
  have notFull : decide (p.tStop ≤ 0) = false := decide_eq_false (by omega)
  have notCalled : ¬ p.tCall ≤ 0 := by omega
  unfold State.configure
  rw [eReport_eq i _ _ (set_container ..)]
  dsimp only [Container.fullTested, Fill.start]
  rw [notFull, State.modRec, tested_set, set_record, tested_quiet]
  simp [Container.raises, notCalled]

/-- Settles O27. -/
theorem containerPutIsRefused : Obligations.ContainerPutIsRefused := by
  constructor
  · intro s rest tag idx st il fr h1 h0 d1 d0 c1 c0 v k t1 t0 u1 u0 f h d capacity tCall tStop takes outside
    refine takes.run rfl rfl rfl ?_
    have params : blockParams f = { h, d, capacity, v := v.toNat, k := k.toNat, tCall, tStop } :=
      congr (congr (congr (congr (congr (congr (congrArg Params.mk (beNat_two ..)) (beNat_two ..)) (beNat_two ..)) rfl) rfl)
        (beNat_two ..)) (beNat_two ..)
    have fields : containerFields? f = none := by
      refine containerFields?_none ?_
      rw [params, ← Bool.not_eq_true, Params.inRange_iff]
      change 127 < idx.toNat ∨ st.toNat = 0 ∨ 48 < st.toNat ∨ il.toNat = 0 ∨ 4 < il.toNat ∨ 3 < fr.toNat ∨ _
      dsimp only
      omega
    rw [State.containerPut, fields]
    rfl
  · intro s rest tag i b p f t limit takes inside
    have fields : containerFields? f = some (i, b, p) := containerFields?_put tag i b inside
    refine ⟨fun c hc other taken => takes.run rfl rfl rfl ?_, fun free => ⟨fun bare => takes.run rfl rfl rfl ?_,
      fun configured above => takes.run rfl rfl rfl ?_, fun configured within elsewhere => takes.run rfl rfl rfl ?_⟩⟩
    · have found : (s.took rest).container i = some c := hc
      rw [containerPut_eq fields, found]
      refine (if_neg other).trans (if_pos (taken.imp_right Option.isSome_iff_ne_none.mpr))
    all_goals refine containerPut_refused (s := s.took rest) fields free ?_
    · exact if_pos bare
    all_goals refine (if_neg (fun bare => Bool.false_ne_true (bare.symm.trans configured))).trans ?_
    · exact if_pos above
    · exact (if_neg (Nat.not_lt.mpr within)).trans (if_pos (boundElsewhere_iff.mpr elsewhere))

/-- Settles O28. -/
theorem containerPutConfigures : Obligations.ContainerPutConfigures := by
  intro s rest tag i b p f t limit takes inside bare configured within free
  have fields : containerFields? f = some (i, b, p) := containerFields?_put tag i b inside
  have missing : (s.took rest).container i = none := bare
  have passes : (s.took rest).bindingRefusal i b = none :=
    bindingRefusal_passes configured within fun j d hd => .inr (free j d hd)
  refine takes.run rfl rfl rfl ?_
  rw [containerPut_eq fields, missing]
  dsimp only
  rw [passes]
  dsimp only
  rw [configure_eq i b _ inside]
  rfl

/-- Settles O29. -/
theorem containerPutWrites : Obligations.ContainerPutWrites := by
  intro s rest tag i b p c f t limit takes inside hc
  have fields : containerFields? f = some (i, b, p) := containerFields?_put tag i b inside
  have found : (s.took rest).container i = some c := hc
  refine ⟨fun idle same => takes.run rfl rfl rfl ?_, fun busy same => takes.run rfl rfl rfl ?_⟩
  · refine Eq.trans ?_ (writeContainer_idle (f := f) (b := b) (p := p) found idle)
    rw [containerPut_eq fields, found]
    dsimp only
    by_cases own : c.binding = b
    · exact if_pos own
    · obtain ⟨none, configured, within, free⟩ := same.resolve_left own
      have passes : (s.took rest).bindingRefusal i b = Option.none := bindingRefusal_passes configured within free
      have free : ¬ (c.state ≠ .idle ∨ (s.took rest).requests[i].isSome = true) := by
        rw [show (s.took rest).requests[i] = Option.none from none]
        simp [idle]
      rw [if_neg own, if_neg free, passes]
  · rw [containerPut_eq fields, found]
    refine (if_pos same).trans ((if_neg busy).trans ?_)
    rw [modContainer_eq i c _ _ found]
    rfl

/-- Settles O30. -/
theorem containerClear : Obligations.ContainerClear := by
  intro s rest tag b f h
  refine ⟨fun outside => h.run rfl rfl rfl ?_, fun i hb => ⟨fun bare => h.run rfl rfl rfl ?_, fun c hc =>
    ⟨fun busy => h.run rfl rfl rfl ?_, fun idle none => h.run rfl rfl rfl ?_⟩⟩⟩
  all_goals rw [State.containerClear, show f.u8 1 = b.toNat from rfl]
  · rw [containerIx?_none outside]
    rfl
  all_goals rw [containerIx?_val hb]; dsimp only
  · rw [show (s.took rest).container i = none from bare]
    rfl
  all_goals rw [show (s.took rest).container i = some c from hc]
  · exact if_pos (busy.imp_right Option.isSome_iff_ne_none.mpr)
  · refine if_neg ?_
    rw [show (s.took rest).requests[i] = Option.none from none]
    simp [idle]

/-- The judgement of a CLEAR INLET of a container (R95). -/
theorem clearInlet_at {f : RequestFrame} {i : ContainerIx} (hf : containerIx? (f.u8 1) = some i) (s : State) :
    s.clearInlet f = match (s.container i).map Container.state with
      | some (.fault _) => (s.faultToIdle i).respond f .done []
      | _ => s.respond f .state [] := by
  rw [State.clearInlet, hf] <;> rfl

/-- The judgement of a CLEAR SENSOR of a container (R118). -/
theorem clearSensor_at {f : RequestFrame} {i : ContainerIx} (hf : containerIx? (f.u8 1) = some i) (s : State) :
    s.clearSensor f = match (s.container i).map (fun c : Container => c.fill.mode) with
      | some (.degraded _) => ((s.modContainer i fun c =>
          { c with fill := c.fill.clearSensor s.clock.district }).raise (.sensor i)).respond f .done []
      | _ => s.respond f .state [] := by
  rw [State.clearSensor, hf] <;> rfl

theorem clearInlet_clears {f : RequestFrame} {i : ContainerIx} {c : Container} {reason : FaultReason} {s : State}
    (hf : containerIx? (f.u8 1) = some i) (hc : s.container i = some c) (fault : c.state = .fault reason) :
    s.clearInlet f = (s.becomesIdle i { s.containers[i].flags with inletFault := true } { c with
      liftStart := if reason = .lift then none else c.liftStart
      liftDeadline := if reason = .lift then none else c.liftDeadline }).respond f .done [] := by
  refine (clearInlet_at hf s).trans ?_
  rw [hc, Option.map_some, ← faultToIdle_eq i c reason s hc fault, fault]

theorem clearSensor_clears {f : RequestFrame} {i : ContainerIx} {c : Container} {s : State}
    (hf : containerIx? (f.u8 1) = some i) (hc : s.container i = some c) (degraded : c.fill.mode ≠ .normal) :
    s.clearSensor f = State.respond f .done [] { s with
      containers := s.containers.set i {
        flags := { s.containers[i].flags with sensor := true }
        body := some { c with fill := c.fill.clearSensor s.clock.district } } } := by
  rw [clearSensor_at hf, hc, Option.map_some]
  cases mode : c.fill.mode with
  | normal => exact absurd mode degraded
  | degraded cause =>
    dsimp only
    rw [modContainer_eq i c _ s hc, raise_sensor_set]

theorem becomesIdle_took (i : ContainerIx) (flags : ContainerFlags) (c : Container) (rest : List RequestFrame) (s : State) :
    (s.took rest).becomesIdle i flags c = (s.becomesIdle i flags c).took rest := by
  unfold State.becomesIdle
  cases c.staged <;> rfl

/-- Settles O31. -/
theorem clearInletAndSensor : Obligations.ClearInletAndSensor := by
  intro s rest tag b
  constructor
  · intro f h
    refine ⟨fun outside => h.run rfl rfl rfl ?_, fun i hb => ⟨fun sound => h.run rfl rfl rfl ?_,
      fun c reason hc fault => h.run rfl rfl rfl ?_⟩⟩
    · rw [State.clearInlet, show f.u8 1 = b.toNat from rfl, containerIx?_none outside]
      rfl
    · rw [clearInlet_at (containerIx?_val (n := f.u8 1) hb)]
      split
      · next reason fault =>
        obtain ⟨c, hc, state⟩ := Option.map_eq_some_iff.mp fault
        exact absurd state (sound c reason hc)
      · rfl
    · rw [clearInlet_clears (s := s.took rest) (containerIx?_val (n := f.u8 1) hb) hc fault,
        becomesIdle_took]
      rfl
  · intro f h
    refine ⟨fun outside => h.run rfl rfl rfl ?_, fun i hb => ⟨fun sound => h.run rfl rfl rfl ?_,
      fun c hc degraded => h.run rfl rfl rfl ?_⟩⟩
    · rw [State.clearSensor, show f.u8 1 = b.toNat from rfl, containerIx?_none outside]
      rfl
    · rw [clearSensor_at (containerIx?_val (n := f.u8 1) hb)]
      split
      · next cause degraded =>
        obtain ⟨c, hc, mode⟩ := Option.map_eq_some_iff.mp degraded
        exact absurd ((sound c hc).symm.trans mode) nofun
      · rfl
    · rw [clearSensor_clears (s := s.took rest) (containerIx?_val (n := f.u8 1) hb) hc degraded]
      rfl

end Sys2Proof.Machine

end

section
/-! PROOFS. Fill events, requests, district time and the close of rounds: O34 to O40. -/

namespace Sys2Proof.Machine

/-! ### Fill events (R105 to R116, R141) -/

/-- Settles O34. -/
theorem plannedVolume : Obligations.PlannedVolume := by
  intro c
  refine ⟨fun empty => ?_, fun filled sized => ?_⟩
  · rw [Container.plannedVolume, empty, Nat.zero_mul]
    rfl
  · have product : 0 < c.fill.e * c.params.capacity := Nat.mul_pos filled sized
    have litres : c.plannedVolume = (c.fill.e * c.params.capacity + 999) / 1000 :=
      Nat.max_eq_right (by omega)
    rw [litres]
    omega

/-- SENSOR raised where an event says so (R119). -/
theorem sensor_or (flags : ContainerFlags) (raised : Bool) :
    { flags with sensor := flags.sensor || raised } = if raised then { flags with sensor := true } else flags := by
  cases raised with
  | false => rw [Bool.or_false]; rfl
  | true => rw [Bool.or_true]; rfl

/-- What a fill event that does not write E does at a configured container: the fill fields and SENSOR (R103, R119). -/
theorem fillEvent_quiet (i : ContainerIx) (event : Container → FillResult) (c : Container) (s : State)
    (h : s.container i = some c) (hw : (event c).wroteE = false) :
    s.fillEvent i event = { s with containers := s.containers.set i {
      flags := if (event c).sensor then { s.containers[i].flags with sensor := true } else s.containers[i].flags
      body := some { c with fill := (event c).fill } } } := by
  unfold State.fillEvent
  rw [h]
  dsimp only
  rw [hw, modContainer_eq i c _ s h]
  cases (event c).sensor with
  | false => rfl
  | true => exact raise_sensor_set ..

/-- A level reading that the container's state passes on (R93). -/
theorem levelReading_taken {i : ContainerIx} {c : Container} {s : State} (h : s.container i = some c) (d : Nat)
    (lifting : c.state ≠ .lifting) (lifted : c.state ≠ .fault .lift) :
    s.levelReading i d = s.fillEvent i fun x => x.fill.level x.params s.clock.district d := by
  have takes : c.state.takesReadings = true := by
    match hs : c.state with
    | .idle | .session | .fault .hatch => rfl
    | .lifting => exact absurd hs lifting
    | .fault .lift => exact absurd hs lifted
  rw [State.levelReading, h]
  exact if_pos takes

theorem levelReading_discarded {i : ContainerIx} {c : Container} {s : State} (h : s.container i = some c) (d : Nat)
    (out : c.state = .lifting ∨ c.state = .fault .lift) : s.levelReading i d = s := by
  rw [State.levelReading, h]
  rcases out with out | out <;> simp only [out, ContainerState.takesReadings, Bool.false_eq_true, if_false]

/-- A level reading that leaves E as it is: the fill fields and SENSOR (R105, R107, R111). -/
theorem levelReading_kept {i : ContainerIx} {c : Container} {s : State} {d : Nat} {g : Fill} {raised : Bool}
    (h : s.container i = some c) (lifting : c.state ≠ .lifting) (lifted : c.state ≠ .fault .lift)
    (event : c.fill.level c.params s.clock.district d = { fill := g, wroteE := false, sensor := raised }) :
    s.levelReading i d = { s with containers := s.containers.set i {
      flags := if raised then { s.containers[i].flags with sensor := true } else s.containers[i].flags
      body := some { c with fill := g } } } := by
  rw [levelReading_taken h d lifting lifted, fillEvent_quiet i _ c s h (by rw [event]), event]

/-- A level reading that writes E: full and the request are tested (R103, R108, R110, R112). -/
theorem levelReading_reported {i : ContainerIx} {c : Container} {s : State} {d : Nat} {g : Fill} {raised : Bool}
    (h : s.container i = some c) (lifting : c.state ≠ .lifting) (lifted : c.state ≠ .fault .lift)
    (event : c.fill.level c.params s.clock.district d = { fill := g, wroteE := true, sensor := raised }) :
    s.levelReading i d =
      s.tested i (if raised then { s.containers[i].flags with sensor := true } else s.containers[i].flags)
        ({ c with fill := g } : Container).fullTested := by
  rw [levelReading_taken h d lifting lifted, fillEvent_eq i _ c s h (by rw [event]), event, sensor_or]

/-- No echo (R105). -/
theorem level_noEcho (p : Params) (now : Word32) {d : Nat} (f : Fill) (h : d = 0 ∨ 4000 < d) :
    f.level p now d = if 7 ≤ f.noEcho ∧ f.mode = .normal then
        { fill := { f with noEcho := 8, mode := .degraded .noEcho, event := some .noEcho }, wroteE := false, sensor := true }
      else { fill := { f with noEcho := min 8 (f.noEcho + 1) }, wroteE := false, sensor := false } := by
  have last : min 8 (f.noEcho + 1) = 8 ↔ 7 ≤ f.noEcho := by omega
  unfold Fill.level
  rw [if_pos h]
  dsimp only
  by_cases degrades : 7 ≤ f.noEcho ∧ f.mode = .normal
  · rw [if_pos degrades, if_pos (degrades.imp_left last.mpr), last.mpr degrades.1]
  · rw [if_neg degrades, if_neg fun h => degrades (h.imp_left last.mp)]

/-- A valid echo in DEGRADED mode (R105). -/
theorem level_degraded (p : Params) (now : Word32) {d : Nat} (f : Fill) (least : 1 ≤ d) (most : d ≤ 4000)
    (mode : f.mode ≠ .normal) :
    f.level p now d = { fill := { f with noEcho := 0 }, wroteE := false, sensor := false } := by
  unfold Fill.level
  rw [if_neg (by omega)]
  cases hm : f.mode with
  | normal => exact absurd hm mode
  | degraded _ => rfl

/-- The measured fill and the over flag of an echo distance (R106). -/
theorem measure_eq (p : Params) (d : Nat) :
    measure p d = (if p.h ≤ d then 0 else min ((p.h - d) * 1000 / p.d) 1000,
      decide (d < p.h ∧ 1000 < (p.h - d) * 1000 / p.d)) := by
  unfold measure
  dsimp only
  by_cases beyond : p.h ≤ d
  · rw [if_pos beyond, if_pos beyond, decide_eq_false (by omega)]
  · rw [if_neg beyond, if_neg beyond]
    by_cases within : (p.h - d) * 1000 / p.d ≤ 1000
    · rw [if_pos within, Nat.min_eq_left within, decide_eq_false (by omega)]
    · rw [if_neg within, Nat.min_eq_right (by omega), decide_eq_true (by omega)]

/-- A valid echo in NORMAL mode, classed by its band (R106, R107). -/
theorem level_normal (p : Params) (now : Word32) {d : Nat} (f : Fill) (least : 1 ≤ d) (most : d ≤ 4000)
    (mode : f.mode = .normal) :
    f.level p now d =
      let quotient := (p.h - d) * 1000 / p.d
      let m := if p.h ≤ d then 0 else min quotient 1000
      let g : Fill := { f with noEcho := 0, reading := some { d, m, overFlag := decide (d < p.h ∧ 1000 < quotient) } }
      if m / 100 = f.cb then { fill := g.ordinary p m, wroteE := true, sensor := false }
      else if m / 100 = f.cb + 1 then { fill := g.correctStep p now m (m / 100), wroteE := true, sensor := false }
      else g.suspect now m (m / 100) := by
  unfold Fill.level
  rw [if_neg (by omega), mode]
  dsimp only
  unfold Fill.validReading
  rw [measure_eq]

/-- Settles O35: the fill event of each kind of reading, and what follows it. -/
theorem levelReading : Obligations.LevelReading := by
  intro s i c d hc f flags now kept reported
  refine ⟨levelReading_discarded hc d, fun lifting lifted => ⟨fun silent => ⟨fun mode run => ?_, fun short => ?_⟩,
    fun least most mode => ?_, fun least most mode => ?_⟩⟩
  · exact levelReading_kept hc lifting lifted ((level_noEcho _ _ _ silent).trans (if_pos ⟨run, mode⟩))
  · refine levelReading_kept hc lifting lifted ((level_noEcho _ _ _ silent).trans (if_neg fun h => ?_))
    rcases short with mode | short
    · exact mode h.2
    · exact Nat.not_le.mpr short h.1
  · exact levelReading_kept hc lifting lifted (level_degraded _ _ _ least most mode)
  · intro quotient m g
    have event := level_normal c.params now c.fill least most mode
    refine ⟨fun band => levelReading_reported hc lifting lifted (event.trans (if_pos band)), fun band => ?_, fun band => ?_⟩
    · have other : ¬ m / 100 = f.cb := by omega
      exact levelReading_reported hc lifting lifted (event.trans ((if_neg other).trans (if_pos band)))
    · intro run
      have other : ¬ m / 100 = f.cb := by omega
      have apart : ¬ m / 100 = f.cb + 1 := by omega
      have suspect := event.trans ((if_neg other).trans (if_neg apart))
      exact ⟨fun short => levelReading_kept hc lifting lifted (suspect.trans (if_neg (Nat.not_le.mpr short))),
        fun long => levelReading_reported hc lifting lifted (suspect.trans (if_pos long))⟩

/-- A charged deposit writes E (R115). -/
theorem chargedDeposit_of {i : ContainerIx} {c : Container} {s : State} {g : Fill} {raised : Bool} (h : s.container i = some c)
    (event : c.fill.deposit c.params = { fill := g, wroteE := true, sensor := raised }) :
    s.chargedDeposit i =
      s.tested i (if raised then { s.containers[i].flags with sensor := true } else s.containers[i].flags)
        ({ c with fill := g } : Container).fullTested := by
  rw [State.chargedDeposit, fillEvent_eq i _ c s h (by rw [event]), event, sensor_or]

/-- Settles O36. -/
theorem chargedDeposit : Obligations.ChargedDeposit := by
  intro s i c hc f flags g
  refine ⟨fun quiet => chargedDeposit_of hc (if_neg fun h => ?_), fun mode stalls => chargedDeposit_of hc (if_pos ⟨mode, stalls⟩)⟩
  rcases quiet with mode | few
  · exact mode h.1
  · exact Nat.not_le.mpr few h.2

/-! ### Requests (R125, R130) -/

/-- Settles O37. -/
theorem fractionPut : Obligations.FractionPut := by
  intro s rest tag b flags wait bounded f h
  have carried : f.u32 3 = wait := beNat_be4 bounded
  refine ⟨fun outside => h.run rfl rfl rfl ?_, fun n hb least most => ?_⟩
  · have fields : fractionFields? f = none := by
      unfold fractionFields?
      split
      · next n hn =>
        refine if_neg fun inside => ?_
        rw [carried] at inside
        rcases outside with h | h
        · exact absurd (hn.symm.trans (fractionIx?_none h)) nofun
        · omega
      · rfl
    rw [State.fractionPut, fields]
    rfl
  · intro held
    refine h.run rfl rfl rfl ?_
    have fields : fractionFields? f = some (n, { enabled := flags.getLsbD 0, maxWait := wait }) := by
      unfold fractionFields?
      rw [fractionIx?_val (n := f.u8 1) hb, carried]
      exact if_pos ⟨least, most⟩
    have waiting : (s.took rest).waitingCount n = held fun x => x = .waiting := by
      refine List.countP_congr fun i _ => ?_
      change State.waitsIn s n i = true ↔ _
      unfold State.waitsIn
      cases s.requests[i] <;> simp
    have planned : (s.took rest).plannedCount n = held fun x => x ≠ .waiting := by
      refine List.countP_congr fun i _ => ?_
      change (match s.requests[i] with
        | some r => decide (r.fraction = n) && decide (r.state ≠ .waiting)
        | none => false) = true ↔ _
      cases s.requests[i] <;> simp
    rw [State.fractionPut, fields, ← waiting, ← planned]
    rfl

/-- Settles O38. -/
theorem requestCancel : Obligations.RequestCancel := by
  intro s rest tag b f h
  refine ⟨fun outside => h.run rfl rfl rfl ?_, fun i hb => ⟨fun none => h.run rfl rfl rfl ?_, fun r hr =>
    ⟨fun planned => h.run rfl rfl rfl ?_, fun waiting => h.run rfl rfl rfl ?_⟩⟩⟩
  all_goals rw [State.requestCancel, show f.u8 1 = b.toNat from rfl]
  · rw [containerIx?_none outside]
    rfl
  all_goals rw [containerIx?_val hb]; dsimp only
  · rw [show (s.took rest).requests[i] = Option.none from none]
    rfl
  all_goals rw [show (s.took rest).requests[i] = some r from hr]; dsimp only
  · cases state : r.state with
    | waiting => exact absurd state planned
    | planned _ _ => rfl
  · rw [waiting]
    rfl

/-! ### District time (R127, R160, R161) -/

theorem be4_word32 (a b c d : Byte) : be4 (word32 a b c d).toNat = [a, b, c, d] := by
  have spelled : (word32 a b c d).toNat = ((a.toNat * 256 + b.toNat) * 256 + c.toNat) * 256 + d.toNat := by
    rw [← beNat_four]
    simp [beNat]
  have ha := a.isLt
  have hb := b.isLt
  have hc := c.isLt
  have hd := d.isLt
  rw [spelled, be4]
  congr 1
  · exact BitVec.eq_of_toNat_eq (by rw [byte_toNat]; omega)
  congr 1
  · exact BitVec.eq_of_toNat_eq (by rw [byte_toNat]; omega)
  congr 1
  · exact BitVec.eq_of_toNat_eq (by rw [byte_toNat]; omega)
  congr 1
  exact BitVec.eq_of_toNat_eq (by rw [byte_toNat]; omega)

/-- The district time wraps (R160). -/
theorem district_next (now : Word32) :
    now + 1 = if now = 0xFFFFFFFF then 0 else BitVec.ofNat 32 (now.toNat + 1) := by
  split
  · next h => rw [h]; rfl
  · bv_omega

/-- What follows a new district time adds no response before its answer (R161). -/
theorem afterTime_respond (f : RequestFrame) (code : ResultCode) (data : List Byte) (s : State) :
    s.afterTime.respond f code data =
      { s.overdueMarked.expireRounds with responses := s.responses ++ [{ kind := f.kind, tag := f.tag, code, data }] } := by
  rw [State.respond, (afterTime_only s).responses, State.afterTime, markAllOverdue_eq]

/-- Settles O39. -/
theorem timeGoesOn : Obligations.TimeGoesOn := by
  refine ⟨fun s => congrArg Host.Outcome.next (markAllOverdue_eq s), fun s bound => ⟨_, rfl, ?_⟩, ?_⟩
  · have elapsed : nextElapsed s.clock.elapsed = s.clock.elapsed + 1 := Nat.mod_eq_of_lt (by omega)
    rw [← district_next, ← elapsed, ← markAllOverdue_eq]
    rfl
  · intro s rest tag t3 t2 t1 t0 f h
    refine ⟨_, rfl, h.run rfl rfl rfl ?_⟩
    have time : f.u32 1 = (word32 t3 t2 t1 t0).toNat := beNat_four ..
    have word : BitVec.ofNat 32 (f.u32 1) = word32 t3 t2 t1 t0 := ofNat_four ..
    rw [State.timeSet, word, time, be4_word32]
    exact afterTime_respond ..

end Sys2Proof.Machine

end

section
/-! PROOFS. The close of rounds: O40. -/

namespace Sys2Proof.Machine

/-! ### ROUND CLOSE (R147, R149) -/

/-- The last close that a round leaves in its slot (R149). -/
def Round.lastClose (now : Word32) (reason : CloseReason) (r : Round) : LastClose :=
  { reason, vehicle := r.vehicle, time := now, entries := r.entries.length
    lifted := r.entries.countP fun e => e.state ≠ .planned }

/-- The slots after the close of a round, whatever its entries are (R149). -/
theorem closeRound_slots {n : FractionIx} {r : Round} (reason : CloseReason) {s : State} (h : s.slots[n].round = some r) :
    (s.closeRound n reason).slots = s.slots.set n
      { round := none, lastClose := some (r.lastClose s.clock.district reason), closedFlag := true } := by
  have returned := returnEntries_only false r.entries s
  unfold State.closeRound
  rw [h]
  dsimp only [State.raise, State.setFlag, State.modSlot]
  rw [returned.slots, returned.clock]
  simp only [Fin.getElem_fin, Vector.getElem_set_self, Vector.set_set]
  rfl

/-! ### The expiry of the round deadlines (R148) -/

/-- A round whose deadline the district time has reached stands in the slot. -/
def State.roundDue (s : State) (n : FractionIx) : Prop :=
  ∃ r, s.slots[n].round = some r ∧ r.deadline.toNat ≤ s.clock.district.toNat

theorem mem_dueRounds {s : State} {n : FractionIx} {r : Round} :
    (n, r) ∈ s.dueRounds ↔ s.slots[n].round = some r ∧ r.deadline.toNat ≤ s.clock.district.toNat := by
  unfold State.dueRounds
  simp only [List.mem_filterMap, List.mem_finRange, true_and, Option.map_eq_some_iff, Option.filter_eq_some_iff, Prod.mk.injEq,
    decide_eq_true_eq]
  constructor
  · rintro ⟨m, q, held, rfl, rfl⟩
    exact held
  · exact fun held => ⟨n, r, held, rfl, rfl⟩

/-- A slot is named at most once among the due rounds. -/
theorem dueRounds_nodup (s : State) : s.dueRounds.Nodup := by
  refine (List.nodup_finRange 4).filterMap fun n m p hn hm => ?_
  obtain ⟨_, _, rfl⟩ := Option.map_eq_some_iff.mp hn
  obtain ⟨_, _, same⟩ := Option.map_eq_some_iff.mp hm
  exact (congrArg Prod.fst same).symm

theorem dueRounds_none {s : State} (h : ∀ n, ¬ s.roundDue n) : s.dueRounds = [] :=
  List.eq_nil_iff_forall_not_mem.mpr fun p hp => h p.1 ⟨p.2, mem_dueRounds.mp hp⟩

/-- A single due round. -/
theorem dueRounds_single {s : State} {n : FractionIx} {r : Round} (h : s.slots[n].round = some r) (due : s.roundDue n)
    (only : ∀ m, s.roundDue m → m = n) : s.dueRounds = [(n, r)] := by
  have reached : r.deadline.toNat ≤ s.clock.district.toNat := by
    obtain ⟨q, hq, reached⟩ := due
    rw [h] at hq
    exact Option.some.inj hq ▸ reached
  have all : ∀ p ∈ s.dueRounds, p = (n, r) := fun ⟨m, q⟩ hp => by
    obtain ⟨held, late⟩ := mem_dueRounds.mp hp
    obtain rfl := only m ⟨q, held, late⟩
    rw [h] at held
    rw [Option.some.inj held]
  have copies := List.eq_replicate_of_mem all
  have once : s.dueRounds.length ≤ 1 := List.nodup_replicate.mp (copies ▸ dueRounds_nodup s)
  have some : 0 < s.dueRounds.length := List.length_pos_of_mem (mem_dueRounds.mpr ⟨h, reached⟩)
  rw [copies, show s.dueRounds.length = 1 by omega]
  rfl

/-- What an expiry makes of a slot (R148). -/
def Slot.expired (now : Word32) (x : Slot) : Slot :=
  match x.round with
  | none => x
  | some r =>
    if r.deadline.toNat ≤ now.toNat then
      { round := none, lastClose := some (r.lastClose now .timeout), closedFlag := true }
    else x

theorem expireRound_slots (n : FractionIx) (s : State) :
    (s.expireRound n).slots = s.slots.set n (s.slots[n].expired s.clock.district) := by
  have own : s.slots.set n s.slots[n] = s.slots := Vector.set_own ..
  unfold State.expireRound Slot.expired
  cases h : s.slots[n].round with
  | none => exact own.symm
  | some r =>
    by_cases late : r.deadline.toNat ≤ s.clock.district.toNat
    · dsimp only
      rw [if_pos (by simpa [reached] using late), if_pos late]
      exact closeRound_slots .timeout h
    · dsimp only
      rw [if_neg (by simpa [reached] using late), if_neg late, own]

theorem foldl_expireRound_slot (m : FractionIx) : ∀ (l : List FractionIx) (s : State), l.Nodup →
    (l.foldl (fun t n => t.expireRound n) s).slots[m] = if m ∈ l then s.slots[m].expired s.clock.district else s.slots[m]
  | [], s, _ => (if_neg List.not_mem_nil).symm
  | n :: l, s, distinct => by
    obtain ⟨fresh, distinct⟩ := List.nodup_cons.mp distinct
    rw [List.foldl_cons, foldl_expireRound_slot m l _ distinct, (expireRound_only n s).clock, expireRound_slots]
    by_cases here : n = m
    · subst here
      rw [if_neg fresh, if_pos (List.mem_cons_self ..)]
      exact set_at ..
    · have other : (s.slots.set n (s.slots[n].expired s.clock.district))[m] = s.slots[m] := set_ne _ here _
      rw [other]
      simp only [List.mem_cons, Ne.symm here, false_or]

/-- Every slot after an expiry, whatever the entries of its round are (R148). -/
theorem expireRounds_slot (m : FractionIx) (s : State) : s.expireRounds.slots[m] = s.slots[m].expired s.clock.district :=
  (foldl_expireRound_slot m _ s (List.nodup_finRange 4)).trans (if_pos (List.mem_finRange m))

/-- Settles O40. -/
theorem roundCloses : Obligations.RoundCloses := by
  constructor
  · intro s rest tag b f h
    refine ⟨fun outside => h.run rfl rfl rfl ?_, fun n hb => ⟨fun free => h.run rfl rfl rfl ?_, fun r held distinct =>
      h.run rfl rfl rfl ?_⟩⟩
    all_goals rw [State.roundClose, show f.u8 1 = b.toNat from rfl]
    · rw [fractionIx?_none outside]
      rfl
    all_goals rw [fractionIx?_val hb]; dsimp only
    · rw [show (s.took rest).slots[n].round = none from free]
      rfl
    · rw [show (s.took rest).slots[n].round = some r from held]
      dsimp only
      rw [closeRound_eq n r .command (s.took rest) held distinct]
      rfl
  · intro s due
    refine ⟨fun none => ?_, fun n r held distinct late only => ?_, fun distinct => congrArg Host.Outcome.next (expireRounds_eq s distinct),
      s.expireRounds, rfl, fun n early => ?_, fun n r held late => ?_⟩
    · have empty : s.dueRounds = [] := dueRounds_none none
      refine congrArg Host.Outcome.next ((expireRounds_eq s ?_).trans ?_)
      · rw [empty]; nofun
      · rw [empty]; rfl
    · have single : s.dueRounds = [(n, r)] := dueRounds_single held late only
      refine congrArg Host.Outcome.next ((expireRounds_eq s ?_).trans ?_)
      · rw [single]
        exact fun p hp => List.mem_singleton.mp hp ▸ distinct
      · rw [single]; rfl
    · rw [expireRounds_slot, Slot.expired]
      split
      · rfl
      · next r held => exact if_neg fun late => early ⟨r, held, late⟩
    · obtain ⟨q, hq, late⟩ := late
      rw [held] at hq
      obtain rfl := Option.some.inj hq
      rw [expireRounds_slot, Slot.expired, held]
      exact if_pos late

end Sys2Proof.Machine

end

section
/-! PROOFS. ROUND OPEN: O41 and O42. -/

namespace Sys2Proof.Machine

/-! ### The fields of ROUND OPEN (R140, R172) -/

/-- The payload of a ROUND OPEN (R172). -/
def roundOpenPayload (b limit : Byte) (vehicle : Word16) (budget duration horizon : Nat) : List Byte :=
  [0x32, b] ++ be2 vehicle.toNat ++ [limit] ++ be4 budget ++ be2 duration ++ be4 horizon

theorem roundFields?_eq (tag b limit : Byte) (vehicle : Word16) {budget duration horizon : Nat} (h1 : budget < 4294967296)
    (h2 : duration < 65536) (h3 : horizon < 4294967296) :
    roundFields? { tag, payload := roundOpenPayload b limit vehicle budget duration horizon } =
      (fractionIx? b.toNat).bind fun fraction =>
        if (1 ≤ limit.toNat ∧ limit.toNat ≤ 24) ∧ (100 ≤ budget ∧ budget ≤ 200000) ∧
            (600 ≤ duration ∧ duration ≤ 43200) ∧ horizon ≤ 86400 then
          some { fraction, vehicle, limit := limit.toNat, budget, duration, horizon }
        else none := by
  have u1 : RequestFrame.u8 { tag, payload := roundOpenPayload b limit vehicle budget duration horizon } 1 = b.toNat := rfl
  have u2 : RequestFrame.u16 { tag, payload := roundOpenPayload b limit vehicle budget duration horizon } 2 = vehicle.toNat :=
    beNat_be2 vehicle.isLt
  have u4 : RequestFrame.u8 { tag, payload := roundOpenPayload b limit vehicle budget duration horizon } 4 = limit.toNat := rfl
  have u5 : RequestFrame.u32 { tag, payload := roundOpenPayload b limit vehicle budget duration horizon } 5 = budget :=
    beNat_be4 h1
  have u9 : RequestFrame.u16 { tag, payload := roundOpenPayload b limit vehicle budget duration horizon } 9 = duration :=
    beNat_be2 h2
  have u11 : RequestFrame.u32 { tag, payload := roundOpenPayload b limit vehicle budget duration horizon } 11 = horizon :=
    beNat_be4 h3
  have word : BitVec.ofNat 16 vehicle.toNat = vehicle := by rw [BitVec.ofNat_toNat, BitVec.setWidth_eq]
  unfold roundFields?
  rw [u1, u2, u4, u5, u9, u11, word]
  cases fractionIx? b.toNat <;> rfl

/-- Settles O41. -/
theorem roundOpenIsRefused : Obligations.RoundOpenIsRefused := by
  intro s rest tag b limit vehicle budget duration horizon h1 h2 h3 f h
  have fields := roundFields?_eq tag b limit vehicle h1 h2 h3
  refine ⟨fun outside => h.run rfl rfl rfl ?_, fun n hb l1 l2 b1 b2 d1 d2 z => ?_⟩
  · have none : roundFields? f = none := by
      refine fields.trans (Option.bind_eq_none_iff.mpr fun n hn => if_neg fun inside => ?_)
      rcases outside with h | h
      · exact absurd (hn.symm.trans (fractionIx?_none h)) nofun
      · omega
    rw [State.roundOpen, none]
    rfl
  · have held : roundFields? f = some { fraction := n, vehicle, limit := limit.toNat, budget, duration, horizon } := by
      refine fields.trans ?_
      rw [fractionIx?_val hb]
      exact if_pos ⟨⟨l1, l2⟩, ⟨b1, b2⟩, ⟨d1, d2⟩, z⟩
    refine ⟨fun busy => h.run rfl rfl rfl ?_, fun free listed disabled => h.run rfl rfl rfl ?_⟩
    · rw [State.roundOpen, held]
      refine if_pos ?_
      unfold State.slotBusy
      rw [Bool.or_eq_true, Option.isSome_iff_ne_none, List.any_eq_true]
      simpa using busy
    · rw [State.roundOpen, held]
      have idle : ¬ (s.took rest).slotBusy n = true := by
        unfold State.slotBusy
        rw [Bool.or_eq_true, Option.isSome_iff_ne_none, List.any_eq_true]
        simpa using ⟨free, listed⟩
      exact (if_neg idle).trans (if_neg (by simpa using disabled))

/-! ### The walks of a build (R129, R140, R142, R143) -/

/-- Distinct containers in the order of a number, then of the index. -/
theorem sortByKey_containers (k : ContainerIx → Nat) {l : List ContainerIx} (distinct : l.Nodup) :
    (sortByKey (fun i => [k i, i.val]) l).Pairwise fun i j => k i < k j ∨ (k i = k j ∧ i < j) := by
  have apart : (sortByKey (fun i => [k i, i.val]) l).Pairwise (· ≠ ·) := (sortByKey_perm ..).nodup_iff.mpr distinct
  refine ((sortByKey_sorted (fun i => [k i, i.val]) l).and apart).imp fun {i j} ⟨ordered, other⟩ => ?_
  have indices : i.val ≠ j.val := fun e => other (Fin.ext e)
  simp only [keyLe, Bool.or_eq_true, Bool.and_eq_true, decide_eq_true_eq, and_true] at ordered
  rcases ordered with below | ⟨same, below⟩
  · exact .inl below
  · exact .inr ⟨same, Fin.lt_def.mpr (by omega)⟩

theorem greedy_sublist : ∀ (limit budget : Nat) (l : List (ContainerIx × Nat)), (greedy limit budget l).Sublist l
  | 0, _, l => by
    rw [greedy]
    exact List.nil_sublist l
  | _ + 1, _, [] => .slnil
  | limit + 1, budget, x :: xs => by
    rw [greedy]
    split
    · exact (greedy_sublist ..).cons_cons x
    · exact (greedy_sublist ..).cons x

/-- What a walk takes of containers with their volumes names each of them once, in their order. -/
theorem greedy_fst_sublist (limit budget : Nat) (volume : ContainerIx → Nat) (l : List ContainerIx) :
    ((greedy limit budget (l.map fun i => (i, volume i))).map Prod.fst).Sublist l := by
  have names : (l.map fun i => (i, volume i)).map Prod.fst = l := by
    rw [List.map_map]
    exact List.map_id l
  have taken := (greedy_sublist limit budget (l.map fun i => (i, volume i))).map Prod.fst
  rwa [names] at taken

/-! ### The build of an accepted ROUND OPEN -/

/-- What pass 1 takes (R142). -/
def State.pass1 (n : FractionIx) (limit budget : Nat) (s : State) : List (ContainerIx × Nat) :=
  greedy limit budget (((s.waitingOrder n).filter s.reachable).map fun i => (i, s.volumeOf i))

/-- What pass 2 takes once pass 1 has taken some containers (R143). -/
def State.pass2 (n : FractionIx) (limit budget horizon : Nat) (taken : List (ContainerIx × Nat)) (s : State) :
    List (ContainerIx × Nat) :=
  if 0 < horizon then
    greedy (limit - taken.length) (budget - (taken.map Prod.snd).sum)
      ((s.candidates n horizon).map fun i => (i, s.volumeOf i))
  else []

theorem waitingOrder_nodup (n : FractionIx) (s : State) : (s.waitingOrder n).Nodup :=
  (sortByKey_perm ..).nodup_iff.mpr ((List.nodup_finRange 128).filter _)

theorem candidates_nodup (n : FractionIx) (horizon : Nat) (s : State) : (s.candidates n horizon).Nodup :=
  (sortByKey_perm ..).nodup_iff.mpr ((List.nodup_finRange 128).filter _)

theorem mem_waitingOrder {n : FractionIx} {s : State} {i : ContainerIx} (h : i ∈ s.waitingOrder n) : (s.requests[i]).isSome := by
  have waits := (List.mem_filter.mp ((sortByKey_perm ..).mem_iff.mp h)).2
  unfold State.waitsIn at waits
  cases hr : s.requests[i] with
  | none => rw [hr] at waits; cases waits
  | some r => rfl

theorem mem_candidates {n : FractionIx} {horizon : Nat} {s : State} {i : ContainerIx} (h : i ∈ s.candidates n horizon) :
    s.requests[i] = none ∧ ∃ c, s.container i = some c := by
  have fits := (List.mem_filter.mp ((sortByKey_perm ..).mem_iff.mp h)).2
  unfold State.candidate at fits
  cases hc : s.container i with
  | none => rw [hc] at fits; cases fits
  | some c =>
    rw [hc] at fits
    simp only [Bool.and_eq_true, Option.isNone_iff_eq_none] at fits
    exact ⟨fits.1.1.2, c, rfl⟩

/-- Pass 1 leaves every candidate of pass 2 what it was. -/
theorem plannedOn_candidates (slot n : FractionIx) (horizon : Nat) (ids : List ContainerIx) (s : State) :
    (s.plannedOn slot ids).candidates n horizon = s.candidates n horizon := by
  have bare (i : ContainerIx) : (s.plannedOn slot ids).requests[i].isNone = s.requests[i].isNone := by
    simp only [State.plannedOn, Fin.getElem_fin, Vector.getElem_ofFn]
    split
    · exact Option.isNone_map
    · rfl
  have test : (s.plannedOn slot ids).candidate n horizon = s.candidate n horizon := funext fun i => by
    unfold State.candidate
    rw [plannedOn_container, plannedOn_stations, bare]
  have key : (s.plannedOn slot ids).candidateKey = s.candidateKey := funext fun i => by
    unfold State.candidateKey
    rw [plannedOn_container]
  unfold State.candidates
  rw [test, key]

theorem plannedOn_volumeOf (slot : FractionIx) (ids : List ContainerIx) (s : State) (i : ContainerIx) :
    (s.plannedOn slot ids).volumeOf i = s.volumeOf i := by
  unfold State.volumeOf
  rw [plannedOn_container]

theorem plannedOn_takenList (slot : FractionIx) (ids : List ContainerIx) (origin : Origin) (xs : List (ContainerIx × Nat))
    (s : State) : (s.plannedOn slot ids).takenList origin xs = s.takenList origin xs := by
  unfold State.takenList State.takenAs
  simp only [plannedOn_container, plannedOn_stations]

/-- Every container of some pairs is configured. -/
def State.AllConfigured (s : State) (xs : List (ContainerIx × Nat)) : Prop := ∀ x ∈ xs, ∃ c, s.container x.1 = some c

theorem pass1_configured (n : FractionIx) (limit budget : Nat) (s : State) : s.AllConfigured (s.pass1 n limit budget) := by
  intro x hx
  have named := (greedy_fst_sublist ..).subset (List.mem_map_of_mem (f := Prod.fst) hx)
  have reached : s.reachable x.1 = true := (List.mem_filter.mp named).2
  unfold State.reachable at reached
  cases hc : s.container x.1 with
  | none => rw [hc] at reached; cases reached
  | some c => exact ⟨c, rfl⟩

theorem mem_pass1 {n : FractionIx} {limit budget : Nat} {s : State} {i : ContainerIx}
    (h : i ∈ (s.pass1 n limit budget).map Prod.fst) : i ∈ s.waitingOrder n :=
  (List.mem_filter.mp ((greedy_fst_sublist ..).subset h)).1

theorem mem_pass2 {n : FractionIx} {limit budget horizon : Nat} {taken : List (ContainerIx × Nat)} {s : State} {i : ContainerIx}
    (h : i ∈ (s.pass2 n limit budget horizon taken).map Prod.fst) : i ∈ s.candidates n horizon := by
  unfold State.pass2 at h
  split at h
  · exact (greedy_fst_sublist ..).subset h
  · cases h

theorem pass2_configured (n : FractionIx) (limit budget horizon : Nat) (taken : List (ContainerIx × Nat)) (s : State) :
    s.AllConfigured (s.pass2 n limit budget horizon taken) := fun _ hx =>
  (mem_candidates (mem_pass2 (List.mem_map_of_mem (f := Prod.fst) hx))).2

/-- No container is taken twice in a build. -/
theorem passes_nodup (n : FractionIx) (limit budget horizon : Nat) (s : State) :
    let first := s.pass1 n limit budget
    let second := s.pass2 n limit budget horizon first
    (first.map Prod.fst ++ second.map Prod.fst).Nodup := by
  intro first second
  refine List.nodup_append'.mpr ⟨?_, ?_, fun i h1 h2 => ?_⟩
  · exact ((waitingOrder_nodup n s).filter _).sublist (greedy_fst_sublist ..)
  · change ((State.pass2 ..).map _).Nodup
    unfold State.pass2
    split
    · exact (candidates_nodup n horizon s).sublist (greedy_fst_sublist ..)
    · exact List.nodup_nil
  · have held := mem_waitingOrder (mem_pass1 h1)
    rw [(mem_candidates (mem_pass2 h2)).1] at held
    cases held

/-- The containers and volumes of a list of pairs that are all configured, as a build takes them. -/
theorem takenList_pairs {s : State} (origin : Origin) : ∀ {xs : List (ContainerIx × Nat)}, s.AllConfigured xs →
    (s.takenList origin xs).map (fun t => (t.container, t.volume)) = xs
  | [], _ => rfl
  | x :: xs, h => by
    obtain ⟨c, hc⟩ := h x (List.mem_cons_self ..)
    have rest := takenList_pairs origin fun y hy => h y (List.mem_cons_of_mem _ hy)
    have head : s.takenAs origin x = some { container := x.1, station := c.binding.station
                                            rank := s.stations[c.binding.station].config.rank, volume := x.2, origin } := by
      rw [State.takenAs, hc]
      rfl
    unfold State.takenList at rest ⊢
    rw [List.filterMap_cons_some head, List.map_cons, rest]

theorem takenList_length {s : State} {origin : Origin} {xs : List (ContainerIx × Nat)} (h : s.AllConfigured xs) :
    (s.takenList origin xs).length = xs.length := by
  have pairs := congrArg List.length (takenList_pairs origin h)
  rwa [List.length_map] at pairs

theorem mem_takenList {s : State} {origin : Origin} {xs : List (ContainerIx × Nat)} {t : Taken} (h : t ∈ s.takenList origin xs) :
    (t.container, t.volume) ∈ xs ∧ t.origin = origin ∧ ∃ c, s.container t.container = some c ∧ t.station = c.binding.station ∧
      t.rank = s.stations[t.station].config.rank := by
  obtain ⟨x, hx, ht⟩ := List.mem_filterMap.mp h
  obtain ⟨c, hc, rfl⟩ := Option.map_eq_some_iff.mp ht
  exact ⟨hx, rfl, c, hc, rfl, rfl⟩

/-- The two passes of a build (R140, R142, R143). -/
theorem build_eq (r : RoundFields) (s : State) :
    let first := s.pass1 r.fraction r.limit r.budget
    let second := s.pass2 r.fraction r.limit r.budget r.horizon first
    ∃ left, s.build r = {
      state := (s.plannedOn r.fraction (first.map Prod.fst)).preemptedOn r.fraction (second.map Prod.fst)
      budget := left, taken := s.takenList .raised first ++ s.takenList .preempt second } := by
  intro first second
  have walk1 : (s.waitingOrder r.fraction).foldl (Build.pass1 r.fraction r.limit) { state := s, budget := r.budget, taken := [] } =
      { state := s.plannedOn r.fraction (first.map Prod.fst), budget := r.budget - (first.map Prod.snd).sum
        taken := s.takenList .raised first } :=
    pass1_fold r.fraction r.limit s (s.waitingOrder r.fraction) { state := s, budget := r.budget, taken := [] } []
      (plannedOn_nil ..).symm (waitingOrder_nodup ..) fun _ _ => List.not_mem_nil
  have taken : (s.takenList .raised first).length = first.length := takenList_length (pass1_configured _ _ _ _)
  have stops (h : second = []) : { state := s.plannedOn r.fraction (first.map Prod.fst), budget := r.budget - (first.map Prod.snd).sum
                                   taken := s.takenList .raised first } = ({
      state := (s.plannedOn r.fraction (first.map Prod.fst)).preemptedOn r.fraction (second.map Prod.fst)
      budget := r.budget - (first.map Prod.snd).sum
      taken := s.takenList .raised first ++ s.takenList .preempt second } : Build) := by
    rw [h, List.map_nil, preemptedOn_nil, show s.takenList .preempt [] = [] from rfl, List.append_nil]
  unfold State.build
  rw [walk1]
  dsimp only
  rw [taken]
  by_cases far : 0 < r.horizon
  · have walked : second = greedy (r.limit - first.length) (r.budget - (first.map Prod.snd).sum)
        ((s.candidates r.fraction r.horizon).map fun i => (i, s.volumeOf i)) := if_pos far
    by_cases room : first.length < r.limit
    · rw [if_pos ⟨far, room⟩, plannedOn_candidates]
      have walk2 := pass2_fold r.fraction r.limit (s.plannedOn r.fraction (first.map Prod.fst)) (s.candidates r.fraction r.horizon)
        { state := s.plannedOn r.fraction (first.map Prod.fst), budget := r.budget - (first.map Prod.snd).sum
          taken := s.takenList .raised first } [] (preemptedOn_nil ..).symm (candidates_nodup ..) (fun _ _ => List.not_mem_nil)
        fun i hi => by
          obtain ⟨_, c, hc⟩ := mem_candidates hi
          rw [plannedOn_container, hc]
          rfl
      dsimp only at walk2
      simp only [plannedOn_volumeOf, plannedOn_takenList, taken, ← walked] at walk2
      exact ⟨_, walk2⟩
    · rw [if_neg fun h => room h.2]
      have full : r.limit - first.length = 0 := by omega
      rw [full, greedy] at walked
      exact ⟨_, stops walked⟩
  · rw [if_neg fun h => far h.1]
    exact ⟨_, stops (if_neg far)⟩

/-! ### The entries of the round (R143) -/

theorem mem_routeEntries {l : List Taken} {e : Entry} (h : e ∈ routeEntries l) : ∃ t ∈ l,
    e = { container := t.container, station := t.station, volume := t.volume, origin := t.origin, state := .planned } := by
  obtain ⟨t, ht, rfl⟩ := List.mem_map.mp h
  exact ⟨t, (sortByKey_perm ..).mem_iff.mp ht, rfl⟩

theorem routeEntries_perm (l : List Taken) :
    ((routeEntries l).map fun e => (e.container, e.volume)).Perm (l.map fun t => (t.container, t.volume)) := by
  unfold routeEntries
  rw [List.map_map]
  exact (sortByKey_perm Taken.routeKey l).map _

/-- The entries of distinct containers stand in ascending route rank, station and container. -/
theorem routeEntries_ordered {l : List Taken} (rank : StationIx → Nat) (distinct : (l.map Taken.container).Nodup)
    (ranked : ∀ t ∈ l, t.rank = rank t.station) : (routeEntries l).Pairwise fun d e =>
      rank d.station < rank e.station ∨ (rank d.station = rank e.station ∧
        (d.station < e.station ∨ (d.station = e.station ∧ d.container < e.container))) := by
  have sorted := sortByKey_sorted Taken.routeKey l
  have perm := sortByKey_perm Taken.routeKey l
  have apart : (sortByKey Taken.routeKey l).Pairwise fun t u => t.container ≠ u.container :=
    List.pairwise_map.mp ((perm.map Taken.container).nodup_iff.mpr distinct)
  refine List.pairwise_map.mpr ((sorted.and apart).imp_of_mem fun {t u} ht hu ⟨ordered, other⟩ => ?_)
  have h1 := ranked t (perm.mem_iff.mp ht)
  have h2 := ranked u (perm.mem_iff.mp hu)
  have indices : t.container.val ≠ u.container.val := fun e => other (Fin.ext e)
  simp only [keyLe, Taken.routeKey, addr, Bool.or_eq_true, Bool.and_eq_true, decide_eq_true_eq, and_true, h1, h2] at ordered
  dsimp only
  simp only [Fin.lt_def, Fin.ext_iff]
  omega

/-! ### The dispatch (R143 to R145) -/

/-- The containers that a build takes in its two passes. -/
def State.takenBy (first second : List (ContainerIx × Nat)) (s : State) : List Taken :=
  s.takenList .raised first ++ s.takenList .preempt second

/-- The round of the containers taken (R143). -/
def State.roundOf (f : RequestFrame) (r : RoundFields) (first second : List (ContainerIx × Nat)) (s : State) : Round :=
  s.newRound f r (s.takenBy first second)

/-- The state once a round stands in its slot, answered and listed, with the containers and the requests that the build has left
(R143, R145). -/
def State.dispatched (f : RequestFrame) (n : FractionIx) (round : Round) (containers : Vector ContainerRec 128)
    (requests : Vector (Option Request) 128) (s : State) : State :=
  { s with
    containers, requests
    slots := s.slots.set n { s.slots[n] with round := some round }
    responses := s.responses ++ [{
      kind := f.kind, tag := f.tag, code := .done, data := byte round.entries.length :: be4 round.total }]
    roundLists := s.roundLists ++ (List.range ((round.entries.length + 7) / 8)).map fun k =>
      { slot := n, payload := s.roundListPayload n round k } }

/-- A build changes the containers and the requests alone. -/
theorem built_tables (n : FractionIx) (ids1 ids2 : List ContainerIx) (s : State) :
    (s.plannedOn n ids1).preemptedOn n ids2 = { s with
      containers := ((s.plannedOn n ids1).preemptedOn n ids2).containers
      requests := ((s.plannedOn n ids1).preemptedOn n ids2).requests } := by
  simp only [State.preemptedOn, State.plannedOn]

theorem roundListPayload_congr (n : FractionIx) (r : Round) (k : Nat) {s t : State} (h : ∀ i, t.container i = s.container i) :
    t.roundListPayload n r k = s.roundListPayload n r k := by
  have inlets : t.inletOf = s.inletOf := funext fun i => by
    unfold State.inletOf
    rw [h]
  unfold State.roundListPayload
  rw [inlets]

/-- The dispatch of a round from a state that differs in its containers' flags and its requests. -/
theorem dispatched_eq (f : RequestFrame) (n : FractionIx) (round : Round) {s built : State}
    {containers : Vector ContainerRec 128} {requests : Vector (Option Request) 128}
    (tables : built = { s with containers, requests }) (same : ∀ i, built.container i = s.container i) :
    (((built.modSlot n fun x => { x with round := some round }).respond f .done
      ([byte round.entries.length] ++ be4 round.total)).pushRoundList n round) =
    s.dispatched f n round containers requests := by
  have payloads : (fun k => ({ slot := n, payload := s.roundListPayload n round k } : RoundListFrame)) = fun k =>
      { slot := n, payload := State.roundListPayload n round k ((built.modSlot n fun x => { x with round := some round }).respond f
          .done ([byte round.entries.length] ++ be4 round.total)) } :=
    funext fun k => congrArg (RoundListFrame.mk n) (roundListPayload_congr n round k same).symm
  unfold State.dispatched
  rw [payloads, tables]
  rfl

/-- The expiry of a round that stands in its slot (R148). -/
theorem expireRound_of {n : FractionIx} {r : Round} {s : State} (held : s.slots[n].round = some r)
    (distinct : (r.entries.map Entry.container).Nodup) :
    s.expireRound n = if r.deadline.toNat ≤ s.clock.district.toNat then s.roundClosed n r .timeout else s := by
  unfold State.expireRound
  rw [held, ← closeRound_eq n r .timeout s held distinct]
  simp only [reached, decide_eq_true_eq]

/-- A build that has taken something (R143). -/
theorem settle_taken (f : RequestFrame) (r : RoundFields) {b : Build} (h : b.taken ≠ []) : b.settle f r =
    let round := b.state.newRound f r b.taken
    (((b.state.modSlot r.fraction fun x => { x with round := some round }).respond f .done
      ([byte round.entries.length] ++ be4 round.total)).pushRoundList r.fraction round).expireRound r.fraction := by
  obtain ⟨state, budget, taken⟩ := b
  cases taken with
  | nil => exact absurd rfl h
  | cons t more => rfl

section
variable (f : RequestFrame) (r : RoundFields) (s : State)

/-- The containers and volumes that a build takes. -/
theorem takenBy_pairs {first second : List (ContainerIx × Nat)} (h1 : s.AllConfigured first) (h2 : s.AllConfigured second) :
    (s.takenBy first second).map (fun t => (t.container, t.volume)) = first ++ second := by
  rw [State.takenBy, List.map_append, takenList_pairs _ h1, takenList_pairs _ h2]

theorem takenBy_containers {first second : List (ContainerIx × Nat)} (h1 : s.AllConfigured first)
    (h2 : s.AllConfigured second) :
    (s.takenBy first second).map Taken.container = first.map Prod.fst ++ second.map Prod.fst := by
  have pairs := congrArg (List.map Prod.fst) (takenBy_pairs s h1 h2)
  rwa [List.map_map, List.map_append] at pairs

/-- An accepted ROUND OPEN whose build takes nothing (R140). -/
theorem settle_nothing (nothing : s.pass1 r.fraction r.limit r.budget ++
      s.pass2 r.fraction r.limit r.budget r.horizon (s.pass1 r.fraction r.limit r.budget) = []) :
    (s.build r).settle f r = s.respond f .done [0, 0, 0, 0, 0] := by
  obtain ⟨h1, h2⟩ := List.append_eq_nil_iff.mp nothing
  obtain ⟨left, built⟩ := build_eq r s
  rw [built, h2, h1, List.map_nil, plannedOn_nil, preemptedOn_nil]
  rfl

/-- An accepted ROUND OPEN whose build takes something (R143). -/
theorem settle_dispatches (something : s.pass1 r.fraction r.limit r.budget ++
      s.pass2 r.fraction r.limit r.budget r.horizon (s.pass1 r.fraction r.limit r.budget) ≠ []) :
    let first := s.pass1 r.fraction r.limit r.budget
    let second := s.pass2 r.fraction r.limit r.budget r.horizon first
    let built := (s.plannedOn r.fraction (first.map Prod.fst)).preemptedOn r.fraction (second.map Prod.fst)
    (s.build r).settle f r =
      (s.dispatched f r.fraction (s.roundOf f r first second) built.containers built.requests).expireRound r.fraction := by
  intro first second built
  obtain ⟨left, run⟩ := build_eq r s
  have pairs := takenBy_pairs s (pass1_configured r.fraction r.limit r.budget s)
    (pass2_configured r.fraction r.limit r.budget r.horizon first s)
  have taken : s.takenBy first second ≠ [] := fun empty => something (pairs.symm.trans (congrArg _ empty))
  have round : built.newRound f r (s.takenBy first second) = s.roundOf f r first second := by
    unfold State.roundOf State.newRound
    rw [show built.clock = s.clock by rw [show built = _ from built_tables ..]]
  rw [run, settle_taken f r taken]
  refine Eq.trans ?_ (congrArg (State.expireRound r.fraction) (dispatched_eq f r.fraction (s.roundOf f r first second)
    (built_tables r.fraction (first.map Prod.fst) (second.map Prod.fst) s)
    fun i => (preemptedOn_container ..).trans (plannedOn_container ..)))
  rw [← round]
  rfl

end

theorem plannedOn_preemptedRequest (n : FractionIx) (ids : List ContainerIx) (s : State) (i : ContainerIx) :
    (s.plannedOn n ids).preemptedRequest n i = s.preemptedRequest n i := by
  have clock : (s.plannedOn n ids).clock = s.clock := by unfold State.plannedOn; rfl
  have fractions : (s.plannedOn n ids).fractions = s.fractions := by unfold State.plannedOn; rfl
  unfold State.preemptedRequest Container.raisedRequest
  rw [plannedOn_container, plannedOn_volumeOf, clock, fractions]

theorem built_requests (n : FractionIx) (ids1 ids2 : List ContainerIx) (s : State) (i : ContainerIx) :
    ((s.plannedOn n ids1).preemptedOn n ids2).requests[i] =
      if i ∈ ids2 then s.preemptedRequest n i
      else if i ∈ ids1 then s.requests[i].map fun r => { r with state := .planned n (s.volumeOf i) }
      else s.requests[i] := by
  rw [← plannedOn_preemptedRequest n ids1]
  simp only [State.preemptedOn, State.plannedOn, Fin.getElem_fin, Vector.getElem_ofFn]

theorem built_containers (n : FractionIx) (ids1 ids2 : List ContainerIx) (s : State) (i : ContainerIx) :
    ((s.plannedOn n ids1).preemptedOn n ids2).containers[i] =
      if i ∈ ids2 then
        { s.containers[i] with flags := { s.containers[i].flags with
            overdue := s.containers[i].flags.overdue || (s.preemptedRequest n i).any Request.overdue } }
      else s.containers[i] := by
  rw [← plannedOn_preemptedRequest n ids1]
  simp only [State.preemptedOn, State.plannedOn, Fin.getElem_fin, Vector.getElem_ofFn]

/-- The entries of the round are the containers taken, each as its pass takes it (R143). -/
theorem roundOf_entry {f : RequestFrame} {r : RoundFields} {first second : List (ContainerIx × Nat)} {s : State}
    (distinct : (first.map Prod.fst ++ second.map Prod.fst).Nodup) {e : Entry} (h : e ∈ (s.roundOf f r first second).entries) :
    e.state = .planned ∧ (∃ c, s.container e.container = some c ∧ e.station = c.binding.station) ∧
      e.origin = if e.container ∈ first.map Prod.fst then .raised else .preempt := by
  obtain ⟨t, ht, rfl⟩ := mem_routeEntries h
  refine ⟨rfl, ?_⟩
  rcases List.mem_append.mp ht with ht | ht
  · obtain ⟨pair, origin, c, hc, station, _⟩ := mem_takenList ht
    exact ⟨⟨c, hc, station⟩, origin.trans (if_pos (List.mem_map_of_mem (f := Prod.fst) pair)).symm⟩
  · obtain ⟨pair, origin, c, hc, station, _⟩ := mem_takenList ht
    have apart : t.container ∉ first.map Prod.fst := fun taken =>
      (List.nodup_append'.mp distinct).2.2 taken (List.mem_map_of_mem (f := Prod.fst) pair)
    exact ⟨⟨c, hc, station⟩, origin.trans (if_neg apart).symm⟩

theorem takenBy_ranked {first second : List (ContainerIx × Nat)} {s : State} {t : Taken} (h : t ∈ s.takenBy first second) :
    t.rank = s.stations[t.station].config.rank := by
  rcases List.mem_append.mp h with h | h
  all_goals
    obtain ⟨_, _, _, _, _, ranked⟩ := mem_takenList h
    exact ranked

/-! ### The tests of the two walks -/

theorem reachable_eq (s : State) (i : ContainerIx) : s.reachable i = (s.container i).any fun c =>
    !s.stations[c.binding.station].locked && (c.state = .idle || c.state = .session) := by
  unfold State.reachable
  refine congrArg (fun p => Option.any p (s.container i)) (funext fun c => ?_)
  unfold State.skippedAtBuild
  cases c.state <;> simp

theorem waitsIn_eq (n : FractionIx) (s : State) (i : ContainerIx) :
    s.waitsIn n i = s.requests[i].any fun r => r.fraction = n && r.state = .waiting := by
  unfold State.waitsIn
  cases s.requests[i] <;> simp

/-- A candidate of pass 2 is in NORMAL mode, since it has a time-to-call (R114). -/
theorem candidate_eq (n : FractionIx) (horizon : Nat) (s : State) (i : ContainerIx) :
    s.candidate n horizon i = (s.container i).any fun c =>
      c.binding.fraction = n && c.state = .idle && c.fill.mode = .normal && !s.stations[c.binding.station].locked &&
        s.requests[i].isNone && c.fill.e < c.params.tCall && c.timeToCall.any fun x => x ≤ horizon := by
  unfold State.candidate
  cases s.container i with
  | none => rfl
  | some c =>
    dsimp only [Option.any_some]
    cases timed : c.timeToCall with
    | none => simp
    | some x =>
      have normal : c.fill.mode = .normal := by
        unfold Container.timeToCall at timed
        split at timed
        · assumption
        · cases timed
      simp [normal]

/-- Settles O42. -/
theorem roundOpenBuildsARound : Obligations.RoundOpenBuildsARound := by
  intro s rest tag n vehicle limit budget duration horizon f now volume waits deadline inReach candidate time h l1 l2 b1 b2 d1 d2 z
    free listed enabled due
  let u := s.took rest
  let r : RoundFields := { fraction := n, vehicle, limit, budget, duration, horizon }
  have small : (byte limit).toNat = limit := byte_toNat_of_lt (by omega)
  have fields : roundFields? f = some r := by
    refine (roundFields?_eq tag (byte n.val) (byte limit) vehicle (by omega) (by omega) (by omega)).trans ?_
    rw [fractionIx?_val (a := n) (byte_toNat_of_lt (by have : n.val < 4 := n.isLt; omega)), small]
    exact if_pos ⟨⟨l1, l2⟩, ⟨b1, b2⟩, ⟨d1, d2⟩, z⟩
  have idle : ¬ u.slotBusy n = true := by
    unfold State.slotBusy
    rw [Bool.or_eq_true, Option.isSome_iff_ne_none, List.any_eq_true]
    simpa using ⟨free, listed⟩
  have runs {t : State} (settled : (u.build r).settle f r = t) : exec .roundOpen s = .next t := by
    refine h.run rfl rfl rfl ?_
    rw [State.roundOpen, fields]
    exact (if_neg idle).trans ((if_pos enabled).trans settled)
  have waiting : u.waitsIn n = waits := funext fun i => waitsIn_eq n u i
  have reach : u.reachable = inReach := funext fun i => reachable_eq u i
  have fitting : u.candidate n horizon = candidate := funext fun i => candidate_eq n horizon u i
  refine ⟨u.waitingOrder n, u.candidates n horizon, ?_, sortByKey_containers deadline ((List.nodup_finRange 128).filter _), ?_,
    sortByKey_containers time ((List.nodup_finRange 128).filter _), ?_⟩
  · rw [← waiting]
    exact sortByKey_perm ..
  · rw [← fitting]
    exact sortByKey_perm ..
  · rw [← reach]
    intro pass1 spent pass2 total
    have first : pass1 = u.pass1 n limit budget := rfl
    have second : pass2 = u.pass2 n limit budget horizon pass1 := rfl
    refine ⟨fun nothing => runs (settle_nothing f r u nothing), fun something => ?_⟩
    have configured1 : u.AllConfigured pass1 := pass1_configured n limit budget u
    have configured2 : u.AllConfigured pass2 := pass2_configured n limit budget horizon pass1 u
    have distinct : (pass1.map Prod.fst ++ pass2.map Prod.fst).Nodup := passes_nodup n limit budget horizon u
    have pairs := takenBy_pairs u configured1 configured2
    have containers : (u.takenBy pass1 pass2).map Taken.container = _ := takenBy_containers u configured1 configured2
    have recordsAfter := built_containers n (pass1.map Prod.fst) (pass2.map Prod.fst) u
    have requestsAfter := built_requests n (pass1.map Prod.fst) (pass2.map Prod.fst) u
    have settled : (u.build r).settle f r = State.expireRound n (u.dispatched f n (u.roundOf f r pass1 pass2)
        ((u.plannedOn n (pass1.map Prod.fst)).preemptedOn n (pass2.map Prod.fst)).containers
        ((u.plannedOn n (pass1.map Prod.fst)).preemptedOn n (pass2.map Prod.fst)).requests) :=
      settle_dispatches f r u something
    generalize ((u.plannedOn n (pass1.map Prod.fst)).preemptedOn n (pass2.map Prod.fst)).containers = records at recordsAfter settled
    generalize ((u.plannedOn n (pass1.map Prod.fst)).preemptedOn n (pass2.map Prod.fst)).requests = requests at requestsAfter settled
    let round := u.roundOf f r pass1 pass2
    let t := u.dispatched f n round records requests
    have entries : (round.entries.map fun e => (e.container, e.volume)).Perm (pass1 ++ pass2) :=
      pairs ▸ routeEntries_perm (u.takenBy pass1 pass2)
    have once : (round.entries.map Entry.container).Nodup := by
      have named := (entries.map Prod.fst).nodup_iff.mpr (List.map_append ▸ distinct)
      rwa [List.map_map] at named
    have held : t.slots[n].round = some round := congrArg Slot.round (set_at ..)
    have deadline : round.deadline.toNat = due := held_toNat _
    have sum : round.total = total := by
      have volumes := congrArg (fun l => (l.map Prod.snd).sum) pairs
      rwa [List.map_map] at volumes
    refine ⟨round.entries, round, t, ?_, entries, fun e he => roundOf_entry distinct he,
      routeEntries_ordered (fun a => s.stations[a].config.rank) (containers ▸ distinct) fun _ ht => takenBy_ranked ht,
      ?_, rfl, ?_, rfl, fun i => ?_, fun i => ?_, rfl, rfl, rfl, rfl, rfl, rfl, rfl, rfl, rfl, rfl, rfl, rfl, rfl, rfl, rfl,
      rfl, rfl, rfl, rfl⟩
    · refine runs (settled.trans ((expireRound_of held once).trans ?_))
      rw [deadline]
      rfl
    · change ({ tag, vehicle, dispatch := now, deadline := satAdd now duration, total := round.total, entries := round.entries } :
        Round) = _
      rw [sum]
      rfl
    · rw [← sum]
      rfl
    · refine (requestsAfter i).trans ?_
      by_cases first : i ∈ pass1.map Prod.fst
      · have other : i ∉ pass2.map Prod.fst := fun taken => (List.nodup_append'.mp distinct).2.2 first taken
        rw [if_neg other, if_pos first, if_pos first]
        rfl
      · rw [if_neg first, if_neg first]
        rfl
    · refine (recordsAfter i).trans ?_
      by_cases taken : i ∈ pass2.map Prod.fst
      · rw [if_pos taken, if_pos taken]
        have request : t.requests[i] = u.preemptedRequest n i := (requestsAfter i).trans (if_pos taken)
        rw [request]
        rfl
      · rw [if_neg taken, if_neg taken]
        rfl

end Sys2Proof.Machine

end

section
/-! PROOFS. Settings, line states, the line test and the cycle wrap: O43 to O46. -/

namespace Sys2Proof.Machine

/-! ### Settings (R8, R159) -/

theorem fieldRate?_none {n : Nat} (h : 3 < n) : fieldRate? n = none := by
  match n, h with
  | _ + 4, _ => rfl

theorem fieldRate_coded {code : Byte} {rate : FieldRate} (h : (code, rate) ∈ fieldRateCodes) :
    fieldRate? code.toNat = some rate ∧ rate.code = code := by
  simp only [fieldRateCodes, List.mem_cons, Prod.mk.injEq, List.not_mem_nil, or_false] at h
  rcases h with ⟨rfl, rfl⟩ | ⟨rfl, rfl⟩ | ⟨rfl, rfl⟩ | ⟨rfl, rfl⟩ <;> exact ⟨rfl, rfl⟩

/-- The fields of a SETTINGS PUT, byte by byte (R159, R172). -/
theorem settingsFields?_eq (tag o1 o0 w l1 l0 code : Byte) :
    settingsFields? { tag, payload := [0x50, o1, o0, w, l1, l0, code] } = (fieldRate? code.toNat).bind fun rate =>
      if (10 ≤ (word16 o1 o0).toNat ∧ (word16 o1 o0).toNat ≤ 300) ∧ (5 ≤ w.toNat ∧ w.toNat ≤ 100) ∧
          (600 ≤ (word16 l1 l0).toNat ∧ (word16 l1 l0).toNat ≤ 7200) then
        some { hatchOpen := (word16 o1 o0).toNat, window := w.toNat, liftTimeout := (word16 l1 l0).toNat, rate }
      else none := by
  rw [← beNat_two, ← beNat_two]
  unfold settingsFields?
  change (match fieldRate? code.toNat with
    | some rate => _
    | none => none) = _
  cases fieldRate? code.toNat <;> rfl

/-- Settles O43. -/
theorem settingsPutAndGet : Obligations.SettingsPutAndGet := by
  constructor
  · intro s rest tag o1 o0 w l1 l0 code f hatch lift h
    have fields := settingsFields?_eq tag o1 o0 w l1 l0 code
    refine ⟨fun outside => h.run rfl rfl rfl ?_, fun rate h1 h2 w1 w2 l1' l2 coded => ?_⟩
    · have none : settingsFields? f = none := by
        refine fields.trans (Option.bind_eq_none_iff.mpr fun rate hr => if_neg fun inside => ?_)
        rcases Nat.lt_or_ge 3 code.toNat with beyond | within
        · exact absurd (hr.symm.trans (fieldRate?_none beyond)) nofun
        · change hatch < 10 ∨ 300 < hatch ∨ w.toNat < 5 ∨ 100 < w.toNat ∨ lift < 600 ∨ 7200 < lift ∨ 3 < code.toNat at outside
          change (10 ≤ hatch ∧ hatch ≤ 300) ∧ (5 ≤ w.toNat ∧ w.toNat ≤ 100) ∧ (600 ≤ lift ∧ lift ≤ 7200) at inside
          omega
      rw [State.settingsPut, none]
      rfl
    · obtain ⟨decoded, encoded⟩ := fieldRate_coded coded
      have held : settingsFields? f = some { hatchOpen := hatch, window := w.toNat, liftTimeout := lift, rate } := by
        refine fields.trans ?_
        rw [decoded]
        exact if_pos ⟨⟨h1, h2⟩, ⟨w1, w2⟩, l1', l2⟩
      refine ⟨fun other busy => h.run rfl rfl rfl ?_, fun allowed => h.run rfl rfl rfl ?_⟩
      · rw [State.settingsPut, held]
        exact if_pos ⟨other, busy⟩
      · have bytes : Settings.bytes { hatchOpen := hatch, window := w.toNat, liftTimeout := lift, rate } =
            [o1, o0, w, l1, l0, code] := by
          unfold Settings.bytes
          dsimp only
          rw [be2_word16, be2_word16, encoded, show byte w.toNat = w from BitVec.eq_of_toNat_eq (byte_toNat_of_lt w.isLt)]
          rfl
        rw [State.settingsPut, held]
        refine (if_neg fun h => ?_).trans (congrArg (fun d => State.respond f .done d _) bytes)
        exact allowed.elim h.1 h.2
  · intro s rest tag f h
    refine ⟨s.settings.rate.code, s.device.uplinkRate.code, ?_, ?_, h.run rfl rfl rfl ?_⟩
    · cases s.settings.rate <;> decide
    · cases s.device.uplinkRate <;> decide
    · rw [State.settingsGet, Settings.bytes, List.append_assoc]
      rfl

/-! ### Line states (R2 to R7) -/

/-- An answer after a change that keeps the FIFO. -/
theorem answered_of_fifo {f : RequestFrame} {rest : List RequestFrame} {t : State} (h : t.intake.fifo = rest) (code : ResultCode)
    (data : List Byte) : t.respond f code data = State.answered rest f code data t := by
  subst h
  rfl

/-- Settles O44. -/
theorem lineStartAndStop : Obligations.LineStartAndStop := by
  constructor
  · intro s rest tag f h
    refine ⟨fun stopped idle => h.run rfl rfl rfl ?_, fun stopped busy => h.run rfl rfl rfl ?_,
      fun draining => h.run rfl rfl rfl ?_, fun running => h.run rfl rfl rfl ?_, fun test => h.run rfl rfl rfl ?_⟩
    all_goals unfold State.lineStart
    · rw [show (s.took rest).line.state = .stopped from stopped]
      dsimp only
      refine (congrArg (State.respond f .done []) (if_neg fun busy => Option.isSome_iff_ne_none.mp busy idle)).trans ?_
      refine answered_of_fifo ?_ .done []
      rw [(wrap_only _).intake]
      rfl
    · rw [show (s.took rest).line.state = .stopped from stopped]
      exact congrArg (State.respond f .done []) (if_pos (Option.isSome_iff_ne_none.mpr busy))
    · rw [show (s.took rest).line.state = .draining from draining]
      dsimp only
      rw [show (s.took rest).line.heldStop = s.line.heldStop from rfl]
      cases s.line.heldStop with
      | none => simp [State.answered, State.respond, State.took]
      | some held => rfl
    · rw [show (s.took rest).line.state = .running from running]
      rfl
    · rw [show (s.took rest).line.state = .test from test]
      rfl
  · intro s rest tag f h
    refine ⟨fun running none => h.run rfl rfl rfl ?_, fun running some => h.run rfl rfl rfl ?_,
      fun draining => h.run rfl rfl rfl ?_, fun stopped => h.run rfl rfl rfl ?_, fun test => h.run rfl rfl rfl ?_⟩
    all_goals unfold State.lineStop
    · rw [show (s.took rest).line.state = .running from running]
      exact if_pos none
    · rw [show (s.took rest).line.state = .running from running]
      exact if_neg some
    · rw [show (s.took rest).line.state = .draining from draining]
      rfl
    · rw [show (s.took rest).line.state = .stopped from stopped]
      rfl
    · rw [show (s.took rest).line.state = .test from test]
      rfl

/-- Settles O45. -/
theorem lineTestRuns : Obligations.LineTestRuns := by
  refine ⟨?_, fun s x test state idle judged unsent => ?_, fun s out => ?_, fun s x sent heard test transmitted => ?_⟩
  · intro s rest tag f h
    refine ⟨fun stopped => h.run rfl rfl rfl ?_, fun busy => h.run rfl rfl rfl ?_⟩
    all_goals unfold State.lineTest
    · rw [show (s.took rest).line.state = .stopped from stopped]
      rfl
    · change (match s.line.state with
        | .stopped => _
        | .running => _
        | .draining => _
        | .test => _) = _
      cases state : s.line.state with
      | stopped => exact absurd state busy
      | running => rfl
      | draining => rfl
      | test => rfl
  · change Host.Outcome.next (match s.line.test with
      | some x => _
      | none => _) = _
    rw [test]
    exact congrArg Host.Outcome.next (if_pos ⟨state, idle, judged, unsent⟩)
  · change Host.Outcome.next (match s.line.test with
      | some x => _
      | none => _) = _
    cases test : s.line.test with
    | none => rfl
    | some x =>
      refine congrArg Host.Outcome.next (if_neg fun ⟨state, idle, judged, _⟩ => ?_)
      rcases out with h | h | h | h
      · exact h state
      · exact h idle
      · exact h judged
      · exact absurd (test.symm.trans h) nofun
  · have run : exec (.testTransmissionJudged heard) s = .next (s.settleTest (x.judged sent heard)) := by
      change Host.Outcome.next (match s.line.test, s.line.testTx with
        | some x, some sent => _
        | _, _ => _) = _
      rw [test, transmitted]
    have judged : x.judged sent heard = { x with matched := if heard = sent then x.matched + 1 else x.matched } := by
      unfold LineTest.judged
      split <;> rfl
    rw [run, judged]
    exact ⟨fun more => congrArg Host.Outcome.next (if_neg more), fun last => congrArg Host.Outcome.next (if_pos last)⟩

/-! ### The cycle wrap (R12, R30) -/

theorem stationAborted_other {a b : StationIx} (h : a ≠ b) (s : State) : (s.stationAborted a).stations[b] = s.stations[b] :=
  set_ne s.stations h _

theorem stationAborted_own (a : StationIx) (s : State) :
    (s.stationAborted a).stations[a] = s.stations[a].closing (s.sessionsAt a) := set_at ..

/-- A write at one station leaves the records of the others. -/
theorem writeApplied_other {a b : StationIx} (h : a ≠ b) (c : StationConfig) (s : State) :
    (s.writeApplied a c).stations[b] = s.stations[b] ∧ (s.writeApplied a c).links[b] = s.links[b] := by
  have link (p : Prop) [Decidable p] (l : Link) : (if p then s.links.set a l else s.links)[b] = s.links[b] := by
    split
    · exact set_ne s.links h l
    · rfl
  unfold State.writeApplied
  dsimp only
  split
  · exact ⟨set_ne s.stations h _, link _ _⟩
  · split
    · exact ⟨(set_ne _ h _).trans ((stationAborted_other h _).trans (set_ne s.stations h _)), link _ _⟩
    · exact ⟨set_ne s.stations h _, link _ _⟩

/-- The station record that a write leaves at its station: nothing staged, and the configuration written, or that of R28. -/
theorem writeApplied_own (a : StationIx) (c : StationConfig) (s : State) :
    (s.writeApplied a c).stations[a].staged = none ∧
      (s.writeApplied a c).stations[a].config = if c.configured then c else Station.reset.config := by
  have released (x : Station) : x.autoReleased.staged = x.staged ∧ x.autoReleased.config = x.config := by
    unfold Station.autoReleased
    split <;> exact ⟨rfl, rfl⟩
  unfold State.writeApplied
  dsimp only
  cases configured : c.configured with
  | false =>
    rw [if_pos rfl]
    dsimp only
    rw [set_at]
    exact ⟨rfl, rfl⟩
  | true =>
    rw [if_neg (by simp), if_pos rfl]
    split
    · dsimp only
      rw [set_at, stationAborted_own, set_at]
      exact released _
    · dsimp only
      rw [set_at]
      exact released _

/-- The record after a station's share of a wrap. -/
theorem stationWrapped_own (s : State) (a : StationIx) : (s.stationWrapped a).stations[a] = Station.cycleReleased
    (match s.stations[a].staged with
    | none => s.stations[a]
    | some c => (s.writeApplied a c).stations[a]) := by
  unfold State.stationWrapped
  cases s.stations[a].staged with
  | none => exact set_at ..
  | some c => exact set_at ..

theorem stationWrapped_other (s : State) {a b : StationIx} (h : a ≠ b) :
    (s.stationWrapped a).stations[b] = s.stations[b] ∧ (s.stationWrapped a).links[b] = s.links[b] := by
  unfold State.stationWrapped
  cases s.stations[a].staged with
  | none => exact ⟨set_ne s.stations h _, rfl⟩
  | some c =>
    obtain ⟨station, link⟩ := writeApplied_other h c s
    exact ⟨(set_ne _ h _).trans station, link⟩

/-- Without a staged part the link stays. -/
theorem stationWrapped_unstaged {s : State} {a : StationIx} (h : s.stations[a].staged = none) :
    (s.stationWrapped a).stations[a] = s.stations[a].cycleReleased ∧ (s.stationWrapped a).links[a] = s.links[a] := by
  refine ⟨?_, ?_⟩
  · rw [stationWrapped_own, h]
  · unfold State.stationWrapped
    rw [h]

/-- Among the stations' shares of a wrap, a station's own record and link are read and written by its own share alone. -/
theorem foldl_stationWrapped (a : StationIx) : ∀ (l : List StationIx) (s : State), l.Nodup →
    (a ∉ l → (l.foldl State.stationWrapped s).stations[a] = s.stations[a] ∧
      (l.foldl State.stationWrapped s).links[a] = s.links[a]) ∧
    (a ∈ l → ∃ u : State, u.stations[a] = s.stations[a] ∧ u.links[a] = s.links[a] ∧
      (l.foldl State.stationWrapped s).stations[a] = (u.stationWrapped a).stations[a] ∧
      (l.foldl State.stationWrapped s).links[a] = (u.stationWrapped a).links[a])
  | [], s, _ => ⟨fun _ => ⟨rfl, rfl⟩, fun h => absurd h List.not_mem_nil⟩
  | b :: l, s, distinct => by
    obtain ⟨fresh, distinct⟩ := List.nodup_cons.mp distinct
    obtain ⟨out, inside⟩ := foldl_stationWrapped a l (s.stationWrapped b) distinct
    rw [List.foldl_cons]
    by_cases here : b = a
    · subst here
      exact ⟨fun h => absurd (List.mem_cons_self ..) h, fun _ => ⟨s, rfl, rfl, out fresh⟩⟩
    · obtain ⟨station, link⟩ := stationWrapped_other s here
      rw [station, link] at out inside
      refine ⟨fun h => out fun h' => h (List.mem_cons_of_mem _ h'), fun h => inside ?_⟩
      exact (List.mem_cons.mp h).resolve_left (Ne.symm here)

theorem wrap_station (s : State) (a : StationIx) : ∃ u : State, u.stations[a] = s.stations[a] ∧ u.links[a] = s.links[a] ∧
    s.wrap.stations[a] = (u.stationWrapped a).stations[a] ∧ s.wrap.links[a] = (u.stationWrapped a).links[a] := by
  have share := (foldl_stationWrapped a _ s (List.nodup_finRange 48)).2 (List.mem_finRange a)
  rw [wrap_eq]
  generalize (List.finRange 48).foldl State.stationWrapped s = t at share ⊢
  exact share

theorem cycleReleased_keeps (x : Station) : x.cycleReleased.staged = x.staged ∧ x.cycleReleased.config = x.config := by
  unfold Station.cycleReleased
  split <;> exact ⟨rfl, rfl⟩

theorem stationWrapped_cycleCount (s : State) (a : StationIx) : (s.stationWrapped a).line.cycleCount = s.line.cycleCount := by
  unfold State.stationWrapped
  cases s.stations[a].staged with
  | none => rfl
  | some c =>
    dsimp only
    unfold State.writeApplied
    dsimp only
    split
    · rfl
    · split <;> rfl

theorem foldl_stationWrapped_cycleCount : ∀ (l : List StationIx) (s : State),
    (l.foldl State.stationWrapped s).line.cycleCount = s.line.cycleCount
  | [], _ => rfl
  | a :: l, s => (foldl_stationWrapped_cycleCount l _).trans (stationWrapped_cycleCount s a)

/-- The poll list, the regular pointer and the due wrap after a wrap (R12). -/
theorem wrap_line (s : State) :
    s.wrap.line.pollList = s.wrap.pollStations ∧ s.wrap.line.pointer = 0 ∧ s.wrap.line.wrapDue = false := by
  unfold State.wrap
  generalize (List.finRange Config.stations).foldl State.stationWrap s = t
  exact ⟨rfl, rfl, rfl⟩

theorem wrap_cycleCount (s : State) : s.wrap.line.cycleCount = s.line.cycleCount + 1 := by
  have count := foldl_stationWrapped_cycleCount (List.finRange 48) s
  rw [wrap_eq]
  generalize (List.finRange 48).foldl State.stationWrapped s = t at count ⊢
  exact congrArg (· + 1) count

theorem mem_pollStations {s : State} {a : StationIx} : a ∈ s.pollStations ↔
    s.stations[a].config.configured = true ∧ s.stations[a].config.enabled = true ∧ s.links[a].status ≠ .disabled := by
  unfold State.pollStations
  rw [List.mem_filter]
  simp only [List.mem_finRange, true_and, Bool.and_eq_true, decide_eq_true_eq, and_assoc]

theorem pollStations_ordered (s : State) : s.pollStations.Pairwise fun a b => a < b := by
  unfold State.pollStations
  exact (List.pairwise_lt_finRange Config.stations).filter _

theorem polling_iff (s : State) : s.polling = true ↔ s.line.state = .running ∨ s.line.state = .draining := by
  simp only [State.polling, Bool.or_eq_true, decide_eq_true_eq]

theorem not_polling {s : State} (h : s.line.state = .stopped ∨ s.line.state = .test) : s.polling = false := by
  rcases h with h | h <;> simp [State.polling, h]

/-- Settles O46. -/
theorem cycleWrap : Obligations.CycleWrap := by
  constructor
  · intro s
    have whole := wrap_eq s
    have count := wrap_cycleCount s
    obtain ⟨list, pointer, due⟩ := wrap_line s
    have ordered := pollStations_ordered s.wrap
    have member (a : StationIx) := mem_pollStations (s := s.wrap) (a := a)
    have share := wrap_station s
    rw [← list] at ordered member
    generalize s.wrap = t at *
    generalize (List.finRange 48).foldl State.stationWrapped s = u at *
    refine ⟨whole, ?_, ordered, member, pointer, due, fun a => ?_, fun a c staged configured => ?_,
      fun a c staged configured => ?_, fun a unstaged => ?_⟩
    · rw [count, BitVec.toNat_add]
      rfl
    all_goals
      obtain ⟨v, station, link, after, linkAfter⟩ := share a
      obtain ⟨keepsStaged, keepsConfig⟩ := cycleReleased_keeps (match v.stations[a].staged with
        | none => v.stations[a]
        | some c => (v.writeApplied a c).stations[a])
      rw [after]
    · rw [stationWrapped_own, keepsStaged]
      cases staged : v.stations[a].staged with
      | none => exact staged
      | some c => exact (writeApplied_own a c v).1
    · rw [stationWrapped_own, keepsConfig, station, staged]
      exact (writeApplied_own a c v).2.trans (if_pos configured)
    · rw [stationWrapped_own, keepsConfig, station, staged]
      exact (writeApplied_own a c v).2.trans (if_neg fun h => Bool.false_ne_true (configured.symm.trans h))
    · obtain ⟨own, ownLink⟩ := stationWrapped_unstaged (s := v) (station ▸ unstaged)
      refine ⟨linkAfter.trans (ownLink.trans link), own.trans ?_⟩
      rw [station]
      rfl
  · intro s
    refine ⟨fun state empty => ⟨fun idle => ?_, fun busy => ?_⟩, fun out => ?_⟩
    · have runs := (polling_iff s).mpr state
      refine congrArg Host.Outcome.next ((if_pos ⟨runs, empty⟩).trans (if_neg fun busy => ?_))
      exact Option.isSome_iff_ne_none.mp busy idle
    · have runs := (polling_iff s).mpr state
      exact congrArg Host.Outcome.next ((if_pos ⟨runs, empty⟩).trans (if_pos (Option.isSome_iff_ne_none.mpr busy)))
    · refine congrArg Host.Outcome.next (if_neg fun ⟨runs, empty⟩ => ?_)
      rw [polling_iff] at runs
      rcases out with h | h | h
      · simp [h] at runs
      · simp [h] at runs
      · exact h empty

end Sys2Proof.Machine

end

section
/-! PROOFS. The choice of turns and the turns that fail: O47 to O49. -/

namespace Sys2Proof.Machine

/-! ### The choice of the next turn (R11, R12) -/

/-- The first station from a position on that passes a test, with the entries passed up to and with it. -/
theorem find?_from {α : Type} (test : α → Bool) {l : List α} {q k : Nat} {a : α} (from_ : q ≤ k) (here : l[k]? = some a)
    (passes : test a = true) (before : ∀ j b, q ≤ j → j < k → l[j]? = some b → test b = false) :
    ((l.zipIdx 1).drop q).find? (fun p => test p.1) = some (a, k + 1) := by
  obtain ⟨inside, rfl⟩ := List.getElem?_eq_some_iff.mp here
  have entry (j : Nat) (h : j < ((l.zipIdx 1).drop q).length) : ((l.zipIdx 1).drop q)[j] = (l[q + j]'(by simp at h; omega), q + j + 1) := by
    rw [List.getElem_drop, List.getElem_zipIdx, Nat.add_comm 1]
  have size : k - q < ((l.zipIdx 1).drop q).length := by simp; omega
  refine List.find?_eq_some_iff_getElem.mpr ⟨passes, k - q, size, ?_, fun j hj => ?_⟩
  · rw [entry _ size]
    simp only [Nat.add_sub_cancel' from_]
  · rw [entry _ (hj.trans size)]
    have fails := before (q + j) _ (Nat.le_add_right ..) (by omega) (List.getElem?_eq_getElem (by omega))
    simpa using fails

theorem find?_from_none {α : Type} (test : α → Bool) {l : List α} {q : Nat}
    (none : ∀ j b, q ≤ j → l[j]? = some b → test b = false) : ((l.zipIdx 1).drop q).find? (fun p => test p.1) = .none := by
  refine List.find?_eq_none.mpr fun p hp => ?_
  obtain ⟨j, h, rfl⟩ := List.getElem_of_mem hp
  have inside : q + j < l.length := by simp at h; omega
  have fails := none (q + j) l[q + j] (Nat.le_add_right ..) (List.getElem?_eq_getElem inside)
  rw [List.getElem_drop, List.getElem_zipIdx]
  simpa using fails

theorem nextRegular_some {s : State} {k : Nat} {a : StationIx} (after : s.line.pointer ≤ k) (here : s.line.pollList[k]? = some a)
    (able : s.links[a].status ≠ .disabled)
    (passed : ∀ j b, s.line.pointer ≤ j → j < k → s.line.pollList[j]? = some b → s.links[b].status = .disabled) :
    s.nextRegular = some (a, k + 1) :=
  find?_from (fun b : StationIx => decide (s.links[b].status ≠ .disabled)) after here (decide_eq_true able)
    fun j b h1 h2 h3 => decide_eq_false (not_not_intro (passed j b h1 h2 h3))

theorem nextRegular_none {s : State}
    (passed : ∀ k b, s.line.pointer ≤ k → s.line.pollList[k]? = some b → s.links[b].status = .disabled) :
    s.nextRegular = none :=
  find?_from_none (fun b : StationIx => decide (s.links[b].status ≠ .disabled))
    fun j b h1 h2 => decide_eq_false (not_not_intro (passed j b h1 h2))

theorem chooseSession_nil {s : State} (h : s.line.ring = []) : s.chooseSession = s := by
  unfold State.chooseSession
  rw [h]

theorem chooseSession_cons {s : State} {a : StationIx} {ring : List StationIx} (h : s.line.ring = a :: ring) :
    s.chooseSession = { s with line := { s.line with nextTurn := some (a, .session) } } := by
  unfold State.chooseSession
  rw [h]

theorem chooseTurn_idle {s : State} (previous : Option SlotKind) (h : s.line.state = .stopped ∨ s.line.state = .test) :
    s.chooseTurn previous = s := if_pos (not_polling h)

/-- While turns may begin, an empty poll list or a regular slot before with a ring that is not empty gives a session slot. -/
theorem chooseTurn_session {s : State} {previous : Option SlotKind} (runs : s.polling = true)
    (h : s.line.pollList = [] ∨ (previous = some .regular ∧ s.line.ring ≠ [])) : s.chooseTurn previous = s.chooseSession := by
  unfold State.chooseTurn
  rw [if_neg (by simp [runs])]
  by_cases empty : s.line.pollList = []
  · exact if_pos empty
  · exact (if_neg empty).trans (if_pos (h.resolve_left empty))

/-- Otherwise the station that the regular pointer finds has a regular slot. -/
theorem chooseTurn_regular {s : State} {previous : Option SlotKind} (runs : s.polling = true) (list : s.line.pollList ≠ [])
    (h : previous ≠ some .regular ∨ s.line.ring = []) {a : StationIx} {passed : Nat} (next : s.nextRegular = some (a, passed)) :
    s.chooseTurn previous = s.chooseRegular a passed := by
  unfold State.chooseTurn
  rw [if_neg (by simp [runs]), if_neg list, if_neg fun ⟨regular, ring⟩ => h.elim (· regular) ring, next]

/-- Where it finds none the list has been passed. -/
theorem chooseTurn_wraps {s : State} {previous : Option SlotKind} (runs : s.polling = true) (list : s.line.pollList ≠ [])
    (h : previous ≠ some .regular ∨ s.line.ring = []) (next : s.nextRegular = none) :
    s.chooseTurn previous = s.wrap.chooseAfterWrap := by
  unfold State.chooseTurn
  rw [if_neg (by simp [runs]), if_neg list, if_neg fun ⟨regular, ring⟩ => h.elim (· regular) ring, next]

theorem chooseAfterWrap_nil {s : State} (runs : s.polling = true) (list : s.line.pollList = []) :
    s.chooseAfterWrap = s.chooseSession := by
  unfold State.chooseAfterWrap
  rw [if_neg (by simp [runs]), list]

theorem chooseAfterWrap_cons {s : State} (runs : s.polling = true) {a : StationIx} {more : List StationIx}
    (list : s.line.pollList = a :: more) : s.chooseAfterWrap = s.chooseRegular a 1 := by
  unfold State.chooseAfterWrap
  rw [if_neg (by simp [runs]), list]

/-- Settles O47. -/
theorem nextTurnIsChosen : Obligations.NextTurnIsChosen := by
  intro s previous
  refine ⟨chooseTurn_idle previous, fun state => ?_, fun kind => ⟨fun undue => ?_, fun due => ?_⟩⟩
  · have runs := (polling_iff s).mpr state
    refine ⟨fun session a ring h => ?_, fun empty none => ?_, fun list regular => ⟨fun k a after here able passed => ?_,
      fun passed => ?_⟩⟩
    · refine (chooseTurn_session runs (session.imp_right fun h' => ⟨h', ?_⟩)).trans (chooseSession_cons h)
      rw [h]
      exact List.cons_ne_nil a ring
    · exact (chooseTurn_session runs (.inl empty)).trans (chooseSession_nil none)
    · exact chooseTurn_regular runs list regular (nextRegular_some after here able passed)
    · have wraps := chooseTurn_wraps runs list regular (nextRegular_none passed)
      intro w
      refine ⟨fun ended => wraps.trans (if_pos (not_polling ended)), fun going => ?_⟩
      have runs := (polling_iff w).mpr going
      refine ⟨fun a list first => wraps.trans (chooseAfterWrap_cons runs first), fun empty => ?_⟩
      have session := wraps.trans (chooseAfterWrap_nil runs empty)
      exact ⟨fun a ring h => session.trans (chooseSession_cons h), fun none => session.trans (chooseSession_nil none)⟩
  · exact congrArg (State.chooseTurn (some kind)) (if_neg (by simpa using undue))
  · exact congrArg (State.chooseTurn (some kind)) (if_pos due)

end Sys2Proof.Machine

end

section
/-! PROOFS. Poll turns and replies: O48 to O51. -/

namespace Sys2Proof.Machine

/-! ### The parts of a turn (R13, R14) -/

theorem addressChar_addr (a : StationIx) : addressChar (addr a) = { mark := true, data := byte (addr a) } := by
  have within : a.val < 48 := a.isLt
  have whole : addr a % 64 = addr a := Nat.mod_eq_of_lt (by unfold addr; omega)
  rw [addressChar, whole]

/-- The characters of a poll transmission, spelled out (R13). -/
theorem pollChars_eq (a : StationIx) (mask : Option AcceptMask) (inlets : List InletIx) (message : Option Message) :
    pollChars a mask inlets message = { mark := true, data := byte (addr a) } ::
      (fieldFrame 0x01 (match mask with
        | none => [0, 0]
        | some m => [bitAt 7 true ||| m.positions.zeroExtend 8, m.reply]) ++
      inlets.flatMap (fun n => fieldFrame 0x02 [byte (inletNo n)]) ++
      (match message with
        | none => []
        | some m => fieldFrame 0x03 m.payload)).map fun b => { mark := false, data := b } := by
  unfold pollChars
  rw [addressChar_addr]
  cases mask <;> cases message <;> rfl

/-- Where a turn may begin, the poll transmission begins the turn that is chosen (R11, R13). -/
theorem exec_pollTransmission {s : State} (idle : s.line.turn = none) (runs : s.polling = true) :
    exec .pollTransmission s = .next s.withNextTurn.beginNextTurn := by
  refine congrArg Host.Outcome.next (if_neg ?_)
  rw [idle, runs]
  decide

theorem beginNextTurn_some {s : State} {a : StationIx} {kind : SlotKind} (h : s.line.nextTurn = some (a, kind)) :
    s.beginNextTurn = s.beginTurn a kind := by
  unfold State.beginNextTurn
  rw [h]

theorem beginNextTurn_none {s : State} (h : s.line.nextTurn = none) : s.beginNextTurn = s := by
  unfold State.beginNextTurn
  rw [h]

/-- Settles O48. -/
theorem pollTurnGoesOn : Obligations.PollTurnGoesOn := by
  refine ⟨fun s a kind idle state chosen => ?_, fun s out => ?_, fun s idle state unchosen => ?_, fun s t turn => ?_⟩
  · intro x inlets poll closes message
    have held : s.withNextTurn = s := if_pos (by rw [chosen]; rfl)
    rw [exec_pollTransmission idle ((polling_iff s).mpr state), held, beginNextTurn_some chosen, State.beginTurn]
    dsimp only
    rw [pollChars_eq]
    rfl
  · refine congrArg Host.Outcome.next (if_pos ?_)
    rcases out with busy | out
    · rw [Option.isSome_iff_ne_none.mpr busy, Bool.true_or]
    · rw [not_polling out, Bool.not_false, Bool.or_true]
  · have chooses : s.withNextTurn = s.chooseTurn none := if_neg (by rw [unchosen]; decide)
    rw [exec_pollTransmission idle ((polling_iff s).mpr state), chooses]
    exact ⟨fun h => congrArg Host.Outcome.next (beginNextTurn_none h), fun a kind h => congrArg Host.Outcome.next (beginNextTurn_some h)⟩
  · refine ⟨fun sending => ?_, fun ms address window => ?_, fun address receiving => ?_⟩
    · rw [show exec .pollTransmissionEnd s = execPollTransmissionEnd s from rfl, execPollTransmissionEnd, turn]
      exact congrArg Host.Outcome.next (if_pos sending)
    · rw [show exec (.replyStart address) s = execReplyStart address s from rfl, execReplyStart, turn]
      dsimp only
      rw [window]
      rfl
    · rw [show exec .replyLengthLimit s = execReplyLengthLimit s from rfl, execReplyLengthLimit, turn]
      dsimp only
      rw [receiving]
      rfl

/-! ### Turns without a sound header (R21, R22) -/

/-- A failed turn whose link status stays. -/
theorem failTurn_stays {t : Turn} {o : TurnOutcome} {s : State} (ho : o ≠ .good)
    (stays : (s.links[t.station].failed (decide (o = .mismatch))).status = s.links[t.station].status) :
    s.failTurn t o =
      let u : State := { s with links := s.links.set t.station (s.links[t.station].failed (decide (o = .mismatch))) }
      State.endTurn t.kind (if t.message then u.trySpent t.station else u) := by
  rw [failTurn_eq t o s ho]
  dsimp only
  rw [if_pos stays]

/-- A failed turn whose link status changes is a line fault. -/
theorem failTurn_faults {t : Turn} {o : TurnOutcome} {s : State} (ho : o ≠ .good)
    (changes : (s.links[t.station].failed (decide (o = .mismatch))).status ≠ s.links[t.station].status) :
    s.failTurn t o = State.endTurn t.kind (s.lineFaulted t.station (s.links[t.station].failed (decide (o = .mismatch)))) := by
  rw [failTurn_eq t o s ho]
  dsimp only
  rw [if_neg changes, lineFaulted_trySpent, ite_self]

theorem exec_replyEnd {s : State} {t : Turn} {address : Byte} {chars : List LineChar} (turn : s.line.turn = some t)
    (receiving : t.phase = .receiving address) : exec (.replyEnd chars) s = .next (s.replyEnd t address chars) := by
  rw [show exec (.replyEnd chars) s = execReplyEnd chars s from rfl, execReplyEnd, turn]
  dsimp only
  rw [receiving]

/-- Settles O49. -/
theorem turnsThatFail : Obligations.TurnsThatFail := by
  intro s t turn a fails
  have all {command : Instr} {mismatched : Bool} (o : TurnOutcome) (ho : o ≠ .good) (ho' : decide (o = .mismatch) = mismatched)
      (run : exec command s = .next (s.failTurn t o)) : fails command mismatched := by
    subst ho'
    exact ⟨fun stays => run.trans (congrArg Host.Outcome.next (failTurn_stays ho stays)),
      fun changes => run.trans (congrArg Host.Outcome.next (failTurn_faults ho changes))⟩
  refine ⟨fun ms window => all .noReply nofun rfl ?_, fun overlong => all .noReply nofun rfl ?_, fun address chars receiving => ?_⟩
  · rw [show exec .replyWindowExpiry s = execReplyWindowExpiry s from rfl, execReplyWindowExpiry, turn]
    dsimp only
    rw [window]
  · rw [show exec .replyOverrunTurnEnd s = execReplyOverrunTurnEnd s from rfl, execReplyOverrunTurnEnd, turn]
    exact congrArg Host.Outcome.next (if_pos overlong)
  · have ends := exec_replyEnd (chars := chars) turn receiving
    refine ⟨fun other => all .mismatch nofun rfl ?_, fun _ _ bad => all .badHeader nofun rfl ?_⟩
    · have mismatch : classify t.station address chars = .mismatch := if_pos other
      rw [ends, State.replyEnd, mismatch]
    · rw [ends, State.replyEnd, bad]

/-! ### The frames of a reply (R15, R16, R169 to R171) -/

/-- What a character with its mark bit set ends is framed whole. -/
theorem framingBytes_append (bytes : List Byte) {rest : List LineChar}
    (h : rest = [] ∨ ∃ c cs, rest = c :: cs ∧ c.mark = true) :
    framingBytes ((bytes.map fun b => { mark := false, data := b }) ++ rest) = bytes := by
  have stop : rest.takeWhile (fun c => !c.mark) = [] := by
    rcases h with rfl | ⟨c, cs, rfl, marked⟩
    · rfl
    · rw [List.takeWhile_cons_of_neg (by simp [marked])]
  have run : ∀ c ∈ bytes.map (fun b => ({ mark := false, data := b } : LineChar)), (!c.mark) = true := by
    intro c hc
    obtain ⟨_, _, rfl⟩ := List.mem_map.mp hc
    rfl
  rw [framingBytes, List.takeWhile_append_of_pos run, stop, List.append_nil, List.map_map]
  exact List.map_id bytes

/-- A frame carries its check in two bytes (R169). -/
theorem passes_eq (f : HeardFrame) :
    decide (be2 f.check.toNat = crcBytes (f.kind :: byte f.payload.length :: f.payload)) = f.passes := by
  refine decide_eq_decide.mpr ?_
  rw [be2, crcBytes_eq_iff, word16_be2]

/-- No frame is found in an incomplete frame, nor behind a length byte above 24. -/
theorem splitFrames_tail {tail : List Byte}
    (h : tail.length < 2 ∨ ∃ kind len more, tail = kind :: len :: more ∧ (24 < len.toNat ∨ more.length < len.toNat + 2)) :
    ∀ fuel, splitFrames fuel tail = []
  | 0 => rfl
  | fuel + 1 => by
    rcases h with short | ⟨kind, len, more, rfl, stops⟩
    · match tail, short with
      | [], _ => rfl
      | [_], _ => rfl
    · exact if_pos stops

/-- The frames of a reply are found as they were sent. -/
theorem splitFrames_sent {tail : List Byte}
    (h : tail.length < 2 ∨ ∃ kind len more, tail = kind :: len :: more ∧ (24 < len.toNat ∨ more.length < len.toNat + 2)) :
    ∀ (frames : List HeardFrame) (fuel : Nat), (∀ f ∈ frames, f.payload.length ≤ 24) → frames.length ≤ fuel →
      splitFrames fuel (frames.flatMap HeardFrame.bytes ++ tail) = frames.map HeardFrame.raw
  | [], fuel, _, _ => splitFrames_tail h fuel
  | f :: frames, fuel + 1, sized, enough => by
    have short := sized f (List.mem_cons_self ..)
    have length : (byte f.payload.length).toNat = f.payload.length := byte_toNat_of_lt (by omega)
    have more := splitFrames_sent h frames fuel (fun g hg => sized g (List.mem_cons_of_mem _ hg))
      (by rw [List.length_cons] at enough; omega)
    have shape : (f :: frames).flatMap HeardFrame.bytes ++ tail = f.kind :: byte f.payload.length ::
        (f.payload ++ (be2 f.check.toNat ++ (frames.flatMap HeardFrame.bytes ++ tail))) := by
      simp only [List.flatMap_cons, HeardFrame.bytes, List.cons_append, List.append_assoc]
    have two : (be2 f.check.toNat).length = 2 := rfl
    rw [shape, splitFrames, length, if_neg (by simp only [List.length_append]; omega), List.take_left, List.drop_left,
      List.take_left' two, ← List.drop_drop, List.drop_left, List.drop_left' two, passes_eq, more]
    rfl

/-- What the frames found in a reply make of it: GOOD with a sound HEADER in front whose frame count is at most 4 (R15). -/
def headerJudged : List RawFrame → Reply
  | [] => .badHeader
  | header :: frames =>
    match header.payload with
    | [reply, summary, count] =>
      if header.sound = true ∧ header.kind = 0x41 ∧ count.toNat ≤ 4 then
        .good reply (summary.truncate 4) count.toNat frames
      else .badHeader
    | _ => .badHeader

theorem classify_own {a : StationIx} {address : Byte} (own : address.toNat % 64 = addr a) (uplink : address.getLsbD 7 = true)
    (chars : List LineChar) :
    classify a address chars = headerJudged (splitFrames (framingBytes chars).length (framingBytes chars)) := by
  have passes : ¬ (address.toNat % 64 ≠ addr a ∨ address.getLsbD 7 = false) := by
    simp [own, uplink]
  exact (if_neg passes).trans rfl

theorem headerJudged_good {header : RawFrame} {reply summary count : Byte} (frames : List RawFrame)
    (payload : header.payload = [reply, summary, count]) (sound : header.sound = true) (kind : header.kind = 0x41)
    (few : count.toNat ≤ 4) :
    headerJudged (header :: frames) = .good reply (summary.truncate 4) count.toNat frames := by
  rw [headerJudged, payload]
  exact if_pos ⟨sound, kind, few⟩

theorem headerJudged_bad {frames : List RawFrame}
    (h : ∀ header more reply summary count, frames = header :: more → header.sound = true → header.kind = 0x41 →
      header.payload = [reply, summary, count] → 4 < count.toNat) : headerJudged frames = .badHeader := by
  unfold headerJudged
  split
  · rfl
  · next header more =>
    split
    · next reply summary count payload =>
      refine if_neg fun ⟨sound, kind, few⟩ => ?_
      exact Nat.not_lt.mpr few (h header more reply summary count rfl sound kind payload)
    · rfl

theorem length_le_bytes (tail : List Byte) : ∀ frames : List HeardFrame,
    frames.length ≤ (frames.flatMap HeardFrame.bytes ++ tail).length
  | [] => Nat.zero_le _
  | f :: frames => by
    have more := length_le_bytes tail frames
    simp only [List.flatMap_cons, List.length_append, HeardFrame.bytes, List.length_cons] at more ⊢
    omega

/-- A reply of the station is classified by the frames sent in it (R15). -/
theorem classify_sent {a : StationIx} {address : Byte} {frames : List HeardFrame} {tail : List Byte} {rest : List LineChar}
    (own : address.toNat % 64 = addr a) (uplink : address.getLsbD 7 = true) (sized : ∀ f ∈ frames, f.payload.length ≤ 24)
    (h : tail.length < 2 ∨ ∃ kind len more, tail = kind :: len :: more ∧ (24 < len.toNat ∨ more.length < len.toNat + 2))
    (stop : rest = [] ∨ ∃ c cs, rest = c :: cs ∧ c.mark = true) :
    classify a address (((frames.flatMap HeardFrame.bytes ++ tail).map fun b => { mark := false, data := b }) ++ rest) =
      headerJudged (frames.map HeardFrame.raw) := by
  rw [classify_own own uplink, framingBytes_append _ stop, splitFrames_sent h frames _ sized (length_le_bytes tail frames)]

/-- Settles O50. -/
theorem replyFramesAreFound : Obligations.ReplyFramesAreFound := by
  intro a address frames tail rest own uplink sized incomplete stop bytes chars
  have found : classify a address chars = headerJudged (frames.map HeardFrame.raw) :=
    classify_sent own uplink sized incomplete stop
  refine ⟨fun header more reply summary count shape passes kind payload few => ?_, fun bad => ?_⟩
  · subst shape
    exact found.trans (headerJudged_good (more.map HeardFrame.raw) payload passes kind few)
  · refine found.trans (headerJudged_bad fun raw raws reply summary count shape sound kind payload => ?_)
    obtain ⟨header, more, rfl, rfl, _⟩ := List.map_eq_cons_iff.mp shape
    exact bad header more reply summary count rfl sound kind payload

/-! ### A GOOD reply without further frames (R18) -/

/-- The HEADER frame with its three fields and its check (R171). -/
def headerFrame (reply summary count : Byte) : HeardFrame :=
  { kind := 0x41, payload := [reply, summary, count], check := crc16 [0x41, 3, reply, summary, count] }

/-- A reply that holds a HEADER frame and some frames behind it is GOOD. -/
theorem classify_header {a : StationIx} {address reply summary count : Byte} (own : address.toNat % 64 = addr a)
    (uplink : address.getLsbD 7 = true) (few : count.toNat ≤ 4) {frames : List HeardFrame}
    (sized : ∀ f ∈ frames, f.payload.length ≤ 24) :
    classify a address ((fieldFrame 0x41 [reply, summary, count] ++ frames.flatMap HeardFrame.bytes).map
        fun b => { mark := false, data := b }) =
      .good reply (summary.truncate 4) count.toNat (frames.map HeardFrame.raw) := by
  have sent := classify_sent (frames := headerFrame reply summary count :: frames) (tail := []) (rest := []) own uplink
    (fun f hf => (List.mem_cons.mp hf).elim (fun e => e ▸ (by decide : 3 ≤ 24)) (sized f)) (.inl (by decide)) (.inl rfl)
  rw [List.append_nil, List.append_nil] at sent
  exact sent.trans (headerJudged_good _ rfl (decide_eq_true rfl) rfl few)

/-- Settles O51. -/
theorem goodReplyWithoutFrames : Obligations.GoodReplyWithoutFrames := by
  refine ⟨fun s t address reply summary count turn receiving own uplink few => ?_, fun s t turn closing => ?_⟩
  · intro a chars u
    have good : classify t.station address chars = .good reply (summary.truncate 4) count.toNat [] := by
      have header := classify_header (reply := reply) (summary := summary) own uplink few (frames := []) nofun
      rwa [List.flatMap_nil, List.append_nil] at header
    rw [exec_replyEnd turn receiving, State.replyEnd, good]
    exact congrArg Host.Outcome.next (goodReply_eq t reply (summary.truncate 4) count.toNat [] s)
  · rw [show exec .closingTransmissionEnd s = execClosingTransmissionEnd s from rfl, execClosingTransmissionEnd, turn]
    exact congrArg Host.Outcome.next (if_pos closing)

end Sys2Proof.Machine

end

section
/-! PROOFS. Admission and the frames of a reply: O52 and O53. -/

namespace Sys2Proof.Machine

/-! ### The eleven checks (R64 to R68) -/

theorem judgeCard_inletDenied {s : State} {a : StationIx} {inlet : Byte} {r : DenyReason} (card : Word32)
    (h : s.inletChecks a inlet = .inl r) : s.judgeCard a inlet card = (.deny r, s) := by
  rw [State.judgeCard, h]

theorem judgeCard_cardDenied {s : State} {a : StationIx} {inlet : Byte} {card : Word32} {r : DenyReason} {n : InletIx}
    {i : ContainerIx} {c : Container} (h : s.inletChecks a inlet = .inr (n, i, c))
    (k : s.cardChecks card c.binding.fraction = .inl r) : s.judgeCard a inlet card = (.deny r, s) := by
  rw [State.judgeCard, h]
  dsimp only
  rw [k]

theorem judgeCard_admitted {s : State} {a : StationIx} {inlet : Byte} {card : Word32} {n : InletIx} {i : ContainerIx}
    {c : Container} {k : Card} (h : s.inletChecks a inlet = .inr (n, i, c))
    (hk : s.cardChecks card c.binding.fraction = .inr k) :
    s.judgeCard a inlet card = s.grantOrDeny a n i c.binding.fraction k := by
  rw [State.judgeCard, h]
  dsimp only
  rw [hk]

/-- Check 3: an inlet above the station's count, and one to which no container is bound (R65). -/
theorem inletChecks_noInlet {s : State} {a : StationIx} {inlet : Byte} (runs : s.line.state = .running)
    (open_ : s.stations[a].locked = false)
    (h : s.stations[a].config.inletCount < inlet.toNat ∨
      ∀ i c, s.container i = some c → ¬ (c.binding.station = a ∧ inletNo c.binding.inlet = inlet.toNat)) :
    s.inletChecks a inlet = .inl .noInlet := by
  unfold State.inletChecks
  rw [if_neg (not_not_intro runs), if_neg fun k => Bool.false_ne_true (open_.symm.trans k)]
  cases hn : inletIx? inlet.toNat with
  | none => rfl
  | some n =>
    have number := inletNo_of_inletIx? hn
    by_cases above : s.stations[a].config.inletCount < inletNo n
    · exact if_pos above
    · have unbound : s.bound a n = none := by
        refine List.find?_eq_none.mpr fun i _ here => ?_
        cases hc : s.container i with
        | none => rw [hc] at here; cases here
        | some c =>
          rw [hc] at here
          simp only [Bool.and_eq_true, decide_eq_true_eq] at here
          exact (h.resolve_left (number ▸ above)) i c hc ⟨here.1, here.2 ▸ number⟩
      refine (if_neg above).trans ?_
      rw [unbound]

/-- Checks 4 and 5 at the container bound to the inlet (R65). -/
theorem inletChecks_reached {s : State} {a : StationIx} {inlet : Byte} (runs : s.line.state = .running)
    (open_ : s.stations[a].locked = false) (within : inlet.toNat ≤ s.stations[a].config.inletCount) {i : ContainerIx}
    {c : Container} (hc : s.container i = some c) (here : c.binding.station = a ∧ inletNo c.binding.inlet = inlet.toNat)
    (only : ∀ j d, s.container j = some d → d.binding.station = a ∧ inletNo d.binding.inlet = inlet.toNat → j = i) :
    s.inletChecks a inlet =
      if c.state.admits = false then .inl .inletOut
      else if c.params.tStop ≤ c.fill.e then .inl .full
      else .inr (c.binding.inlet, i, c) := by
  obtain ⟨station, number⟩ := here
  have bound := bound_unique s a i c hc station fun j d hd ha hn => only j d hd ⟨ha, hn ▸ number⟩
  unfold State.inletChecks
  rw [if_neg (not_not_intro runs), if_neg fun k => Bool.false_ne_true (open_.symm.trans k), inletIx?_inletNo number.symm]
  refine (if_neg (Nat.not_lt.mpr (number ▸ within))).trans ?_
  rw [bound]
  dsimp only
  rw [hc]

theorem admits_iff (x : ContainerState) : x.admits = true ↔ x = .idle ∨ x = .session := by
  cases x <;> simp [ContainerState.admits]

/-- Check 6: the card is in the table (R66). -/
theorem cardChecks_unknown {s : State} {card : Word32} (f : FractionIx) (h : s.card card = none) :
    s.cardChecks card f = .inl .unknownCard := by
  rw [State.cardChecks, h]

/-- Checks 7 to 9 on the card's record (R66). -/
theorem cardChecks_known {s : State} {card : Word32} (f : FractionIx) {k : Card} (h : s.card card = some k) :
    (k.status = .suspended → s.cardChecks card f = .inl .suspended) ∧
    (k.status = .revoked → s.cardChecks card f = .inl .revoked) ∧
    (k.status = .active → s.cardChecks card f =
      if k.entitled.getLsbD f = false then .inl .fraction
      else if k.allowance[f] = 255 ∨ k.used[f] < k.allowance[f] then .inr k else .inl .quota) := by
  unfold State.cardChecks
  rw [h]
  refine ⟨fun hs => ?_, fun hs => ?_, fun hs => ?_⟩
  all_goals dsimp only; rw [hs]

/-- The state that a grant leaves: the session opened (R69). -/
theorem openSession_eq {s : State} {x : Session} {c : Container} (h : s.container x.container = some c) :
    s.openSession x = { s with
      sessions := s.sessions ++ [x]
      nextSession := freeNumber (s.sessions ++ [x]) (s.sessions.length + 1) (s.nextSession + 1)
      containers := s.containers.set x.container { s.containers[x.container] with body := some { c with state := .session } }
      cards := s.cards.map fun d => if d.number = x.card then { d with link := some x.number } else d
      line := { s.line with ring := if x.station ∈ s.line.ring then s.line.ring else s.line.ring ++ [x.station] } } := by
  unfold State.openSession
  dsimp only
  rw [modContainer_eq x.container c _ _ (by exact h)]
  unfold State.modCard State.ringJoin
  dsimp only
  split <;> rfl

theorem sessionAt_eq (s : State) (a : StationIx) (n : InletIx) :
    s.sessionAt a n = s.sessions.find? fun x => x.station = a ∧ x.inlet = n := by
  unfold State.sessionAt
  refine congrArg (fun p => s.sessions.find? p) (funext fun x => ?_)
  rw [Bool.decide_and]

/-- Check 10 where a session is open at the inlet (R67). -/
theorem grantOrDeny_open {s : State} {a : StationIx} {n : InletIx} {x : Session} (h : s.sessionAt a n = some x) (i : ContainerIx)
    (f : FractionIx) (k : Card) : s.grantOrDeny a n i f k =
      if x.card = k.number then (.grant (x.deadline - s.clock.elapsed), s) else (.deny .inletBusy, s) := by
  rw [State.grantOrDeny, h]

/-- Checks 10 and 11 where none is (R67, R68). -/
theorem grantOrDeny_free {s : State} {a : StationIx} {n : InletIx} (h : s.sessionAt a n = none) (i : ContainerIx)
    (f : FractionIx) (k : Card) : s.grantOrDeny a n i f k =
      if k.link.isSome then (.deny .cardBusy, s)
      else if s.hasCapacity then (.grant s.settings.hatchOpen, s.openSession (s.newSession a n i f k))
      else (.deny .capacity, s) := by
  rw [State.grantOrDeny, h]

/-! ### Handing the frames of a reply on (R16 to R20) -/

/-- A frame with the check that passes (R169). -/
def HeardFrame.sent (kind : Byte) (payload : List Byte) : HeardFrame :=
  { kind, payload, check := crc16 (kind :: byte payload.length :: payload) }

theorem HeardFrame.sent_bytes (kind : Byte) (payload : List Byte) : (HeardFrame.sent kind payload).bytes = fieldFrame kind payload := rfl

theorem HeardFrame.sent_passes (kind : Byte) (payload : List Byte) : (HeardFrame.sent kind payload).passes = true :=
  decide_eq_true rfl

/-- The hand-on of a GOOD reply with the frames behind its header (R18). -/
theorem exec_goodReply {s : State} {t : Turn} {address : Byte} (turn : s.line.turn = some t)
    (receiving : t.phase = .receiving address) (own : address.toNat % 64 = addr t.station) (uplink : address.getLsbD 7 = true)
    (reply summary : Byte) {count : Byte} (few : count.toNat ≤ 4) {frames : List HeardFrame}
    (sized : ∀ f ∈ frames, f.payload.length ≤ 24) :
    exec (.replyEnd ((fieldFrame 0x41 [reply, summary, count] ++ frames.flatMap HeardFrame.bytes).map
        fun b => { mark := false, data := b })) s =
      let h := (s.headerTaken t.station (summary.truncate 4)).framesTaken t.station reply count.toNat 1 frames
      let w := h.state.maskReplaced t.station reply h.positions
      let v := w.closingBegun t h.verdicts
      .next (if h.verdicts = [] then State.endTurn t.kind (if t.message then w.trySpent t.station else w)
        else if t.message then v.trySpent t.station else v) := by
  rw [exec_replyEnd turn receiving, State.replyEnd, classify_header own uplink few sized]
  exact congrArg Host.Outcome.next (goodReply_eq ..)

/-- A single frame within the header's count that is taken. -/
theorem framesTaken_one {a : StationIx} {reply : Byte} {f : HeardFrame} {s t : State} {verdicts : List (List Byte)}
    (passes : f.passes = true) (taken : s.frameTaken a reply f.kind f.payload = some (t, verdicts)) :
    s.framesTaken a reply 1 1 [f] = { state := t, positions := 1, verdicts } := by
  unfold State.framesTaken
  rw [if_pos ⟨Nat.le_refl 1, passes⟩, taken]
  unfold State.framesTaken
  dsimp only
  rw [List.append_nil]
  rfl

/-- A single frame that fails its check or cannot be taken is passed over. -/
theorem framesTaken_over {a : StationIx} {reply : Byte} {f : HeardFrame} {s : State}
    (h : f.passes = true → s.frameTaken a reply f.kind f.payload = none) :
    s.framesTaken a reply 1 1 [f] = { state := s, positions := 0, verdicts := [] } := by
  have none : (if 1 ≤ 1 ∧ f.passes = true then s.frameTaken a reply f.kind f.payload else none) = none := by
    split
    · next k => exact h k.2
    · rfl
  unfold State.framesTaken
  rw [none]
  rfl

/-- Settles O52. -/
theorem cardIsJudged : Obligations.CardIsJudged := by
  constructor
  · intro s a inlet card denied here
    refine ⟨fun stopped => judgeCard_inletDenied card (if_pos stopped), fun runs locked => judgeCard_inletDenied card
      ((if_neg (not_not_intro runs)).trans (if_pos locked)), fun runs free => ⟨fun h => judgeCard_inletDenied card
      (inletChecks_noInlet runs free h), fun within i c hc bound only => ?_⟩⟩
    intro f k open_ admits
    have reached := inletChecks_reached runs free within hc bound only
    have passes (h : admits) : s.inletChecks a inlet = .inr (c.binding.inlet, i, c) := by
      obtain ⟨state, room⟩ := h
      rw [reached, if_neg (by rw [(admits_iff _).mpr state]; decide), if_neg (Nat.not_le.mpr room)]
    refine ⟨fun idle session => ?_, fun state full => ?_, fun h absent => ?_, fun k' h present => ?_⟩
    · refine judgeCard_inletDenied card (reached.trans (if_pos ?_))
      rw [← Bool.not_eq_true, admits_iff]
      exact fun h => h.elim idle session
    · refine judgeCard_inletDenied card (reached.trans ((if_neg ?_).trans (if_pos full)))
      rw [(admits_iff _).mpr state]
      decide
    · exact judgeCard_cardDenied (passes h) (cardChecks_unknown f absent)
    · intro quotaLeft
      obtain ⟨suspended, revoked, active⟩ := cardChecks_known f (s := s) (card := card) present
      refine ⟨fun hs => judgeCard_cardDenied (passes h) (suspended hs), fun hs => judgeCard_cardDenied (passes h) (revoked hs),
        fun hs barred => judgeCard_cardDenied (passes h) ((active hs).trans (if_pos barred)), fun hs entitled spent =>
        judgeCard_cardDenied (passes h) ((active hs).trans ((if_neg (by rw [entitled]; decide)).trans (if_neg spent))),
        fun hs entitled quota => ?_⟩
      have number : k'.number = card := by simpa using List.find?_some present
      have judged : s.judgeCard a inlet card = s.grantOrDeny a c.binding.inlet i f k' :=
        judgeCard_admitted (passes h) ((active hs).trans ((if_neg (by rw [entitled]; decide)).trans (if_pos quota)))
      have session : s.sessionAt a c.binding.inlet = open_ := sessionAt_eq ..
      refine ⟨fun x held other => ?_, fun x held same => ?_, fun free linked => ?_, fun free unlinked full => ?_,
        fun free unlinked room1 room2 => ?_⟩
      · exact (judged.trans (grantOrDeny_open (session.trans held) ..)).trans (if_neg (number ▸ other))
      · exact (judged.trans (grantOrDeny_open (session.trans held) ..)).trans (if_pos (same.trans number.symm))
      all_goals have opens := judged.trans (grantOrDeny_free (session.trans free) i f k')
      · exact opens.trans (if_pos (Option.isSome_iff_ne_none.mpr linked))
      · refine opens.trans ((if_neg fun h => Option.isSome_iff_ne_none.mp h unlinked).trans (if_neg fun h => ?_))
        obtain ⟨room1, room2⟩ := (hasCapacity_iff s).mp h
        omega
      · intro x
        obtain ⟨n, least, unused, before, next⟩ := freeNumber_least s x rfl room1
        refine ⟨n, least, unused, before, opens.trans ((if_neg fun h => Option.isSome_iff_ne_none.mp h unlinked).trans
          ((if_pos ((hasCapacity_iff s).mpr ⟨room1, room2⟩)).trans (congrArg (Prod.mk _) ?_)))⟩
        have made : s.newSession a c.binding.inlet i f k' = x := by
          unfold State.newSession
          rw [number]
        rw [made, openSession_eq (x := x) hc, next]
  · intro s t address reply summary inlet c3 c2 c1 c0 turn receiving own uplink a chars judged verdict u v
    have run := exec_goodReply turn receiving own uplink reply summary (count := 1) (by decide)
      (frames := [HeardFrame.sent 0x42 [inlet, c3, c2, c1, c0]]) fun f hf => List.mem_singleton.mp hf ▸ (by decide : 5 ≤ 24)
    rw [show (1 : Byte).toNat = 1 from rfl, framesTaken_one (HeardFrame.sent_passes ..) rfl] at run
    have payload : judged.1.bytes = verdict := by
      change Verdict.bytes _ = match judged.1 with
        | .grant openTime => 0 :: be2 openTime
        | .deny r => [r.code, 0, 0]
      cases judged.1 <;> rfl
    have closing : State.closingBegun t [[inlet, c3, c2, c1, c0] ++ judged.1.bytes] u = v := by
      unfold State.closingBegun
      rw [payload, List.flatMap_cons, List.flatMap_nil, List.append_nil]
    rw [List.flatMap_cons, List.flatMap_nil, List.append_nil] at run
    refine run.trans (congrArg Host.Outcome.next ((if_neg (List.cons_ne_nil _ _)).trans ?_))
    rw [← closing]

/-! ### What a single frame does (R19, R43, R163) -/

/-- The end of a turn whose reply holds one frame that is no CARD frame. -/
theorem exec_oneFrame {s : State} {t : Turn} {address : Byte} (turn : s.line.turn = some t)
    (receiving : t.phase = .receiving address) (own : address.toNat % 64 = addr t.station) (uplink : address.getLsbD 7 = true)
    (reply summary : Byte) {f : HeardFrame} (sized : f.payload.length ≤ 24) {v : State} {positions : BitVec 4}
    (handed : (s.headerTaken t.station (summary.truncate 4)).framesTaken t.station reply 1 1 [f] =
      { state := v, positions, verdicts := [] }) :
    exec (.replyEnd ((fieldFrame 0x41 [reply, summary, 1] ++ f.bytes).map fun b => { mark := false, data := b })) s =
      let w := v.maskReplaced t.station reply positions
      .next (State.endTurn t.kind (if t.message then w.trySpent t.station else w)) := by
  have run := exec_goodReply turn receiving own uplink reply summary (count := 1) (by decide) (frames := [f])
    fun g hg => List.mem_singleton.mp hg ▸ sized
  rw [show (1 : Byte).toNat = 1 from rfl, handed, List.flatMap_cons, List.flatMap_nil, List.append_nil] at run
  exact run

/-- The one container bound to an inlet. -/
theorem atBound_unique {u : State} {a : StationIx} {inlet : Byte} {i : ContainerIx} {c : Container} (hc : u.container i = some c)
    (station : c.binding.station = a) (number : inletNo c.binding.inlet = inlet.toNat)
    (only : ∀ j d, u.container j = some d → d.binding.station = a → d.binding.inlet = c.binding.inlet → j = i)
    (effect : ContainerIx → State → State) : u.atBound a inlet effect = effect i u := by
  have found := bound_unique u a i c hc station only
  have at_ : u.boundAt a inlet = some i := by
    rw [State.boundAt, inletIx?_inletNo number.symm]
    exact found
  rw [← forBound_eq, State.forBound, at_]

theorem atBound_none {u : State} {a : StationIx} {inlet : Byte}
    (none : ∀ i c, u.container i = some c → c.binding.station = a → inletNo c.binding.inlet ≠ inlet.toNat)
    (effect : ContainerIx → State → State) : u.atBound a inlet effect = u := by
  have missing : ((List.finRange 128).find? fun i : ContainerIx => (u.container i).any fun c =>
      c.binding.station = a && inletNo c.binding.inlet = inlet.toNat) = .none := by
    refine List.find?_eq_none.mpr fun i _ here => ?_
    cases hc : u.container i with
    | none => rw [hc] at here; cases here
    | some c =>
      rw [hc] at here
      simp only [Option.any_some, Bool.and_eq_true, decide_eq_true_eq] at here
      exact none i c hc here.1 here.2
  rw [State.atBound, missing]

/-- Taking a header changes neither the configuration of its station nor the relay queue. -/
theorem headerTaken_keeps (a : StationIx) (summary : BitVec 4) (s : State) :
    (s.headerTaken a summary).stations[a].config = s.stations[a].config ∧ (s.headerTaken a summary).relay = s.relay := by
  have released (x : Station) : x.autoReleased.config = x.config := by
    unfold Station.autoReleased
    split <;> rfl
  have taken (x : Station) : (Station.summaryTaken summary x).config = x.config := by
    unfold Station.summaryTaken
    dsimp only
    split
    · split
      · exact released _
      · rfl
    · split <;> rfl
  unfold State.headerTaken
  dsimp only
  split
  · rw [stationAborted_own]
    refine ⟨?_, rfl⟩
    change Station.config ((s.stations.set a _)[a]) = _
    rw [set_at]
    exact taken _
  · rw [set_at]
    exact ⟨taken _, rfl⟩

/-- A frame of a kind that is none of the station's own is accepted and then discarded (R16). -/
theorem frameTaken_other {kind : Byte} (a : StationIx) (reply : Byte) (payload : List Byte) (s : State)
    (h : kind.toNat < 0x41 ∨ 0x48 < kind.toNat) : s.frameTaken a reply kind payload = some (s, []) := by
  have ne (k : Byte) (hk : 0x41 ≤ k.toNat ∧ k.toNat ≤ 0x48) : ¬ kind = k := fun e => by subst e; omega
  unfold State.frameTaken
  rw [if_neg (ne 0x41 (by decide)), if_neg (ne 0x42 (by decide)), if_neg (ne 0x43 (by decide)), if_neg (ne 0x44 (by decide)),
    if_neg (ne 0x45 (by decide)), if_neg (ne 0x46 (by decide)), if_neg (ne 0x47 (by decide)), if_neg (ne 0x48 (by decide))]

/-- A report is accepted unless it is empty or finds the relay queue full (R16, R163). -/
theorem frameTaken_relay (a : StationIx) (reply : Byte) (payload : List Byte) (s : State) :
    s.frameTaken a reply 0x48 payload =
      if payload = [] ∨ (s.stations[a].config.relay = true ∧ 4 ≤ s.relay.length) then none
      else some (s.reportTaken a reply payload, []) := rfl

/-- A report that the relay queue has room for, or that is not relayed (R16, R163). -/
theorem frameTaken_accepted (a : StationIx) (reply : Byte) {payload : List Byte} {s : State} (some_ : payload ≠ [])
    (h : s.stations[a].config.relay = false ∨ s.relay.length < 4) :
    s.frameTaken a reply 0x48 payload = some (s.reportTaken a reply payload, []) := by
  refine (frameTaken_relay ..).trans (if_neg fun k => ?_)
  obtain ⟨sends, full⟩ := k.resolve_left some_
  rcases h with kept | room
  · exact Bool.false_ne_true (kept.symm.trans sends)
  · omega

/-- A frame whose length is not that of its kind is not accepted (R16, R171). -/
theorem frameTaken_length {kind : Byte} (a : StationIx) (reply : Byte) {payload : List Byte} (s : State)
    (out : (kind, payload.length) ∉ [((0x41 : Byte), 3), (0x42, 5), (0x43, 2), (0x44, 3), (0x45, 1), (0x46, 1), (0x47, 0)])
    (least : 0x41 ≤ kind.toNat) (most : kind.toNat ≤ 0x47 ∨ (kind = 0x48 ∧ payload = [])) :
    s.frameTaken a reply kind payload = none := by
  unfold State.frameTaken
  by_cases h1 : kind = 0x41
  · rw [if_pos h1]
    exact if_neg fun h => out (by simp [h1, h])
  rw [if_neg h1]
  by_cases h2 : kind = 0x42
  · rw [if_pos h2]
    split
    · exact absurd (by simp [h2]) out
    · rfl
  rw [if_neg h2]
  by_cases h3 : kind = 0x43
  · rw [if_pos h3]
    split
    · exact absurd (by simp [h3]) out
    · rfl
  rw [if_neg h3]
  by_cases h4 : kind = 0x44
  · rw [if_pos h4]
    split
    · exact absurd (by simp [h4]) out
    · rfl
  rw [if_neg h4]
  by_cases h5 : kind = 0x45
  · rw [if_pos h5]
    split
    · exact absurd (by simp [h5]) out
    · rfl
  rw [if_neg h5]
  by_cases h6 : kind = 0x46
  · rw [if_pos h6]
    split
    · exact absurd (by simp [h6]) out
    · rfl
  rw [if_neg h6]
  by_cases h7 : kind = 0x47
  · rw [if_pos h7]
    exact if_neg fun h => out (by simp [h7, h])
  rw [if_neg h7]
  obtain ⟨h8, empty⟩ : kind = 0x48 ∧ payload = [] := most.resolve_left (by bv_omega)
  rw [if_pos h8]
  exact if_pos (.inl empty)

/-- Settles O53. -/
theorem framesAreHandedOn : Obligations.FramesAreHandedOn := by
  intro s t address reply summary turn receiving own uplink a u ends
  have taken {kind : Byte} {payload : List Byte} {v : State} (sized : payload.length ≤ 24)
      (h : u.frameTaken a reply kind payload = some (v, [])) : ends (fieldFrame kind payload) 1 v :=
    exec_oneFrame turn receiving own uplink reply summary (f := .sent kind payload) sized
      (framesTaken_one (HeardFrame.sent_passes ..) h)
  have refused {kind : Byte} {payload : List Byte} (sized : payload.length ≤ 24)
      (h : u.frameTaken a reply kind payload = none) : ends (fieldFrame kind payload) 0 u :=
    exec_oneFrame turn receiving own uplink reply summary (f := .sent kind payload) sized (framesTaken_over fun _ => h)
  obtain ⟨config, relay⟩ := headerTaken_keeps a (summary.truncate 4) s
  refine ⟨fun inlet flags => taken (by decide : 2 ≤ 24) rfl, fun inlet hi lo i c hc station number only => ?_,
    fun inlet hi lo none => ?_, fun m held carried => ?_, fun fresh => ?_, fun payload least most => ?_,
    fun kind payload sized other => ?_, fun kind payload sized out least most => refused sized (frameTaken_length a reply u out least most),
    fun kind c1 c0 payload sized fails => ?_, fun count frames few sized => ?_⟩
  · have bound := atBound_unique hc station number only
    exact ⟨taken (by decide : 3 ≤ 24) (congrArg (fun v => some (v, [])) (bound _)),
      taken (by decide : 1 ≤ 24) (congrArg (fun v => some (v, [])) (bound _)),
      taken (by decide : 1 ≤ 24) (congrArg (fun v => some (v, [])) (bound _))⟩
  · have unbound := atBound_none none
    exact ⟨taken (by decide : 3 ≤ 24) (congrArg (fun v => some (v, [])) (unbound _)),
      taken (by decide : 1 ≤ 24) (congrArg (fun v => some (v, [])) (unbound _)),
      taken (by decide : 1 ≤ 24) (congrArg (fun v => some (v, [])) (unbound _))⟩
  · refine taken (by decide : 0 ≤ 24) (congrArg (fun v => some (v, [])) ?_)
    refine if_pos ?_
    rw [held, Option.any_some, Bool.or_eq_true, decide_eq_true_eq]
    exact carried
  · refine taken (by decide : 0 ≤ 24) (congrArg (fun v => some (v, [])) ?_)
    refine if_neg fun h => ?_
    obtain ⟨m, held, h⟩ := (Option.any_eq_true _ _).mp h
    obtain ⟨untouched, full⟩ := fresh m held
    simp only [untouched, Bool.false_or, decide_eq_true_eq] at h
    omega
  · have some_ : payload ≠ [] := List.ne_nil_of_length_pos least
    refine ⟨fun kept => taken most ?_, fun sends room => taken most ?_, fun sends full => refused most ?_⟩
    · rw [frameTaken_accepted a reply some_ (.inl (config ▸ kept)), State.reportTaken, if_neg (by rw [config, kept]; decide)]
    · rw [frameTaken_accepted a reply some_ (.inr (relay ▸ room)), State.reportTaken, if_pos (config ▸ sends)]
    · exact (frameTaken_relay ..).trans (if_pos (.inr ⟨(congrArg StationConfig.relay config).trans sends, relay ▸ full⟩))
  · rcases other with below | above | ⟨rfl, three⟩
    · exact taken sized (frameTaken_other a reply payload u (.inl below))
    · exact taken sized (frameTaken_other a reply payload u (.inr above))
    · exact taken sized (if_pos three)
  · have run := exec_oneFrame turn receiving own uplink reply summary (f := { kind, payload, check := word16 c1 c0 }) sized
      (framesTaken_over fun passes => absurd (of_decide_eq_true passes) fails)
    have bytes : HeardFrame.bytes { kind, payload, check := word16 c1 c0 } = kind :: byte payload.length :: payload ++ [c1, c0] := by
      rw [HeardFrame.bytes, be2_word16]
      rfl
    rw [bytes] at run
    exact run
  · exact exec_goodReply turn receiving own uplink reply summary few sized

end Sys2Proof.Machine

end

section
/-! PROOFS. Endings of sessions: O54. -/

namespace Sys2Proof.Machine

/-! ### The steps of an ending (R73) -/

theorem charged_eq (o : DepositOutcome) : o.charged = decide (o = .deposit ∨ o = .timeout) := by
  cases o <;> rfl

/-- The card table after an ending (R57, R73). -/
theorem settleCard_eq (x : Session) (o : DepositOutcome) (s : State) :
    s.settleCard x o = { s with cards := s.cards.map fun k =>
      if k.number = x.card then
        (if decide (o = .deposit ∨ o = .timeout) then { k with
          link := none
          used := k.used.set x.fraction (if k.allowance[x.fraction] = 255 ∧ k.used[x.fraction] = 254 then 254
            else k.used[x.fraction] + 1)
          lastUse := some { time := s.clock.district, container := x.container } }
        else { k with link := none })
      else k } := by
  unfold State.settleCard State.modCard
  rw [charged_eq]
  refine congrArg (fun cards => { s with cards }) (List.map_congr_left fun k _ => ?_)
  split
  · split <;> rfl
  · rfl

/-- A charged deposit changes the containers and the requests alone. -/
theorem chargedDeposit_rest {i : ContainerIx} {c : Container} {s : State} (h : s.container i = some c) :
    s.chargedDeposit i = { s with containers := (s.chargedDeposit i).containers, requests := (s.chargedDeposit i).requests } := by
  rw [chargedDeposit_eq i c s h]
  rfl

/-- A charged deposit reads none of the tables that the first steps of an ending write. -/
theorem chargedDeposit_frame {i : ContainerIx} {c : Container} {s : State} (h : s.container i = some c) (cards : List Card)
    (deposits : List QueuedDeposit) (arrivals : Nat) (sessions : List Session) :
    State.chargedDeposit i { s with cards, deposits, arrivals, sessions } =
      { s.chargedDeposit i with cards, deposits, arrivals, sessions } := by
  rw [chargedDeposit_eq i c s h, chargedDeposit_eq i c _ (by exact h)]
  rfl

theorem chargedDeposit_container {i : ContainerIx} {c : Container} {s : State} (h : s.container i = some c) :
    ∃ d, (s.chargedDeposit i).container i = some d := by
  rw [chargedDeposit_eq i c s h]
  exact ⟨_, tested_container ..⟩

/-- The state in which the container of an ended session has left SESSION (R73 step 7). -/
def State.leftSession (i : ContainerIx) (d : Container) (after : AfterSession) (u : State) : State :=
  match after with
  | .idle => u.becomesIdle i u.containers[i].flags d
  | .faultHatch => { u with containers := u.containers.set i {
      flags := { u.containers[i].flags with inletFault := true }, body := some { d with state := .fault .hatch } } }
  | .lifting => { u with containers := u.containers.set i { flags := u.containers[i].flags, body := some { d with
      state := .lifting, liftStart := some u.clock.elapsed
      liftDeadline := some (u.clock.elapsed + u.settings.liftTimeout) } } }

theorem leaveSession_eq {i : ContainerIx} {d : Container} (after : AfterSession) {u : State} (h : u.container i = some d) :
    u.leaveSession i after = u.leftSession i d after := by
  unfold State.leaveSession State.leftSession
  cases after with
  | idle =>
    refine (idle_applyStaged i d (fun c => { c with state := .idle }) u h rfl).trans ?_
    unfold State.becomesIdle
    cases d.staged <;> rfl
  | faultHatch => exact (congrArg (State.raise (.inletFault i)) (modContainer_eq i d _ u h)).trans (raise_inletFault_set ..)
  | lifting => exact modContainer_eq i d _ u h

/-- Leaving SESSION changes the containers and the requests alone. -/
theorem leftSession_rest (i : ContainerIx) (d : Container) (after : AfterSession) (u : State) :
    u.leftSession i d after = { u with
      containers := (u.leftSession i d after).containers, requests := (u.leftSession i d after).requests } := by
  cases after with
  | idle =>
    obtain ⟨r, q, own⟩ := becomesIdle_own i u.containers[i].flags d u
    change u.becomesIdle i u.containers[i].flags d = { u with
      containers := (u.becomesIdle i u.containers[i].flags d).containers
      requests := (u.becomesIdle i u.containers[i].flags d).requests }
    rw [own]
  | faultHatch => rfl
  | lifting => rfl

/-- Leaving SESSION reads none of the tables that the first steps of an ending write. -/
theorem leftSession_frame (i : ContainerIx) (d : Container) (after : AfterSession) (u : State) (cards : List Card)
    (deposits : List QueuedDeposit) (arrivals : Nat) (sessions : List Session) :
    State.leftSession i d after { u with cards, deposits, arrivals, sessions } =
      { u.leftSession i d after with cards, deposits, arrivals, sessions } := by
  cases after with
  | idle =>
    change State.becomesIdle .. = { u.becomesIdle i u.containers[i].flags d with cards, deposits, arrivals, sessions }
    unfold State.becomesIdle
    cases d.staged <;> rfl
  | faultHatch => rfl
  | lifting => rfl

/-- The fill step of an ending, where the outcome is charged (R73 step 6). -/
def State.fillSettled (o : DepositOutcome) (i : ContainerIx) (s : State) : State :=
  if decide (o = .deposit ∨ o = .timeout) then s.chargedDeposit i else s

theorem fillSettled_container {i : ContainerIx} {c : Container} {s : State} (o : DepositOutcome) (h : s.container i = some c) :
    ∃ d, (s.fillSettled o i).container i = some d := by
  unfold State.fillSettled
  split
  · exact chargedDeposit_container h
  · exact ⟨c, h⟩

theorem fillSettled_rest {i : ContainerIx} {c : Container} {s : State} (o : DepositOutcome) (h : s.container i = some c) :
    s.fillSettled o i = { s with
      containers := (s.fillSettled o i).containers, requests := (s.fillSettled o i).requests } := by
  unfold State.fillSettled
  split
  · exact chargedDeposit_rest h
  · rfl

theorem fillSettled_frame {i : ContainerIx} {c : Container} {s : State} (o : DepositOutcome) (h : s.container i = some c)
    (cards : List Card) (deposits : List QueuedDeposit) (arrivals : Nat) (sessions : List Session) :
    State.fillSettled o i { s with cards, deposits, arrivals, sessions } =
      { s.fillSettled o i with cards, deposits, arrivals, sessions } := by
  unfold State.fillSettled
  split
  · exact chargedDeposit_frame h ..
  · rfl

theorem drainCheck_drained (s : State) :
    let drained : Bool := decide (s.line.state = .draining ∧ s.sessions = [])
    s.drainCheck = { s with
      line := { s.line with
        state := if drained then .stopped else s.line.state
        heldStop := if drained then none else s.line.heldStop }
      deferred := s.deferred ++ (if drained then
        (s.line.heldStop.map fun tag => { kind := 0x41, tag, code := .done, data := [] }).toList else []) } := by
  refine (drainCheck_eq s).trans ?_
  by_cases h : s.line.state = .draining ∧ s.sessions = []
  · simp only [if_pos h, decide_eq_true h, if_true]
  · simp only [if_neg h, decide_eq_false h, Bool.false_eq_true, if_false]

/-- The first seven steps of an ending: the tables they write (R73). -/
theorem endSession_eq {x : Session} {c d : Container} (o : DepositOutcome) (after : AfterSession) {s : State}
    (h : s.container x.container = some c) (hd : (s.fillSettled o x.container).container x.container = some d) :
    let v := (s.fillSettled o x.container).leftSession x.container d after
    s.endSession o after x = (State.ringLeave x.station { s with
      cards := (s.settleCard x o).cards
      deposits := s.deposits ++ [{ arrival := s.arrivals, record := x.record s o }]
      arrivals := s.arrivals + 1
      sessions := s.sessions.erase x
      containers := v.containers
      requests := v.requests }).drainCheck := by
  intro v
  have steps : s.endSession o after x = (State.ringLeave x.station (State.leaveSession x.container after
      (if o.charged then State.chargedDeposit x.container { s with
          cards := (s.settleCard x o).cards
          deposits := s.deposits ++ [{ arrival := s.arrivals, record := s.depositRecord x o }]
          arrivals := s.arrivals + 1
          sessions := s.sessions.erase x }
        else { s with
          cards := (s.settleCard x o).cards
          deposits := s.deposits ++ [{ arrival := s.arrivals, record := s.depositRecord x o }]
          arrivals := s.arrivals + 1
          sessions := s.sessions.erase x }))).drainCheck := rfl
  have record : s.depositRecord x o = x.record s o := by
    unfold State.depositRecord Session.record
    rw [charged_eq]
  rw [charged_eq, record] at steps
  refine steps.trans (congrArg (fun t => (State.ringLeave x.station t).drainCheck) ?_)
  refine (congrArg (State.leaveSession x.container after) (fillSettled_frame o h ..)).trans ?_
  refine (leaveSession_eq after (by exact hd)).trans ?_
  refine (leftSession_frame ..).trans ?_
  have rest : v = { s with containers := v.containers, requests := v.requests } := by
    have left : v = { s.fillSettled o x.container with containers := v.containers, requests := v.requests } :=
      leftSession_rest ..
    have filled := fillSettled_rest o h
    generalize s.fillSettled o x.container = u at left filled
    generalize v.containers = cs, v.requests = qs at left ⊢
    rw [left, filled]
  exact congrArg (fun t : State => ({ t with
    cards := (s.settleCard x o).cards
    deposits := s.deposits ++ [{ arrival := s.arrivals, record := x.record s o }]
    arrivals := s.arrivals + 1
    sessions := s.sessions.erase x } : State)) rest

/-- The next hatch deadline that is due (R71). -/
theorem nextHatchExpiry_eq {s : State} {x : Session} (hx : x ∈ s.sessions) (due : x.deadline ≤ s.clock.elapsed)
    (first : ∀ y ∈ s.sessions, y = x ∨ x.deadline < y.deadline ∨ (x.deadline = y.deadline ∧
      (x.station < y.station ∨ (x.station = y.station ∧ x.inlet < y.inlet)))) : s.nextHatchExpiry = some x := by
  refine sortByKey_head? _ _ x (List.mem_filter.mpr ⟨hx, decide_eq_true due⟩) fun y hy => ?_
  refine (first y (List.mem_filter.mp hy).1).imp_right fun later => ?_
  simp only [Session.place, keyLe, Fin.lt_def, Fin.ext_iff] at later ⊢
  rw [Bool.eq_false_iff]
  intro le
  simp only [Bool.or_eq_true, Bool.and_eq_true, decide_eq_true_eq] at le
  omega

theorem nextHatchExpiry_none {s : State} (quiet : ∀ x ∈ s.sessions, s.clock.elapsed < x.deadline) :
    s.nextHatchExpiry = none := by
  have empty : (s.sessions.filter fun x => decide (x.deadline ≤ s.clock.elapsed)) = [] :=
    List.filter_eq_nil_iff.mpr fun x hx due => Nat.not_le.mpr (quiet x hx) (of_decide_eq_true due)
  exact congrArg (fun l => (sortByKey (fun x : Session => x.deadline :: x.place) l).head?) empty

/-! ### Hatch closures (R72, R78) -/

theorem inletIx?_none_of {n : Nat} (h : inletIx? n = none) (a : InletIx) : inletNo a ≠ n := by
  intro e
  rw [inletIx?_inletNo e.symm] at h
  exact nomatch h

theorem hatchClosed_session {s : State} {a : StationIx} {inlet : Byte} {x : Session} (sensed : Bool) (hx : x ∈ s.sessions)
    (station : x.station = a) (number : inletNo x.inlet = inlet.toNat)
    (only : ∀ y ∈ s.sessions, y.station = a → y.inlet = x.inlet → y = x) :
    s.hatchClosed a inlet sensed = s.endSession (if sensed then .deposit else .empty) .idle x := by
  have found : s.sessionAt a x.inlet = some x := by
    rw [sessionAt_eq]
    refine find?_only _ _ x hx (decide_eq_true ⟨station, rfl⟩) fun y hy passes => ?_
    obtain ⟨at_, same⟩ := of_decide_eq_true passes
    exact only y hy at_ same
  unfold State.hatchClosed
  rw [inletIx?_inletNo number.symm]
  dsimp only
  rw [found]

/-- A closure at an inlet without a session is late or stray (R78). -/
theorem hatchClosed_late {s : State} {a : StationIx} {inlet : Byte} {n : InletIx} (sensed : Bool)
    (number : inletNo n = inlet.toNat) (none : ∀ x ∈ s.sessions, x.station = a → inletNo x.inlet ≠ inlet.toNat) :
    s.hatchClosed a inlet sensed = s.lateClosure a n := by
  have absent : s.sessionAt a n = Option.none := by
    rw [sessionAt_eq]
    refine List.find?_eq_none.mpr fun x hx passes => ?_
    obtain ⟨at_, rfl⟩ := of_decide_eq_true passes
    exact none x hx at_ number
  unfold State.hatchClosed
  rw [inletIx?_inletNo number.symm]
  dsimp only
  rw [absent]

theorem lateClosure_hatch {s : State} {a : StationIx} {i : ContainerIx} {c : Container} (h : s.container i = some c)
    (station : c.binding.station = a)
    (only : ∀ j d, s.container j = some d → d.binding.station = a → d.binding.inlet = c.binding.inlet → j = i)
    (fault : c.state = .fault .hatch) :
    s.lateClosure a c.binding.inlet = s.becomesIdle i { s.containers[i].flags with inletFault := true } c := by
  unfold State.lateClosure
  rw [bound_unique s a i c h station only]
  dsimp only
  rw [h]
  refine (if_pos (congrArg some fault)).trans ((faultToIdle_eq i c .hatch s h fault).trans ?_)
  rw [if_neg (by decide), if_neg (by decide)]

/-- What the search for the container at an inlet finds is bound there. -/
theorem bound_some {s : State} {a : StationIx} {n : InletIx} {i : ContainerIx} (h : s.bound a n = some i) :
    ∃ c, s.container i = some c ∧ c.binding.station = a ∧ c.binding.inlet = n := by
  have passes := List.find?_some h
  cases hc : s.container i with
  | none =>
    rw [hc] at passes
    exact nomatch passes
  | some c =>
    rw [hc] at passes
    obtain ⟨station, inlet⟩ := Bool.and_eq_true_iff.mp passes
    exact ⟨c, rfl, of_decide_eq_true station, of_decide_eq_true inlet⟩

theorem lateClosure_stray {s : State} {a : StationIx} {n : InletIx}
    (none : ∀ i c, s.container i = some c → c.binding.station = a → c.binding.inlet = n → c.state ≠ .fault .hatch) :
    s.lateClosure a n = s := by
  unfold State.lateClosure
  cases hb : s.bound a n with
  | none => rfl
  | some i =>
    obtain ⟨c, hc, station, inlet⟩ := bound_some hb
    dsimp only
    rw [hc]
    exact if_neg fun same => none i c hc station inlet (Option.some.inj same)

/-- Settles O54. -/
theorem sessionEndings : Obligations.SessionEndings := by
  unfold Obligations.SessionEndings
  refine ⟨?_, fun s => ⟨fun quiet => ?_, fun x hx due first => ?_⟩, fun s a inlet sensed =>
    ⟨fun x hx station number only => hatchClosed_session sensed hx station number only, fun absent => ⟨?_, ?_⟩⟩⟩
  · intro s x o after c _ h
    obtain ⟨d, hd⟩ := fillSettled_container o h
    refine ⟨d, hd, (endSession_eq o after h hd).trans ?_⟩
    rw [ringLeave_eq, drainCheck_drained, settleCard_eq]
    cases after with
    | idle => rfl
    | faultHatch => rfl
    | lifting =>
      have clock : (s.fillSettled o x.container).clock = s.clock := by rw [fillSettled_rest o h]
      have settings : (s.fillSettled o x.container).settings = s.settings := by rw [fillSettled_rest o h]
      dsimp only [State.leftSession]
      rw [clock, settings]
      rfl
  · unfold exec execHatchDeadlineExpiry
    rw [nextHatchExpiry_none quiet]
  · unfold exec execHatchDeadlineExpiry
    rw [nextHatchExpiry_eq hx due first]
  · intro i c h station number only fault
    exact (hatchClosed_late sensed number absent).trans (lateClosure_hatch h station only fault)
  · intro stray
    cases hn : inletIx? inlet.toNat with
    | none =>
      unfold State.hatchClosed
      rw [hn]
    | some n =>
      have number := inletNo_of_inletIx? hn
      exact (hatchClosed_late sensed number absent).trans
        (lateClosure_stray fun i c h station same => stray i c h station (same ▸ number))

end Sys2Proof.Machine

end

section
/-! PROOFS. Lifts: O55. -/

namespace Sys2Proof.Machine

/-! ### The start of a lift (R96, R98) -/

/-- A container whose lift starts ends LIFTING, whatever it was (R96). -/
theorem startLift_lifting {i : ContainerIx} {c : Container} {s : State} (h : s.container i = some c) :
    ∃ d, (s.startLift i).container i = some d ∧ d.state = .lifting := by
  have started : (s.modContainer i (Container.startLift s.clock.elapsed s.settings.liftTimeout)).container i =
      some (c.startLift s.clock.elapsed s.settings.liftTimeout) := by
    rw [State.modContainer_container, if_pos rfl, h]
    rfl
  unfold State.startLift
  rw [h]
  dsimp only [Option.map_some]
  cases hc : c.state with
  | idle => exact ⟨_, started, rfl⟩
  | session =>
    dsimp only
    cases hx : s.sessions.find? fun x => decide (x.container = i) with
    | none => exact ⟨_, started, rfl⟩
    | some x =>
      have found := List.find?_some hx
      have here : x.container = i := of_decide_eq_true found
      dsimp only
      rw [endSession_container, if_pos here, here, h]
      exact ⟨_, rfl, rfl⟩
  | lifting => exact ⟨c, h, hc⟩
  | fault reason => exact ⟨_, (raise_container ..).trans started, rfl⟩

theorem endLift_lifting {i : ContainerIx} {c : Container} {s : State} (h : s.container i = some c)
    (hc : c.state = .lifting ∨ c.state = .fault .lift) : s.endLift i = s.completeLift i := by
  unfold State.endLift
  rw [h]
  rcases hc with hc | hc <;> rw [Option.map_some, hc]

/-- Where no lift is under way, one is started and completed (R98). -/
theorem endLift_starts {i : ContainerIx} {c : Container} {s : State} (h : s.container i = some c)
    (lifting : c.state ≠ .lifting) (fault : c.state ≠ .fault .lift) : s.endLift i = (s.startLift i).endLift i := by
  obtain ⟨d, hd, state⟩ := startLift_lifting h
  rw [endLift_lifting hd (.inl state)]
  unfold State.endLift
  rw [h, Option.map_some]
  cases hc : c.state with
  | idle => rfl
  | session => rfl
  | lifting => exact absurd hc lifting
  | fault reason =>
    cases reason with
    | hatch => rfl
    | lift => exact absurd hc fault

/-! ### The request and the round of a lift (R134, R146) -/

theorem returnEntries_lifted : ∀ (entries : List Entry) (s : State), (∀ e ∈ entries, e.state ≠ .planned) →
    s.returnEntries false entries = s
  | [], _, _ => rfl
  | e :: entries, s, lifted => by
    have here : e.isLifted = true := decide_eq_true (lifted e (List.mem_cons_self ..))
    exact (congrArg (State.returnEntries false entries) (if_pos here)).trans
      (returnEntries_lifted entries s fun x hx => lifted x (List.mem_cons_of_mem _ hx))

/-- A round whose entries are all LIFTED closes: it returns no request (R146, R149). -/
theorem closeRound_lifted {n : FractionIx} {r : Round} (reason : CloseReason) {s : State} (h : s.slots[n].round = some r)
    (lifted : ∀ e ∈ r.entries, e.state ≠ .planned) :
    s.closeRound n reason = { s with slots := s.slots.set n {
      round := none, closedFlag := true
      lastClose := some {
        reason, vehicle := r.vehicle, time := s.clock.district, entries := r.entries.length
        lifted := r.entries.length } } } := by
  have all : r.liftedCount = r.entries.length :=
    List.countP_eq_length.mpr fun e he => decide_eq_true (lifted e he)
  unfold State.closeRound
  rw [h]
  dsimp only [State.raise, State.setFlag, State.modSlot]
  rw [returnEntries_lifted _ _ lifted, all]
  simp only [Fin.getElem_fin, Vector.getElem_set_self, Vector.set_set]

theorem entryLifted_eq {n : FractionIx} {r : Round} (i : ContainerIx) (time : Word32) {s : State}
    (h : s.slots[n].round = some r) :
    let entries := r.entries.map fun e => if e.container = i then { e with state := .lifted time } else e
    s.entryLifted n i time = { s with slots := s.slots.set n (
      if ∃ e ∈ entries, e.state = .planned then { s.slots[n] with round := some { r with entries } }
      else {
        round := none, closedFlag := true
        lastClose := some {
          reason := .done, vehicle := r.vehicle, time := s.clock.district, entries := entries.length
          lifted := entries.length } }) } := by
  intro entries
  have marked : (s.modSlot n fun x => { x with round := some { r with entries } }).slots[n].round =
      some { r with entries } := congrArg Slot.round (set_at ..)
  unfold State.entryLifted
  rw [h]
  by_cases open_ : ∃ e ∈ entries, e.state = .planned
  · rw [if_pos open_]
    refine if_neg fun all => ?_
    obtain ⟨e, he, planned⟩ := open_
    exact of_decide_eq_true (List.all_eq_true.mp all e he) planned
  · rw [if_neg open_]
    have lifted : ∀ e ∈ entries, e.state ≠ .planned := fun e he planned => open_ ⟨e, he, planned⟩
    refine (if_pos (List.all_eq_true.mpr fun e he => decide_eq_true (lifted e he))).trans ?_
    refine (closeRound_lifted .done marked lifted).trans ?_
    unfold State.modSlot
    dsimp only
    rw [Vector.set_set]

/-! ### The completion of a lift (R97, R120) -/

/-- The body of a container whose lift is complete, before its staged part (R97, R120). -/
def Container.emptied (now : Word32) (c : Container) : Container :=
  { c.seat now with full := false, fill := c.fill.liftReset now }

/-- The flags that the completion of a lift sets (R97). -/
def ContainerFlags.emptied (c : Container) (flags : ContainerFlags) : ContainerFlags :=
  { flags with
    inletFault := flags.inletFault || decide (c.state = .fault .lift)
    sensor := flags.sensor || decide (c.fill.mode ≠ .normal) }

theorem seatContainer_eq {i : ContainerIx} {c : Container} {s : State} (h : s.container i = some c)
    (hc : c.state = .lifting ∨ c.state = .fault .lift) :
    s.seatContainer i c.state = { s with containers := s.containers.set i {
      flags := { s.containers[i].flags with
        inletFault := s.containers[i].flags.inletFault || decide (c.state = .fault .lift) }
      body := some (c.seat s.clock.district) } } := by
  unfold State.seatContainer
  rw [modContainer_eq i c _ s h]
  rcases hc with hc | hc <;> rw [hc]
  · dsimp only
    rw [decide_eq_false (by decide), Bool.or_false]
    rfl
  · dsimp only
    rw [decide_eq_true rfl, Bool.or_true]
    exact raise_inletFault_set ..

/-- The first three steps of a completion (R97, R120). -/
theorem resetFill_seated {i : ContainerIx} {c : Container} {s : State} (h : s.container i = some c)
    (hc : c.state = .lifting ∨ c.state = .fault .lift) (ranges : c.params.inRange = true) :
    (s.seatContainer i c.state).resetFill i = { s with containers := s.containers.set i {
      flags := s.containers[i].flags.emptied c, body := some (c.emptied s.clock.district) } } := by
  obtain ⟨call, stop⟩ : 100 ≤ c.params.tCall ∧ c.params.tCall ≤ c.params.tStop := by
    unfold Params.inRange at ranges
    simp only [Bool.and_eq_true, decide_eq_true_eq] at ranges
    omega
  rw [seatContainer_eq h hc]
  unfold State.resetFill
  rw [fillEvent_eq i _ _ _ (set_container ..) rfl, tested_set, set_record]
  have full : ({ c.seat s.clock.district with fill := c.fill.liftReset s.clock.district } : Container).fullTested =
      c.emptied s.clock.district :=
    congrArg (fun full => ({ c.seat s.clock.district with full, fill := c.fill.liftReset s.clock.district } : Container))
      (decide_eq_false (show ¬ c.params.tStop ≤ 0 by omega))
  refine (congrArg (fun d => s.tested i _ d) full).trans (tested_quiet i _ _ s ?_)
  exact decide_eq_false fun ⟨_, _, reached⟩ => absurd (show c.params.tCall ≤ 0 from reached) (by omega)

/-- The last two steps of a completion, where the request and the round are settled (R97). -/
theorem completeLift_eq {i : ContainerIx} {c : Container} {s : State} (h : s.container i = some c)
    (hc : c.state = .lifting ∨ c.state = .fault .lift) (ranges : c.params.inRange = true)
    (requests : Vector (Option Request) 128) (slots : Vector Slot 4)
    (closed : ∀ containers, State.closeOnLift i s.clock.district { s with containers } = { s with containers, requests, slots }) :
    s.completeLift i = State.becomesIdle i { s.containers[i].flags.emptied c with lifted := true } (c.emptied s.clock.district)
      { s with requests, slots } := by
  unfold State.completeLift
  rw [h]
  dsimp only
  rw [resetFill_seated h hc ranges, closed]
  exact (congrArg (State.applyStaged i) (raise_lifted_set i _ { s with requests, slots })).trans
    (applyStaged_set i _ _ { s with requests, slots } rfl)

/-! ### The expiry of a lift deadline (R99) -/

theorem liftDue_iff {s : State} {i : ContainerIx} {d : Nat} :
    s.liftDue i = some d ↔
      ∃ c, s.container i = some c ∧ c.state = .lifting ∧ c.liftDeadline = some d ∧ d ≤ s.clock.elapsed := by
  unfold State.liftDue
  cases hc : s.container i with
  | none =>
    constructor
    · exact fun due => nomatch due
    · rintro ⟨c, held, _⟩
      exact nomatch held
  | some c =>
    constructor
    · intro due
      dsimp only at due
      split at due
      · next limit state deadline =>
        split at due
        · next reached => exact ⟨c, rfl, state, Option.some.inj due ▸ deadline, Option.some.inj due ▸ reached⟩
        · exact nomatch due
      · exact nomatch due
    · rintro ⟨_, ⟨⟩, state, deadline, reached⟩
      dsimp only
      rw [state, deadline]
      exact if_pos reached

/-- The next lift deadline that is due (R99). -/
theorem nextLiftExpiry_eq {s : State} {i : ContainerIx} {d : Nat} (due : s.liftDue i = some d)
    (first : ∀ j e, s.liftDue j = some e → d < e ∨ (d = e ∧ i ≤ j)) : s.nextLiftExpiry = some i := by
  refine sortByKey_head? _ _ i (List.mem_filter.mpr ⟨List.mem_finRange i, by rw [due]; rfl⟩) fun j hj => ?_
  obtain ⟨e, he⟩ := Option.isSome_iff_exists.mp (List.mem_filter.mp hj).2
  rw [due, he]
  by_cases same : j = i
  · exact .inl same
  · refine .inr (Bool.eq_false_iff.mpr fun le => ?_)
    have later := first j e he
    simp only [keyLe, Option.getD_some, Bool.or_eq_true, Bool.and_eq_true, decide_eq_true_eq] at le
    simp only [Fin.le_def, Fin.ext_iff] at later same
    omega

theorem nextLiftExpiry_none {s : State} (quiet : ∀ i d, s.liftDue i ≠ some d) : s.nextLiftExpiry = none := by
  have empty : ((List.finRange Config.containers).filter fun i => (s.liftDue i).isSome) = [] := by
    refine List.filter_eq_nil_iff.mpr fun i _ due => ?_
    obtain ⟨d, hd⟩ := Option.isSome_iff_exists.mp due
    exact quiet i d hd
  exact congrArg (fun l => (sortByKey (fun i : ContainerIx => [(s.liftDue i).getD 0, i.val]) l).head?) empty

theorem startLift_session {i : ContainerIx} {c : Container} {s : State} {x : Session} (h : s.container i = some c)
    (hc : c.state = .session) (hx : x ∈ s.sessions) (here : x.container = i)
    (only : ∀ y ∈ s.sessions, y.container = i → y = x) : s.startLift i = s.endSession .aborted .lifting x := by
  have found : (s.sessions.find? fun y => decide (y.container = i)) = some x :=
    find?_only _ _ x hx (decide_eq_true here) fun y hy same => only y hy (of_decide_eq_true same)
  unfold State.startLift
  rw [h, Option.map_some, hc]
  dsimp only
  rw [found]

/-- Settles O55. -/
theorem lifts : Obligations.Lifts := by
  unfold Obligations.Lifts
  constructor
  · intro s i c h flags now started
    have start : s.modContainer i (Container.startLift s.clock.elapsed s.settings.liftTimeout) = started flags :=
      modContainer_eq i c _ s h
    refine ⟨fun hc => ?_, fun reason hc => ?_, fun hc => ?_, fun x hx hc here only => startLift_session h hc hx here only,
      endLift_starts h, fun hc ranges => ?_⟩
    · unfold State.startLift
      rw [h, Option.map_some, hc]
      exact start
    · unfold State.startLift
      rw [h, Option.map_some, hc]
      exact (congrArg (State.raise (.inletFault i)) start).trans (raise_inletFault_set ..)
    · unfold State.startLift
      rw [h, Option.map_some, hc]
    · intro flags' c'
      have done := completeLift_eq h hc ranges
      rw [endLift_lifting h hc]
      refine ⟨fun quiet => ?_, fun q held waiting => ?_, fun q n volume r held planned round => ?_⟩
      · refine done s.requests s.slots fun containers => ?_
        unfold State.closeOnLift
        dsimp only
        rw [quiet]
      · refine done (s.requests.set i none) s.slots fun containers => ?_
        unfold State.closeOnLift
        dsimp only
        rw [held]
        dsimp only
        rw [waiting]
        rfl
      · refine done (s.requests.set i none) _ fun containers => ?_
        unfold State.closeOnLift
        dsimp only
        rw [held]
        dsimp only
        rw [planned]
        exact congrArg (State.setRequest i none) (entryLifted_eq (s := { s with containers }) i now round)
  · intro s due
    have due_iff : ∀ i d, s.liftDue i = some d → ∃ c, due i c d := fun i d h => liftDue_iff.mp h
    refine ⟨fun quiet => ?_, fun i c d here first => ?_⟩
    · unfold exec execLiftDeadlineExpiry
      rw [nextLiftExpiry_none fun i d h => (due_iff i d h).elim fun c hc => quiet i c d hc]
    · have next := nextLiftExpiry_eq (liftDue_iff.mpr ⟨c, here⟩) fun j e he =>
        (due_iff j e he).elim fun c' hc => first j c' e hc
      unfold exec execLiftDeadlineExpiry
      rw [next]
      refine congrArg Host.Outcome.next ?_
      exact (congrArg (State.raise (.inletFault i)) (modContainer_eq i c _ s here.1)).trans (raise_inletFault_set ..)

end Sys2Proof.Machine

end

section
/-! PROOFS. The sender: O56. -/

namespace Sys2Proof.Machine

/-! ### The arbiter and its five sources (R164) -/

theorem exec_frameStart {s : State} (free : s.sender.tx = none) : exec (.senderFrameStart true) s = .next s.arbitrate :=
  congrArg Host.Outcome.next (if_pos ⟨rfl, free⟩)

theorem exec_frameStart_none {s : State} {cts : Bool} (h : ¬ (cts = true ∧ s.sender.tx = none)) :
    exec (.senderFrameStart cts) s = .next s := congrArg Host.Outcome.next (if_neg h)

theorem arbitrate_response {s : State} {r : Response} {more : List Response} (h : s.responses = r :: more) :
    s.arbitrate = s.beginFrame .response 0x81 r.tag r.payload := by
  unfold State.arbitrate
  rw [h]

theorem arbitrate_deferred {s : State} {r : Response} {more : List Response} (h1 : s.responses = [])
    (h : s.deferred = r :: more) : s.arbitrate = s.beginFrame .deferred 0x81 r.tag r.payload := by
  unfold State.arbitrate
  rw [h1, h]

theorem arbitrate_roundList {s : State} {x : RoundListFrame} {more : List RoundListFrame} (h1 : s.responses = []) (h2 : s.deferred = [])
    (h : s.roundLists = x :: more) : s.arbitrate = s.beginFrame .roundList 0x83 0 x.payload := by
  unfold State.arbitrate
  rw [h1, h2, h]

theorem arbitrate_fourth {s : State} (h1 : s.responses = []) (h2 : s.deferred = []) (h3 : s.roundLists = []) :
    s.arbitrate = s.beginFourth := by
  unfold State.arbitrate
  rw [h1, h2, h3]

theorem beginFourth_deposit {s : State} {d : QueuedDeposit} {more : List QueuedDeposit} (h : s.deposits = d :: more)
    (first : ∀ r ∈ s.relay.head?, d.arrival ≤ r.arrival) : s.beginFourth = s.beginFrame .deposit 0x82 0 d.record.payload := by
  unfold State.beginFourth
  rw [h]
  cases hr : s.relay with
  | nil => rfl
  | cons r _ => exact if_pos (first r (by rw [hr]; rfl))

theorem beginFourth_report {s : State} {r : Report} {more : List Report} (h : s.relay = r :: more)
    (first : ∀ d ∈ s.deposits.head?, r.arrival < d.arrival) : s.beginFourth = s.beginFrame .report 0x84 0 r.bytes := by
  unfold State.beginFourth
  rw [h]
  cases hd : s.deposits with
  | nil => rfl
  | cons d _ => exact if_neg (Nat.not_le.mpr (first d (by rw [hd]; rfl)))

theorem beginFourth_fifth {s : State} (h1 : s.deposits = []) (h2 : s.relay = []) : s.beginFourth = s.beginFifth := by
  unfold State.beginFourth
  rw [h1, h2]

/-! ### The notice scanner (R165) -/

theorem beginFifth_quiet {s : State} (quiet : ∀ p, s.flag p = false) : s.beginFifth = s := by
  have none : s.nextNotice = none := List.find?_eq_none.mpr fun p _ => by rw [quiet p]; exact Bool.false_ne_true
  unfold State.beginFifth
  rw [none]

theorem beginFifth_nearest {s : State} {p : NoticeFlag} (set : s.flag p = true)
    (nearest : ∀ q, s.flag q = true → p.ahead s.sender.scan ≤ q.ahead s.sender.scan) :
    s.beginFifth = s.beginNotice p := by
  unfold State.beginFifth
  rw [nextNotice_of_nearest s p set nearest]

/-- The flags do not depend on the sender. -/
theorem flag_sender (p : NoticeFlag) (x : Sender) (s : State) : State.flag { s with sender := x } p = s.flag p := by
  cases p <;> rfl

theorem frameSent_iff {s : State} {source : TxSource} (served : State → State) :
    (s.sender.tx = some source → s.frameSent source served = served { s with sender := { s.sender with tx := none } }) ∧
      (s.sender.tx ≠ some source → s.frameSent source served = s) :=
  ⟨fun h => if_pos h, fun h => if_neg h⟩

/-- Settles O56. -/
theorem senderServesItsSources : Obligations.SenderServesItsSources := by
  unfold Obligations.SenderServesItsSources
  constructor
  · refine fun s => ⟨exec_frameStart_none (fun h => nomatch h.1), fun cts busy => exec_frameStart_none fun h => busy h.2,
      fun free => ?_⟩
    intro begins
    have start (source : TxSource) (cls tag : Byte) (payload : List Byte)
        (h : s.arbitrate = s.beginFrame source cls tag payload) : begins source cls tag payload :=
      (exec_frameStart free).trans (congrArg Host.Outcome.next h)
    refine ⟨fun r more h => start _ _ _ _ (arbitrate_response h), fun h1 => ⟨fun r more h => start _ _ _ _ (arbitrate_deferred h1 h),
      fun h2 => ⟨fun x more h => start _ _ _ _ (arbitrate_roundList h1 h2 h), fun h3 => ?_⟩⟩⟩
    have fourth := arbitrate_fourth h1 h2 h3
    refine ⟨fun d more h first => start _ _ _ _ (fourth.trans (beginFourth_deposit h first)),
      fun r more h first => start _ _ _ _ (fourth.trans (beginFourth_report h first)), fun h4 h5 => ?_⟩
    have fifth := fourth.trans (beginFourth_fifth h4 h5)
    refine ⟨fun quiet => ?_, fun p set nearest => ⟨s.beginNotice p, ?_, ?_, fun q other => ?_, rfl⟩⟩
    · rw [exec_frameStart free, fifth, beginFifth_quiet quiet]
    · rw [exec_frameStart free, fifth, beginFifth_nearest set nearest]
    · exact (flag_sender ..).trans (setFlag_self p false s)
    · exact (flag_sender ..).trans (setFlag_other (Ne.symm other) false s)
  · intro s free sent
    have served (command : Instr) (source : TxSource) (serve : State → State)
        (h : exec command s = .next (s.frameSent source serve)) : sent command source (serve { s with sender := free }) := by
      obtain ⟨busy, idle⟩ := frameSent_iff (s := s) (source := source) serve
      exact ⟨fun tx => h.trans (congrArg Host.Outcome.next (busy tx)), fun tx => h.trans (congrArg Host.Outcome.next (idle tx))⟩
    simp only [List.drop_one]
    refine ⟨served .responseFrameSent .response (fun t => { t with responses := t.responses.tail }) rfl,
      served .deferredResponseSent .deferred (fun t =>
        { t with deferred := t.deferred.tail, outstanding := t.outstanding - 1 }) rfl,
      served .roundListFrameSent .roundList (fun t => { t with roundLists := t.roundLists.tail }) rfl,
      served .depositRecordSent .deposit (fun t => { t with deposits := t.deposits.tail }) rfl,
      served .relayedReportSent .report (fun t => { t with relay := t.relay.tail }) rfl, fun p tx => ?_, fun none => ?_⟩
    · unfold exec execNoticeFrameSent
      rw [tx]
    · change execNoticeFrameSent s = .next s
      unfold execNoticeFrameSent
      split
      · next p tx => exact absurd tx (none p)
      · rfl

end Sys2Proof.Machine

end

section
/-! PROOFS. RESTART: the shares of the line controller, of the station table and of the sender. -/

namespace Sys2Proof.Machine

/-! ### The line controller (R26, R80) -/

/-- The response of a held LINE STOP, released DONE (R4, R26). -/
def State.heldAnswer (s : State) : List Response :=
  (s.line.heldStop.map fun held => { kind := 0x41, tag := held, code := .done, data := [] }).toList

theorem restartTurn_rest (s : State) : s.restartTurn = { s with
    line := { s.line with turn := none, nextTurn := none, wrapDue := false, test := none, testTx := none }
    deferred := s.deferred ++
      (s.line.test.map fun x => { kind := 0x42, tag := x.tag, code := .failed, data := [] }).toList } := by
  unfold State.restartTurn
  cases h : s.line.test with
  | none => exact congrArg (fun d => ({ s with line := _, deferred := d } : State)) (List.append_nil s.deferred).symm
  | some x => rfl

theorem restartLine_rest (s : State) : s.restartLine = { s with
    line := { s.line with state := .stopped, heldStop := none, cycleCount := 0, pollList := [], pointer := 0, ring := [] }
    links := s.links.map Link.restarted
    deferred := s.deferred ++ s.heldAnswer } := by
  unfold State.restartLine State.heldAnswer
  cases h : s.line.heldStop with
  | none => exact congrArg (fun d => ({ s with line := _, links := _, deferred := d } : State)) (List.append_nil s.deferred).symm
  | some x => rfl

/-- What the aborted endings keep of the line and of the released responses (R4, R73). -/
structure DrainedAt (s t : State) : Prop where
  line : t.line = { s.line with state := t.line.state, ring := t.line.ring, heldStop := t.line.heldStop }
  answers : t.deferred ++ t.heldAnswer = s.deferred ++ s.heldAnswer

theorem DrainedAt.refl (s : State) : DrainedAt s s := ⟨rfl, rfl⟩

theorem DrainedAt.trans {s t u : State} (h : DrainedAt s t) (k : DrainedAt t u) : DrainedAt s u where
  line := by
    rw [k.line, h.line]
  answers := k.answers.trans h.answers

theorem endSession_drainedAt (x : Session) (s : State) : DrainedAt s (s.endSession .aborted .idle x) := by
  rw [endSession_aborted x s]
  refine ⟨rfl, ?_⟩
  dsimp only [State.heldAnswer]
  by_cases drained : s.line.state = .draining ∧ s.sessions.erase x = []
  · rw [decide_eq_true drained, if_pos rfl, if_pos rfl]
    exact List.append_nil _
  · rw [decide_eq_false drained, if_neg Bool.false_ne_true, if_neg Bool.false_ne_true, List.append_nil]

theorem abortAll_drainedAt (s : State) : DrainedAt s s.abortAll :=
  foldl_rel .refl .trans (fun s x => endSession_drainedAt x s) _ s

/-- The line controller's share of RESTART (R26). -/
theorem restartLine_settled (s : State) :
    let t := s.restartTurn.abortAll.restartLine
    t.line = {
      state := .stopped, cycleCount := 0, pollList := [], pointer := 0, ring := [], turn := none, nextTurn := none
      wrapDue := false, heldStop := none, test := none, testTx := none, flTxd := s.line.flTxd } ∧
    t.links = s.links.map Link.restarted ∧ t.stations = s.stations ∧ t.relay = s.relay ∧ t.sessions = [] ∧
    t.deferred = s.deferred ++
      ((s.line.test.map fun x => { kind := 0x42, tag := x.tag, code := .failed, data := [] }).toList ++ s.heldAnswer) := by
  have only := abortAll_only s.restartTurn
  have drained := abortAll_drainedAt s.restartTurn
  have empty := abortAll_sessions s.restartTurn
  have first := restartTurn_rest s
  have line := drained.line
  have answers := drained.answers
  dsimp only
  rw [restartLine_rest]
  dsimp only
  refine ⟨?_, ?_, ?_, ?_, empty, ?_⟩
  · rw [line, first]
  · rw [only.links, first]
  · rw [only.stations, first]
  · rw [only.relay, first]
  · rw [answers, first, List.append_assoc]
    rfl

/-! ### The station table (R44) -/

/-- The response of a station's message, released FAILED (R43, R44). -/
def Station.messageFailed (x : Station) : List Response :=
  (x.message.map fun m => { kind := 0x14, tag := m.tag, code := .failed, data := [] }).toList

/-- A station step: it changes one record, and of the message it releases what the record no longer holds. -/
def StationStep (f : Station → Station) (a : StationIx) (u t : State) : Prop :=
  ∃ released, t = { u with stations := u.stations.set a (f u.stations[a]), deferred := u.deferred ++ released } ∧
    released ++ (f u.stations[a]).messageFailed = u.stations[a].messageFailed

/-- Station steps over distinct stations. -/
theorem foldl_stationStep {f : Station → Station} {step : State → StationIx → State} :
    ∀ (l : List StationIx) (s : State), l.Nodup →
      (∀ u a, u.sessions = s.sessions → u.links = s.links → StationStep f a u (step u a)) →
      ∃ stations released, l.foldl step s = { s with stations, deferred := s.deferred ++ released } ∧
        (∀ a, stations[a] = if a ∈ l then f s.stations[a] else s.stations[a]) ∧
        (released ++ l.flatMap fun a => (f s.stations[a]).messageFailed).Perm (l.flatMap fun a => s.stations[a].messageFailed)
  | [], s, _, _ => ⟨s.stations, [], congrArg (fun d => ({ s with deferred := d } : State)) (List.append_nil _).symm,
      fun _ => (if_neg List.not_mem_nil).symm, .refl _⟩
  | a :: l, s, distinct, h => by
    obtain ⟨fresh, distinct⟩ := List.nodup_cons.mp distinct
    obtain ⟨first, step_eq, here⟩ := h s a rfl rfl
    have others : ∀ b ∈ l, (step s a).stations[b] = s.stations[b] := fun b hb => by
      rw [step_eq]
      exact set_ne _ (fun e : a = b => fresh (e ▸ hb)) _
    obtain ⟨stations, rest, run, records, answers⟩ := foldl_stationStep l (step s a) distinct fun u b h1 h2 =>
      h u b (h1.trans (by rw [step_eq])) (h2.trans (by rw [step_eq]))
    refine ⟨stations, first ++ rest, ?_, fun b => ?_, ?_⟩
    · rw [List.foldl_cons, run, step_eq]
      exact congrArg (fun d => ({ s with stations, deferred := d } : State)) (List.append_assoc ..)
    · rw [records b]
      by_cases hb : b ∈ l
      · rw [if_pos hb, if_pos (List.mem_cons_of_mem _ hb), others b hb]
      · rw [if_neg hb, step_eq]
        by_cases same : b = a
        · subst same
          rw [if_pos (List.mem_cons_self ..)]
          exact set_at ..
        · rw [if_neg (by simp [hb, same])]
          exact set_ne _ (Ne.symm same) _
    · have kept (g : Station → List Response) :
          (l.flatMap fun b => g (step s a).stations[b]) = l.flatMap fun b => g s.stations[b] :=
        List.flatMap_congr fun b hb => by rw [others b hb]
      rw [kept fun x => (f x).messageFailed, kept Station.messageFailed] at answers
      rw [List.flatMap_cons, List.flatMap_cons, ← here, List.append_assoc, List.append_assoc]
      refine .append_left first ?_
      refine (List.perm_append_comm_assoc ..).trans ?_
      exact .append_left _ answers

/-- A station record whose message has been answered (R43). -/
def Station.unmessaged (x : Station) : Station := { x with message := none }

theorem unmessaged_self {x : Station} (h : x.message = none) : x.unmessaged = x := by
  unfold Station.unmessaged
  rw [← h]

theorem answerMessage_failed (a : StationIx) (u : State) : u.answerMessage a .failed = { u with
    stations := u.stations.set a u.stations[a].unmessaged, deferred := u.deferred ++ u.stations[a].messageFailed } := by
  unfold State.answerMessage Station.messageFailed
  cases h : u.stations[a].message with
  | none =>
    rw [unmessaged_self h, Vector.set_own]
    exact congrArg (fun d => ({ u with deferred := d } : State)) (List.append_nil _).symm
  | some m => rfl

theorem answerMessage_step (a : StationIx) (u : State) :
    StationStep Station.unmessaged a u (u.answerMessage a .failed) :=
  ⟨_, answerMessage_failed a u, List.append_nil _⟩

/-- A station record once its staged part has been applied by RESTART (R31, R44). -/
def Station.stagedApplied (x : Station) : Station :=
  match x.staged with
  | none => x
  | some c =>
    if c.configured then { x with
      config := c, staged := none
      message := if x.config.configured && x.config.enabled && !c.enabled then none else x.message }
    else { Station.reset with lockFlag := x.lockFlag || (x.config.configured && x.locked), lineFlag := x.lineFlag }

theorem linkUnknown_restarted {a : StationIx} {u : State} (h : u.links[a].restarted = u.links[a]) : u.linkUnknown a = u := by
  have status : u.links[a].status = .unknown := (congrArg Link.status h).symm
  have own : u.modLink a Link.restarted = u := by
    unfold State.modLink
    rw [h, Vector.set_own]
  exact (if_neg (not_not_intro status)).trans own

theorem linkDropped_restarted {a : StationIx} {u : State} (h : u.links[a].restarted = u.links[a]) : u.linkDropped a = u := by
  unfold State.linkDropped
  rw [linkUnknown_restarted h]
  exact ite_self u

/-- A staged part of a station that stays configured, applied once the sessions are gone and the links restarted (R31, R44). -/
theorem applyConfigured_restarted {a : StationIx} {u : State} (c : StationConfig) (empty : u.sessions = [])
    (h : u.links[a].restarted = u.links[a]) :
    let x := u.stations[a]
    u.applyConfigured a c =
      if x.config.configured && x.config.enabled && !c.enabled then
        (u.modStation a fun x => { x with config := c, staged := none }).answerMessage a .failed
      else u.modStation a fun x => { x with config := c, staged := none } := by
  have status : u.links[a].status = .unknown := (congrArg Link.status h).symm
  unfold State.applyConfigured
  dsimp only
  rw [abortStation_idle a (u.modStation a fun x => { x with config := c, staged := none }) empty]
  have links : ∀ t : State, t.links = u.links → (if u.stations[a].config.enabled && !c.enabled then t.linkDropped a
      else if c.enabled && decide (t.links[a].status = .disabled) then t.linkUnknown a else t) = t := by
    intro t same
    have fresh : t.links[a].restarted = t.links[a] := by rw [same]; exact h
    rw [linkDropped_restarted fresh, linkUnknown_restarted fresh, ite_self, ite_self]
  refine links _ ?_
  split
  · rw [answerMessage_failed]
    rfl
  · rfl

theorem applyUnconfigured_restarted {a : StationIx} {u : State} (h : u.links[a].restarted = u.links[a]) :
    let x := u.stations[a]
    u.applyUnconfigured a = { u with
      stations := u.stations.set a { Station.reset with
        lockFlag := x.lockFlag || (x.config.configured && x.locked), lineFlag := x.lineFlag }
      deferred := u.deferred ++ x.messageFailed } := by
  unfold State.applyUnconfigured
  have links : ∀ t : State, t.links = u.links → (if u.stations[a].config.configured then t.linkDropped a else t) = t := by
    intro t same
    have fresh : t.links[a].restarted = t.links[a] := by rw [same]; exact h
    rw [linkDropped_restarted fresh, ite_self]
  rw [answerMessage_failed]
  unfold State.modStation
  dsimp only
  rw [set_at, Vector.set_set]
  refine (links _ ?_).trans ?_
  · split <;> rfl
  · cases locked : u.stations[a].config.configured && u.stations[a].locked with
    | true =>
      unfold State.raise State.setFlag State.modStation
      dsimp only
      rw [if_pos rfl, set_at, Vector.set_set, Bool.or_true]
      rfl
    | false =>
      rw [if_neg Bool.false_ne_true, Bool.or_false]
      rfl

theorem restartStaged_step {a : StationIx} {u : State} (empty : u.sessions = [])
    (h : u.links[a].restarted = u.links[a]) : StationStep Station.stagedApplied a u (u.restartStaged a) := by
  unfold State.restartStaged StationStep Station.stagedApplied
  cases staged : u.stations[a].staged with
  | none =>
    exact ⟨[], by rw [Vector.set_own, List.append_nil], rfl⟩
  | some c =>
    dsimp only
    unfold State.applyFields
    by_cases configured : c.configured = true
    · rw [if_pos configured, if_pos configured, applyConfigured_restarted c empty h]
      unfold State.modStation
      split
      · rw [answerMessage_failed]
        dsimp only
        rw [set_at, Vector.set_set]
        exact ⟨_, rfl, List.append_nil _⟩
      · exact ⟨[], congrArg (fun d => ({ u with stations := _, deferred := d } : State)) (List.append_nil _).symm, rfl⟩
    · rw [if_neg configured, if_neg configured, applyUnconfigured_restarted h]
      exact ⟨_, rfl, List.append_nil _⟩

theorem restarted_messageFailed (x : Station) : x.restarted.messageFailed = x.messageFailed := by
  unfold Station.restarted Station.messageFailed
  split <;> rfl

theorem keepStationFlags_station (old s : State) (a : StationIx) : (State.keepStationFlags old s).stations[a] =
    { s.stations[a] with lockFlag := old.stations[a].lockFlag, lineFlag := old.stations[a].lineFlag } := by
  unfold State.keepStationFlags
  exact Vector.getElem_ofFn ..

theorem keepStationFlags_rest (old s : State) : ∃ stations, State.keepStationFlags old s = { s with stations } := by
  unfold State.keepStationFlags
  exact ⟨_, rfl⟩

/-- A station record after RESTART, but for its two flags (R44). -/
def Station.resumed (x : Station) : Station := x.stagedApplied.restarted.unmessaged

/-- The station table's share of RESTART (R44). -/
theorem restartStations_settled {s : State} (empty : s.sessions = []) (fresh : ∀ a : StationIx, s.links[a].restarted = s.links[a]) :
    let t := s.restartStations
    t.links = s.links ∧
    (∀ a : StationIx, t.stations[a] = { s.stations[a].resumed with
      lockFlag := s.stations[a].lockFlag, lineFlag := s.stations[a].lineFlag }) ∧
    ∃ released, t.deferred = s.deferred ++ released ∧
      released.Perm ((List.finRange 48).flatMap fun a : StationIx => s.stations[a].messageFailed) := by
  have distinct := List.nodup_finRange Config.stations
  obtain ⟨applied, first, run1, records1, answers1⟩ := foldl_stationStep (List.finRange Config.stations) s distinct
    fun u a (h1 : u.sessions = s.sessions) (h2 : u.links = s.links) =>
      restartStaged_step (h1.trans empty) (by rw [h2]; exact fresh a)
  obtain ⟨w, hw⟩ : ∃ w : State, w = { s with stations := applied.map Station.restarted, deferred := s.deferred ++ first } :=
    ⟨_, rfl⟩
  obtain ⟨answered, second, run2, records2, answers2⟩ := foldl_stationStep (List.finRange Config.stations) w distinct
    fun u a _ _ => answerMessage_step a u
  have run : s.restartStations = State.keepStationFlags s
      { w with stations := answered, deferred := w.deferred ++ second } := by
    unfold State.restartStations
    dsimp only
    rw [run1, ← run2, hw]
  have record (a : StationIx) : w.stations[a] = s.stations[a].stagedApplied.restarted := by
    rw [hw]
    dsimp only
    have here := records1 a
    rw [if_pos (List.mem_finRange a)] at here
    rw [← here]
    exact Vector.getElem_map ..
  have deferred : w.deferred ++ second = s.deferred ++ (first ++ second) := by
    rw [hw, List.append_assoc]
  have links : w.links = s.links := by rw [hw]
  obtain ⟨kept, rest⟩ := keepStationFlags_rest s { w with stations := answered, deferred := w.deferred ++ second }
  dsimp only
  rw [run]
  refine ⟨by rw [rest]; exact links, fun a => (keepStationFlags_station ..).trans ?_, first ++ second,
    by rw [rest]; exact deferred, ?_⟩
  · have last := records2 a
    rw [if_pos (List.mem_finRange a), record a] at last
    rw [last]
    rfl
  · have between : ((List.finRange Config.stations).flatMap fun a : StationIx => w.stations[a].messageFailed) =
        (List.finRange Config.stations).flatMap fun a : StationIx => s.stations[a].stagedApplied.messageFailed :=
      List.flatMap_congr fun a _ => by rw [record a, restarted_messageFailed]
    have none : ((List.finRange Config.stations).flatMap fun a : StationIx => w.stations[a].unmessaged.messageFailed) = [] :=
      List.flatMap_eq_nil_iff.mpr fun a _ => rfl
    rw [none, List.append_nil, between] at answers2
    exact (answers2.append_left first).trans answers1

/-! ### The sender's share (R167) -/

/-- Setting a pending flag changes the flags of the device, the stations, the containers and the slots alone. -/
theorem setFlag_rest (p : NoticeFlag) (b : Bool) (s : State) : s.setFlag p b = { s with
    device := { s.device with startFlag := (s.setFlag p b).device.startFlag }
    stations := (s.setFlag p b).stations
    containers := (s.setFlag p b).containers
    slots := (s.setFlag p b).slots } := by
  cases p <;> rfl

theorem modStation_flags (a c : StationIx) (f : Station → Station) (s : State)
    (h : ∀ x, ∃ lock line, f x = { x with lockFlag := lock, lineFlag := line }) :
    ∃ lock line, (s.modStation a f).stations[c] = { s.stations[c] with lockFlag := lock, lineFlag := line } := by
  by_cases same : a = c
  · subst same
    obtain ⟨lock, line, e⟩ := h s.stations[a]
    exact ⟨lock, line, (set_at ..).trans e⟩
  · exact ⟨_, _, set_ne _ same _⟩

theorem setFlag_station (p : NoticeFlag) (b : Bool) (s : State) (a : StationIx) :
    ∃ lock line, (s.setFlag p b).stations[a] = { s.stations[a] with lockFlag := lock, lineFlag := line } := by
  cases p with
  | lock c => exact modStation_flags c a _ s fun x => ⟨b, x.lineFlag, rfl⟩
  | line c => exact modStation_flags c a _ s fun x => ⟨x.lockFlag, b, rfl⟩
  | _ => exact ⟨_, _, rfl⟩

theorem setFlag_slot (p : NoticeFlag) (b : Bool) (s : State) (n : FractionIx) :
    (s.setFlag p b).slots[n].round = s.slots[n].round ∧ (s.setFlag p b).slots[n].lastClose = s.slots[n].lastClose := by
  cases p with
  | closed m =>
    change (s.slots.set m _)[n].round = _ ∧ (s.slots.set m _)[n].lastClose = _
    by_cases same : m = n
    · subst same
      rw [set_at]
      exact ⟨rfl, rfl⟩
    · rw [set_ne _ same]
      exact ⟨rfl, rfl⟩
  | _ => exact ⟨rfl, rfl⟩

/-- The sender's share of RESTART: beside its own fields it changes pending flags alone (R167). -/
theorem cutFrame_rest (s : State) : s.cutFrame = { s with
    sender := { s.sender with tx := none }, roundLists := []
    device := { s.device with startFlag := s.cutFrame.device.startFlag }
    stations := s.cutFrame.stations
    containers := s.cutFrame.containers
    slots := s.cutFrame.slots } := by
  unfold State.cutFrame
  split
  · next p _ => exact setFlag_rest p true _
  · rfl

theorem cutFrame_station (s : State) (a : StationIx) :
    ∃ lock line, s.cutFrame.stations[a] = { s.stations[a] with lockFlag := lock, lineFlag := line } := by
  unfold State.cutFrame
  split
  · next p _ => exact setFlag_station p true _ a
  · exact ⟨_, _, rfl⟩

theorem cutFrame_slot (s : State) (n : FractionIx) :
    s.cutFrame.slots[n].round = s.slots[n].round ∧ s.cutFrame.slots[n].lastClose = s.slots[n].lastClose := by
  unfold State.cutFrame
  split
  · next p _ => exact setFlag_slot p true _ n
  · exact ⟨rfl, rfl⟩

end Sys2Proof.Machine

end

section
/-! PROOFS. RESTART: O57. -/

namespace Sys2Proof.Machine

/-- RESTART, but for the tables that restart_tables speaks of (R26, R44, R152, R167). -/
theorem restart_rest (f : RequestFrame) (s : State) :
    let t := s.restart f
    t.line = {
      state := .stopped, cycleCount := 0, pollList := [], pointer := 0, ring := [], turn := none, nextTurn := none
      wrapDue := false, heldStop := none, test := none, testTx := none, flTxd := s.line.flTxd } ∧
    t.links = s.links.map Link.restarted ∧
    (∀ a : StationIx, ∃ lock line, t.stations[a] = { s.stations[a].resumed with lockFlag := lock, lineFlag := line }) ∧
    (∃ released, t.deferred = s.deferred ++
        ((s.line.test.map fun x => { kind := 0x42, tag := x.tag, code := .failed, data := [] }).toList ++ s.heldAnswer) ++
          released ∧
      released.Perm ((List.finRange 48).flatMap fun a : StationIx => s.stations[a].messageFailed)) ∧
    (∀ n : FractionIx, t.slots[n].round = none ∧ t.slots[n].lastClose = s.slots[n].lastClose) ∧
    t.relay = s.relay ∧ t.nextSession = s.nextSession ∧
    ∃ u, OnlyTurn s u ∧ t.roundLists = [] ∧ t.sender = { u.sender with tx := none } ∧
      t.device = { u.device with startFlag := true, startReason := .restart } ∧
      t.responses = u.responses ++ [{ kind := f.kind, tag := f.tag, code := .done, data := [] }] ∧
      t.intake = u.intake ∧ t.outstanding = u.outstanding ∧ t.clock = u.clock ∧ t.settings = u.settings ∧
      t.period = u.period ∧ t.fractions = u.fractions ∧ t.pending = u.pending := by
  obtain ⟨line, links, stations, relay, empty, deferred⟩ := restartLine_settled s
  obtain ⟨_, _, slots, _, _, _, _, _, nextSession, only⟩ := restart_settled s
  obtain ⟨v, hv⟩ : ∃ v, v = s.restartTurn.abortAll.restartLine := ⟨_, rfl⟩
  rw [← hv] at line links stations relay empty deferred slots nextSession only
  have fresh (a : StationIx) : v.links[a].restarted = v.links[a] := by
    have here : (s.links.map Link.restarted)[a] = s.links[a].restarted := Vector.getElem_map ..
    rw [links, here]
    rfl
  have others := restartStations_stations v empty
  obtain ⟨links', records, released, deferred', answers⟩ := restartStations_settled empty fresh
  have rounds := restartRounds_only v.restartStations
  obtain ⟨x, hx⟩ : ∃ x, x = v.restartStations.restartRounds := ⟨_, rfl⟩
  rw [← hx] at slots nextSession only rounds
  have ht : s.restart f =
      State.respond f .done [] { x.cutFrame with device := { x.cutFrame.device with startFlag := true, startReason := .restart } } := by
    rw [hx, hv]
    rfl
  have cut := cutFrame_rest x
  have cutStations := cutFrame_station x
  have cutSlots := cutFrame_slot x
  obtain ⟨y, hy⟩ : ∃ y, y = x.cutFrame := ⟨_, rfl⟩
  rw [← hy] at ht cut cutStations cutSlots
  dsimp only
  rw [ht]
  refine ⟨?_, ?_, fun a => ?_, ⟨released, ?_, ?_⟩, fun n => ⟨?_, ?_⟩, ?_, ?_, x, only, ?_⟩
  · change y.line = _
    rw [cut]
    exact rounds.line.trans (others.line.trans line)
  · change y.links = _
    rw [cut]
    exact rounds.links.trans (links'.trans links)
  · obtain ⟨lock, line, e⟩ := cutStations a
    refine ⟨lock, line, e.trans ?_⟩
    rw [rounds.stations, records a, stations]
  · change y.deferred = _
    rw [cut]
    exact rounds.deferred.trans (deferred'.trans (by rw [deferred]))
  · rw [stations] at answers
    exact answers
  · refine (cutSlots n).1.trans ?_
    rw [slots n]
  · refine (cutSlots n).2.trans ?_
    rw [slots n]
  · change y.relay = _
    rw [cut]
    exact rounds.relay.trans (others.relay.trans relay)
  · change y.nextSession = _
    rw [cut]
    exact nextSession
  · rw [cut]
    exact ⟨rfl, rfl, rfl, rfl, rfl, rfl, rfl, rfl, rfl, rfl, rfl⟩

/-! ### The containers of aborted sessions (R80, R90) -/

/-- The requests that stand are not touched by the endings (R126). -/
theorem overAfter_request {s : State} {i : ContainerIx} {q : Request} (xs : List Session) (h : s.requests[i] = some q) :
    (s.overAfter xs i).requests[i] = some q := by
  unfold State.overAfter
  split
  · unfold State.sessionOver
    cases hc : s.container i with
    | none => exact h
    | some c =>
      dsimp only
      cases hs : c.staged with
      | none => rw [becomesIdle_plain i _ s hs]; exact h
      | some p =>
        rw [becomesIdle_staged i _ s hs]
        have quiet : (({ c with state := .idle } : Container).withParams p).raises s i = false :=
          decide_eq_false fun ⟨_, absent, _⟩ => by rw [h] at absent; exact nomatch absent
        rw [tested_quiet _ _ _ _ quiet]
        exact h
  · exact h

/-- The container of an aborted session is IDLE with its staged part applied (R73, R90). -/
theorem sessionOver_idle {s : State} {i : ContainerIx} {c : Container} (h : s.container i = some c) :
    ∃ d, (s.sessionOver i).container i = some d ∧ d.state = .idle ∧ d.staged = none ∧ d.binding = c.binding ∧ d.fill = c.fill ∧
      d.params = c.staged.getD c.params := by
  unfold State.sessionOver
  rw [h]
  dsimp only
  cases hs : c.staged with
  | none =>
    rw [becomesIdle_plain i _ s hs]
    exact ⟨_, set_container .., rfl, hs, rfl, rfl, rfl⟩
  | some p =>
    rw [becomesIdle_staged i _ s hs]
    exact ⟨_, tested_container .., rfl, rfl, rfl, rfl, rfl⟩

theorem sessionsInOrder_pairwise (s : State) :
    s.sessionsInOrder.Pairwise fun x y => x.station < y.station ∨ (x.station = y.station ∧ x.inlet ≤ y.inlet) := by
  refine (sortByKey_sorted Session.place s.sessions).imp fun {x y} le => ?_
  simp only [Session.place, keyLe, Bool.or_eq_true, Bool.and_eq_true, decide_eq_true_eq, Fin.lt_def, Fin.le_def, Fin.ext_iff] at le ⊢
  omega

/-! ### The station records (R44) -/

theorem restarted_configured {x : Station} (h : x.config.configured = true) :
    x.restarted = { x with fault := false, summary := 0, hold := x.locked, closeNow := Vector.replicate _ .out } := by
  unfold Station.restarted
  rw [if_pos h]

theorem restarted_unconfigured {x : Station} (h : ¬ x.config.configured = true) :
    x.restarted = { x with closeNow := Vector.replicate _ .out } := by
  unfold Station.restarted
  rw [if_neg h]

theorem resumed_plain {x : Station} (h : x.staged = none) :
    x.resumed = if x.config.configured then { x with
        staged := none, summary := 0, fault := false, hold := x.locked, message := none, closeNow := Vector.replicate _ .out }
      else { x with staged := none, message := none, closeNow := Vector.replicate _ .out } := by
  have same : x.stagedApplied = x := by
    unfold Station.stagedApplied
    rw [h]
  unfold Station.resumed
  rw [same]
  by_cases configured : x.config.configured = true
  · rw [restarted_configured configured, if_pos configured, ← h]
    rfl
  · rw [restarted_unconfigured configured, if_neg configured, ← h]
    rfl

theorem resumed_staged {x : Station} {c : StationConfig} (h : x.staged = some c) :
    x.resumed = if c.configured then { x with
        config := c, staged := none, summary := 0, fault := false, hold := x.locked, message := none
        closeNow := Vector.replicate _ .out }
      else { Station.reset with
        lockFlag := x.lockFlag || (x.config.configured && x.locked), lineFlag := x.lineFlag } := by
  unfold Station.resumed Station.stagedApplied
  rw [h]
  dsimp only
  by_cases configured : c.configured = true
  · rw [if_pos configured, if_pos configured, restarted_configured configured]
    rfl
  · rw [if_neg configured, if_neg configured]
    rfl

/-- Settles O57. -/
theorem restartCarriesOut : Obligations.RestartCarriesOut := by
  intro s rest tag f h
  obtain ⟨over_, requests, marked, flags, cards, deposits, arrivals, sessions⟩ := restart_tables f (s.took rest)
  obtain ⟨line, links, stations, ⟨released, deferred, answers⟩, slots, relay, nextSession, u, only, roundLists, sender, device,
    responses, intake, outstanding, clock, settings, period, fractions, pending⟩ := restart_rest f (s.took rest)
  have run : exec .restart s = .next ((s.took rest).restart f) := h.run rfl rfl rfl rfl
  generalize (s.took rest).restart f = t at *
  have own (i : ContainerIx) := overAfter_congr s.sessions s.sessions i s (s.took rest) (fun _ => .rfl) rfl rfl rfl rfl
  have body (i : ContainerIx) : t.container i = (s.overAfter s.sessions i).container i :=
    (over_ i).trans (congrArg ContainerRec.body (own i).1)
  have table (i : ContainerIx) : t.requests[i] = if ∃ n : FractionIx, s.slots[n].round.any fun r => r.plans i then
      (s.overAfter s.sessions i).requests[i].bind (Request.returned (s.overAfter s.sessions i) i)
      else (s.overAfter s.sessions i).requests[i] := by
    have same : Request.returned ((s.took rest).overAfter s.sessions i) i = Request.returned (s.overAfter s.sessions i) i :=
      funext fun q => returned_congr _ _ i q (congrArg ContainerRec.body (own i).1)
    have here := (own i).2
    rw [← here, ← same]
    exact requests i
  have flag (i : ContainerIx) (p : NoticeFlag) (hp : p ∈ [NoticeFlag.raised i, .overdue i]) :
      t.flag p = ((s.overAfter s.sessions i).flag p || decide (s.sender.tx = some (.notice p))) := by
    refine (marked i p hp).trans (congrArg (· || decide (s.sender.tx = some (.notice p))) ?_)
    have here : ((s.took rest).overAfter s.sessions i).containers[i] = (s.overAfter s.sessions i).containers[i] := (own i).1
    rcases List.mem_pair.mp hp with rfl | rfl
    · exact congrArg (fun r : ContainerRec => r.flags.raised) here
    · exact congrArg (fun r : ContainerRec => r.flags.overdue) here
  refine ⟨t, s.sessionsInOrder, run, line, links, sessions, sessionsInOrder_perm s,
    sessionsInOrder_pairwise s, deposits, arrivals, cards, ?_, ?_, ?_, flags, ?_, ?_, ?_, ?_, slots, roundLists, ?_, ?_, ?_, ?_, ?_, relay,
    ?_, ?_, ?_, nextSession, ?_, ?_⟩
  · intro x hx c hc
    obtain ⟨d, hd, rest⟩ := sessionOver_idle hc
    exact ⟨d, (body x.container).trans ((congrArg (fun v : State => v.container x.container) (if_pos ⟨x, hx, rfl⟩)).trans hd), rest⟩
  · intro i free
    exact (body i).trans (congrArg (fun v : State => v.container i) (if_neg fun ⟨x, hx, here⟩ => free x hx here))
  · intro i q held
    have kept := overAfter_request s.sessions held
    refine (table i).trans ?_
    rw [kept, Option.bind_some, returned_congr _ _ i q (body i)]
  · intro i aborted v
    have same : s.overAfter s.sessions i = v := rfl
    refine ⟨body i, table i, flag i, fun quiet => ?_⟩
    obtain ⟨request, kept⟩ := overAfter_quiet s s.sessions i quiet
    refine ⟨fun absent => ?_, fun p hp => (flag i p hp).trans (congrArg (· || _) (kept p hp))⟩
    refine (table i).trans ?_
    rw [request, absent, Option.bind_none, ite_self]
  · intro a x
    obtain ⟨lock, line, e⟩ := stations a
    have locked : t.flag (.lock a) = lock := congrArg Station.lockFlag e
    have lined : t.flag (.line a) = line := congrArg Station.lineFlag e
    rw [locked, lined]
    refine e.trans ?_
    change ({ x.resumed with lockFlag := lock, lineFlag := line } : Station) = _
    cases staged : x.staged with
    | none =>
      rw [resumed_plain staged]
      dsimp only
      split <;> rfl
    | some c =>
      rw [resumed_staged staged]
      dsimp only
      split <;> rfl
  · exact fun a => ⟨flags (.lock a) nofun fun i => ⟨nofun, nofun⟩, flags (.line a) nofun fun i => ⟨nofun, nofun⟩⟩
  · refine ⟨_, deferred.trans (List.append_assoc ..), ?_⟩
    rw [List.filterMap_eq_flatMap_toList, List.append_assoc, List.append_assoc]
    exact (answers.append_left _).append_left _
  · rw [sender, only.sender]
    rfl
  · rw [device, only.device]
    rfl
  · rw [responses, only.responses]
    rfl
  · exact intake.trans only.intake
  · exact outstanding.trans only.outstanding
  · exact clock.trans only.clock
  · exact settings.trans only.settings
  · exact period.trans only.period
  · exact fractions.trans only.fractions
  · exact pending.trans only.pending

end Sys2Proof.Machine

end

section
/-! PROOFS. The layouts of what the part sends, and the requests that read: O24, O25, O26. -/

namespace Sys2Proof.Machine

/-! ### Fields (R175) -/

/-- The four low bytes of a number do not depend on what stands above them. -/
theorem be4_above (a n : Nat) : be4 (a * 4294967296 + n) = be4 n := by
  have low (k : Nat) (h : (a * 4294967296 + n) / k % 256 = n / k % 256) : byte ((a * 4294967296 + n) / k) = byte (n / k) :=
    BitVec.eq_of_toNat_eq (by rw [byte_toNat, byte_toNat, h])
  unfold be4
  rw [low 0x1000000 (by omega), low 0x10000 (by omega), low 0x100 (by omega)]
  have last := low 1 (by omega)
  rw [Nat.div_one, Nat.div_one] at last
  rw [last]

theorem be5_word32 (a b c d e : Byte) : be5 (a.toNat * 4294967296 + (word32 b c d e).toNat) = [a, b, c, d, e] := by
  have top : byte ((a.toNat * 4294967296 + (word32 b c d e).toNat) / 0x100000000) = a := by
    have small := (word32 b c d e).isLt
    have fits := a.isLt
    refine BitVec.eq_of_toNat_eq ?_
    rw [byte_toNat]
    omega
  unfold be5
  rw [top, be4_above, be4_word32]

theorem bitAt_getLsbD (n m : Nat) (b : Bool) (h : n < 8) : (bitAt n b).getLsbD m = (decide (n = m) && b) := by
  unfold bitAt
  cases b with
  | false => simp
  | true =>
    rw [if_pos rfl, ← BitVec.twoPow_eq, BitVec.getLsbD_twoPow]
    simp [h]

/-- Flags gathered in a byte. -/
theorem foldl_bitAt (l : List InletIx) (b : Byte) (m : Nat) :
    (l.foldl (fun b n => b ||| bitAt n.val true) b).getLsbD m = (b.getLsbD m || l.any fun n => decide (n.val = m)) := by
  induction l generalizing b with
  | nil => simp
  | cons n l ih =>
    have small : n.val < 8 := Nat.lt_trans n.isLt (by decide)
    rw [List.foldl_cons, ih, BitVec.getLsbD_or, bitAt_getLsbD _ _ _ small, List.any_cons, Bool.and_true, Bool.or_assoc]

theorem closeNowByte_getLsbD (set : Vector CloseMark 4) (m : Nat) : (closeNowByte set).getLsbD m =
    (List.finRange 4).any fun n : InletIx => n.val = m && decide (set[n] ≠ .out) := by
  have zero : (0 : Byte).getLsbD m = false := BitVec.getLsbD_zero
  unfold closeNowByte closeInlets
  rw [foldl_bitAt, zero, Bool.false_or, List.any_filter]
  exact congrArg (fun p => (List.finRange 4).any p) (funext fun n => Bool.and_comm ..)

theorem vector_toList_four {α : Type} (v : Vector α 4) : v.toList = [v[0], v[1], v[2], v[3]] := by
  refine List.ext_getElem (by simp) fun n h1 h2 => ?_
  have small : n < 4 := by simpa using h2
  interval_cases n <;> simp

/-! ### Records and notices (R173, R174) -/

/-- The card record, spelled out (R173). -/
theorem card_bytes (c : Card) : c.bytes =
    be4 c.number.toNat ++ be2 c.household.toNat ++ [c.status.code, c.entitled.zeroExtend 8] ++
      [byte c.allowance[0], byte c.allowance[1], byte c.allowance[2], byte c.allowance[3]] ++
      [byte c.used[0], byte c.used[1], byte c.used[2], byte c.used[3]] ++
      [bitAt 0 c.lastUse.isSome ||| bitAt 1 c.link.isSome] ++
      (match c.lastUse with
        | none => [0, 0, 0, 0, 0]
        | some u => be4 u.time.toNat ++ [byte u.container.val]) ++
      (match c.link with
        | none => [0, 0]
        | some n => be2 n.toNat) := by
  have allowance : c.allowance.toList = [c.allowance[0], c.allowance[1], c.allowance[2], c.allowance[3]] :=
    vector_toList_four c.allowance
  have used : c.used.toList = [c.used[0], c.used[1], c.used[2], c.used[3]] := vector_toList_four c.used
  unfold Card.bytes
  rw [allowance, used]
  cases c.lastUse <;> cases c.link <;> rfl

theorem requestBlock_planned (r : Request) : requestBlock (some r) =
    [byte r.fraction.val, r.origin.code] ++ be4 r.raiseTime.toNat ++ be2 r.fillAtRaise ++ be4 r.deadline.toNat ++
      (match r.state with
        | .waiting => [0, 0, 0, 0]
        | .planned slot volume => [1, byte slot.val] ++ be2 volume) ++
      [if r.overdue then 1 else 0] := by
  unfold requestBlock
  dsimp only
  cases r.state <;> rfl

theorem requestBlock_length (q : Option Request) : (requestBlock q).length = 17 := by
  cases q with
  | none => rfl
  | some r =>
    unfold requestBlock
    dsimp only
    cases r.state <;> rfl

theorem containerNotice_length (kind : Byte) (i : ContainerIx) (c : Option Container) : (containerNotice kind i c).length = 6 := by
  cases c <;> rfl

/-- The head of a container's notice, spelled out (R174). -/
theorem containerNotice_eq (kind : Byte) (i : ContainerIx) (c : Option Container) : containerNotice kind i c = [kind, byte i.val] ++
    (match c with
      | none => [0, 0, 0, 0]
      | some c => c.binding.bytes ++ [c.state.code ||| bitAt 7 c.full]) := by
  cases c <;> rfl

theorem requestNotice_eq (kind : Byte) (i : ContainerIx) (s : State) : s.requestNotice kind i =
    containerNotice kind i (s.container i) ++ ([if s.requests[i].isSome then 1 else 0] ++ requestBlock s.requests[i] ++
      (match s.container i with
        | none => [0, 0]
        | some c => be2 c.fill.e)) := by
  unfold State.requestNotice
  rw [List.append_assoc, List.append_assoc, List.append_assoc]
  cases s.container i <;> rfl

theorem requestNotice_length (kind : Byte) (i : ContainerIx) (s : State) : (s.requestNotice kind i).length = 26 := by
  unfold State.requestNotice
  rw [List.length_append, List.length_append, List.length_append, containerNotice_length, requestBlock_length]
  rfl

theorem sensorBytes_length (c : Option Container) : (sensorBytes c).length = 10 := by
  cases c with
  | none => rfl
  | some c =>
    unfold sensorBytes
    dsimp only
    cases c.fill.reading <;> rfl

theorem closedBytes_length (x : Slot) : x.closedBytes.length = 18 := by
  unfold Slot.closedBytes
  cases x.lastClose <;> cases x.round <;> rfl

/-- The two reports are of fixed length (R173). -/
theorem stationReport_length (a : StationIx) (t : Station) (l : Link) : (stationReport a t l).length = 18 := by
  unfold stationReport
  cases t.staged <;> rfl

theorem containerReport_length (i : ContainerIx) (r : ContainerRec) (q : Option Request) :
    (containerReport i r q).length = 85 := by
  unfold containerReport
  cases r.body with
  | none => rfl
  | some c =>
    dsimp only
    rw [List.length_append, requestBlock_length]
    cases c.staged <;> rfl

theorem roundListPayload_eq (n : FractionIx) (r : Round) (k : Nat) (s : State) : s.roundListPayload n r k =
    [byte n.val, r.tag] ++ be2 r.vehicle.toNat ++ be4 r.dispatch.toNat ++ be4 r.deadline.toNat ++
      [byte r.entries.length] ++ be4 r.total ++ [byte (k + 1), byte ((r.entries.length + 7) / 8)] ++
      (((r.entries.zipIdx 1).drop (8 * k)).take 8).flatMap fun p =>
        [byte p.2, byte p.1.container.val, byte (addr p.1.station),
          byte (((s.container p.1.container).map fun c => inletNo c.binding.inlet).getD 0)] ++
        be2 p.1.volume ++ [p.1.origin.code] := rfl

theorem card_bytes_length (c : Card) : c.bytes.length = 24 := by
  rw [card_bytes]
  cases c.lastUse <;> cases c.link <;> rfl

/-- Settles O26. -/
theorem recordLengths : Obligations.RecordLengths := by
  unfold Obligations.RecordLengths
  refine ⟨⟨rfl, rfl, rfl, rfl, rfl, rfl, rfl, rfl, rfl, rfl, rfl, rfl, rfl, rfl, rfl⟩,
    ⟨fun n => byte_toNat_of_lt, be2_word16, be4_word32, be5_word32, fun n m b hn _ => bitAt_getLsbD n m b hn⟩,
    ⟨card_bytes, fun _ => rfl, fun _ => rfl, fun _ => rfl, closeNowByte_getLsbD, rfl, requestBlock_planned, fun _ => rfl,
      fun _ => rfl, fun _ => rfl, fun _ => rfl, fun s n r k => roundListPayload_eq n r k s, fun _ => rfl⟩,
    fun s => ⟨rfl, fun _ => rfl, fun _ => rfl, fun i => ?_, fun i => ?_, fun i => ?_, fun i => ?_, fun i => ?_, fun n => ?_⟩,
    ⟨fun _ _ => rfl, fun _ _ _ => rfl⟩, card_bytes_length, stationReport_length, containerReport_length, requestBlock_length, fun _ => rfl,
    fun _ => rfl, fun _ => rfl, fun _ _ _ => rfl, fun s => ⟨rfl, fun _ => rfl, fun _ => rfl, fun i => requestNotice_length 4 i s,
      fun i => requestNotice_length 5 i s, fun i => ?_, fun i => ?_, fun i => ?_, fun n => ?_⟩, fun kind payload => ?_,
    fun cls tag payload => ?_⟩
  · exact (requestNotice_eq 4 i s).trans (congrArg (· ++ _) (containerNotice_eq ..))
  · exact (requestNotice_eq 5 i s).trans (congrArg (· ++ _) (containerNotice_eq ..))
  · exact congrArg₂ (· ++ ·) (containerNotice_eq ..) (by cases s.container i <;> rfl)
  · refine congrArg₂ (· ++ ·) (containerNotice_eq ..) ?_
    unfold sensorBytes
    cases s.container i with
    | none => rfl
    | some c =>
      dsimp only
      cases c.fill.reading <;> rfl
  · refine congrArg₂ (· ++ ·) (containerNotice_eq ..) ?_
    cases s.container i with
    | none => rfl
    | some c =>
      dsimp only [Option.bind_some]
      cases c.lastLift <;> rfl
  · change [9, byte n.val] ++ s.slots[n].closedBytes = _
    unfold Slot.closedBytes
    cases s.slots[n].lastClose <;> cases s.slots[n].round <;> rfl
  · exact List.length_append.trans (congrArg (· + 1) (containerNotice_length ..))
  · exact List.length_append.trans (congrArg₂ (· + ·) (containerNotice_length ..) (sensorBytes_length _))
  · exact List.length_append.trans (congrArg (· + 4) (containerNotice_length ..))
  · exact List.length_append.trans (congrArg (2 + ·) (closedBytes_length _))
  · simp [fieldFrame, crcBytes, be2]
  · simp [uplinkFrame, crcBytes, be2]

end Sys2Proof.Machine

end

section
/-! PROOFS. The requests that read: O24, O25. -/

namespace Sys2Proof.Machine

/-! ### The reports (R173) -/

/-- A byte that holds an address or an index spells it. -/
theorem byte_spelled {b : Byte} {n : Nat} (h : b.toNat = n) : byte n = b := by
  rw [← h]
  exact BitVec.ofNat_toNat .. |>.trans (BitVec.setWidth_eq b)

/-- The station report, spelled out (R173). -/
theorem stationReport_eq (a : StationIx) (t : Station) (l : Link) : stationReport a t l =
    [byte (addr a), bitAt 0 t.config.configured ||| bitAt 1 t.config.enabled ||| bitAt 2 t.config.relay ||| bitAt 3 t.staged.isSome,
      byte t.config.inletCount, t.config.exitMode.code, byte t.config.rank] ++
    (match t.staged with
      | none => [0, 0, 0, 0]
      | some c => [bitAt 0 c.configured ||| bitAt 1 c.enabled ||| bitAt 2 c.relay, byte c.inletCount, c.exitMode.code,
          byte c.rank]) ++
    [t.summary.zeroExtend 8, bitAt 0 t.fault ||| bitAt 1 t.hold ||| bitAt 2 t.locked ||| bitAt 3 t.message.isSome,
      bitAt 0 t.reasons.fault ||| bitAt 1 t.reasons.line ||| bitAt 2 t.reasons.command] ++
    (match t.message with
      | none => [0, 0]
      | some m => [byte m.tries, m.tag]) ++
    [closeNowByte t.closeNow, l.status.code, byte l.noReply, byte l.mismatch] := by
  unfold stationReport
  cases t.staged <;> cases t.message <;> rfl

theorem containerReport_none (i : ContainerIx) (r : ContainerRec) (q : Option Request) (h : r.body = none) :
    containerReport i r q = [byte i.val, 0, 0, 0, r.flags.byte] ++ List.replicate 80 0 := by
  unfold containerReport
  rw [h]
  rfl

/-- The report of a configured container, spelled out (R173). -/
theorem containerReport_some {i : ContainerIx} {r : ContainerRec} {q : Option Request} {c : Container} (h : r.body = some c) :
    containerReport i r q =
      [byte i.val, c.state.code ||| bitAt 7 c.full, c.state.reasonCode,
        bitAt 0 c.staged.isSome ||| bitAt 1 c.liftStart.isSome ||| bitAt 2 c.liftDeadline.isSome |||
          bitAt 3 c.lastLift.isSome ||| bitAt 4 c.fill.interval.isSome ||| bitAt 5 c.timeToCall.isSome |||
          bitAt 6 q.isSome ||| bitAt 7 c.fill.suspectBand.isSome, r.flags.byte] ++
      c.binding.bytes ++ c.params.bytes ++
      (match c.staged with
        | none => List.replicate 12 0
        | some p => p.bytes) ++
      be5 (c.liftStart.getD 0) ++ be5 (c.liftDeadline.getD 0) ++ be4 ((c.lastLift.map BitVec.toNat).getD 0) ++
      be2 c.fill.e ++ [byte c.fill.cb, byte c.fill.suspectRun, byte (c.fill.suspectBand.getD 0)] ++
      be4 c.fill.lastStep.toNat ++ be4 (c.fill.interval.getD 0) ++ be2 c.fill.since ++
      [byte c.fill.noEcho, c.fill.mode.code, (c.fill.event.map SensorEvent.code).getD 0] ++
      be4 (c.timeToCall.getD 0) ++ requestBlock q := by
  unfold containerReport
  rw [h]
  dsimp only
  cases c.staged <;> simp only [Container.fillBlock, List.append_assoc] <;> rfl

/-! ### The requests (R32, R92, R162) -/

theorem stationGet_range {f : RequestFrame} (s : State) (h : f.u8 1 = 0 ∨ 48 < f.u8 1) : s.stationGet f = s.respond f .range [] := by
  unfold State.stationGet
  rw [stationIx?_none h]

theorem stationGet_report {f : RequestFrame} {a : StationIx} (s : State) (h : f.u8 1 = addr a) :
    s.stationGet f = s.respond f .done (stationReport a s.stations[a] s.links[a]) := by
  unfold State.stationGet
  rw [stationIx?_addr h]

theorem containerGet_range {f : RequestFrame} (s : State) (h : 128 ≤ f.u8 1) : s.containerGet f = s.respond f .range [] := by
  unfold State.containerGet
  rw [containerIx?_none h]

theorem containerGet_report {f : RequestFrame} {i : ContainerIx} (s : State) (h : f.u8 1 = i.val) :
    s.containerGet f = s.respond f .done (containerReport i s.containers[i] s.requests[i]) := by
  unfold State.containerGet
  rw [containerIx?_val h]

/-- Settles O24. -/
theorem readsChangeNothing : Obligations.ReadsChangeNothing := by
  unfold Obligations.ReadsChangeNothing
  constructor
  · intro s rest tag b f h
    refine ⟨fun outside => h.run rfl rfl rfl (stationGet_range _ outside), fun a hb => h.run rfl rfl rfl ?_⟩
    have report := stationReport_eq a s.stations[a] s.links[a]
    rw [byte_spelled hb] at report
    exact (stationGet_report (f := f) (s.took rest) hb).trans
      (congrArg (fun data => State.respond f .done data (s.took rest)) report)
  · intro s rest tag b f h
    refine ⟨fun outside => h.run rfl rfl rfl (containerGet_range _ outside), fun i hb => ?_⟩
    have answer (data : List Byte) (report : containerReport i s.containers[i] s.requests[i] = data) :
        exec .containerGet s = .next (s.answered rest f .done data) :=
      h.run rfl rfl rfl ((containerGet_report (f := f) (s.took rest) hb).trans
        (congrArg (fun data => State.respond f .done data (s.took rest)) report))
    refine ⟨fun none => answer _ ?_, fun c held => answer _ ?_⟩
    · have report := containerReport_none i s.containers[i] s.requests[i] none
      rw [byte_spelled hb] at report
      exact report
    · have report := containerReport_some (i := i) (q := s.requests[i]) held
      rw [byte_spelled hb] at report
      exact report

/-- Settles O25. -/
theorem statusGetClearsOverrun : Obligations.StatusGetClearsOverrun := by
  intro s rest tag f h
  refine ⟨s.line.state.code, ?_, h.run rfl rfl rfl rfl⟩
  cases s.line.state <;> decide

end Sys2Proof.Machine

end
